-- ==== Sys2Proof/Word.lean ====
section
/-! DEFINITION. The byte and word types (spec/00_scope.md R6, R9). -/

namespace Sys2Proof

/-- A byte: 8 bits, bit 0 least significant (R9). -/
abbrev Byte := BitVec 8

/-- A word: 16 bits (R9); CPU addresses and the program counter. -/
abbrev Word := BitVec 16

/-- A 14-bit address of the PPU address space (20_memory.md R80). -/
abbrev VAddr := BitVec 14

/-- A 15-bit scroll/address register (10_state.md R44, R45). -/
abbrev Scroll := BitVec 15

/-- A 6-bit index into the system palette (45_ppu_render.md R452). -/
abbrev Colour := BitVec 6

end Sys2Proof
end

