-- ==== Sys2Proof/Machine/Bits.lean ====
section
/-! DEFINITION. Byte-order and extension helpers (spec/00_scope.md R9, 20_memory.md R90). -/

namespace Sys2Proof.Machine

/-- `{h, l}`: the word with upper byte `h` and lower byte `l` (R9). -/
def wordOf (h l : Byte) : Word := h ++ l

/-- `hi(w) = w[15:8]` (R9). -/
def hiByte (w : Word) : Byte := w.extractLsb' 8 8

/-- `lo(w) = w[7:0]` (R9). -/
def loByte (w : Word) : Byte := w.extractLsb' 0 8

/-- `zext_16(b)` (R9). -/
def zext16 (b : Byte) : Word := b.setWidth 16

/-- `sext_16(b)` (R9). -/
def sext16 (b : Byte) : Word := b.signExtend 16

/-- Two addresses lie in different 256-byte pages (30_encoding.md R140, R148). -/
def pagesDiffer (u w : Word) : Bool := (u &&& 0xFF00#16) != (w &&& 0xFF00#16)

end Sys2Proof.Machine
end

