-- ==== Sys2Proof/Syntax.lean ====
section
/-! DEFINITION. The instruction set (spec/30_encoding.md, files 40 to 43). One constructor per
instruction, its operand form an argument; an instruction with duplicate opcodes of one form carries
its opcode byte (log entry 1). -/

namespace Sys2Proof

/-- The thirteen addressing modes by their short names (30_encoding.md R133 to R145). -/
inductive Mode where
  | imp | acc | imm | zp | zpx | zpy | abs | abx | aby | ind | izx | izy | rel
deriving DecidableEq, Repr

/-- An operand with an effective address: the eight modes that name a byte of memory. -/
inductive Addr where
  /-- Zero-page (R136). -/
  | zp (b : Byte)
  /-- Zero-page indexed by X (R137). -/
  | zpx (b : Byte)
  /-- Zero-page indexed by Y (R138). -/
  | zpy (b : Byte)
  /-- Absolute (R139). -/
  | abs (w : Word)
  /-- Absolute indexed by X (R140). -/
  | abx (w : Word)
  /-- Absolute indexed by Y (R141). -/
  | aby (w : Word)
  /-- Indexed-indirect (R143). -/
  | izx (b : Byte)
  /-- Indirect-indexed (R144). -/
  | izy (b : Byte)
deriving DecidableEq, Repr

/-- The operand an instruction reads: an immediate (R135) or a byte of memory. -/
inductive Src where
  | imm (b : Byte)
  | mem (a : Addr)
deriving DecidableEq, Repr

/-- The operand an instruction reads and writes in place: A (R134) or a byte of memory. -/
inductive Dst where
  | acc
  | mem (a : Addr)
deriving DecidableEq, Repr

/-- The target of JMP: absolute (R139) or through a pointer (R142). -/
inductive JmpTarget where
  | abs (w : Word)
  | ind (w : Word)
deriving DecidableEq, Repr

/-- The mode of an addressed operand. -/
def Addr.mode : Addr → Mode
  | .zp _ => .zp | .zpx _ => .zpx | .zpy _ => .zpy | .abs _ => .abs
  | .abx _ => .abx | .aby _ => .aby | .izx _ => .izx | .izy _ => .izy

/-- The mode of a read operand. -/
def Src.mode : Src → Mode
  | .imm _ => .imm
  | .mem a => a.mode

/-- The mode of a read-and-written operand. -/
def Dst.mode : Dst → Mode
  | .acc => .acc
  | .mem a => a.mode

/-- The mode of a jump's operand. -/
def JmpTarget.mode : JmpTarget → Mode
  | .abs _ => .abs
  | .ind _ => .ind

/-- The instructions. -/
inductive Instr where
  -- loads and stores (40_load_store_transfer.md R201 to R206)
  | lda (o : Src) | ldx (o : Src) | ldy (o : Src)
  | sta (a : Addr) | stx (a : Addr) | sty (a : Addr)
  -- transfers (R207 to R212)
  | tax | tay | txa | tya | tsx | txs
  -- stack (R213 to R216)
  | pha | php | pla | plp
  -- arithmetic, logic, compare (41_arithmetic_logic.md R251 to R259)
  | adc (o : Src) | sbc (o : Src) | and (o : Src) | ora (o : Src) | eor (o : Src)
  | cmp (o : Src) | cpx (o : Src) | cpy (o : Src) | bit (a : Addr)
  -- increment and decrement (R260 to R265)
  | inc (a : Addr) | dec (a : Addr) | inx | iny | dex | dey
  -- shifts and rotates (R266 to R269)
  | asl (o : Dst) | lsr (o : Dst) | rol (o : Dst) | ror (o : Dst)
  -- jumps and subroutines, interrupts (42_control_flow_flags.md R301 to R305)
  | jmp (t : JmpTarget) | jsr (w : Word) | rts | rti | brk
  -- branches, with the displacement byte (R307 to R314)
  | bcc (d : Byte) | bcs (d : Byte) | beq (d : Byte) | bne (d : Byte)
  | bmi (d : Byte) | bpl (d : Byte) | bvc (d : Byte) | bvs (d : Byte)
  -- flags and NOP (R315 to R322)
  | clc | sec | cli | sei | clv | cld | sed | nop
  -- undocumented read-modify-write (43_undocumented.md R351 to R354, R357, R358)
  | slo (a : Addr) | rla (a : Addr) | sre (a : Addr) | rra (a : Addr)
  | dcp (a : Addr) | isc (a : Addr)
  -- undocumented load and store (R355, R356)
  | sax (a : Addr) | lax (a : Addr)
  -- undocumented immediate (R359 to R363): ANC has the opcodes 0x0B and 0x2B
  | anc (op : Byte) (b : Byte) | alr (b : Byte) | arr (b : Byte) | axs (b : Byte)
  | sbcAlt (b : Byte)
  -- undocumented no-operations (R364 to R366), with the opcode
  | nopAlt (op : Byte) | dop (op : Byte) (o : Src) | top (op : Byte) (a : Addr)
  -- the opcodes without semantics (R370), with the opcode
  | unimpl (op : Byte)
deriving DecidableEq, Repr

end Sys2Proof
end

