-- ==== Sys2Proof/WellFormed.lean ====
section
/-! DEFINITION. Which instructions have an encoding: for each mnemonic the modes, and for the
duplicate opcodes the opcode bytes, that its rule's "Encoding" lists (spec/40 to 43). -/

namespace Sys2Proof

/-- The eight modes of LDA, ADC, SBC, AND, ORA, EOR, CMP (R201, R251 to R256). -/
def accReadModes : List Mode := [.imm, .zp, .zpx, .abs, .abx, .aby, .izx, .izy]

/-- The modes of INC, DEC and, beside the accumulator, of the shifts (R260, R261, R266 to R269). -/
def rmwModes : List Mode := [.zp, .zpx, .abs, .abx]

/-- The modes of the undocumented read-modify-write instructions (R351 to R354, R357, R358). -/
def rmwUndocModes : List Mode := [.zp, .zpx, .abs, .abx, .aby, .izx, .izy]

/-- The twenty opcodes without semantics (R153, R370). -/
def unimplementedOpcodes : List Byte :=
  [0x02, 0x12, 0x22, 0x32, 0x42, 0x52, 0x62, 0x72, 0x92, 0xB2, 0xD2, 0xF2,
   0x8B, 0xAB, 0x93, 0x9F, 0x9C, 0x9E, 0x9B, 0xBB]

/-- The opcodes of DOP by mode (R365). -/
def dopOpcodes : Mode → List Byte
  | .imm => [0x80, 0x82, 0x89, 0xC2, 0xE2]
  | .zp => [0x04, 0x44, 0x64]
  | .zpx => [0x14, 0x34, 0x54, 0x74, 0xD4, 0xF4]
  | _ => []

/-- The opcodes of TOP by mode (R366). -/
def topOpcodes : Mode → List Byte
  | .abs => [0x0C]
  | .abx => [0x1C, 0x3C, 0x5C, 0x7C, 0xDC, 0xFC]
  | _ => []

/-- The undocumented one-byte NOPs (R364). -/
def nopAltOpcodes : List Byte := [0x1A, 0x3A, 0x5A, 0x7A, 0xDA, 0xFA]

/-- The opcodes of ANC (R359). -/
def ancOpcodes : List Byte := [0x0B, 0x2B]

/-- The instruction is one of the 256 rows of the opcode matrix (R151). Operand bytes have no illegal
values (R154). -/
def Instr.wellFormed : Instr → Bool
  | .lda o | .adc o | .sbc o | .and o | .ora o | .eor o | .cmp o => accReadModes.contains o.mode
  | .ldx o => [Mode.imm, .zp, .zpy, .abs, .aby].contains o.mode
  | .ldy o => [Mode.imm, .zp, .zpx, .abs, .abx].contains o.mode
  | .sta a => [Mode.zp, .zpx, .abs, .abx, .aby, .izx, .izy].contains a.mode
  | .stx a => [Mode.zp, .zpy, .abs].contains a.mode
  | .sty a => [Mode.zp, .zpx, .abs].contains a.mode
  | .cpx o | .cpy o => [Mode.imm, .zp, .abs].contains o.mode
  | .bit a => [Mode.zp, .abs].contains a.mode
  | .inc a | .dec a => rmwModes.contains a.mode
  | .asl o | .lsr o | .rol o | .ror o => (Mode.acc :: rmwModes).contains o.mode
  | .slo a | .rla a | .sre a | .rra a | .dcp a | .isc a => rmwUndocModes.contains a.mode
  | .sax a => [Mode.zp, .zpy, .abs, .izx].contains a.mode
  | .lax a => [Mode.zp, .zpy, .abs, .aby, .izx, .izy].contains a.mode
  | .anc op _ => ancOpcodes.contains op
  | .nopAlt op => nopAltOpcodes.contains op
  | .dop op o => (dopOpcodes o.mode).contains op
  | .top op a => (topOpcodes a.mode).contains op
  | .unimpl op => unimplementedOpcodes.contains op
  | .tax | .tay | .txa | .tya | .tsx | .txs | .pha | .php | .pla | .plp => true
  | .inx | .iny | .dex | .dey | .jmp _ | .jsr _ | .rts | .rti | .brk => true
  | .bcc _ | .bcs _ | .beq _ | .bne _ | .bmi _ | .bpl _ | .bvc _ | .bvs _ => true
  | .clc | .sec | .cli | .sei | .clv | .cld | .sed | .nop => true
  | .alr _ | .arr _ | .axs _ | .sbcAlt _ => true

end Sys2Proof
end

