-- ==== Sys2Proof/Decode.lean ====
section
/-! DEFINITION. Decoding (from the opcode matrix of spec/30_encoding.md R151) and encoding (from the
"Encoding" of each instruction's own rule, spec/40 to 43). -/

namespace Sys2Proof

open Machine (wordOf hiByte loByte)

/-- The 70 mnemonics with semantics (R152). -/
inductive Mnemonic where
  | lda | ldx | ldy | sta | stx | sty | tax | tay | txa | tya | tsx | txs | pha | php | pla
  | plp | adc | sbc | and | ora | eor | cmp | cpx | cpy | bit | inc | dec | inx | iny | dex
  | dey | asl | lsr | rol | ror | jmp | jsr | rts | rti | brk | bcc | bcs | beq | bne | bmi
  | bpl | bvc | bvs | clc | sec | cli | sei | clv | cld | sed | nop | slo | rla | sre | rra
  | dcp | isc | sax | lax | anc | alr | arr | axs | dop | top
deriving DecidableEq, Repr

/-- The page/branch rule field of a descriptor (R131). -/
inductive CycleRule where
  | none | page | branch
deriving DecidableEq, Repr

/-- The operand bytes a mode reads after the opcode (R133 to R145). -/
def Mode.operandBytes : Mode → Nat
  | .imp | .acc => 0
  | .imm | .zp | .zpx | .zpy | .izx | .izy | .rel => 1
  | .abs | .abx | .aby | .ind => 2

/-- The byte size of an instruction by its mode (R130): the opcode and the operand bytes. Only BRK has
another size (R132). -/
def Mode.size (m : Mode) : Nat := 1 + m.operandBytes

/-- The instruction descriptor of one opcode (R131): the byte size, the mode, the base cost, the
page/branch rule and the mnemonic; `documented` as in R157. -/
structure Descriptor where
  mnemonic : Mnemonic
  mode : Mode
  /-- The byte size, from which alone the decoder tells the length (R132). -/
  size : Nat
  cycles : Nat
  rule : CycleRule
  documented : Bool
deriving DecidableEq, Repr

/-- A documented cell of the matrix with no cycle rule. -/
def doc (n : Mnemonic) (m : Mode) (c : Nat) : Option Descriptor := some ⟨n, m, m.size, c, .none, true⟩

/-- A documented cell marked `+` (R147). -/
def docPage (n : Mnemonic) (m : Mode) (c : Nat) : Option Descriptor := some ⟨n, m, m.size, c, .page, true⟩

/-- A documented cell marked `b` (R148). -/
def docBranch (n : Mnemonic) (m : Mode) (c : Nat) : Option Descriptor :=
  some ⟨n, m, m.size, c, .branch, true⟩

/-- A cell marked `*`: undocumented with semantics. -/
def und (n : Mnemonic) (m : Mode) (c : Nat) : Option Descriptor := some ⟨n, m, m.size, c, .none, false⟩

/-- A cell marked `*` and `+`. -/
def undPage (n : Mnemonic) (m : Mode) (c : Nat) : Option Descriptor := some ⟨n, m, m.size, c, .page, false⟩

/-- The cell of BRK, implied and yet of byte size 2: its second byte is skipped (R132, R151). -/
def docBrk : Option Descriptor := some ⟨.brk, .imp, 2, 7, .none, true⟩

/-- Opcodes 0x00 to 0x0F. -/
def opcodeRow0 : List (Option Descriptor) :=
  [docBrk, doc .ora .izx 6, none, und .slo .izx 8,
   und .dop .zp 3, doc .ora .zp 3, doc .asl .zp 5, und .slo .zp 5,
   doc .php .imp 3, doc .ora .imm 2, doc .asl .acc 2, und .anc .imm 2,
   und .top .abs 4, doc .ora .abs 4, doc .asl .abs 6, und .slo .abs 6]

/-- Opcodes 0x10 to 0x1F. -/
def opcodeRow1 : List (Option Descriptor) :=
  [docBranch .bpl .rel 2, docPage .ora .izy 5, none, und .slo .izy 8,
   und .dop .zpx 4, doc .ora .zpx 4, doc .asl .zpx 6, und .slo .zpx 6,
   doc .clc .imp 2, docPage .ora .aby 4, und .nop .imp 2, und .slo .aby 7,
   undPage .top .abx 4, docPage .ora .abx 4, doc .asl .abx 7, und .slo .abx 7]

/-- Opcodes 0x20 to 0x2F. -/
def opcodeRow2 : List (Option Descriptor) :=
  [doc .jsr .abs 6, doc .and .izx 6, none, und .rla .izx 8,
   doc .bit .zp 3, doc .and .zp 3, doc .rol .zp 5, und .rla .zp 5,
   doc .plp .imp 4, doc .and .imm 2, doc .rol .acc 2, und .anc .imm 2,
   doc .bit .abs 4, doc .and .abs 4, doc .rol .abs 6, und .rla .abs 6]

/-- Opcodes 0x30 to 0x3F. -/
def opcodeRow3 : List (Option Descriptor) :=
  [docBranch .bmi .rel 2, docPage .and .izy 5, none, und .rla .izy 8,
   und .dop .zpx 4, doc .and .zpx 4, doc .rol .zpx 6, und .rla .zpx 6,
   doc .sec .imp 2, docPage .and .aby 4, und .nop .imp 2, und .rla .aby 7,
   undPage .top .abx 4, docPage .and .abx 4, doc .rol .abx 7, und .rla .abx 7]

/-- Opcodes 0x40 to 0x4F. -/
def opcodeRow4 : List (Option Descriptor) :=
  [doc .rti .imp 6, doc .eor .izx 6, none, und .sre .izx 8,
   und .dop .zp 3, doc .eor .zp 3, doc .lsr .zp 5, und .sre .zp 5,
   doc .pha .imp 3, doc .eor .imm 2, doc .lsr .acc 2, und .alr .imm 2,
   doc .jmp .abs 3, doc .eor .abs 4, doc .lsr .abs 6, und .sre .abs 6]

/-- Opcodes 0x50 to 0x5F. -/
def opcodeRow5 : List (Option Descriptor) :=
  [docBranch .bvc .rel 2, docPage .eor .izy 5, none, und .sre .izy 8,
   und .dop .zpx 4, doc .eor .zpx 4, doc .lsr .zpx 6, und .sre .zpx 6,
   doc .cli .imp 2, docPage .eor .aby 4, und .nop .imp 2, und .sre .aby 7,
   undPage .top .abx 4, docPage .eor .abx 4, doc .lsr .abx 7, und .sre .abx 7]

/-- Opcodes 0x60 to 0x6F. -/
def opcodeRow6 : List (Option Descriptor) :=
  [doc .rts .imp 6, doc .adc .izx 6, none, und .rra .izx 8,
   und .dop .zp 3, doc .adc .zp 3, doc .ror .zp 5, und .rra .zp 5,
   doc .pla .imp 4, doc .adc .imm 2, doc .ror .acc 2, und .arr .imm 2,
   doc .jmp .ind 5, doc .adc .abs 4, doc .ror .abs 6, und .rra .abs 6]

/-- Opcodes 0x70 to 0x7F. -/
def opcodeRow7 : List (Option Descriptor) :=
  [docBranch .bvs .rel 2, docPage .adc .izy 5, none, und .rra .izy 8,
   und .dop .zpx 4, doc .adc .zpx 4, doc .ror .zpx 6, und .rra .zpx 6,
   doc .sei .imp 2, docPage .adc .aby 4, und .nop .imp 2, und .rra .aby 7,
   undPage .top .abx 4, docPage .adc .abx 4, doc .ror .abx 7, und .rra .abx 7]

/-- Opcodes 0x80 to 0x8F. -/
def opcodeRow8 : List (Option Descriptor) :=
  [und .dop .imm 2, doc .sta .izx 6, und .dop .imm 2, und .sax .izx 6,
   doc .sty .zp 3, doc .sta .zp 3, doc .stx .zp 3, und .sax .zp 3,
   doc .dey .imp 2, und .dop .imm 2, doc .txa .imp 2, none,
   doc .sty .abs 4, doc .sta .abs 4, doc .stx .abs 4, und .sax .abs 4]

/-- Opcodes 0x90 to 0x9F. -/
def opcodeRow9 : List (Option Descriptor) :=
  [docBranch .bcc .rel 2, doc .sta .izy 6, none, none,
   doc .sty .zpx 4, doc .sta .zpx 4, doc .stx .zpy 4, und .sax .zpy 4,
   doc .tya .imp 2, doc .sta .aby 5, doc .txs .imp 2, none,
   none, doc .sta .abx 5, none, none]

/-- Opcodes 0xA0 to 0xAF. -/
def opcodeRowA : List (Option Descriptor) :=
  [doc .ldy .imm 2, doc .lda .izx 6, doc .ldx .imm 2, und .lax .izx 6,
   doc .ldy .zp 3, doc .lda .zp 3, doc .ldx .zp 3, und .lax .zp 3,
   doc .tay .imp 2, doc .lda .imm 2, doc .tax .imp 2, none,
   doc .ldy .abs 4, doc .lda .abs 4, doc .ldx .abs 4, und .lax .abs 4]

/-- Opcodes 0xB0 to 0xBF. -/
def opcodeRowB : List (Option Descriptor) :=
  [docBranch .bcs .rel 2, docPage .lda .izy 5, none, undPage .lax .izy 5,
   doc .ldy .zpx 4, doc .lda .zpx 4, doc .ldx .zpy 4, und .lax .zpy 4,
   doc .clv .imp 2, docPage .lda .aby 4, doc .tsx .imp 2, none,
   docPage .ldy .abx 4, docPage .lda .abx 4, docPage .ldx .aby 4, undPage .lax .aby 4]

/-- Opcodes 0xC0 to 0xCF. -/
def opcodeRowC : List (Option Descriptor) :=
  [doc .cpy .imm 2, doc .cmp .izx 6, und .dop .imm 2, und .dcp .izx 8,
   doc .cpy .zp 3, doc .cmp .zp 3, doc .dec .zp 5, und .dcp .zp 5,
   doc .iny .imp 2, doc .cmp .imm 2, doc .dex .imp 2, und .axs .imm 2,
   doc .cpy .abs 4, doc .cmp .abs 4, doc .dec .abs 6, und .dcp .abs 6]

/-- Opcodes 0xD0 to 0xDF. -/
def opcodeRowD : List (Option Descriptor) :=
  [docBranch .bne .rel 2, docPage .cmp .izy 5, none, und .dcp .izy 8,
   und .dop .zpx 4, doc .cmp .zpx 4, doc .dec .zpx 6, und .dcp .zpx 6,
   doc .cld .imp 2, docPage .cmp .aby 4, und .nop .imp 2, und .dcp .aby 7,
   undPage .top .abx 4, docPage .cmp .abx 4, doc .dec .abx 7, und .dcp .abx 7]

/-- Opcodes 0xE0 to 0xEF. -/
def opcodeRowE : List (Option Descriptor) :=
  [doc .cpx .imm 2, doc .sbc .izx 6, und .dop .imm 2, und .isc .izx 8,
   doc .cpx .zp 3, doc .sbc .zp 3, doc .inc .zp 5, und .isc .zp 5,
   doc .inx .imp 2, doc .sbc .imm 2, doc .nop .imp 2, und .sbc .imm 2,
   doc .cpx .abs 4, doc .sbc .abs 4, doc .inc .abs 6, und .isc .abs 6]

/-- Opcodes 0xF0 to 0xFF. -/
def opcodeRowF : List (Option Descriptor) :=
  [docBranch .beq .rel 2, docPage .sbc .izy 5, none, und .isc .izy 8,
   und .dop .zpx 4, doc .sbc .zpx 4, doc .inc .zpx 6, und .isc .zpx 6,
   doc .sed .imp 2, docPage .sbc .aby 4, und .nop .imp 2, und .isc .aby 7,
   undPage .top .abx 4, docPage .sbc .abx 4, doc .inc .abx 7, und .isc .abx 7]

/-- The opcode matrix, row by row (R151); `none` is the unimplemented marker (R153). -/
def opcodeMatrix : List (List (Option Descriptor)) :=
  [opcodeRow0, opcodeRow1, opcodeRow2, opcodeRow3] ++
  [opcodeRow4, opcodeRow5, opcodeRow6, opcodeRow7] ++
  [opcodeRow8, opcodeRow9, opcodeRowA, opcodeRowB] ++
  [opcodeRowC, opcodeRowD, opcodeRowE, opcodeRowF]

/-- `describe(opcode)`: the descriptor, or `none` for the unimplemented marker (R131). -/
def describe (op : Byte) : Option Descriptor :=
  (opcodeMatrix.getD (op.toNat / 16) []).getD (op.toNat % 16) none

/-- The descriptor a machine goes by: with UNDOCUMENTED_ENABLED false (`undoc = false`) every
undocumented opcode is unimplemented (R350). -/
def descriptor (undoc : Bool) (op : Byte) : Option Descriptor :=
  match describe op with
  | some d => if d.documented || undoc then some d else none
  | none => none

/-- The operand bytes read after opcode `op`: none for an unimplemented opcode (R150 step 2), none
for BRK, whose second byte is never read (R132). -/
def operandBytes (undoc : Bool) (op : Byte) : Nat :=
  match descriptor undoc op with
  | some d => d.mode.operandBytes
  | none => 0

/-- The bytes after opcode `op` that belong to the instruction, by the descriptor's byte size (R132):
BRK's skipped byte is one, an unimplemented opcode has none (R157). -/
def bytesAfter (undoc : Bool) (op : Byte) : Nat :=
  match descriptor undoc op with
  | some d => d.size - 1
  | none => 0

/-- The addressed operand of mode `m` from the operand bytes. The five modes without an effective
address stand in no row that is built with this. -/
def addrOf (m : Mode) (b1 b2 : Byte) : Addr :=
  match m with
  | .zp | .imp | .acc | .imm | .rel => .zp b1
  | .zpx => .zpx b1
  | .zpy => .zpy b1
  | .abs | .ind => .abs (wordOf b2 b1)
  | .abx => .abx (wordOf b2 b1)
  | .aby => .aby (wordOf b2 b1)
  | .izx => .izx b1
  | .izy => .izy b1

/-- The read operand of mode `m`. -/
def srcOf (m : Mode) (b1 b2 : Byte) : Src :=
  if m = .imm then .imm b1 else .mem (addrOf m b1 b2)

/-- The read-and-written operand of mode `m`. -/
def dstOf (m : Mode) (b1 b2 : Byte) : Dst :=
  if m = .acc then .acc else .mem (addrOf m b1 b2)

/-- The jump target of mode `m`. -/
def jmpOf (m : Mode) (b1 b2 : Byte) : JmpTarget :=
  if m = .ind then .ind (wordOf b2 b1) else .abs (wordOf b2 b1)

/-- The instruction of a descriptor, its opcode and its operand bytes. -/
def buildInstr (d : Descriptor) (op b1 b2 : Byte) : Instr :=
  match d.mnemonic with
  | .lda => .lda (srcOf d.mode b1 b2)
  | .ldx => .ldx (srcOf d.mode b1 b2)
  | .ldy => .ldy (srcOf d.mode b1 b2)
  | .sta => .sta (addrOf d.mode b1 b2)
  | .stx => .stx (addrOf d.mode b1 b2)
  | .sty => .sty (addrOf d.mode b1 b2)
  | .tax => .tax
  | .tay => .tay
  | .txa => .txa
  | .tya => .tya
  | .tsx => .tsx
  | .txs => .txs
  | .pha => .pha
  | .php => .php
  | .pla => .pla
  | .plp => .plp
  | .adc => .adc (srcOf d.mode b1 b2)
  | .sbc => if op = 0xEB then .sbcAlt b1 else .sbc (srcOf d.mode b1 b2)
  | .and => .and (srcOf d.mode b1 b2)
  | .ora => .ora (srcOf d.mode b1 b2)
  | .eor => .eor (srcOf d.mode b1 b2)
  | .cmp => .cmp (srcOf d.mode b1 b2)
  | .cpx => .cpx (srcOf d.mode b1 b2)
  | .cpy => .cpy (srcOf d.mode b1 b2)
  | .bit => .bit (addrOf d.mode b1 b2)
  | .inc => .inc (addrOf d.mode b1 b2)
  | .dec => .dec (addrOf d.mode b1 b2)
  | .inx => .inx
  | .iny => .iny
  | .dex => .dex
  | .dey => .dey
  | .asl => .asl (dstOf d.mode b1 b2)
  | .lsr => .lsr (dstOf d.mode b1 b2)
  | .rol => .rol (dstOf d.mode b1 b2)
  | .ror => .ror (dstOf d.mode b1 b2)
  | .jmp => .jmp (jmpOf d.mode b1 b2)
  | .jsr => .jsr (wordOf b2 b1)
  | .rts => .rts
  | .rti => .rti
  | .brk => .brk
  | .bcc => .bcc b1
  | .bcs => .bcs b1
  | .beq => .beq b1
  | .bne => .bne b1
  | .bmi => .bmi b1
  | .bpl => .bpl b1
  | .bvc => .bvc b1
  | .bvs => .bvs b1
  | .clc => .clc
  | .sec => .sec
  | .cli => .cli
  | .sei => .sei
  | .clv => .clv
  | .cld => .cld
  | .sed => .sed
  | .nop => if op = 0xEA then .nop else .nopAlt op
  | .slo => .slo (addrOf d.mode b1 b2)
  | .rla => .rla (addrOf d.mode b1 b2)
  | .sre => .sre (addrOf d.mode b1 b2)
  | .rra => .rra (addrOf d.mode b1 b2)
  | .dcp => .dcp (addrOf d.mode b1 b2)
  | .isc => .isc (addrOf d.mode b1 b2)
  | .sax => .sax (addrOf d.mode b1 b2)
  | .lax => .lax (addrOf d.mode b1 b2)
  | .anc => .anc op b1
  | .alr => .alr b1
  | .arr => .arr b1
  | .axs => .axs b1
  | .dop => .dop op (srcOf d.mode b1 b2)
  | .top => .top op (addrOf d.mode b1 b2)

/-- The instruction an opcode byte and its operand bytes stand for. -/
def instrOf (undoc : Bool) (op b1 b2 : Byte) : Instr :=
  match descriptor undoc op with
  | some d => buildInstr d op b1 b2
  | none => .unimpl op

/-- Why bytes are not decoded. Every opcode byte decodes (R151), so only missing bytes are rejected. -/
inductive DecodeError where
  /-- There is no opcode byte. -/
  | noOpcode
  /-- The operand bytes of the opcode are missing. -/
  | truncated (op : Byte)
deriving DecidableEq, Repr

/-- Decode the first instruction of a byte sequence and give the bytes that are left. Its length comes
from the opcode alone (R132); BRK's second byte is passed over, whatever it is (log entry 17). -/
def decodeWith (undoc : Bool) : List Byte → Except DecodeError (Instr × List Byte)
  | [] => .error .noOpcode
  | op :: rest =>
    match bytesAfter undoc op, rest with
    | 0, rest => .ok (instrOf undoc op 0 0, rest)
    | 1, b1 :: rest => .ok (instrOf undoc op b1 0, rest)
    | 2, b1 :: b2 :: rest => .ok (instrOf undoc op b1 b2, rest)
    | _, _ => .error (.truncated op)

/-- Decoding with the default UNDOCUMENTED_ENABLED = true. -/
def decode (bytes : List Byte) : Except DecodeError (Instr × List Byte) := decodeWith true bytes

/-! ## The encoder -/

/-- The opcodes of LDA by mode (R201). -/
def ldaCodes : List (Mode × Byte) :=
  [(.imm, 0xA9), (.zp, 0xA5), (.zpx, 0xB5), (.abs, 0xAD),
   (.abx, 0xBD), (.aby, 0xB9), (.izx, 0xA1), (.izy, 0xB1)]

/-- The opcodes of LDX by mode (R202). -/
def ldxCodes : List (Mode × Byte) :=
  [(.imm, 0xA2), (.zp, 0xA6), (.zpy, 0xB6), (.abs, 0xAE), (.aby, 0xBE)]

/-- The opcodes of LDY by mode (R203). -/
def ldyCodes : List (Mode × Byte) :=
  [(.imm, 0xA0), (.zp, 0xA4), (.zpx, 0xB4), (.abs, 0xAC), (.abx, 0xBC)]

/-- The opcodes of ADC by mode (R251). -/
def adcCodes : List (Mode × Byte) :=
  [(.imm, 0x69), (.zp, 0x65), (.zpx, 0x75), (.abs, 0x6D),
   (.abx, 0x7D), (.aby, 0x79), (.izx, 0x61), (.izy, 0x71)]

/-- The opcodes of SBC by mode (R252). -/
def sbcCodes : List (Mode × Byte) :=
  [(.imm, 0xE9), (.zp, 0xE5), (.zpx, 0xF5), (.abs, 0xED),
   (.abx, 0xFD), (.aby, 0xF9), (.izx, 0xE1), (.izy, 0xF1)]

/-- The opcodes of AND by mode (R253). -/
def andCodes : List (Mode × Byte) :=
  [(.imm, 0x29), (.zp, 0x25), (.zpx, 0x35), (.abs, 0x2D),
   (.abx, 0x3D), (.aby, 0x39), (.izx, 0x21), (.izy, 0x31)]

/-- The opcodes of ORA by mode (R254). -/
def oraCodes : List (Mode × Byte) :=
  [(.imm, 0x09), (.zp, 0x05), (.zpx, 0x15), (.abs, 0x0D),
   (.abx, 0x1D), (.aby, 0x19), (.izx, 0x01), (.izy, 0x11)]

/-- The opcodes of EOR by mode (R255). -/
def eorCodes : List (Mode × Byte) :=
  [(.imm, 0x49), (.zp, 0x45), (.zpx, 0x55), (.abs, 0x4D),
   (.abx, 0x5D), (.aby, 0x59), (.izx, 0x41), (.izy, 0x51)]

/-- The opcodes of CMP by mode (R256). -/
def cmpCodes : List (Mode × Byte) :=
  [(.imm, 0xC9), (.zp, 0xC5), (.zpx, 0xD5), (.abs, 0xCD),
   (.abx, 0xDD), (.aby, 0xD9), (.izx, 0xC1), (.izy, 0xD1)]

/-- The opcodes of CPX by mode (R257). -/
def cpxCodes : List (Mode × Byte) :=
  [(.imm, 0xE0), (.zp, 0xE4), (.abs, 0xEC)]

/-- The opcodes of CPY by mode (R258). -/
def cpyCodes : List (Mode × Byte) :=
  [(.imm, 0xC0), (.zp, 0xC4), (.abs, 0xCC)]

/-- The opcodes of STA by mode (R204). -/
def staCodes : List (Mode × Byte) :=
  [(.zp, 0x85), (.zpx, 0x95), (.abs, 0x8D), (.abx, 0x9D),
   (.aby, 0x99), (.izx, 0x81), (.izy, 0x91)]

/-- The opcodes of STX by mode (R205). -/
def stxCodes : List (Mode × Byte) :=
  [(.zp, 0x86), (.zpy, 0x96), (.abs, 0x8E)]

/-- The opcodes of STY by mode (R206). -/
def styCodes : List (Mode × Byte) :=
  [(.zp, 0x84), (.zpx, 0x94), (.abs, 0x8C)]

/-- The opcodes of BIT by mode (R259). -/
def bitCodes : List (Mode × Byte) :=
  [(.zp, 0x24), (.abs, 0x2C)]

/-- The opcodes of INC by mode (R260). -/
def incCodes : List (Mode × Byte) :=
  [(.zp, 0xE6), (.zpx, 0xF6), (.abs, 0xEE), (.abx, 0xFE)]

/-- The opcodes of DEC by mode (R261). -/
def decCodes : List (Mode × Byte) :=
  [(.zp, 0xC6), (.zpx, 0xD6), (.abs, 0xCE), (.abx, 0xDE)]

/-- The opcodes of SLO by mode (R351). -/
def sloCodes : List (Mode × Byte) :=
  [(.zp, 0x07), (.zpx, 0x17), (.abs, 0x0F), (.abx, 0x1F),
   (.aby, 0x1B), (.izx, 0x03), (.izy, 0x13)]

/-- The opcodes of RLA by mode (R352). -/
def rlaCodes : List (Mode × Byte) :=
  [(.zp, 0x27), (.zpx, 0x37), (.abs, 0x2F), (.abx, 0x3F),
   (.aby, 0x3B), (.izx, 0x23), (.izy, 0x33)]

/-- The opcodes of SRE by mode (R353). -/
def sreCodes : List (Mode × Byte) :=
  [(.zp, 0x47), (.zpx, 0x57), (.abs, 0x4F), (.abx, 0x5F),
   (.aby, 0x5B), (.izx, 0x43), (.izy, 0x53)]

/-- The opcodes of RRA by mode (R354). -/
def rraCodes : List (Mode × Byte) :=
  [(.zp, 0x67), (.zpx, 0x77), (.abs, 0x6F), (.abx, 0x7F),
   (.aby, 0x7B), (.izx, 0x63), (.izy, 0x73)]

/-- The opcodes of DCP by mode (R357). -/
def dcpCodes : List (Mode × Byte) :=
  [(.zp, 0xC7), (.zpx, 0xD7), (.abs, 0xCF), (.abx, 0xDF),
   (.aby, 0xDB), (.izx, 0xC3), (.izy, 0xD3)]

/-- The opcodes of ISC by mode (R358). -/
def iscCodes : List (Mode × Byte) :=
  [(.zp, 0xE7), (.zpx, 0xF7), (.abs, 0xEF), (.abx, 0xFF),
   (.aby, 0xFB), (.izx, 0xE3), (.izy, 0xF3)]

/-- The opcodes of SAX by mode (R355). -/
def saxCodes : List (Mode × Byte) :=
  [(.zp, 0x87), (.zpy, 0x97), (.abs, 0x8F), (.izx, 0x83)]

/-- The opcodes of LAX by mode (R356). -/
def laxCodes : List (Mode × Byte) :=
  [(.zp, 0xA7), (.zpy, 0xB7), (.abs, 0xAF), (.aby, 0xBF), (.izx, 0xA3), (.izy, 0xB3)]

/-- The opcodes of ASL by mode (R266). -/
def aslCodes : List (Mode × Byte) :=
  [(.acc, 0x0A), (.zp, 0x06), (.zpx, 0x16), (.abs, 0x0E), (.abx, 0x1E)]

/-- The opcodes of LSR by mode (R267). -/
def lsrCodes : List (Mode × Byte) :=
  [(.acc, 0x4A), (.zp, 0x46), (.zpx, 0x56), (.abs, 0x4E), (.abx, 0x5E)]

/-- The opcodes of ROL by mode (R268). -/
def rolCodes : List (Mode × Byte) :=
  [(.acc, 0x2A), (.zp, 0x26), (.zpx, 0x36), (.abs, 0x2E), (.abx, 0x3E)]

/-- The opcodes of ROR by mode (R269). -/
def rorCodes : List (Mode × Byte) :=
  [(.acc, 0x6A), (.zp, 0x66), (.zpx, 0x76), (.abs, 0x6E), (.abx, 0x7E)]

/-- The opcodes of JMP by mode (R301). -/
def jmpCodes : List (Mode × Byte) :=
  [(.abs, 0x4C), (.ind, 0x6C)]

/-- The opcode byte of an instruction; `none` when it is not well-formed. -/
def opcodeOf : Instr → Option Byte
  | .lda o => ldaCodes.lookup o.mode
  | .ldx o => ldxCodes.lookup o.mode
  | .ldy o => ldyCodes.lookup o.mode
  | .adc o => adcCodes.lookup o.mode
  | .sbc o => sbcCodes.lookup o.mode
  | .and o => andCodes.lookup o.mode
  | .ora o => oraCodes.lookup o.mode
  | .eor o => eorCodes.lookup o.mode
  | .cmp o => cmpCodes.lookup o.mode
  | .cpx o => cpxCodes.lookup o.mode
  | .cpy o => cpyCodes.lookup o.mode
  | .sta a => staCodes.lookup a.mode
  | .stx a => stxCodes.lookup a.mode
  | .sty a => styCodes.lookup a.mode
  | .bit a => bitCodes.lookup a.mode
  | .inc a => incCodes.lookup a.mode
  | .dec a => decCodes.lookup a.mode
  | .slo a => sloCodes.lookup a.mode
  | .rla a => rlaCodes.lookup a.mode
  | .sre a => sreCodes.lookup a.mode
  | .rra a => rraCodes.lookup a.mode
  | .dcp a => dcpCodes.lookup a.mode
  | .isc a => iscCodes.lookup a.mode
  | .sax a => saxCodes.lookup a.mode
  | .lax a => laxCodes.lookup a.mode
  | .asl o => aslCodes.lookup o.mode
  | .lsr o => lsrCodes.lookup o.mode
  | .rol o => rolCodes.lookup o.mode
  | .ror o => rorCodes.lookup o.mode
  | .jmp t => jmpCodes.lookup t.mode
  | .jsr _ => some 0x20
  | .brk => some 0x00
  | .tax => some 0xAA
  | .tay => some 0xA8
  | .txa => some 0x8A
  | .tya => some 0x98
  | .tsx => some 0xBA
  | .txs => some 0x9A
  | .pha => some 0x48
  | .php => some 0x08
  | .pla => some 0x68
  | .plp => some 0x28
  | .inx => some 0xE8
  | .iny => some 0xC8
  | .dex => some 0xCA
  | .dey => some 0x88
  | .rts => some 0x60
  | .rti => some 0x40
  | .clc => some 0x18
  | .sec => some 0x38
  | .cli => some 0x58
  | .sei => some 0x78
  | .clv => some 0xB8
  | .cld => some 0xD8
  | .sed => some 0xF8
  | .nop => some 0xEA
  | .bcc _ => some 0x90
  | .bcs _ => some 0xB0
  | .beq _ => some 0xF0
  | .bne _ => some 0xD0
  | .bmi _ => some 0x30
  | .bpl _ => some 0x10
  | .bvc _ => some 0x50
  | .bvs _ => some 0x70
  | .alr _ => some 0x4B
  | .arr _ => some 0x6B
  | .axs _ => some 0xCB
  | .sbcAlt _ => some 0xEB
  | .anc op _ => if ancOpcodes.contains op then some op else none
  | .nopAlt op => if nopAltOpcodes.contains op then some op else none
  | .dop op o => if (dopOpcodes o.mode).contains op then some op else none
  | .top op a => if (topOpcodes a.mode).contains op then some op else none
  | .unimpl op => if unimplementedOpcodes.contains op then some op else none

/-- The two operand bytes of a word, low byte first (R130 format F3). -/
def wordBytes (w : Word) : List Byte := [loByte w, hiByte w]

/-- The operand bytes of an addressed operand. -/
def Addr.bytes : Addr → List Byte
  | .zp b | .zpx b | .zpy b | .izx b | .izy b => [b]
  | .abs w | .abx w | .aby w => wordBytes w

/-- The operand bytes of a read operand. -/
def Src.bytes : Src → List Byte
  | .imm b => [b]
  | .mem a => a.bytes

/-- The operand bytes of a read-and-written operand. -/
def Dst.bytes : Dst → List Byte
  | .acc => []
  | .mem a => a.bytes

/-- The operand bytes of a jump target. -/
def JmpTarget.bytes : JmpTarget → List Byte
  | .abs w | .ind w => wordBytes w

/-- The operand bytes of an instruction, those that a fetch reads after the opcode (R130, R150). BRK has
none (R132). -/
def operandBytesOf : Instr → List Byte
  | .lda o | .ldx o | .ldy o | .adc o | .sbc o | .and o
  | .ora o | .eor o | .cmp o | .cpx o | .cpy o | .dop _ o => o.bytes
  | .sta a | .stx a | .sty a | .bit a | .inc a | .dec a | .slo a | .rla a
  | .sre a | .rra a | .dcp a | .isc a | .sax a | .lax a | .top _ a => a.bytes
  | .asl o | .lsr o | .rol o | .ror o => o.bytes
  | .jmp t => t.bytes
  | .jsr w => wordBytes w
  | .bcc b | .bcs b | .beq b | .bne b | .bmi b | .bpl b | .bvc b | .bvs b
  | .alr b | .arr b | .axs b | .sbcAlt b | .anc _ b => [b]
  | .tax | .tay | .txa | .tya | .tsx | .txs | .pha | .php | .pla | .plp | .inx | .iny | .dex
  | .dey | .rts | .rti | .clc | .sec | .cli | .sei | .clv | .cld | .sed | .nop | .brk
  | .nopAlt _ | .unimpl _ => []

/-- The bytes of an instruction that belong to its size and that nothing reads: BRK's second byte (R132,
R157). It may be any byte, and the encoder writes 0x00 (DESIGN CHOICE; log entry 17). -/
def skippedBytesOf (i : Instr) : List Byte := if i = .brk then [0x00] else []

/-- The bytes of a well-formed instruction; no bytes for an ill-formed one. -/
def encode (i : Instr) : List Byte :=
  match opcodeOf i with
  | some op => op :: (operandBytesOf i ++ skippedBytesOf i)
  | none => []

/-- The bytes of a well-formed instruction that its fetch reads (R150): all but a skipped one. -/
def fetchedBytes (i : Instr) : List Byte :=
  match opcodeOf i with
  | some op => op :: operandBytesOf i
  | none => []

/-- The bytes, lowest address first, of an instruction whose bits, numbered as opcode_table.json
numbers them, are `w` below bit `nbits` and 0 above. -/
def tableBytes (nbits w : Nat) : List Byte :=
  let v := w % 2 ^ nbits
  [BitVec.ofNat 8 v, BitVec.ofNat 8 (v / 256), BitVec.ofNat 8 (v / 65536)]

/-- The instruction the decoder reads from `tableBytes nbits w`; `none` where it refuses. -/
def decodeTableWord (nbits w : Nat) : Option Instr :=
  match decode (tableBytes nbits w) with
  | .ok (i, _) => some i
  | .error _ => none

end Sys2Proof
end

