-- ==== Sys2Proof/Config.lean ====
section
/-! DEFINITION. What is fixed for one machine: the open parameters of spec/00_scope.md R7 and the
cartridge record of spec/10_state.md R60. Both are plain data that State carries and no step changes
(log entry 2), so a statement about every state holds for every parameter and every cartridge. -/

namespace Sys2Proof.Machine

/-- A memory: (address, byte) pairs, strictly rising addresses, no pair equal to what an unlisted
address reads as (Memory.wf in Machine/Memory.lean). -/
abbrev Memory := List Host.Cell

/-- PAD_TAIL for one port (R7, D17): the bits at k = 8, 9, … and what follows them, or nothing said of
them (log entry 13). -/
inductive PadTail where
  /-- The first bits in order, then `rest` for ever. -/
  | listed (bits : List Bool) (rest : Bool)
  /-- Any function of the index: `freePadTail`. -/
  | free
deriving DecidableEq, Repr

/-- PAD_TAIL as a function of port and index of which nothing is said: a statement about `PadTail.free`
holds for every function (log entry 13). -/
opaque freePadTail : Nat → Nat → Bool

/-- The open parameters (00_scope.md R7, 93_implementation_defined.md section 1) with the spec's
defaults. RAM_INIT, VRAM_INIT and OAM_INIT are arguments of `State.powerOn`. -/
structure Params where
  /-- CYCLES_PER_SCANLINE, positive (D11). -/
  cyclesPerScanline : Nat := 114
  /-- INT_ENTRY_CYCLES (D7). -/
  intEntryCycles : Nat := 7
  /-- RESET_A (D9). -/
  resetA : Byte := 0x00
  /-- RESET_X (D9). -/
  resetX : Byte := 0x00
  /-- RESET_Y (D9). -/
  resetY : Byte := 0x00
  /-- RESET_S (D9). -/
  resetS : Byte := 0xFD
  /-- RESET_P (D9); bit 5 is forced where it is written. -/
  resetP : Byte := 0x24
  /-- STATUS_LOW_BITS (D18). -/
  statusLowBits : BitVec 5 := 0
  /-- EXEMPT_WINDOW (D18): the budgets for which it holds on line 260 (log entry 14). -/
  exemptBudgets : List Int := []
  /-- PAD_TAIL(0, k) for k = 8, 9, … (D17); 1 for every k by default. -/
  padTail0 : PadTail := .listed [] true
  /-- PAD_TAIL(1, k) for k = 8, 9, … (D17); 1 for every k by default. -/
  padTail1 : PadTail := .listed [] true
  /-- APU_READ as a memory over 0x4000 to 0x4015 (D16; log entry 15). -/
  apuRead : Memory := []
  /-- OPEN_BUS_VALUE (D44). -/
  openBusValue : Byte := 0x00
  /-- BLACK_INDEX (D24). -/
  blackIndex : Colour := 0x0F
  /-- MMC1_RESET_SETS_PRG_MODE (D27). -/
  mmc1ResetSetsPrgMode : Bool := false
  /-- IRQ_LEVEL_SENSITIVE (D8). -/
  irqLevelSensitive : Bool := false
  /-- MMC3_COUNT_IN_VBLANK (D52). -/
  mmc3CountInVblank : Bool := false
  /-- UNDOCUMENTED_ENABLED (D1). -/
  undocumentedEnabled : Bool := true
deriving DecidableEq, Repr

/-- The parameters at the spec's defaults (R7). -/
def Params.default : Params := {}

/-- The cartridge record (10_state.md R60). The byte arrays are memories over their offsets
(log entry 20). -/
structure Cartridge where
  /-- Number of 16 KiB PRG banks, at least 1. -/
  prgCount : Nat
  /-- Number of 8 KiB CHR banks; 0 means the pattern tables are RAM. -/
  chrCount : Nat
  mapperId : Nat
  mirrorBit : Bool
  fourScreen : Bool
  /-- Used by no rule (D37). -/
  trainer : Bool
  prg : Memory
  chr : Memory
deriving DecidableEq, Repr

/-- The record State.reset carries: NROM, one PRG bank of zero bytes, no CHR.
DESIGN CHOICE (log entry 6): the host supplies the record; this one holds no program. -/
def Cartridge.blank : Cartridge :=
  { prgCount := 1, chrCount := 0, mapperId := 0, mirrorBit := false, fourScreen := false,
    trainer := false, prg := [], chr := [] }

end Sys2Proof.Machine
end

