-- ==== Sys2Proof/Machine/Memory.lean ====
section
/-! DEFINITION. Memories in their one canonical form: strictly rising addresses, no entry equal to what
an unlisted address reads as (spec/10_state.md R30, R51, R52; log entry 5). -/

namespace Sys2Proof.Machine

/-- What an unlisted address reads as: 0x00. The spec gives it for SRAM and the ROM window at power-on
(R30); DESIGN CHOICE for RAM_INIT, VRAM_INIT and OAM_INIT in State.reset (log entry 5). -/
def unlistedByte : Byte := 0x00

/-- The byte at an address. -/
def Memory.read : Memory → Nat → Byte
  | [], _ => unlistedByte
  | (k, v) :: m, a => if k = a then v else Memory.read m a

/-- Put an entry in front, unless it says what an unlisted address says. -/
def consEntry (a : Nat) (v : Byte) (m : Memory) : Memory :=
  if v = unlistedByte then m else (a, v) :: m

/-- Store a byte at an address. -/
def Memory.write : Memory → Nat → Byte → Memory
  | [], a, v => consEntry a v []
  | (k, w) :: m, a, v =>
    if k < a then (k, w) :: Memory.write m a v
    else if k = a then consEntry a v m
    else consEntry a v ((k, w) :: m)

/-- The entries below an address. -/
def Memory.below (m : Memory) (a : Nat) : Memory := m.filter (fun c => decide (c.1 < a))

/-- The entries at or above an address. -/
def Memory.above (m : Memory) (a : Nat) : Memory := m.filter (fun c => decide (a ≤ c.1))

/-- The `size` bytes of `src` from `off` on, moved to `dst`. -/
def Memory.slice (src : Memory) (off size dst : Nat) : Memory :=
  (src.filter (fun c => decide (off ≤ c.1 ∧ c.1 < off + size))).map
    (fun c => (c.1 - off + dst, c.2))

/-- One atomic bulk copy (20_memory.md R105): bytes `off` to `off + size - 1` of `src` over bytes `dst`
to `dst + size - 1` of `m`. -/
def Memory.copy (m src : Memory) (dst size off : Nat) : Memory :=
  m.below dst ++ (src.slice off size dst ++ m.above (dst + size))

/-- The canonical form. -/
abbrev Memory.wf (m : Memory) : Prop :=
  m.Pairwise (fun c d => c.1 < d.1) ∧ ∀ c ∈ m, c.2 ≠ unlistedByte

end Sys2Proof.Machine
end

