-- ==== Sys2Proof/Machine/Parts.lean ====
section
/-! DEFINITION. The parts of the machine other than the CPU's registers, as plain data
(spec/10_state.md sections 2 to 5). -/

namespace Sys2Proof.Machine

/-- Nametable mirroring modes (R49). -/
inductive Mirroring where
  | horizontal | vertical | singleA | singleB | fourScreen
deriving DecidableEq, Repr

/-- One controller port (R32). -/
structure Pad where
  /-- `pad_latch[p]`. -/
  latch : Byte
  /-- `pad_count[p]`, without an upper bound. -/
  count : Nat
deriving DecidableEq, Repr

/-- The PPU's state (R40 to R52). -/
structure Ppu where
  /-- Control register (R40). -/
  ctrl : Byte
  /-- Mask register (R41). -/
  mask : Byte
  /-- The three status flags (R42). -/
  vblank : Bool
  sprite0Hit : Bool
  spriteOverflow : Bool
  /-- `oam_addr` (R43). -/
  oamAddr : Byte
  /-- The internal video address (R44): coarse X 4:0, coarse Y 9:5, nametable 11:10, fine Y 14:12. -/
  v : Scroll
  /-- The temporary video address (R45), same layout. -/
  t : Scroll
  /-- `fine_x` (R46). -/
  fineX : BitVec 3
  /-- The write toggle (R47); `true` means the next write to 0x2005 or 0x2006 is the second. -/
  w : Bool
  /-- `read_buffer` (R48). -/
  readBuffer : Byte
  /-- Nametable mirroring (R49). -/
  mirroring : Mirroring
  /-- The scanline index, resting in -1 to 260 (R50). -/
  line : Int
  /-- The budget countdown (R50). -/
  budget : Int
  /-- The frame counter (R50). -/
  frame : Nat
  /-- `cycles_since_vblank` (R50). -/
  cyclesSinceVblank : Nat
  /-- Video memory, 16 KiB (R51). -/
  vram : Memory
  /-- Sprite memory, 256 bytes (R52). -/
  oam : Memory
deriving DecidableEq, Repr

/-- MMC1's registers (R63). -/
structure Mmc1 where
  shiftAcc : BitVec 5
  /-- 0 to 4. -/
  shiftCount : Nat
  reg : Vector (BitVec 5) 4
deriving DecidableEq, Repr

/-- MMC3's registers (R64). -/
structure Mmc3 where
  bankSelect : Byte
  bankReg : Vector Byte 8
  irqLatch : Byte
  irqCounter : Byte
  irqReload : Bool
  irqEnabled : Bool
deriving DecidableEq, Repr

/-- `mapper_kind` with the variant's registers (R61 to R64). -/
inductive Mapper where
  | nrom
  | mmc1 (r : Mmc1)
  | unrom (bankLatch : Byte)
  | cnrom (bankLatch : Byte)
  | mmc3 (r : Mmc3)
  /-- No variant: `mapper_id` is not one of the five, and the machine is halted (R501). -/
  | unsupported
deriving DecidableEq, Repr

/-- `halted` (R71, R601). -/
inductive Halted where
  | running
  | unsupportedCartridge (mapperId : Nat)
  | unimplementedOpcode (op : Byte) (pc : Word)
deriving DecidableEq, Repr

/-- The outputs of the block (R72). -/
inductive Event where
  /-- `draw_pixel(x, y, color)` with the 6-bit palette index (R452). -/
  | drawPixel (x y : Nat) (colour : Colour)
  /-- `present_frame()` (R556). -/
  | presentFrame
  /-- `apu_write(n, d)` (R425). -/
  | apuWrite (n : Word) (d : Byte)
deriving DecidableEq, Repr

end Sys2Proof.Machine
end

