-- ==== Sys2Proof/Machine/Init.lean ====
section
/-! DEFINITION. What the cartridge record and the parameters settle before the first step
(spec/46_mappers.md R501, R503, R506; spec/10_state.md R62 to R64). -/

namespace Sys2Proof.Machine

/-- MMC1 after `initialize()` and after every mapper reset (R63). -/
def initMmc1 : Mmc1 := { shiftAcc := 0, shiftCount := 0, reg := #v[0x0C, 0, 0, 0] }

/-- MMC3 after `initialize()` and after every mapper reset (R64). -/
def initMmc3 : Mmc3 :=
  { bankSelect := 0, bankReg := #v[0, 2, 4, 5, 6, 7, 0, 1], irqLatch := 0, irqCounter := 0,
    irqReload := false, irqEnabled := false }

/-- Variant selection (R501) and `initialize()` (R506). -/
def initMapper (mapperId : Nat) : Mapper :=
  match mapperId with
  | 0 => .nrom
  | 1 => .mmc1 initMmc1
  | 2 => .unrom 0x00
  | 3 => .cnrom 0x00
  | 4 => .mmc3 initMmc3
  | _ => .unsupported

/-- `halted` at power-on (R71, R501). -/
def initHalted (mapperId : Nat) : Halted :=
  if mapperId ≤ 4 then .running else .unsupportedCartridge mapperId

/-- The mirroring seed (R503). -/
def seedMirroring (c : Cartridge) : Mirroring :=
  if c.fourScreen then .fourScreen else if c.mirrorBit then .vertical else .horizontal

/-- Every write of P forces bit 5 to 1 (R24). -/
def forceBit5 (p : Byte) : Byte := p ||| 0x20

/-- Main memory at power-on (R30): RAM_INIT in the internal RAM and in 0x4018 to 0x5FFF; elsewhere
nothing is listed, and an unlisted byte reads 0x00. -/
def powerOnMem (ramInit : Memory) : Memory :=
  ramInit.filter (fun c => decide (c.1 < 0x0800 ∨ (0x4018 ≤ c.1 ∧ c.1 < 0x6000)))

/-- VRAM_INIT as video memory holds it: palette bytes with their upper two bits clear (R51, D10). -/
def maskPalette : Memory → Memory
  | [] => []
  | (a, v) :: m =>
    if a < 0x3F00 then (a, v) :: maskPalette m else consEntry a (v &&& 0x3F) (maskPalette m)

/-- The PPU at power-on (R75, R51). -/
def initPpu (cfg : Params) (c : Cartridge) (vramInit oamInit : Memory) : Ppu :=
  { ctrl := 0x00, mask := 0x00, vblank := false, sprite0Hit := false, spriteOverflow := false,
    oamAddr := 0x00, v := 0, t := 0, fineX := 0, w := false, readBuffer := 0x00,
    mirroring := seedMirroring c, line := -1, budget := cfg.cyclesPerScanline, frame := 0,
    cyclesSinceVblank := 0, vram := maskPalette vramInit, oam := oamInit }

end Sys2Proof.Machine
end

