-- ==== Sys2Proof/Machine/State.lean ====
section
/-! DEFINITION. The state of the machine (spec/10_state.md), the stops of a step, and the state at
power-on. -/

namespace Sys2Proof.Machine

/-- Everything the spec gives the machine (R20 to R71), the outputs of the last step (R72), the
configuration it runs under (R7, R60), and the cost the current instruction accumulates (R11). -/
structure State where
  /-- Accumulator A (R20). -/
  a : Byte
  /-- Index register X (R21). -/
  x : Byte
  /-- Index register Y (R22). -/
  y : Byte
  /-- Stack pointer S, an offset from 0x0100 (R23). -/
  sp : Byte
  /-- Status register P: N V R B D I Z C from bit 7 down (R24). -/
  p : Byte
  /-- Program counter PC (R25). -/
  pc : Word
  /-- `cycles_total` (R29). -/
  cyclesTotal : Nat
  /-- `irq_pending` (R34). -/
  irqPending : Bool
  /-- Main memory, 64 KiB (R30). -/
  mem : Memory
  /-- `sram_enabled` (R31). -/
  sramEnabled : Bool
  /-- `sram_readonly` (R31). -/
  sramReadonly : Bool
  /-- Controller port 0 (R32). -/
  pad0 : Pad
  /-- Controller port 1 (R32). -/
  pad1 : Pad
  /-- `buttons[0]`: the word the input collaborator supplies (R32, R420; log entry 12). -/
  buttons0 : Byte
  /-- `buttons[1]`. -/
  buttons1 : Byte
  /-- The PPU (R40 to R52). -/
  ppu : Ppu
  /-- The mapper (R61 to R64). -/
  mapper : Mapper
  /-- The cartridge record (R60): configuration, changed by no step. -/
  cart : Cartridge
  /-- The open parameters (R7): configuration, changed by no step. -/
  cfg : Params
  /-- `reset_pending` (R70). -/
  resetPending : Bool
  /-- `halted` (R71). -/
  halted : Halted
  /-- `cyc`, the cost the current instruction accumulates (R11, R146); 0 between steps
  (log entry 11). -/
  cyc : Nat
  /-- The outputs of the last step, oldest first (R72; log entry 10). -/
  events : List Event
deriving DecidableEq, Repr

/-- Why no step exists from a state, or why a step does not end. -/
inductive Fault where
  /-- A step was asked of a machine halted by an unsupported mapper id (R501, R601). Safe: no step
  exists there. -/
  | unsupportedCartridge (mapperId : Nat)
  /-- A step was asked of a machine halted by an unimplemented opcode (R370, R601). Safe: no step
  exists there. -/
  | unimplementedOpcode (op : Byte) (pc : Word)
  /-- The loop of R552 does not end: the entry costs of a frame pay for a frame, or a scanline has no
  cycles (log entry 16). Safe: the spec's loop does not end either. -/
  | scanlineLoopDiverges
deriving DecidableEq, Repr

/-- Why an instruction has no meaning. -/
inductive Refusal where
  /-- The instruction is not modelled. Safe: the model stops. -/
  | notModelled (mnemonic : String)
deriving DecidableEq, Repr

/-- The machine at power-on (R75, R700), for every parameter, cartridge record, RAM_INIT, VRAM_INIT and
OAM_INIT. PC is unspecified before the first step: DESIGN CHOICE 0x0000 (log entry 4). The button words
are inputs: DESIGN CHOICE 0x00 (log entry 12). -/
def State.powerOn (cfg : Params) (c : Cartridge) (ramInit vramInit oamInit : Memory) : State :=
  { a := cfg.resetA, x := cfg.resetX, y := cfg.resetY, sp := cfg.resetS,
    p := forceBit5 cfg.resetP, pc := 0x0000, cyclesTotal := 0, irqPending := false,
    mem := powerOnMem ramInit, sramEnabled := true, sramReadonly := false,
    pad0 := { latch := 0x00, count := 0 }, pad1 := { latch := 0x00, count := 0 },
    buttons0 := 0x00, buttons1 := 0x00,
    ppu := initPpu cfg c vramInit oamInit, mapper := initMapper c.mapperId, cart := c, cfg := cfg,
    resetPending := true, halted := initHalted c.mapperId, cyc := 0, events := [] }

/-- The machine at power-on with the spec's default parameters (R7), the blank cartridge record
(log entry 6) and nothing listed in its memories (log entry 5). The first step is the RESET event. -/
def State.reset : State := State.powerOn Params.default Cartridge.blank [] [] []

end Sys2Proof.Machine
end

