-- ==== Sys2Proof/Machine/Flags.lean ====
section
/-! DEFINITION. The status register and the flag computations (spec/10_state.md R24, R27;
spec/41_arithmetic_logic.md R250 to R269). -/

namespace Sys2Proof.Machine

/-- The flags of P (R24). Bit 5 is no flag: every write of P forces it to 1. -/
inductive Flag where
  | n | v | b | d | i | z | c
deriving DecidableEq, Repr

/-- The bit of P that holds a flag (R24). -/
def Flag.bit : Flag → Nat
  | .n => 7 | .v => 6 | .b => 4 | .d => 3 | .i => 2 | .z => 1 | .c => 0

/-- The mask of a flag's bit. -/
def Flag.bitMask (f : Flag) : Byte := BitVec.twoPow 8 f.bit

/-- A flag of a status byte. -/
def flagOf (f : Flag) (p : Byte) : Bool := p.getLsbD f.bit

/-- A status byte with one flag set to `v`. -/
def withFlag (f : Flag) (v : Bool) (p : Byte) : Byte :=
  if v then p ||| f.bitMask else p &&& ~~~ f.bitMask

/-- A flag of the machine. -/
def State.flag (s : State) (f : Flag) : Bool := flagOf f s.p

/-- Every write of P goes through here: bit 5 is forced to 1 (R24; log entry 23). -/
def State.setP (s : State) (p : Byte) : State := { s with p := forceBit5 p }

/-- Write one flag. -/
def State.setFlag (s : State) (f : Flag) (v : Bool) : State := s.setP (withFlag f v s.p)

/-- `SetNZ(v)` (00_scope.md R11). -/
def State.setNZ (s : State) (v : Byte) : State :=
  (s.setFlag .n (v.getLsbD 7)).setFlag .z (decide (v = 0))

/-- A result byte with the carry and the overflow it leaves. -/
structure SumResult where
  r : Byte
  c : Bool
  v : Bool
deriving DecidableEq, Repr

/-- Addition with carry (R250): the exact sum, its low byte, the carry out, and signed overflow by the
sign bits of operands and result. -/
def addWithCarry (a m : Byte) (c : Bool) : SumResult :=
  let t := a.toNat + m.toNat + c.toNat
  let r := BitVec.ofNat 8 t
  { r := r, c := decide (0xFF < t), v := decide ((a ^^^ r) &&& (m ^^^ r) &&& 0x80 ≠ 0) }

/-- Subtraction (R250, R252): addition of the one's complement. -/
def subWithCarry (a m : Byte) (c : Bool) : SumResult := addWithCarry a (m ^^^ 0xFF) c

/-- ADC's effect on A and the flags N, V, Z, C (R251). -/
def State.addA (s : State) (m : Byte) : State :=
  let q := addWithCarry s.a m (s.flag .c)
  let s := (s.setFlag .c q.c).setFlag .v q.v
  { s with a := q.r }.setNZ q.r

/-- SBC's effect on A and the flags N, V, Z, C (R252). -/
def State.subA (s : State) (m : Byte) : State :=
  let q := subWithCarry s.a m (s.flag .c)
  let s := (s.setFlag .c q.c).setFlag .v q.v
  { s with a := q.r }.setNZ q.r

/-- A comparison of a register with an operand (R256 to R258): unsigned, flags N, Z, C. -/
def State.compare (s : State) (reg m : Byte) : State :=
  (s.setFlag .c (decide (m.toNat ≤ reg.toNat))).setNZ (reg - m)

/-- The four shifts and rotates. -/
inductive Shift where
  | asl | lsr | rol | ror
deriving DecidableEq, Repr

/-- The result of a shift or rotate by one position and its carry out (R266 to R269). -/
def shiftResult (k : Shift) (m : Byte) (c : Bool) : Byte × Bool :=
  match k with
  | .asl => (m <<< 1, m.getLsbD 7)
  | .lsr => (m >>> 1, m.getLsbD 0)
  | .rol => ((m <<< 1) ||| (BitVec.ofBool c).setWidth 8, m.getLsbD 7)
  | .ror => ((m >>> 1) ||| ((BitVec.ofBool c).setWidth 8 <<< 7), m.getLsbD 0)

end Sys2Proof.Machine
end

