-- ==== Sys2Proof/Machine/Mapper.lean ====
section
/-! DEFINITION. The cartridge mappers: bank copies, claimed writes, bank switches, reset
(spec/46_mappers.md). `update()` is in Machine/Scheduler.lean, since it makes an IRQ entry. -/

namespace Sys2Proof.Machine

/-- The number of PRG banks of a size (R505). -/
def Cartridge.prgBanks (c : Cartridge) (size : Nat) : Nat := c.prgCount * 16384 / size

/-- The number of CHR banks of a size (R505). -/
def Cartridge.chrBanks (c : Cartridge) (size : Nat) : Nat := c.chrCount * 8192 / size

/-- `lastprg(size)` (R505). -/
def Cartridge.lastPrg (c : Cartridge) (size : Nat) : Nat := c.prgBanks size - 1

/-- `CopyPrg(dst, size, b)` (R504), the bank index reduced modulo the number of banks (R505). -/
def State.copyPrg (s : State) (dst size b : Nat) : State :=
  { s with mem := s.mem.copy s.cart.prg dst size (b % s.cart.prgBanks size * size) }

/-- `CopyChr(dst, size, b)` (R504): nothing when the cartridge has no CHR. -/
def State.copyChr (s : State) (dst size b : Nat) : State :=
  if s.cart.chrCount = 0 then s
  else
    { s with ppu := { s.ppu with
        vram := s.ppu.vram.copy s.cart.chr dst size (b % s.cart.chrBanks size * size) } }

/-- `force_mirroring(mode)` (R483), which a four-screen cartridge ignores (R503). -/
def State.forceMirroring (s : State) (m : Mirroring) : State :=
  if s.cart.fourScreen then s else { s with ppu := { s.ppu with mirroring := m } }

/-! ## Claimed writes -/

/-- MMC1 `check_address` for a write at or above 0x8000 (R522). -/
def Mmc1.shiftIn (r : Mmc1) (setsPrgMode : Bool) (n : Word) (d : Byte) : Mmc1 × Bool :=
  if d.getLsbD 7 then
    let r0 := { r with shiftAcc := 0, shiftCount := 0 }
    if setsPrgMode then ({ r0 with reg := r0.reg.set 0 (r0.reg[0] ||| 0x0C) }, true)
    else (r0, false)
  else
    let acc := r.shiftAcc ||| ((BitVec.ofBool (d.getLsbD 0)).setWidth 5 <<< r.shiftCount)
    if r.shiftCount + 1 = 5 then
      let k : Fin 4 := (n.extractLsb' 13 2).toFin
      ({ shiftAcc := 0, shiftCount := 0, reg := r.reg.set k acc }, true)
    else ({ r with shiftAcc := acc, shiftCount := r.shiftCount + 1 }, false)

/-- `check_address(n, d)` (R500, R502, R510, R514, R518, R522, R531): the mapper after it, and whether it
claims the write. -/
def Mapper.checkAddress (cfg : Params) (m : Mapper) (n : Word) (d : Byte) : Mapper × Bool :=
  if n.toNat < 0x8000 then (m, false)
  else
    match m with
    | .nrom => (.nrom, false)
    | .unrom _ => (.unrom d, true)
    | .cnrom _ => (.cnrom d, true)
    | .mmc1 r =>
      let q := r.shiftIn cfg.mmc1ResetSetsPrgMode n d
      (.mmc1 q.1, q.2)
    | .mmc3 r => (.mmc3 r, true)
    | .unsupported => (.unsupported, false)

/-! ## Bank layouts -/

/-- The mirroring MMC1's register 0 selects (R523). -/
def mmc1Mirroring (reg0 : BitVec 5) : Mirroring :=
  match (reg0 &&& 3).toNat with
  | 0 => .singleA
  | 1 => .singleB
  | 2 => .vertical
  | _ => .horizontal

/-- MMC1 PRG layout (R524). -/
def State.mmc1Prg (s : State) (r : Mmc1) : State :=
  let b := r.reg[3]
  match ((r.reg[0] >>> 2) &&& 3).toNat with
  | 2 => (s.copyPrg 0x8000 16384 0).copyPrg 0xC000 16384 (b &&& 0x0F).toNat
  | 3 => (s.copyPrg 0x8000 16384 (b &&& 0x0F).toNat).copyPrg 0xC000 16384 (s.cart.prgCount - 1)
  | _ =>
    (s.copyPrg 0x8000 16384 (b &&& 0x0E).toNat).copyPrg 0xC000 16384 ((b &&& 0x0E) ||| 1).toNat

/-- MMC1 CHR layout (R525). -/
def State.mmc1Chr (s : State) (r : Mmc1) : State :=
  if r.reg[0].getLsbD 4 then
    (s.copyChr 0x0000 4096 r.reg[1].toNat).copyChr 0x1000 4096 r.reg[2].toNat
  else s.copyChr 0x0000 8192 (r.reg[1] >>> 1).toNat

/-- MMC3 PRG layout (R533). -/
def State.mmc3Prg (s : State) (r : Mmc3) : State :=
  let l := s.cart.lastPrg 8192
  if r.bankSelect.getLsbD 6 then
    (((s.copyPrg 0x8000 8192 (l - 1)).copyPrg 0xA000 8192 r.bankReg[7].toNat).copyPrg 0xC000 8192
      r.bankReg[6].toNat).copyPrg 0xE000 8192 l
  else
    (((s.copyPrg 0x8000 8192 r.bankReg[6].toNat).copyPrg 0xA000 8192 r.bankReg[7].toNat).copyPrg
      0xC000 8192 (l - 1)).copyPrg 0xE000 8192 l

/-- MMC3 CHR layout (R534). The windows are XORed with `x`. -/
def State.mmc3Chr (s : State) (r : Mmc3) : State :=
  let x := if r.bankSelect.getLsbD 7 then 0x1000 else 0x0000
  let s := s.copyChr (0x0000 ^^^ x) 1024 (r.bankReg[0] &&& 0xFE).toNat
  let s := s.copyChr (0x0400 ^^^ x) 1024 (r.bankReg[0] ||| 1).toNat
  let s := s.copyChr (0x0800 ^^^ x) 1024 (r.bankReg[1] &&& 0xFE).toNat
  let s := s.copyChr (0x0C00 ^^^ x) 1024 (r.bankReg[1] ||| 1).toNat
  let s := s.copyChr (0x1000 ^^^ x) 1024 r.bankReg[2].toNat
  let s := s.copyChr (0x1400 ^^^ x) 1024 r.bankReg[3].toNat
  let s := s.copyChr (0x1800 ^^^ x) 1024 r.bankReg[4].toNat
  s.copyChr (0x1C00 ^^^ x) 1024 r.bankReg[5].toNat

/-- The eight MMC3 registers (R530). -/
inductive Mmc3Reg where
  | bankSelect | bankData | mirroring | sram | irqLatch | irqReload | irqDisable | irqEnable
deriving DecidableEq, Repr

/-- The register `k = n & 0xE001` selects (R530). -/
def mmc3Reg (n : Word) : Mmc3Reg :=
  match (n &&& 0xE001).toNat with
  | 0x8000 => .bankSelect
  | 0x8001 => .bankData
  | 0xA000 => .mirroring
  | 0xA001 => .sram
  | 0xC000 => .irqLatch
  | 0xC001 => .irqReload
  | 0xE000 => .irqDisable
  | _ => .irqEnable

/-- MMC3 `switch_banks()` for the transient pair of the write (R531, R532, R535, R536). -/
def State.mmc3Write (s : State) (r : Mmc3) (n : Word) (d : Byte) : State :=
  match mmc3Reg n with
  | .bankSelect =>
    let r := { r with bankSelect := d }
    ({ s with mapper := .mmc3 r }.mmc3Prg r).mmc3Chr r
  | .bankData =>
    let k : Fin 8 := (r.bankSelect.extractLsb' 0 3).toFin
    let r := { r with bankReg := r.bankReg.set k d }
    ({ s with mapper := .mmc3 r }.mmc3Prg r).mmc3Chr r
  | .mirroring => s.forceMirroring (if d.getLsbD 0 then .horizontal else .vertical)
  | .sram => { s with sramEnabled := d.getLsbD 7, sramReadonly := d.getLsbD 6 }
  | .irqLatch => { s with mapper := .mmc3 { r with irqLatch := d } }
  | .irqReload => { s with mapper := .mmc3 { r with irqCounter := 0, irqReload := true } }
  | .irqDisable => { s with mapper := .mmc3 { r with irqEnabled := false }, irqPending := false }
  | .irqEnable => { s with mapper := .mmc3 { r with irqEnabled := true } }

/-- `switch_banks()` (R500, R515, R519, R526, R531) after a claimed write of `d` at `n`. -/
def State.switchBanks (s : State) (n : Word) (d : Byte) : State :=
  match s.mapper with
  | .nrom | .unsupported => s
  | .unrom latch => s.copyPrg 0x8000 16384 latch.toNat
  | .cnrom latch => s.copyChr 0x0000 8192 latch.toNat
  | .mmc1 r => ((s.forceMirroring (mmc1Mirroring r.reg[0])).mmc1Prg r).mmc1Chr r
  | .mmc3 r => s.mmc3Write r n d

/-- Mapper interception of a write (R502). -/
def State.intercept (s : State) (n : Word) (d : Byte) : State :=
  let q := s.mapper.checkAddress s.cfg n d
  if q.2 then { s with mapper := q.1 }.switchBanks n d else { s with mapper := q.1 }

/-- The fixed layout of NROM, also UNROM's and CNROM's at reset (R511, R516, R520). -/
def State.fixedLayout (s : State) : State :=
  ((s.copyPrg 0x8000 16384 0).copyPrg 0xC000 16384 (s.cart.prgCount - 1)).copyChr 0x0000 8192 0

/-- `reset()` of the active mapper (R506, R511, R516, R520, R526, R538). -/
def State.mapperReset (s : State) : State :=
  let s := { s with
    sramEnabled := true, sramReadonly := false,
    ppu := { s.ppu with mirroring := seedMirroring s.cart } }
  match s.mapper with
  | .nrom => s.fixedLayout
  | .unrom _ => { s with mapper := .unrom 0x00 }.fixedLayout
  | .cnrom _ => { s with mapper := .cnrom 0x00 }.fixedLayout
  | .mmc1 _ => ({ s with mapper := .mmc1 initMmc1 }.mmc1Prg initMmc1).mmc1Chr initMmc1
  | .mmc3 _ => ({ s with mapper := .mmc3 initMmc3 }.mmc3Prg initMmc3).mmc3Chr initMmc3
  | .unsupported => s

end Sys2Proof.Machine
end

