-- ==== Sys2Proof/Machine/Ppu.lean ====
section
/-! DEFINITION. Video memory access (spec/45_ppu_render.md R478 to R483) and the eight PPU registers
(spec/44_bus_device_registers.md R401 to R414). -/

namespace Sys2Proof.Machine

/-- The palette part of the fold: 32 entries, four of them aliases (R479). -/
def palettePage (a : Nat) : Nat :=
  let q := a % 0x20
  if q = 0x10 ∨ q = 0x14 ∨ q = 0x18 ∨ q = 0x1C then q - 0x10 else q

/-- The physical nametable of a logical one (R479, D53). -/
def physicalTable (m : Mirroring) (nt : Nat) : Nat :=
  match m with
  | .horizontal => nt / 2
  | .vertical => nt % 2
  | .singleA => 0
  | .singleB => 1
  | .fourScreen => nt

/-- The fold `vnorm` of a PPU address, as an index of video memory (R479). -/
def vnorm (m : Mirroring) (a : VAddr) : Nat :=
  let n := a.toNat
  if 0x3F00 ≤ n then 0x3F00 + palettePage n
  else if 0x2000 ≤ n then
    let o := n % 0x1000
    0x2000 + physicalTable m (o / 0x400) * 0x400 + o % 0x400
  else n

/-- `VramRead(a)` (R480). -/
def Ppu.vramRead (p : Ppu) (a : VAddr) : Byte := p.vram.read (vnorm p.mirroring a)

/-- `VramWrite(a, d)` (R481): palette entries keep six bits. -/
def Ppu.vramWrite (p : Ppu) (a : VAddr) (d : Byte) : Ppu :=
  let n := vnorm p.mirroring a
  { p with vram := p.vram.write n (if 0x3F00 ≤ n then d &&& 0x3F else d) }

/-- Rendering is enabled (R41, R451). -/
def Ppu.rendering (p : Ppu) : Bool := p.mask.getLsbD 3 || p.mask.getLsbD 4

/-- The address increment after an access at 0x2007 (R412). -/
def Ppu.increment (p : Ppu) : Scroll := if p.ctrl.getLsbD 2 then 32 else 1

/-- `v` advanced after an access at 0x2007, modulo 0x8000 (R412). -/
def Ppu.advanceV (p : Ppu) : Ppu := { p with v := p.v + p.increment }

/-- EXEMPT_WINDOW(line, budget) (R405, D18): it may hold only on line 260 (log entry 14). -/
def exemptWindow (cfg : Params) (p : Ppu) : Bool :=
  decide (p.line = 260) && cfg.exemptBudgets.contains p.budget

/-- The eight registers by normalised address (R414). -/
inductive PpuReg where
  | control | mask | status | oamAddress | oamData | scroll | address | data
deriving DecidableEq, Repr

/-- The register at a normalised address 0x2000 to 0x2007. -/
def ppuReg (n : Word) : PpuReg :=
  match n.toNat % 8 with
  | 0 => .control
  | 1 => .mask
  | 2 => .status
  | 3 => .oamAddress
  | 4 => .oamData
  | 5 => .scroll
  | 6 => .address
  | _ => .data

/-- The status byte (R405). -/
def Ppu.statusByte (cfg : Params) (p : Ppu) : Byte :=
  BitVec.ofBool p.vblank ++ BitVec.ofBool p.sprite0Hit ++ BitVec.ofBool p.spriteOverflow
    ++ cfg.statusLowBits

/-- A read of 0x2002 (R405): the byte from the flags before the side effect. -/
def Ppu.readStatus (cfg : Params) (p : Ppu) : Byte × Ppu :=
  (p.statusByte cfg, if exemptWindow cfg p then p else { p with vblank := false, w := false })

/-- The 14-bit address of an access at 0x2007. -/
def Ppu.dataAddress (p : Ppu) : VAddr := p.v.setWidth 14

/-- A read of 0x2007 (R413): delayed below the palette, at once in it. -/
def Ppu.readData (p : Ppu) : Byte × Ppu :=
  let a := p.dataAddress
  if a.toNat < 0x3F00 then
    (p.readBuffer, { p with readBuffer := p.vramRead a }.advanceV)
  else
    (p.vramRead a, { p with readBuffer := p.vramRead (a - 0x1000) }.advanceV)

/-- A register read (R405, R406, R413, 20_memory.md R93). -/
def Ppu.readReg (cfg : Params) (r : PpuReg) (p : Ppu) : Byte × Ppu :=
  match r with
  | .status => p.readStatus cfg
  | .oamData => (p.oam.read p.oamAddr.toNat, p)
  | .data => p.readData
  | .control | .mask | .oamAddress | .scroll | .address => (cfg.openBusValue, p)

/-- A write of 0x2000 (R401). -/
def Ppu.writeControl (p : Ppu) (d : Byte) : Ppu :=
  { p with ctrl := d, t := (p.t &&& 0x73FF#15) ||| ((d &&& 0x03).setWidth 15 <<< 10) }

/-- A write of 0x2004 (R404). -/
def Ppu.writeOamData (p : Ppu) (d : Byte) : Ppu :=
  { p with oam := p.oam.write p.oamAddr.toNat d, oamAddr := p.oamAddr + 1 }

/-- A write of 0x2005 (R407, R408). -/
def Ppu.writeScroll (p : Ppu) (d : Byte) : Ppu :=
  if p.w then
    { p with
      t := (p.t &&& 0x0C1F#15) ||| ((d &&& 0x07).setWidth 15 <<< 12)
        ||| ((d >>> 3).setWidth 15 <<< 5),
      w := false }
  else
    { p with t := (p.t &&& 0x7FE0#15) ||| (d >>> 3).setWidth 15, fineX := d.setWidth 3, w := true }

/-- A write of 0x2006 (R409, R410). -/
def Ppu.writeAddress (p : Ppu) (d : Byte) : Ppu :=
  if p.w then
    let t := (p.t &&& 0x7F00#15) ||| d.setWidth 15
    { p with t := t, v := t, w := false }
  else
    { p with t := (p.t &&& 0x00FF#15) ||| ((d &&& 0x3F).setWidth 15 <<< 8), w := true }

/-- A write of 0x2007 (R411). -/
def Ppu.writeData (p : Ppu) (d : Byte) : Ppu := (p.vramWrite p.dataAddress d).advanceV

/-- A register write (R401 to R411, 20_memory.md R93). -/
def Ppu.writeReg (r : PpuReg) (p : Ppu) (d : Byte) : Ppu :=
  match r with
  | .control => p.writeControl d
  | .mask => { p with mask := d }
  | .status => p
  | .oamAddress => { p with oamAddr := d }
  | .oamData => p.writeOamData d
  | .scroll => p.writeScroll d
  | .address => p.writeAddress d
  | .data => p.writeData d

end Sys2Proof.Machine
end

