-- ==== Sys2Proof/Machine/Ops.lean ====
section
/-! DEFINITION. The bus (spec/20_memory.md, spec/44_bus_device_registers.md), the stack, taking an
exception and returning from one (spec/60_exceptions.md R610 to R615). -/

namespace Sys2Proof.Machine

/-! ## The address map -/

/-- The mirroring fold `norm(a)` (R81). -/
def norm (a : Word) : Word :=
  if a.toNat < 0x2000 then a &&& 0x07FF
  else if a.toNat < 0x4000 then 0x2000 + (a &&& 0x0007)
  else a

/-- The rows of the address map (R82). -/
inductive Region where
  /-- 0x0000 to 0x07FF, internal RAM. -/
  | ram
  /-- 0x2000 to 0x2007, the PPU registers. -/
  | ppu
  /-- 0x4000 to 0x4013 and 0x4015, the audio registers. -/
  | audio
  /-- 0x4014, the sprite DMA trigger. -/
  | dma
  /-- 0x4016, controller port 0 and strobe. -/
  | pad0
  /-- 0x4017, controller port 1. -/
  | pad1
  /-- 0x4018 to 0x5FFF, plain storage. -/
  | storage
  /-- 0x6000 to 0x7FFF, SRAM. -/
  | sram
  /-- 0x8000 to 0xFFFF, the cartridge ROM image. -/
  | rom
deriving DecidableEq, Repr

/-- The row of the map that holds a normalised address (R82). -/
def region (n : Word) : Region :=
  if n.toNat < 0x2000 then .ram
  else if n.toNat < 0x4000 then .ppu
  else if n.toNat = 0x4014 then .dma
  else if n.toNat = 0x4016 then .pad0
  else if n.toNat = 0x4017 then .pad1
  else if n.toNat < 0x4018 then .audio
  else if n.toNat < 0x6000 then .storage
  else if n.toNat < 0x8000 then .sram
  else .rom

/-! ## The controllers -/

/-- PAD_TAIL(p, k) for k ≥ 8 (R421, log entry 13). -/
def padTail (tail : PadTail) (port k : Nat) : Bool :=
  match tail with
  | .listed bits rest => bits.getD (k - 8) rest
  | .free => freePadTail port k

/-- The bit a read of controller port `port` returns (R421). -/
def Pad.bit (p : Pad) (tail : PadTail) (port : Nat) : Bool :=
  if p.count < 8 then p.latch.getLsbD p.count else padTail tail port p.count

/-- The controller after a read (R421). -/
def Pad.advance (p : Pad) : Pad := { p with count := p.count + 1 }

/-- A byte whose bit 0 is the bit and whose other bits are 0 (R421). -/
def bitByte (b : Bool) : Byte := (BitVec.ofBool b).setWidth 8

/-- The strobe (R420). -/
def State.strobe (s : State) : State :=
  { s with
    pad0 := { latch := s.buttons0, count := 0 }
    pad1 := { latch := s.buttons1, count := 0 } }

/-! ## The two bus primitives -/

/-- `MemRead(a, 1)` (R84): the byte, and the state after the read's side effects. -/
def State.memRead (s : State) (a : Word) : Byte × State :=
  let n := norm a
  match region n with
  | .ram | .storage | .sram | .rom => (s.mem.read n.toNat, s)
  | .ppu =>
    let q := s.ppu.readReg s.cfg (ppuReg n)
    (q.1, { s with ppu := q.2 })
  | .audio | .dma => (s.cfg.apuRead.read n.toNat, s)
  | .pad0 => (bitByte (s.pad0.bit s.cfg.padTail0 0), { s with pad0 := s.pad0.advance })
  | .pad1 => (bitByte (s.pad1.bit s.cfg.padTail1 1), { s with pad1 := s.pad1.advance })

/-- `MemRead16(a)` (00_scope.md R11). -/
def State.memRead16 (s : State) (a : Word) : Word × State :=
  let l := s.memRead a
  let h := l.2.memRead (a + 1)
  (wordOf h.1 l.1, h.2)

/-- Store a byte of main memory. -/
def State.store (s : State) (n : Word) (v : Byte) : State :=
  { s with mem := s.mem.write n.toNat v }

/-- `oam[(oam_addr + i) & 0xFF] <- v` (R416). -/
def State.putOam (s : State) (i v : Byte) : State :=
  { s with ppu := { s.ppu with oam := s.ppu.oam.write (s.ppu.oamAddr + i).toNat v } }

/-- The sprite DMA loop (R416): `k` bytes from source address `src` on, the next one going to
`oam[oam_addr + i]`. -/
def dmaLoop : Nat → Byte → Word → State → State
  | 0, _, _, s => s
  | k + 1, i, src, s =>
    let q := s.memRead src
    dmaLoop k (i + 1) (src + 1) (q.2.putOam i q.1)

/-- The extra cost of a sprite DMA burst (R416). -/
def dmaCost : Nat := 512

/-- A write of `d` at 0x4014 (R416). -/
def State.spriteDma (s : State) (d : Byte) : State :=
  let t := dmaLoop 256 0 (wordOf d 0) s
  { t with cyc := t.cyc + dmaCost }

/-- Step 1 of a write: the primary effect at a normalised address (R85, R420, R425, R430, R431). -/
def State.primaryWrite (s : State) (n : Word) (v : Byte) : State :=
  match region n with
  | .ram | .storage => s.store n v
  | .ppu => { s with ppu := s.ppu.writeReg (ppuReg n) v }
  | .audio | .pad1 => { s with events := s.events ++ [.apuWrite n v] }
  | .dma => s.spriteDma v
  | .pad0 => s.strobe
  | .sram => if s.sramEnabled && !s.sramReadonly then s.store n v else s
  | .rom => s

/-- `MemWrite(a, 1, v)` (R85): the primary effect, then the mapper's interception. -/
def State.memWrite (s : State) (a : Word) (v : Byte) : State :=
  (s.primaryWrite (norm a) v).intercept (norm a) v

/-! ## The stack (10_state.md R23, 00_scope.md R11) -/

/-- The address of the stack byte S designates. -/
def stackAddr (sp : Byte) : Word := 0x0100 + zext16 sp

/-- `Push(v)`: store, then decrement. -/
def State.push (s : State) (v : Byte) : State :=
  let t := s.memWrite (stackAddr s.sp) v
  { t with sp := t.sp - 1 }

/-- `Pull()`: increment, then read. -/
def State.pull (s : State) : Byte × State :=
  let t := { s with sp := s.sp + 1 }
  t.memRead (stackAddr t.sp)

/-- Push a 16-bit value, high byte first (42_control_flow_flags.md R300). -/
def State.pushWord (s : State) (w : Word) : State := (s.push (hiByte w)).push (loByte w)

/-- Pull a 16-bit value, low byte first (R300). -/
def State.pullWord (s : State) : Word × State :=
  let l := s.pull
  let h := l.2.pull
  (wordOf h.1 l.1, h.2)

/-! ## Exceptions -/

/-- The vectors (20_memory.md R83). -/
def nmiVector : Word := 0xFFFA
/-- The RESET vector. -/
def resetVector : Word := 0xFFFC
/-- The IRQ and BRK vector. -/
def irqVector : Word := 0xFFFE

/-- Taking an exception (R305, R602, R610, R611): push the return address, set B as the event says,
push P, set I, load PC from the vector. -/
def State.takeVector (s : State) (ret : Word) (b : Bool) (vector : Word) : State :=
  let s := (s.pushWord ret).setFlag .b b
  let s := (s.push s.p).setFlag .i true
  let q := s.memRead16 vector
  { q.2 with pc := q.1 }

/-- Returning from an exception (42_control_flow_flags.md R304, R615). -/
def State.returnFromInterrupt (s : State) : State :=
  let q := s.pull
  let r := (q.2.setP q.1).pullWord
  { r.2 with pc := r.1 }

/-- `Accumulate(k)` (R610), and the accumulation of an instruction's cost (47_scheduler.md R552). -/
def State.accumulate (s : State) (k : Nat) : State :=
  { s with
    cyclesTotal := s.cyclesTotal + k
    ppu := { s.ppu with
      cyclesSinceVblank := s.ppu.cyclesSinceVblank + k
      budget := s.ppu.budget - k } }

/-- `NmiEntry()` (R610). P.I is not consulted. -/
def State.nmiEntry (s : State) : State :=
  (s.takeVector s.pc false nmiVector).accumulate s.cfg.intEntryCycles

/-- `IrqEntry()` (R611). It clears `irq_pending` (10_state.md R34; log entry 24). -/
def State.irqEntry (s : State) : State :=
  ({ s with irqPending := false }.takeVector s.pc false irqVector).accumulate s.cfg.intEntryCycles

/-- `raise_irq()` (R611), with the level-sensitive variant (R614). -/
def State.raiseIrq (s : State) : State :=
  if s.flag .i then
    if s.cfg.irqLevelSensitive then { s with irqPending := true } else s
  else s.irqEntry

/-- The RESET event (R612). -/
def State.resetEvent (s : State) : State :=
  let s := { s with
    a := s.cfg.resetA, x := s.cfg.resetX, y := s.cfg.resetY, sp := s.cfg.resetS,
    irqPending := false, resetPending := false }
  let s := (s.setP s.cfg.resetP).mapperReset
  let q := s.memRead16 resetVector
  { q.2 with pc := q.1 }

/-! ## The end of an instruction -/

/-- PC advanced past the instruction and its cost added to `cyc` (30_encoding.md R146, R150 step 5). -/
def State.finish (s : State) (size cost : Nat) : State :=
  { s with pc := s.pc + BitVec.ofNat 16 size, cyc := s.cyc + cost }

/-- A control transfer: PC written by the rule itself, the cost added to `cyc`. -/
def State.transfer (s : State) (target : Word) (cost : Nat) : State :=
  { s with pc := target, cyc := s.cyc + cost }

end Sys2Proof.Machine
end

