-- ==== Sys2Proof/Machine/Operands.lean ====
section
/-! DEFINITION. The addressing modes (spec/30_encoding.md R133 to R145) and the cycle costs by mode
(spec/70_reset_and_hazards.md R722, spec/30_encoding.md R147, R148). The operand bytes have been read
by the fetch; what is read here is the pointers and the operand. -/

namespace Sys2Proof.Machine

/-! ## Effective addresses -/

/-- A resolved operand: the effective address, the page-cross condition, and the state after the
pointer reads. -/
structure Resolved where
  ea : Word
  crossed : Bool
  s : State
deriving DecidableEq, Repr

/-- A 16-bit pointer in the zero page, its second byte wrapping in the page (R143, R144). -/
def State.zeroPagePointer (s : State) (p : Byte) : Word × State :=
  let l := s.memRead (zext16 p)
  let h := l.2.memRead (zext16 (p + 1))
  (wordOf h.1 l.1, h.2)

/-- A base address indexed by a register, with the page-cross condition (R140, R141, R144). -/
def indexed (s : State) (base : Word) (index : Byte) : Resolved :=
  { ea := base + zext16 index, crossed := pagesDiffer base (base + zext16 index), s := s }

/-- The effective address of an addressed operand (R136 to R144). -/
def State.resolve (s : State) (a : Addr) : Resolved :=
  match a with
  | .zp b => { ea := zext16 b, crossed := false, s := s }
  | .zpx b => { ea := zext16 (b + s.x), crossed := false, s := s }
  | .zpy b => { ea := zext16 (b + s.y), crossed := false, s := s }
  | .abs w => { ea := w, crossed := false, s := s }
  | .abx w => indexed s w s.x
  | .aby w => indexed s w s.y
  | .izx b =>
    let q := s.zeroPagePointer (b + s.x)
    { ea := q.1, crossed := false, s := q.2 }
  | .izy b =>
    let q := s.zeroPagePointer b
    indexed q.2 q.1 s.y

/-- An operand that has been read: its value, its address, the page-cross condition, the state after
the read. -/
structure Operand where
  m : Byte
  ea : Word
  crossed : Bool
  s : State
deriving DecidableEq, Repr

/-- Read an addressed operand: `m <- MemRead(ea, 1)`, once (40_load_store_transfer.md R200). -/
def State.readAddr (s : State) (a : Addr) : Operand :=
  let q := s.resolve a
  let b := q.s.memRead q.ea
  { m := b.1, ea := q.ea, crossed := q.crossed, s := b.2 }

/-- Read an operand (R135, R200). An immediate has no effective address. -/
def State.readSrc (s : State) (o : Src) : Operand :=
  match o with
  | .imm b => { m := b, ea := 0, crossed := false, s := s }
  | .mem a => s.readAddr a

/-- The second byte of an indirect jump's pointer stays in the pointer's page (R142). -/
def samePageNext (ptr : Word) : Word := (ptr &&& 0xFF00) ||| ((ptr + 1) &&& 0x00FF)

/-- The target of a jump (R139, R142). -/
def State.jumpTarget (s : State) (t : JmpTarget) : Word × State :=
  match t with
  | .abs w => (w, s)
  | .ind ptr =>
    let l := s.memRead ptr
    let h := l.2.memRead (samePageNext ptr)
    (wordOf h.1 l.1, h.2)

/-! ## Sizes and costs -/

/-- The byte size of an instruction with an operand of mode `m` (30_encoding.md R130). -/
def modeSize (m : Mode) : Nat := m.size

/-- One extra cycle on a page crossing (R147). -/
def pageCost (crossed : Bool) : Nat := if crossed then 1 else 0

/-- The cost of a read (R722, R147). -/
def readCost (m : Mode) (crossed : Bool) : Nat :=
  match m with
  | .imp | .acc | .imm | .rel | .ind => 2
  | .zp => 3
  | .zpx | .zpy | .abs => 4
  | .abx | .aby => 4 + pageCost crossed
  | .izx => 6
  | .izy => 5 + pageCost crossed

/-- The cost of a write (R722). -/
def writeCost (m : Mode) : Nat :=
  match m with
  | .imp | .acc | .imm | .rel | .ind => 2
  | .zp => 3
  | .zpx | .zpy | .abs => 4
  | .abx | .aby => 5
  | .izx | .izy => 6

/-- The cost of a read-modify-write, or of one on A (R722). -/
def rmwCost (m : Mode) : Nat :=
  match m with
  | .imp | .acc | .imm | .rel | .ind => 2
  | .zp => 5
  | .zpx | .zpy | .abs => 6
  | .abx | .aby => 7
  | .izx | .izy => 8

/-- The cost of JMP (R301). -/
def jumpCost (t : JmpTarget) : Nat :=
  match t with
  | .abs _ => 3
  | .ind _ => 5

/-! ## Branches -/

/-- The target of a branch with displacement byte `d` at `pc0` (R145). -/
def branchTarget (pc0 : Word) (d : Byte) : Word := pc0 + 2 + sext16 d

/-- A branch (42_control_flow_flags.md R306, 30_encoding.md R148). -/
def State.branch (s : State) (cond : Bool) (d : Byte) : State :=
  let pcn := s.pc + 2
  let target := branchTarget s.pc d
  if cond then s.transfer target (3 + pageCost (pagesDiffer pcn target))
  else s.transfer pcn 2

end Sys2Proof.Machine
end

