-- ==== Sys2Proof/Machine/Arithmetic.lean ====
section
/-! DEFINITION. Arithmetic, logic, compare, increment, shift and rotate instructions (spec/41_arithmetic_logic.md R251 to R269). -/

namespace Sys2Proof.Machine

/-- A logic operation on A (R253 to R255). -/
def State.logic (s : State) (o : Src) (f : Byte → Byte → Byte) : State :=
  let q := s.readSrc o
  let r := f q.s.a q.m
  ({ q.s with a := r }.setNZ r).finish (modeSize o.mode) (readCost o.mode q.crossed)

/-- A compare of a register (R256 to R258). -/
def State.compareReg (s : State) (o : Src) (reg : Byte) : State :=
  let q := s.readSrc o
  (q.s.compare reg q.m).finish (modeSize o.mode) (readCost o.mode q.crossed)

/-- INC or DEC of memory (R260, R261): one read, then one write of the same address. -/
def State.stepMemory (s : State) (a : Addr) (delta : Byte) : State :=
  let q := s.readAddr a
  let r := q.m + delta
  ((q.s.setNZ r).memWrite q.ea r).finish (modeSize a.mode) (rmwCost a.mode)

/-- A shift or rotate of A or of memory (R266 to R269). -/
def State.shift (s : State) (k : Shift) (o : Dst) : State :=
  match o with
  | .acc =>
    let r := shiftResult k s.a (s.flag .c)
    { (s.setFlag .c r.2).setNZ r.1 with a := r.1 }.finish (modeSize .acc) (rmwCost .acc)
  | .mem a =>
    let q := s.readAddr a
    let r := shiftResult k q.m (q.s.flag .c)
    (((q.s.setFlag .c r.2).setNZ r.1).memWrite q.ea r.1).finish (modeSize a.mode) (rmwCost a.mode)

/-- ADC (R251). -/
def execAdc (o : Src) (s : State) : Host.Outcome State Fault Refusal :=
  let q := s.readSrc o
  .next ((q.s.addA q.m).finish (modeSize o.mode) (readCost o.mode q.crossed))

/-- SBC (R252). -/
def execSbc (o : Src) (s : State) : Host.Outcome State Fault Refusal :=
  let q := s.readSrc o
  .next ((q.s.subA q.m).finish (modeSize o.mode) (readCost o.mode q.crossed))

/-- AND (R253). -/
def execAnd (o : Src) (s : State) : Host.Outcome State Fault Refusal :=
  .next (s.logic o (fun a m => a &&& m))

/-- ORA (R254). -/
def execOra (o : Src) (s : State) : Host.Outcome State Fault Refusal :=
  .next (s.logic o (fun a m => a ||| m))

/-- EOR (R255). -/
def execEor (o : Src) (s : State) : Host.Outcome State Fault Refusal :=
  .next (s.logic o (fun a m => a ^^^ m))

/-- CMP (R256). -/
def execCmp (o : Src) (s : State) : Host.Outcome State Fault Refusal :=
  .next (s.compareReg o s.a)

/-- CPX (R257). -/
def execCpx (o : Src) (s : State) : Host.Outcome State Fault Refusal :=
  .next (s.compareReg o s.x)

/-- CPY (R258). -/
def execCpy (o : Src) (s : State) : Host.Outcome State Fault Refusal :=
  .next (s.compareReg o s.y)

/-- BIT (R259): Z from A AND m, N and V from m. -/
def execBit (a : Addr) (s : State) : Host.Outcome State Fault Refusal :=
  let q := s.readAddr a
  let t := q.s.setFlag .z (decide (q.s.a &&& q.m = 0))
  let t := (t.setFlag .n (q.m.getLsbD 7)).setFlag .v (q.m.getLsbD 6)
  .next (t.finish (modeSize a.mode) (readCost a.mode q.crossed))

/-- INC (R260). -/
def execInc (a : Addr) (s : State) : Host.Outcome State Fault Refusal :=
  .next (s.stepMemory a 1)

/-- DEC (R261). -/
def execDec (a : Addr) (s : State) : Host.Outcome State Fault Refusal :=
  .next (s.stepMemory a 0xFF)

/-- INX (R262). -/
def execInx (s : State) : Host.Outcome State Fault Refusal :=
  .next (({ s with x := s.x + 1 }.setNZ (s.x + 1)).finish 1 2)

/-- INY (R263). -/
def execIny (s : State) : Host.Outcome State Fault Refusal :=
  .next (({ s with y := s.y + 1 }.setNZ (s.y + 1)).finish 1 2)

/-- DEX (R264). -/
def execDex (s : State) : Host.Outcome State Fault Refusal :=
  .next (({ s with x := s.x - 1 }.setNZ (s.x - 1)).finish 1 2)

/-- DEY (R265). -/
def execDey (s : State) : Host.Outcome State Fault Refusal :=
  .next (({ s with y := s.y - 1 }.setNZ (s.y - 1)).finish 1 2)

/-- ASL (R266). -/
def execAsl (o : Dst) (s : State) : Host.Outcome State Fault Refusal :=
  .next (s.shift .asl o)

/-- LSR (R267). -/
def execLsr (o : Dst) (s : State) : Host.Outcome State Fault Refusal :=
  .next (s.shift .lsr o)

/-- ROL (R268). -/
def execRol (o : Dst) (s : State) : Host.Outcome State Fault Refusal :=
  .next (s.shift .rol o)

/-- ROR (R269). -/
def execRor (o : Dst) (s : State) : Host.Outcome State Fault Refusal :=
  .next (s.shift .ror o)

end Sys2Proof.Machine
end

