-- ==== Sys2Proof/Machine/Control.lean ====
section
/-! DEFINITION. Jumps, subroutines, BRK and RTI, branches, flag instructions, NOP (spec/42_control_flow_flags.md R301 to R322). -/

namespace Sys2Proof.Machine

/-- JMP (R301). -/
def execJmp (t : JmpTarget) (s : State) : Host.Outcome State Fault Refusal :=
  let q := s.jumpTarget t
  .next (q.2.transfer q.1 (jumpCost t))

/-- JSR (R302): the pushed address is that of the third byte of the JSR. -/
def execJsr (w : Word) (s : State) : Host.Outcome State Fault Refusal :=
  .next ((s.pushWord (s.pc + 2)).transfer w 6)

/-- RTS (R303). -/
def execRts (s : State) : Host.Outcome State Fault Refusal :=
  let q := s.pullWord
  .next (q.2.transfer (q.1 + 1) 6)

/-- RTI (R304). -/
def execRti (s : State) : Host.Outcome State Fault Refusal :=
  let t := s.returnFromInterrupt
  .next (t.transfer t.pc 6)

/-- BRK (R305, 60_exceptions.md R613): the entry, with size 2 and B set; never suppressed. -/
def execBrk (s : State) : Host.Outcome State Fault Refusal :=
  let t := s.takeVector (s.pc + 2) true irqVector
  .next (t.transfer t.pc 7)

/-- BCC (R307). -/
def execBcc (d : Byte) (s : State) : Host.Outcome State Fault Refusal :=
  .next (s.branch (!s.flag .c) d)

/-- BCS (R308). -/
def execBcs (d : Byte) (s : State) : Host.Outcome State Fault Refusal :=
  .next (s.branch (s.flag .c) d)

/-- BEQ (R309). -/
def execBeq (d : Byte) (s : State) : Host.Outcome State Fault Refusal :=
  .next (s.branch (s.flag .z) d)

/-- BNE (R310). -/
def execBne (d : Byte) (s : State) : Host.Outcome State Fault Refusal :=
  .next (s.branch (!s.flag .z) d)

/-- BMI (R311). -/
def execBmi (d : Byte) (s : State) : Host.Outcome State Fault Refusal :=
  .next (s.branch (s.flag .n) d)

/-- BPL (R312). -/
def execBpl (d : Byte) (s : State) : Host.Outcome State Fault Refusal :=
  .next (s.branch (!s.flag .n) d)

/-- BVC (R313). -/
def execBvc (d : Byte) (s : State) : Host.Outcome State Fault Refusal :=
  .next (s.branch (!s.flag .v) d)

/-- BVS (R314). -/
def execBvs (d : Byte) (s : State) : Host.Outcome State Fault Refusal :=
  .next (s.branch (s.flag .v) d)

/-- CLC (R315). -/
def execClc (s : State) : Host.Outcome State Fault Refusal :=
  .next ((s.setFlag .c false).finish 1 2)

/-- SEC (R316). -/
def execSec (s : State) : Host.Outcome State Fault Refusal :=
  .next ((s.setFlag .c true).finish 1 2)

/-- CLI (R317). -/
def execCli (s : State) : Host.Outcome State Fault Refusal :=
  .next ((s.setFlag .i false).finish 1 2)

/-- SEI (R318). -/
def execSei (s : State) : Host.Outcome State Fault Refusal :=
  .next ((s.setFlag .i true).finish 1 2)

/-- CLV (R319). -/
def execClv (s : State) : Host.Outcome State Fault Refusal :=
  .next ((s.setFlag .v false).finish 1 2)

/-- CLD (R320). -/
def execCld (s : State) : Host.Outcome State Fault Refusal :=
  .next ((s.setFlag .d false).finish 1 2)

/-- SED (R321). -/
def execSed (s : State) : Host.Outcome State Fault Refusal :=
  .next ((s.setFlag .d true).finish 1 2)

/-- NOP (R322). -/
def execNop (s : State) : Host.Outcome State Fault Refusal :=
  .next (s.finish 1 2)

end Sys2Proof.Machine
end

