-- ==== Sys2Proof/Machine/LoadStore.lean ====
section
/-! DEFINITION. Loads, stores, register transfers, stack instructions (spec/40_load_store_transfer.md R201 to R216). -/

namespace Sys2Proof.Machine

/-- Load a register (R201 to R203): `put` writes it, N and Z follow the value. -/
def State.load (s : State) (o : Src) (put : State → Byte → State) : State :=
  let q := s.readSrc o
  ((put q.s q.m).setNZ q.m).finish (modeSize o.mode) (readCost o.mode q.crossed)

/-- Store a byte (R204 to R206): no read of the address, no flag. -/
def State.storeReg (s : State) (a : Addr) (v : Byte) : State :=
  let q := s.resolve a
  (q.s.memWrite q.ea v).finish (modeSize a.mode) (writeCost a.mode)

/-- LDA (R201). -/
def execLda (o : Src) (s : State) : Host.Outcome State Fault Refusal :=
  .next (s.load o (fun t v => { t with a := v }))

/-- LDX (R202). -/
def execLdx (o : Src) (s : State) : Host.Outcome State Fault Refusal :=
  .next (s.load o (fun t v => { t with x := v }))

/-- LDY (R203). -/
def execLdy (o : Src) (s : State) : Host.Outcome State Fault Refusal :=
  .next (s.load o (fun t v => { t with y := v }))

/-- STA (R204). -/
def execSta (a : Addr) (s : State) : Host.Outcome State Fault Refusal :=
  .next (s.storeReg a s.a)

/-- STX (R205). -/
def execStx (a : Addr) (s : State) : Host.Outcome State Fault Refusal :=
  .next (s.storeReg a s.x)

/-- STY (R206). -/
def execSty (a : Addr) (s : State) : Host.Outcome State Fault Refusal :=
  .next (s.storeReg a s.y)

/-- TAX (R207). -/
def execTax (s : State) : Host.Outcome State Fault Refusal :=
  .next (({ s with x := s.a }.setNZ s.a).finish 1 2)

/-- TAY (R208). -/
def execTay (s : State) : Host.Outcome State Fault Refusal :=
  .next (({ s with y := s.a }.setNZ s.a).finish 1 2)

/-- TXA (R209). -/
def execTxa (s : State) : Host.Outcome State Fault Refusal :=
  .next (({ s with a := s.x }.setNZ s.x).finish 1 2)

/-- TYA (R210). -/
def execTya (s : State) : Host.Outcome State Fault Refusal :=
  .next (({ s with a := s.y }.setNZ s.y).finish 1 2)

/-- TSX (R211). -/
def execTsx (s : State) : Host.Outcome State Fault Refusal :=
  .next (({ s with x := s.sp }.setNZ s.sp).finish 1 2)

/-- TXS (R212): no flag. -/
def execTxs (s : State) : Host.Outcome State Fault Refusal :=
  .next ({ s with sp := s.x }.finish 1 2)

/-- PHA (R213). -/
def execPha (s : State) : Host.Outcome State Fault Refusal :=
  .next ((s.push s.a).finish 1 3)

/-- PHP (R214): the pushed byte has bits 5 and 4 set; P itself is unchanged. -/
def execPhp (s : State) : Host.Outcome State Fault Refusal :=
  .next ((s.push (s.p ||| 0x30)).finish 1 3)

/-- PLA (R215). -/
def execPla (s : State) : Host.Outcome State Fault Refusal :=
  let q := s.pull
  .next (({ q.2 with a := q.1 }.setNZ q.1).finish 1 4)

/-- PLP (R216): every bit but bit 5 comes from the pulled byte. -/
def execPlp (s : State) : Host.Outcome State Fault Refusal :=
  let q := s.pull
  .next ((q.2.setP q.1).finish 1 4)

end Sys2Proof.Machine
end

