-- ==== Sys2Proof/Machine/Undocumented.lean ====
section
/-! DEFINITION. Undocumented instructions (spec/43_undocumented.md R351 to R370). -/

namespace Sys2Proof.Machine

/-- A shift of memory combined with an operation on A (R351 to R353): read, carry out, write, then A. -/
def State.shiftThenLogic (s : State) (k : Shift) (a : Addr) (f : Byte → Byte → Byte) : State :=
  let q := s.readAddr a
  let r := shiftResult k q.m (q.s.flag .c)
  let t := (q.s.setFlag .c r.2).memWrite q.ea r.1
  let n := f t.a r.1
  ({ t with a := n }.setNZ n).finish (modeSize a.mode) (rmwCost a.mode)

/-- SLO (R351). -/
def execSlo (a : Addr) (s : State) : Host.Outcome State Fault Refusal :=
  .next (s.shiftThenLogic .asl a (fun x m => x ||| m))

/-- RLA (R352). -/
def execRla (a : Addr) (s : State) : Host.Outcome State Fault Refusal :=
  .next (s.shiftThenLogic .rol a (fun x m => x &&& m))

/-- SRE (R353). -/
def execSre (a : Addr) (s : State) : Host.Outcome State Fault Refusal :=
  .next (s.shiftThenLogic .lsr a (fun x m => x ^^^ m))

/-- RRA (R354): rotate right, write, then ADC with the carry just produced. -/
def execRra (a : Addr) (s : State) : Host.Outcome State Fault Refusal :=
  let q := s.readAddr a
  let r := shiftResult .ror q.m (q.s.flag .c)
  let t := (q.s.setFlag .c r.2).memWrite q.ea r.1
  .next ((t.addA r.1).finish (modeSize a.mode) (rmwCost a.mode))

/-- DCP (R357): decrement, write, then compare with A. -/
def execDcp (a : Addr) (s : State) : Host.Outcome State Fault Refusal :=
  let q := s.readAddr a
  let r := q.m - 1
  let t := q.s.memWrite q.ea r
  .next ((t.compare t.a r).finish (modeSize a.mode) (rmwCost a.mode))

/-- ISC (R358): increment, write, then SBC. -/
def execIsc (a : Addr) (s : State) : Host.Outcome State Fault Refusal :=
  let q := s.readAddr a
  let r := q.m + 1
  let t := q.s.memWrite q.ea r
  .next ((t.subA r).finish (modeSize a.mode) (rmwCost a.mode))

/-- SAX (R355). -/
def execSax (a : Addr) (s : State) : Host.Outcome State Fault Refusal :=
  let q := s.resolve a
  .next ((q.s.memWrite q.ea (s.a &&& s.x)).finish (modeSize a.mode) (writeCost a.mode))

/-- LAX (R356). -/
def execLax (a : Addr) (s : State) : Host.Outcome State Fault Refusal :=
  let q := s.readAddr a
  .next (({ q.s with a := q.m, x := q.m }.setNZ q.m).finish (modeSize a.mode)
    (readCost a.mode q.crossed))

/-- ANC (R359): both opcodes behave the same. -/
def execAnc (_op b : Byte) (s : State) : Host.Outcome State Fault Refusal :=
  let r := s.a &&& b
  let t := { s with a := r }.setNZ r
  .next ((t.setFlag .c (t.flag .n)).finish 2 2)

/-- ALR (R360). -/
def execAlr (b : Byte) (s : State) : Host.Outcome State Fault Refusal :=
  let t := s.a &&& b
  let r := t >>> 1
  .next (({ s.setFlag .c (t.getLsbD 0) with a := r }.setNZ r).finish 2 2)

/-- ARR (R361): its own C and V. -/
def execArr (b : Byte) (s : State) : Host.Outcome State Fault Refusal :=
  let r := ((s.a &&& b) >>> 1) ||| ((BitVec.ofBool (s.flag .c)).setWidth 8 <<< 7)
  let t := { s with a := r }.setNZ r
  .next (((t.setFlag .c (r.getLsbD 6)).setFlag .v (r.getLsbD 6 ^^ r.getLsbD 5)).finish 2 2)

/-- AXS (R362): no borrow in, V unchanged. -/
def execAxs (b : Byte) (s : State) : Host.Outcome State Fault Refusal :=
  let t := s.a &&& s.x
  let r := t - b
  .next (({ s.setFlag .c (decide (b.toNat ≤ t.toNat)) with x := r }.setNZ r).finish 2 2)

/-- SBC, opcode 0xEB (R363): as SBC immediate. -/
def execSbcAlt (b : Byte) (s : State) : Host.Outcome State Fault Refusal :=
  .next ((s.subA b).finish 2 2)

/-- NOP, the undocumented one-byte variants (R364). -/
def execNopAlt (_op : Byte) (s : State) : Host.Outcome State Fault Refusal :=
  .next (s.finish 1 2)

/-- DOP (R365): the operand is read and discarded. -/
def execDop (_op : Byte) (o : Src) (s : State) : Host.Outcome State Fault Refusal :=
  let q := s.readSrc o
  .next (q.s.finish (modeSize o.mode) (readCost o.mode q.crossed))

/-- TOP (R366): the operand is read and discarded. -/
def execTop (_op : Byte) (a : Addr) (s : State) : Host.Outcome State Fault Refusal :=
  let q := s.readAddr a
  .next (q.s.finish (modeSize a.mode) (readCost a.mode q.crossed))

/-- An opcode without semantics (R370, R601): the machine enters the fatal condition, from which no
further step exists; nothing else changes and no cycles are charged (log entry 8). -/
def execUnimpl (op : Byte) (s : State) : Host.Outcome State Fault Refusal :=
  .next { s with halted := .unimplementedOpcode op s.pc }

end Sys2Proof.Machine
end

