-- ==== Sys2Proof/Machine/Render.lean ====
section
/-! DEFINITION. The scanline renderer (spec/45_ppu_render.md R451 to R470). -/

namespace Sys2Proof.Machine

/-- One column of the line being drawn: `row[x]`, `bgop[x]`, `s0[x]` (R451). -/
structure Column where
  colour : Colour
  bgop : Bool
  s0 : Bool
deriving DecidableEq, Repr

/-- A PPU address from a natural number. -/
def vaddr (n : Nat) : VAddr := BitVec.ofNat 14 n

/-- `VramRead(a) & 0x3F` as a palette index. -/
def Ppu.colourAt (p : Ppu) (a : VAddr) : Colour := (p.vramRead a).setWidth 6

/-! ## Step 1: bases and sprite size (R453) -/

/-- `bg_base`. -/
def Ppu.bgBase (p : Ppu) : Nat := if p.ctrl.getLsbD 4 then 0x1000 else 0x0000

/-- `spr_base`, used only for 8 by 8 sprites. -/
def Ppu.sprBase (p : Ppu) : Nat := if p.ctrl.getLsbD 3 then 0x1000 else 0x0000

/-- `h`, the sprite height. -/
def Ppu.sprHeight (p : Ppu) : Nat := if p.ctrl.getLsbD 5 then 16 else 8

/-! ## Step 2: selection (R455, R456) -/

/-- Byte `k` of sprite `i` (10_state.md R52): Y, tile, attributes, X. -/
def Ppu.sprite (p : Ppu) (i k : Nat) : Byte := p.oam.read (4 * i + k)

/-- `line - (y + 1)`, as an integer. -/
def Ppu.spriteRow (p : Ppu) (line : Int) (i : Nat) : Int := line - ((p.sprite i 0).toNat + 1)

/-- Sprite `i` covers the line. -/
def Ppu.covers (p : Ppu) (line : Int) (i : Nat) : Bool :=
  decide (0 ≤ p.spriteRow line i ∧ p.spriteRow line i < p.sprHeight)

/-- Every sprite that covers the line, in index order. -/
def Ppu.covering (p : Ppu) (line : Int) : List Nat :=
  if p.rendering then (List.range 64).filter (p.covers line) else []

/-- The selected sprites: the first eight. -/
def Ppu.selected (p : Ppu) (line : Int) : List Nat := (p.covering line).take 8

/-- A ninth covering sprite is found (R456). -/
def Ppu.overflows (p : Ppu) (line : Int) : Bool := decide (8 < (p.covering line).length)

/-- The sprite lies behind the background. -/
def Ppu.isBehind (p : Ppu) (i : Nat) : Bool := (p.sprite i 2).getLsbD 5

/-! ## Step 3: fill (R457) -/

/-- The universal background colour. -/
def Ppu.fillColour (p : Ppu) (black : Colour) : Colour :=
  if p.mask.getLsbD 3 then p.colourAt 0x3F00 else black

/-- The 256 columns of the filled line. -/
def Ppu.fill (p : Ppu) (black : Colour) : List Column :=
  List.replicate 256 { colour := p.fillColour black, bgop := false, s0 := false }

/-! ## Reload (R458) -/

/-- The scroll position at the start of the line. -/
def Ppu.reload (p : Ppu) (line : Int) : Ppu :=
  if p.rendering then
    if line = 0 then { p with v := p.t }
    else { p with v := (p.v &&& 0x7BE0#15) ||| (p.t &&& 0x041F#15) }
  else p

/-! ## Steps 4 and 7: sprites (R460, R461, R469, R470) -/

/-- The row of the sprite on this line, after the vertical flip (R460). -/
def Ppu.patternRow (p : Ppu) (line : Int) (i : Nat) : Nat :=
  let r := (p.spriteRow line i).toNat
  if (p.sprite i 2).getLsbD 7 then p.sprHeight - 1 - r else r

/-- The address of the sprite's pattern row (R460). -/
def Ppu.patternAddr (p : Ppu) (line : Int) (i : Nat) : Nat :=
  let tile := (p.sprite i 1).toNat
  let r := p.patternRow line i
  if p.sprHeight = 8 then p.sprBase + tile * 16 + r
  else
    let tt := tile / 2 * 2
    if 8 ≤ r then tile % 2 * 0x1000 + (tt + 1) * 16 + (r - 8)
    else tile % 2 * 0x1000 + tt * 16 + r

/-- The two pattern bits of a pixel, as a number 0 to 3. -/
def patternBits (lo hi : Byte) (bit : Nat) : Nat :=
  (hi.getLsbD bit).toNat * 2 + (lo.getLsbD bit).toNat

/-- The pixel of sprite `i` at its column `c`: where it is drawn and its colour; `none` when it is not
drawn (R460). -/
def Ppu.spritePixel (p : Ppu) (line : Int) (i c : Nat) : Option (Nat × Colour) :=
  let attr := p.sprite i 2
  let addr := p.patternAddr line i
  let bit := if attr.getLsbD 6 then c else 7 - c
  let q := patternBits (p.vramRead (vaddr addr)) (p.vramRead (vaddr (addr + 8))) bit
  let x := (p.sprite i 3).toNat + c
  if q ≠ 0 ∧ x ≤ 255 ∧ p.mask.getLsbD 4 ∧ (8 ≤ x ∨ p.mask.getLsbD 2) then
    some (x, p.colourAt (vaddr (0x3F10 + (attr.toNat % 4) * 4 + q)))
  else none

/-- The drawn pixels of sprite `i`, left to right. -/
def Ppu.spritePixels (p : Ppu) (line : Int) (i : Nat) : List (Nat × Colour) :=
  (List.range 8).filterMap (p.spritePixel line i)

/-- Draw the pixels of a "behind" sprite (R461). -/
def drawBehindPixels (i : Nat) : List (Nat × Colour) → List Column → List Column
  | [], cols => cols
  | (x, k) :: ps, cols =>
    drawBehindPixels i ps
      (cols.modify x (fun c => { c with colour := k, s0 := c.s0 || decide (i = 0) }))

/-- Step 4: the "behind" set, given in drawing order. -/
def Ppu.drawBehind (p : Ppu) (line : Int) : List Nat → List Column → List Column
  | [], cols => cols
  | i :: is, cols => p.drawBehind line is (drawBehindPixels i (p.spritePixels line i) cols)

/-- Draw the pixels of an "in front" sprite, with the sprite-0 check (R469, R470). -/
def drawFrontPixels (i : Nat) : List (Nat × Colour) → List Column × Bool → List Column × Bool
  | [], q => q
  | (x, k) :: ps, (cols, hit) =>
    let opaqueBg := (cols[x]?.map (·.bgop)).getD false
    drawFrontPixels i ps
      (cols.modify x (fun c => { c with colour := k }),
        hit || (decide (i = 0) && opaqueBg && decide (x ≠ 255)))

/-- Step 7: the "in front" set, given in drawing order. -/
def Ppu.drawFront (p : Ppu) (line : Int) : List Nat → List Column × Bool → List Column × Bool
  | [], q => q
  | i :: is, q => p.drawFront line is (drawFrontPixels i (p.spritePixels line i) q)

/-! ## Step 5: background (R462, R463, R465) -/

/-- `incx(vv)` (R465). -/
def incX (vv : Scroll) : Scroll :=
  if vv &&& 0x001F = 31 then (vv &&& 0x7FE0) ^^^ 0x0400 else vv + 1

/-- The colour of the background pixel at scroll position `vv`, fine X `px`; `none` when it is
transparent (R462). -/
def Ppu.bgPixel (p : Ppu) (vv : Scroll) (px : BitVec 3) : Option Colour :=
  let tile := (p.vramRead (0x2000#14 ||| (vv &&& 0x0FFF#15).setWidth 14)).toNat
  let at_ := p.vramRead
    (0x23C0#14 ||| (vv &&& 0x0C00#15).setWidth 14 ||| ((vv >>> 4) &&& 0x38#15).setWidth 14
      ||| ((vv >>> 2) &&& 0x07#15).setWidth 14)
  let shift := (((vv >>> 4) &&& 4#15) ||| (vv &&& 2#15)).toNat
  let pal := ((at_ >>> shift) &&& 3#8).toNat
  let fy := ((vv >>> 12) &&& 7#15).toNat
  let addr := p.bgBase + tile * 16 + fy
  let q := patternBits (p.vramRead (vaddr addr)) (p.vramRead (vaddr (addr + 8))) (7 - px.toNat)
  if q ≠ 0 then some (p.colourAt (vaddr (0x3F00 + pal * 4 + q))) else none

/-- Step 5 over the columns from `x` on, with the sprite-0 check of R463. -/
def Ppu.bgWalk (p : Ppu) : List Column → Nat → Scroll → BitVec 3 → List Column × Bool
  | [], _, _, _ => ([], false)
  | c :: cs, x, vv, px =>
    let rest := p.bgWalk cs (x + 1) (if px = 7 then incX vv else vv) (px + 1)
    match p.bgPixel vv px with
    | none => (c :: rest.1, rest.2)
    | some k =>
      if 8 ≤ x ∨ p.mask.getLsbD 1 then
        ({ c with colour := k, bgop := true } :: rest.1, (c.s0 && decide (x ≠ 255)) || rest.2)
      else (c :: rest.1, rest.2)

/-- Step 5, only if the background is shown. -/
def Ppu.drawBackground (p : Ppu) (cols : List Column) : List Column × Bool :=
  if p.mask.getLsbD 3 then p.bgWalk cols 0 p.v p.fineX else (cols, false)

/-! ## Step 6: the vertical advance (R466) -/

/-- The coarse-Y step: 29 wraps with the nametable toggle, 31 without. -/
def coarseYStep (v : Scroll) : Scroll :=
  let v := v &&& 0x0FFF
  let cy := (v >>> 5) &&& 0x1F#15
  if cy = 29 then (v ^^^ 0x0800) &&& 0x7C1F
  else if cy = 31 then v &&& 0x7C1F
  else (v &&& 0x7C1F#15) ||| ((cy + 1) <<< 5)

/-- The scroll position after a line. -/
def advanceY (v : Scroll) : Scroll :=
  if v &&& 0x7000 ≠ 0x7000 then v + 0x1000 else coarseYStep v

/-! ## The whole line -/

/-- `render_line(line, frame)` (R451): the PPU after it, and the 256 columns. -/
def Ppu.renderLine (black : Colour) (p : Ppu) (line : Int) : Ppu × List Column :=
  let p := p.reload line
  let sel := p.selected line
  let behind := (sel.filter p.isBehind).reverse
  let front := (sel.filter (fun i => !p.isBehind i)).reverse
  let bg := p.drawBackground (p.drawBehind line behind (p.fill black))
  let fr := p.drawFront line front bg
  ({ p with
      v := if p.rendering then advanceY p.v else p.v
      sprite0Hit := p.sprite0Hit || fr.2
      spriteOverflow := p.spriteOverflow || p.overflows line },
    fr.1)

end Sys2Proof.Machine
end

