-- ==== Sys2Proof/Machine/Scheduler.lean ====
section
/-! DEFINITION. The parts of a scheduler step other than the instruction itself: fetch, the scanline
boundary, the accumulation loop (spec/47_scheduler.md, spec/30_encoding.md R150, spec/46_mappers.md
R537, spec/60_exceptions.md R614). -/

namespace Sys2Proof.Machine

/-! ## Fetch -/

/-- The fetch of an instruction (R150 steps 1 to 3): opcode and operand bytes by `MemRead`, with their
side effects (20_memory.md R86); PC still holds the opcode's address. -/
def State.fetch (s : State) : Instr × State :=
  let q := s.memRead s.pc
  match operandBytes s.cfg.undocumentedEnabled q.1 with
  | 0 => (instrOf s.cfg.undocumentedEnabled q.1 0 0, q.2)
  | 1 =>
    let q1 := q.2.memRead (s.pc + 1)
    (instrOf s.cfg.undocumentedEnabled q.1 q1.1 0, q1.2)
  | _ =>
    let q1 := q.2.memRead (s.pc + 1)
    let q2 := q1.2.memRead (s.pc + 2)
    (instrOf s.cfg.undocumentedEnabled q.1 q1.1 q2.1, q2.2)

/-- The level-sensitive IRQ test at the start of the instruction branch (60_exceptions.md R614). -/
def State.takePendingIrq (s : State) : State :=
  if s.cfg.irqLevelSensitive && s.irqPending && !s.flag .i then s.irqEntry else s

/-! ## The scanline boundary -/

/-- MMC3's counter when it is clocked (R537). -/
def Mmc3.clock (r : Mmc3) : Mmc3 :=
  if r.irqCounter = 0 ∨ r.irqReload then { r with irqCounter := r.irqLatch, irqReload := false }
  else { r with irqCounter := r.irqCounter - 1 }

/-- The boundary is one that clocks the counter (R537). -/
def State.clocksCounter (s : State) : Bool :=
  s.ppu.rendering
    && (s.cfg.mmc3CountInVblank || decide (0 ≤ s.ppu.line ∧ s.ppu.line ≤ 240))

/-- `mapper.update()` (R537): MMC3 only. -/
def State.mapperUpdate (s : State) : State :=
  match s.mapper with
  | .mmc3 r =>
    if s.clocksCounter then
      let r := r.clock
      let t := { s with mapper := .mmc3 r }
      if r.irqCounter = 0 ∧ r.irqEnabled then t.raiseIrq else t
    else s
  | .nrom | .mmc1 _ | .unrom _ | .cnrom _ | .unsupported => s

/-- End of vertical blank, when `line` becomes 261 (R555). -/
def State.endVblank (s : State) : State :=
  { s with ppu := { s.ppu with
      vblank := false, sprite0Hit := false, spriteOverflow := false
      line := -1, frame := s.ppu.frame + 1 } }

/-- Start of vertical blank, when `line` becomes 241 (R554). -/
def State.startVblank (s : State) : State :=
  let s := { s with ppu := { s.ppu with vblank := true, cyclesSinceVblank := 0 } }
  if s.ppu.ctrl.getLsbD 7 then s.nmiEntry else s

/-- The pixel events of a row, from column `x` on (R452). -/
def pixelEvents (y : Nat) : List Column → Nat → List Event
  | [], _ => []
  | c :: cs, x => .drawPixel x y c.colour :: pixelEvents y cs (x + 1)

/-- `render_line` for the current line, with its pixel events (R451, R452). -/
def State.renderLine (s : State) : State :=
  let q := s.ppu.renderLine s.cfg.blackIndex s.ppu.line
  { s with ppu := q.1, events := s.events ++ pixelEvents s.ppu.line.toNat q.2 0 }

/-- Step 1 of a boundary: the line counter (R553). -/
def State.advanceLine (s : State) : State :=
  { s with ppu := { s.ppu with line := s.ppu.line + 1 } }

/-- Step 2: the end of vertical blank is due. -/
def State.vblankEndIfDue (s : State) : State := if s.ppu.line = 261 then s.endVblank else s

/-- Step 4: a visible line is rendered. -/
def State.renderIfVisible (s : State) : State :=
  if 0 ≤ s.ppu.line ∧ s.ppu.line ≤ 239 then s.renderLine else s

/-- Step 5: the frame hand-over (R556). -/
def State.presentIfDue (s : State) : State :=
  if s.ppu.line = 240 then { s with events := s.events ++ [.presentFrame] } else s

/-- Step 6: the start of vertical blank is due. -/
def State.vblankStartIfDue (s : State) : State := if s.ppu.line = 241 then s.startVblank else s

/-- `Boundary()`, in the order of R553. -/
def State.boundary (s : State) : State :=
  s.advanceLine.vblankEndIfDue.mapperUpdate.renderIfVisible.presentIfDue.vblankStartIfDue

/-! ## The accumulation loop (R552) -/

/-- A new scanline: its budget, then the boundary. -/
def State.nextLine (s : State) : State :=
  { s with ppu := { s.ppu with budget := s.ppu.budget + s.cfg.cyclesPerScanline } }.boundary

/-- `while budget <= 0`, at most `fuel` times; `none` when that many lines do not pay the debt. -/
def runLines : Nat → State → Option State
  | 0, s => if 0 < s.ppu.budget then some s else none
  | k + 1, s => if 0 < s.ppu.budget then some s else runLines k s.nextLine

/-- Enough lines for every debt the loop can pay (log entry 16; `LoopTrace.ends_within` in Laws/ proves it):
at most one IRQ entry, and one NMI entry a frame, can add to the debt while no instruction runs. -/
def lineFuel (s : State) : Nat :=
  262 * ((-s.ppu.budget).toNat + s.cfg.intEntryCycles + 2)

/-- Rule R552 for the accumulated cost of the step. -/
def State.settle (s : State) : Option State :=
  let t := s.accumulate s.cyc
  runLines (lineFuel t) { t with cyc := 0 }

/-- The start of a step: no cost accumulated, no output emitted yet. -/
def State.beginStep (s : State) : State := { s with cyc := 0, events := [] }

/-- The fault a step from a halted machine answers (10_state.md R71, log entry 9). -/
def haltFault : Halted → Option Fault
  | .running => none
  | .unsupportedCartridge i => some (.unsupportedCartridge i)
  | .unimplementedOpcode op pc => some (.unimplementedOpcode op pc)

/-! ## Placing an instruction (log entry 7) -/

/-- The instruction bytes at `pc` can be stored where the fetch reads them. -/
def fetchable (pc : Word) : Bool :=
  [pc, pc + 1, pc + 2].all fun a =>
    match region (norm a) with
    | .ram | .storage | .sram | .rom => true
    | .ppu | .audio | .dma | .pad0 | .pad1 => false

/-- Bytes stored one after the other where a fetch from `pc` on reads them. -/
def State.placeBytes (s : State) : Word → List Byte → State
  | _, [] => s
  | pc, b :: bs => (s.store (norm pc) b).placeBytes (pc + 1) bs

end Sys2Proof.Machine
end

