-- ==== Sys2Proof/Machine/Step.lean ====
section
/-! DEFINITION. One step of the scheduler (spec/47_scheduler.md R551). -/

namespace Sys2Proof.Machine

/-- The end of a step: rule R552, unless the instruction halted the machine (R551). -/
def State.endStep (s : State) : Host.Outcome State Fault Refusal :=
  match s.halted with
  | .running =>
    match s.settle with
    | some t => .next t
    | none => .fault .scanlineLoopDiverges
  | .unsupportedCartridge _ | .unimplementedOpcode _ _ => .next s

/-- One step: the fatal state excludes everything; a pending reset is taken instead of an instruction;
otherwise one instruction is fetched and executed (R551, 60_exceptions.md R604). Where the fetched opcode
has no semantics, what the step did before it stays: a remembered IRQ entered at its start (R614), with
its cycles, and the side effects of the fetch (DEDUCED; log entry 21). -/
def step (s : State) : Host.Outcome State Fault Refusal :=
  match haltFault s.halted with
  | some f => .fault f
  | none =>
    let s := s.beginStep
    if s.resetPending then s.resetEvent.endStep
    else
      let q := s.takePendingIrq.fetch
      match exec q.1 q.2 with
      | .next t => t.endStep
      | .fault f => .fault f
      | .refused r => .refused r

/-- `s` with an instruction's bytes, as the opcode table numbers them, stored where the next step
fetches, and nothing that would keep that step from running it (log entry 7). -/
def State.withFetchWord (s : State) (nbits w : Nat) : State :=
  let s := { s with
    pc := if fetchable s.pc then s.pc else 0x0000
    resetPending := false, halted := .running, irqPending := false }
  s.placeBytes s.pc (tableBytes nbits w)

end Sys2Proof.Machine
end

