-- ==== Sys2Proof/Machine/HostMoves.lean ====
section
/-! DEFINITION. What the host may do between two steps (spec/10_state.md R73, spec/47_scheduler.md R559,
R560; log entry 18). No step does any of it. -/

namespace Sys2Proof.Machine

/-- The reset request (R559): the next step is the RESET event. -/
def State.requestReset (s : State) : State := { s with resetPending := true }

/-- The button words the input collaborator supplies (10_state.md R32). -/
def State.setButtons (s : State) (b0 b1 : Byte) : State :=
  { s with buttons0 := b0, buttons1 := b1 }

/-- One SRAM byte restored by the persistence collaborator (R560, 10_state.md R30); an offset outside
the SRAM range changes nothing. -/
def State.restoreSramByte (s : State) (a : Nat) (v : Byte) : State :=
  if 0x6000 ≤ a ∧ a < 0x8000 then { s with mem := s.mem.write a v } else s

/-- A snapshot is the whole state (R560). -/
def State.snapshot (s : State) : State := s

/-- A restore replaces the whole state (R73, R560), which the cartridge record is no part of (R560).
DESIGN CHOICE (log entry 18): the button words, which R32 calls an external input and no rule speaks of
at a restore, come from the snapshot with the rest, and so do the outputs of its last step and `cyc`;
the parameters stay. -/
def State.restore (s snap : State) : State := { snap with cart := s.cart, cfg := s.cfg }

end Sys2Proof.Machine
end

