-- ==== Sys2Proof/Safety.lean ====
section
/-! DEFINITION. The vocabulary of the statements: the status byte from its flags, readable addresses,
what an instruction stores and costs by the opcode table, and the invariants of the machine. -/

namespace Sys2Proof.Machine

/-! ## The status register -/

/-- The status byte with these flags: N V R B D I Z C from bit 7 down, R always 1 (10_state.md R24). -/
def packP (n v b d i z c : Bool) : Byte :=
  BitVec.ofBool n ++ BitVec.ofBool v ++ 1#1 ++ BitVec.ofBool b ++ BitVec.ofBool d
    ++ BitVec.ofBool i ++ BitVec.ofBool z ++ BitVec.ofBool c

/-- Bit 5 of P is 1 (R24). -/
def State.bit5Set (s : State) : Prop := s.p.getLsbD 5 = true

/-- P with N and Z from a result byte, the other flags as they were (00_scope.md R11, SetNZ). -/
def nzP (s : State) (r : Byte) : Byte :=
  packP (r.getLsbD 7) (s.flag .v) (s.flag .b) (s.flag .d) (s.flag .i) (decide (r = 0)) (s.flag .c)

/-- P with N and Z from a result byte and C as given. -/
def nzcP (s : State) (r : Byte) (c : Bool) : Byte :=
  packP (r.getLsbD 7) (s.flag .v) (s.flag .b) (s.flag .d) (s.flag .i) (decide (r = 0)) c

/-- P with N and Z from a result byte and V and C as given. -/
def nvzcP (s : State) (r : Byte) (v c : Bool) : Byte :=
  packP (r.getLsbD 7) v (s.flag .b) (s.flag .d) (s.flag .i) (decide (r = 0)) c

/-- The sum of two signed bytes and a carry lies outside -128 to 127 (41_arithmetic_logic.md R250). -/
def outOfSignedRange (n : Int) : Prop := n < -128 ∨ 127 < n

/-! ## Addresses -/

/-- A read of the address has no side effect and gives the byte of main memory (20_memory.md R84). -/
def plainAddr (a : Word) : Bool :=
  match region (norm a) with
  | .ram | .storage | .sram | .rom => true
  | .ppu | .audio | .dma | .pad0 | .pad1 => false

/-- The byte of main memory that a plain address names. -/
def State.byteAt (s : State) (a : Word) : Byte := s.mem.read (norm a).toNat

/-- A store to the address puts the byte into main memory (R82, R85): RAM, plain storage, or SRAM that is
enabled and not read-only. -/
def State.storesByte (s : State) (a : Word) : Bool :=
  match region (norm a) with
  | .ram | .storage => true
  | .sram => s.sramEnabled && !s.sramReadonly
  | .rom | .ppu | .audio | .dma | .pad0 | .pad1 => false

/-- These bytes stand at plain addresses from `pc` on. -/
def State.holdsBytes (s : State) : Word → List Byte → Prop
  | _, [] => True
  | pc, b :: bs => plainAddr pc = true ∧ s.byteAt pc = b ∧ s.holdsBytes (pc + 1) bs

/-- The machine takes no IRQ entry before its next instruction (60_exceptions.md R614). -/
def State.noPendingIrq (s : State) : Prop :=
  s.cfg.irqLevelSensitive = false ∨ s.irqPending = false ∨ s.flag .i = true

/-- What differs between `s` and `t` is at most what one bus read can change (20_memory.md R87): the
vertical-blank flag, the write toggle, the video address, the read buffer, the controller counters. -/
def OnlyReadEffects (s t : State) : Prop :=
  ∃ vb w v rb c0 c1, t
    = { s with
        ppu := { s.ppu with vblank := vb, w := w, v := v, readBuffer := rb }
        pad0 := { s.pad0 with count := c0 }
        pad1 := { s.pad1 with count := c1 } }

/-- What no bus write changes: the CPU's registers, the counters, the configuration, the host's
inputs. -/
def WriteKeeps (s t : State) : Prop :=
  t.a = s.a ∧ t.x = s.x ∧ t.y = s.y ∧ t.sp = s.sp ∧ t.p = s.p ∧ t.pc = s.pc
    ∧ t.cyclesTotal = s.cyclesTotal ∧ t.buttons0 = s.buttons0 ∧ t.buttons1 = s.buttons1
    ∧ t.cart = s.cart ∧ t.cfg = s.cfg ∧ t.resetPending = s.resetPending ∧ t.halted = s.halted

/-- The stack byte `k` below the pointer, wrapping in page 1 (10_state.md R23). -/
def stackSlot (sp k : Byte) : Nat := 0x100 + (sp - k).toNat

/-- The byte of main memory at `n` after an entry has pushed the return address and the status
(60_exceptions.md R602). -/
def stackedByte (s : State) (ret : Word) (b : Bool) (n : Nat) : Byte :=
  if n = stackSlot s.sp 0 then hiByte ret
  else if n = stackSlot s.sp 1 then loByte ret
  else if n = stackSlot s.sp 2 then
    packP (s.flag .n) (s.flag .v) b (s.flag .d) (s.flag .i) (s.flag .z) (s.flag .c)
  else s.mem.read n

/-- `t` is `s` after taking an exception: three bytes pushed, S down by three, B as given, I set, PC the
little-endian word at the vector; A, X, Y and everything else as they were (R602). -/
def EntryFrom (s t : State) (ret : Word) (b : Bool) (vector : Nat) : Prop :=
  (∀ n, t.mem.read n = stackedByte s ret b n)
    ∧ t = { s with
        mem := t.mem, sp := s.sp - 3
        p := packP (s.flag .n) (s.flag .v) b (s.flag .d) true (s.flag .z) (s.flag .c)
        pc := wordOf (s.mem.read (vector + 1)) (s.mem.read vector) }

/-! ## What an instruction costs and where it stores, by the opcode table -/

/-- The descriptor of an instruction's opcode (30_encoding.md R131, R151). -/
def descrOf (i : Instr) : Option Descriptor := (opcodeOf i).bind describe

/-- The byte size of an instruction: its descriptor's, and the opcode byte alone for an opcode without
semantics (30_encoding.md R131, R132, R157). -/
def instrSize (i : Instr) : Nat :=
  match descrOf i with
  | some d => d.size
  | none => 1

/-- The addressed operand of an instruction, if it has one. -/
def operandOf (i : Instr) : Option Addr :=
  match i with
  | .lda (.mem a) | .ldx (.mem a) | .ldy (.mem a) | .adc (.mem a) | .sbc (.mem a) | .and (.mem a)
  | .ora (.mem a) | .eor (.mem a) | .cmp (.mem a) | .cpx (.mem a) | .cpy (.mem a)
  | .dop _ (.mem a) => some a
  | .sta a | .stx a | .sty a | .bit a | .inc a | .dec a | .slo a | .rla a | .sre a | .rra a
  | .dcp a | .isc a | .sax a | .lax a | .top _ a => some a
  | .asl (.mem a) | .lsr (.mem a) | .rol (.mem a) | .ror (.mem a) => some a
  | _ => none

/-- The instruction stores to its addressed operand. -/
def isStore (i : Instr) : Bool :=
  match i with
  | .sta _ | .stx _ | .sty _ | .sax _ | .inc _ | .dec _ | .slo _ | .rla _ | .sre _ | .rra _
  | .dcp _ | .isc _ => true
  | .asl (.mem _) | .lsr (.mem _) | .rol (.mem _) | .ror (.mem _) => true
  | _ => false

/-- The branch is taken (42_control_flow_flags.md R307 to R314). -/
def branchTaken (i : Instr) (s : State) : Bool :=
  match i with
  | .bcc _ => !s.flag .c
  | .bcs _ => s.flag .c
  | .beq _ => s.flag .z
  | .bne _ => !s.flag .z
  | .bmi _ => s.flag .n
  | .bpl _ => !s.flag .n
  | .bvc _ => !s.flag .v
  | .bvs _ => s.flag .v
  | _ => false

/-- The displacement byte of a branch. -/
def displacementOf (i : Instr) : Byte :=
  match i with
  | .bcc d | .bcs d | .beq d | .bne d | .bmi d | .bpl d | .bvc d | .bvs d => d
  | _ => 0

/-- The cost the opcode table gives (30_encoding.md R146 to R148): base, plus the page or branch rule,
plus 512 for a store to 0x4014. -/
def tableCost (i : Instr) (s : State) : Nat :=
  match descrOf i with
  | none => 0
  | some d =>
    d.cycles
      + (match d.rule with
        | .none => 0
        | .page => match operandOf i with
          | some a => if (s.resolve a).crossed then 1 else 0
          | none => 0
        | .branch =>
          if branchTaken i s then
            1 + (if pagesDiffer (s.pc + 2) (branchTarget s.pc (displacementOf i)) then 1 else 0)
          else 0)
      + (match operandOf i with
        | some a => if isStore i && decide (norm (s.resolve a).ea = 0x4014) then 512 else 0
        | none => 0)

/-! ## The scanlines a step begins -/

/-- R552, from the state `t` an instruction leaves: `line 0` is `t` with the cost accumulated; while no
budget is left a scanline begins, its budget added and then its boundary made, so that `line j` is the
state after `j` of them; after `k` of them budget is left. -/
def State.BeginsLines (t : State) (k : Nat) (line : Nat → State) : Prop :=
  line 0 = { t with
      cyc := 0
      cyclesTotal := t.cyclesTotal + t.cyc
      ppu := { t.ppu with
        cyclesSinceVblank := t.ppu.cyclesSinceVblank + t.cyc
        budget := t.ppu.budget - t.cyc } }
    ∧ (∀ j, j < k → (line j).ppu.budget ≤ 0
      ∧ line (j + 1) = State.boundary { line j with ppu := { (line j).ppu with
          budget := (line j).ppu.budget + (line j).cfg.cyclesPerScanline } })
    ∧ 0 < (line k).ppu.budget

/-! ## The colours of a line -/

/-- The colour the sprites `is` draw at column `x`: the first of them that draws there. -/
def Ppu.spriteAt (p : Ppu) (line : Int) (is : List Nat) (x : Nat) : Option Colour :=
  is.findSome? (fun i => ((p.spritePixels line i).find? (fun q => q.1 == x)).map (·.2))

/-- The background's colour at column `x`. -/
def Ppu.backgroundAt (p : Ppu) (x : Nat) : Option Colour :=
  if p.mask.getLsbD 3 && (decide (8 ≤ x) || p.mask.getLsbD 1) then
    p.bgPixel (incX^[(p.fineX.toNat + x) / 8] p.v) (BitVec.ofNat 3 (p.fineX.toNat + x))
  else none

/-! ## MMC1's windows -/

/-- `t` is `s` after MMC1's `switch_banks()` with the registers `r` (46_mappers.md R523 to R526): the
mirroring register 0 selects (a four-screen cartridge keeps its own), the two PRG windows by the PRG mode,
the pattern tables by the CHR mode, and nothing else. -/
def Mmc1Layout (s t : State) (r : Mmc1) : Prop :=
  let prg := s.cart.prgCount
  let chr := s.cart.chrCount
  let mode := r.reg[0].toNat / 4 % 4
  let b := r.reg[3].toNat % 16
  let lower := if mode = 2 then 0 else if mode = 3 then b else b / 2 * 2
  let upper := if mode = 2 then b else if mode = 3 then prg - 1 else b / 2 * 2 + 1
  t = { s with
      mem := t.mem, mapper := .mmc1 r
      ppu := { s.ppu with vram := t.ppu.vram, mirroring := t.ppu.mirroring } }
    ∧ t.ppu.mirroring
      = (if s.cart.fourScreen then s.ppu.mirroring
        else match r.reg[0].toNat % 4 with
          | 0 => .singleA
          | 1 => .singleB
          | 2 => .vertical
          | _ => .horizontal)
    ∧ (∀ n, n < 0x8000 → t.mem.read n = s.mem.read n)
    ∧ (∀ i, i < 16384 →
      t.mem.read (0x8000 + i) = s.cart.prg.read (lower % prg * 16384 + i)
        ∧ t.mem.read (0xC000 + i) = s.cart.prg.read (upper % prg * 16384 + i))
    ∧ (∀ n, 0x2000 ≤ n ∨ chr = 0 → t.ppu.vram.read n = s.ppu.vram.read n)
    ∧ (chr ≠ 0 → r.reg[0].getLsbD 4 = false → ∀ i, i < 8192 →
      t.ppu.vram.read i = s.cart.chr.read (r.reg[1].toNat / 2 % chr * 8192 + i))
    ∧ (chr ≠ 0 → r.reg[0].getLsbD 4 = true → ∀ i, i < 4096 →
      t.ppu.vram.read i = s.cart.chr.read (r.reg[1].toNat % (chr * 2) * 4096 + i)
        ∧ t.ppu.vram.read (0x1000 + i) = s.cart.chr.read (r.reg[2].toNat % (chr * 2) * 4096 + i))

/-! ## Invariants -/

/-- Every listed address of a memory is below `n`. -/
abbrev Memory.inside (m : Memory) (n : Nat) : Prop := ∀ c ∈ m, c.1 < n

/-- The memories are in canonical form and inside their arrays (10_state.md R30, R51, R52, R60). -/
structure State.MemoriesOk (s : State) : Prop where
  mem : s.mem.wf
  memInside : s.mem.inside 0x10000
  vram : s.ppu.vram.wf
  vramInside : s.ppu.vram.inside 0x4000
  oam : s.ppu.oam.wf
  oamInside : s.ppu.oam.inside 0x100
  prg : s.cart.prg.wf
  chr : s.cart.chr.wf

/-- The scanline timing (10_state.md R50, 47_scheduler.md R552, R557 (c)): the line rests in -1 to 260,
a running machine has budget left, and the cycles spent are the budgets consumed. -/
structure State.TimingOk (s : State) : Prop where
  line : -1 ≤ s.ppu.line ∧ s.ppu.line ≤ 260
  budget : s.halted = .running → 0 < s.ppu.budget
  budgetLe : s.ppu.budget ≤ s.cfg.cyclesPerScanline
  cycles : (s.cyclesTotal : Int)
    = (s.ppu.frame * 262 + s.ppu.line + 1) * s.cfg.cyclesPerScanline
      + (s.cfg.cyclesPerScanline - s.ppu.budget)

/-- The mapper is the variant the cartridge selects, its shift count in range (R61, R63, R501). -/
def State.MapperOk (s : State) : Prop :=
  match s.mapper with
  | .nrom => s.cart.mapperId = 0
  | .mmc1 r => s.cart.mapperId = 1 ∧ r.shiftCount ≤ 4
  | .unrom _ => s.cart.mapperId = 2
  | .cnrom _ => s.cart.mapperId = 3
  | .mmc3 _ => s.cart.mapperId = 4
  | .unsupported => 4 < s.cart.mapperId

/-- Palette bytes have their upper two bits clear (10_state.md R51). -/
def State.PaletteOk (s : State) : Prop :=
  ∀ a, 0x3F00 ≤ a → (s.ppu.vram.read a).toNat < 64

/-- What holds between steps, whatever the host's program (the invariant of this model). -/
structure State.Invariant (s : State) : Prop where
  memories : s.MemoriesOk
  timing : s.TimingOk
  mapper : s.MapperOk
  palette : s.PaletteOk
  bit5 : s.bit5Set
  cyc : s.cyc = 0
  pending : s.cfg.irqLevelSensitive = false → s.irqPending = false

end Sys2Proof.Machine
end

