-- ==== Sys2Proof/Certificates/Slice0/Obligations.lean ====
section
/-! DEFINITION. The statements for the provers, from the numbered rules of spec/. Where a rule carries the
spec's own marks ([from general knowledge], [derived], [decision]) the statement's basis is 'derived'; the
assumption log's entry 19 says so of all of them, and a title names any other entry a statement rests on. -/

section Statements

open Sys2Proof Sys2Proof.Machine

/-! ## Encoding -/

/-- R130, R151: decoding the bytes of a well-formed instruction gives it back and leaves the rest. -/
def Obligations.DecodeInvertsEncode : Prop :=
  ∀ (i : Instr) (rest : List Byte), i.wellFormed = true →
    decode (encode i ++ rest) = .ok (i, rest)

/-- R130 to R132, R151: what decodes is well-formed, and its bytes are the bytes that were decoded; of
BRK the second byte is any byte (log 17). -/
def Obligations.EncodeInvertsDecode : Prop :=
  ∀ (bytes : List Byte) (i : Instr) (rest : List Byte), decode bytes = .ok (i, rest) →
    i.wellFormed = true
      ∧ (i ≠ .brk → encode i ++ rest = bytes)
      ∧ (i = .brk → ∃ pad, bytes = 0x00 :: pad :: rest)

/-- A few words written out from the rules' encodings (R201, R204, R269, R301, R302, R310, R305, R358, R366,
R370). BRK's size of two (R132) is the spec's; that its second byte, whatever it is, is passed over and no
part of the instruction is the model's choice (log 17). -/
def Obligations.DecodeReadsWrittenWords : Prop :=
  decode [0xA9, 0x80] = .ok (.lda (.imm 0x80), [])
    ∧ decode [0x9D, 0x34, 0x12] = .ok (.sta (.abx 0x1234), [])
    ∧ decode [0x66, 0x10] = .ok (.ror (.mem (.zp 0x10)), [])
    ∧ decode [0x6C, 0xFF, 0x02] = .ok (.jmp (.ind 0x02FF), [])
    ∧ decode [0x20, 0x23, 0xC1] = .ok (.jsr 0xC123, [])
    ∧ decode [0xD0, 0xFD] = .ok (.bne 0xFD, [])
    ∧ decode [0x00, 0xEA, 0x58] = .ok (.brk, [0x58])
    ∧ decode [0xF3, 0x10] = .ok (.isc (.izy 0x10), [])
    ∧ decode [0x1C, 0xFF, 0x12] = .ok (.top 0x1C (.abx 0x12FF), [])
    ∧ decode [0x9C] = .ok (.unimpl 0x9C, [])

/-! ## Every instruction, one step -/

/-- R146 to R148, R416: every instruction with semantics completes, at the cost its row of the opcode
table gives, and moves none of the scheduler's counters. -/
def Obligations.EveryInstructionCompletesAtItsTableCost : Prop :=
  ∀ (i : Instr) (s : State), i.wellFormed = true → (∀ op, i ≠ .unimpl op) →
    ∃ t, exec i s = .next t ∧ t.cyc = s.cyc + tableCost i s
      ∧ t.cyclesTotal = s.cyclesTotal ∧ t.ppu.line = s.ppu.line ∧ t.ppu.budget = s.ppu.budget
      ∧ t.ppu.frame = s.ppu.frame ∧ t.ppu.cyclesSinceVblank = s.ppu.cyclesSinceVblank
      ∧ t.halted = s.halted ∧ t.resetPending = s.resetPending

/-- R150, R551, R552: the step from a state whose bytes at PC are those of `i` is exec of `i`, with the
outputs of the last step forgotten before it and the cost accumulated after it; within the scanline's
budget nothing else happens; past it, one boundary follows for each scanline begun, in order, however many
they are, until budget is left. R86, R350: wherever PC points, into a device register too, and whatever
UNDOCUMENTED_ENABLED is, the step is exec of what the bytes decode to that the bus reads at PC one by one,
from the state after just the reads made (BRK's second byte is not read, R132), and the boundaries follow
it in the same way. -/
def Obligations.StepRunsTheDecodedInstruction : Prop :=
  (∀ (s : State) (i : Instr), s.halted = .running → s.resetPending = false → s.noPendingIrq →
    s.cfg.undocumentedEnabled = true → i.wellFormed = true → s.holdsBytes s.pc (fetchedBytes i) →
    (step s
      = match exec i { s with cyc := 0, events := [] } with
        | .next t => t.endStep
        | .fault f => .fault f
        | .refused r => .refused r)
    ∧ ∀ t, exec i { s with cyc := 0, events := [] } = .next t → t.halted = .running →
        ((t.cyc : Int) < t.ppu.budget →
          step s = .next { t with
            cyc := 0
            cyclesTotal := t.cyclesTotal + t.cyc
            ppu := { t.ppu with
              cyclesSinceVblank := t.ppu.cyclesSinceVblank + t.cyc
              budget := t.ppu.budget - t.cyc } })
        ∧ ∀ (k : Nat) (line : Nat → State), t.BeginsLines k line → step s = .next (line k))
    ∧ ∀ (s : State) (i : Instr) (rest : List Byte), s.halted = .running → s.resetPending = false →
      s.noPendingIrq →
      let r0 := State.memRead { s with cyc := 0, events := [] } s.pc
      let r1 := r0.2.memRead (s.pc + 1)
      let r2 := r1.2.memRead (s.pc + 2)
      let read := if rest.length = 2 ∨ i = .brk then r0.2 else if rest.length = 1 then r1.2 else r2.2
      decodeWith s.cfg.undocumentedEnabled [r0.1, r1.1, r2.1] = .ok (i, rest) →
      (step s
        = match exec i read with
          | .next t => t.endStep
          | .fault f => .fault f
          | .refused r => .refused r)
      ∧ ∀ (t : State) (k : Nat) (line : Nat → State), exec i read = .next t → t.halted = .running →
        t.BeginsLines k line → step s = .next (line k)

/-- R551, R552, R625: from a running machine whose interrupt entries cost less than a scanline (as the
default parameters do), a step always answers a next state. -/
def Obligations.StepAlwaysAnswersANextState : Prop :=
  ∀ s : State, s.halted = .running → 2 * s.cfg.intEntryCycles < s.cfg.cyclesPerScanline →
    ∃ t, step s = .next t ∧ (t.halted = .running → 0 < t.ppu.budget)

/-- R370, R601, R551: an opcode without semantics halts the machine with its value and address, charges
nothing and changes nothing else, but that the step, as every step does, first forgets the outputs and the
cost of the one before (the model's own fields; logs 10, 11); from a halted machine no step exists. R350:
with UNDOCUMENTED_ENABLED false the undocumented opcodes are such opcodes (log 22). Wherever PC points, the
side effects of the fetch stay, and so does an IRQ entered at the step's start (R150, R614; DEDUCED,
log 21). -/
def Obligations.UnimplementedOpcodeHaltsTheMachine : Prop :=
  (∀ (op : Byte) (s : State),
      exec (.unimpl op) s = .next { s with halted := .unimplementedOpcode op s.pc })
    ∧ (∀ (op : Byte) (s : State), op ∈ unimplementedOpcodes → s.halted = .running →
        s.resetPending = false → s.noPendingIrq → plainAddr s.pc = true → s.byteAt s.pc = op →
        step s = .next { s with
          cyc := 0, events := [], halted := .unimplementedOpcode op s.pc })
    ∧ (∀ s : State, s.halted = .running → s.resetPending = false →
        let u := State.takePendingIrq { s with cyc := 0, events := [] }
        let r := u.memRead u.pc
        r.1 ∈ unimplementedOpcodes
          ∨ (s.cfg.undocumentedEnabled = false
            ∧ ∃ d, describe r.1 = some d ∧ d.documented = false) →
        step s = .next { r.2 with halted := .unimplementedOpcode r.1 u.pc })
    ∧ ∀ (s : State),
        (∀ op pc, s.halted = .unimplementedOpcode op pc →
          step s = .fault (.unimplementedOpcode op pc))
        ∧ ∀ m, s.halted = .unsupportedCartridge m → step s = .fault (.unsupportedCartridge m)

/-! ## Reset and exceptions -/

/-- R612, R701, R506: the reset step writes the registers, the SRAM flags, the mapper with its reset layout
(R511, R516, R520, R526, R538: of every variant the first PRG bank below the last, the first 8 KiB of CHR)
and PC from the vector, and nothing else; the list of outputs and the cost of the step before are
forgotten (logs 10, 11). -/
def Obligations.ResetStepReinitialises : Prop :=
  ∀ s : State, s.halted = .running → s.resetPending = true → 0 < s.ppu.budget → s.MapperOk →
    ∃ t, step s = .next t
      ∧ t = { s with
        a := s.cfg.resetA, x := s.cfg.resetX, y := s.cfg.resetY, sp := s.cfg.resetS
        p := s.cfg.resetP ||| 0x20
        pc := wordOf (t.mem.read 0xFFFD) (t.mem.read 0xFFFC)
        irqPending := false, resetPending := false, halted := .running
        sramEnabled := true, sramReadonly := false, mapper := initMapper s.cart.mapperId
        mem := t.mem
        ppu := { s.ppu with vram := t.ppu.vram, mirroring := seedMirroring s.cart }
        cyc := 0, events := [] }
      ∧ (∀ n, n < 0x8000 → t.mem.read n = s.mem.read n)
      ∧ (∀ n, 0x2000 ≤ n → t.ppu.vram.read n = s.ppu.vram.read n)
      ∧ (s.cart.chrCount = 0 → t.ppu.vram = s.ppu.vram)
      ∧ (s.cart.mapperId ≤ 4 → 0 < s.cart.prgCount → ∀ i, i < 16384 →
        t.mem.read (0x8000 + i) = s.cart.prg.read i
          ∧ t.mem.read (0xC000 + i) = s.cart.prg.read ((s.cart.prgCount - 1) * 16384 + i))
      ∧ (s.cart.mapperId ≤ 4 → s.cart.chrCount ≠ 0 → ∀ i, i < 8192 →
        t.ppu.vram.read i = s.cart.chr.read i)

/-- R512: a one-bank NROM cartridge without CHR, after the first step. -/
def Obligations.NromBootsFromItsVector : Prop :=
  ∀ (cfg : Params) (c : Cartridge) (ram vram oam : Memory), 0 < cfg.cyclesPerScanline →
    c.prgCount = 1 → c.chrCount = 0 → c.mapperId = 0 →
    ∃ t, step (State.powerOn cfg c ram vram oam) = .next t
      ∧ (∀ i, i < 16384 → t.mem.read (0x8000 + i) = c.prg.read i
          ∧ t.mem.read (0xC000 + i) = c.prg.read i)
      ∧ (∀ n, n < 0x2000 → t.ppu.vram.read n = vram.read n)
      ∧ t.pc.toNat = (c.prg.read 0x3FFC).toNat + 256 * (c.prg.read 0x3FFD).toNat

/-- R610, R602: NMI entry. -/
def Obligations.NmiEntrySavesAndVectors : Prop :=
  ∀ s : State, s.mem.wf →
    EntryFrom s
        { s.nmiEntry with cyclesTotal := s.cyclesTotal, ppu := s.ppu } s.pc false 0xFFFA
      ∧ s.nmiEntry.cyclesTotal = s.cyclesTotal + s.cfg.intEntryCycles
      ∧ s.nmiEntry.ppu
        = { s.ppu with
            cyclesSinceVblank := s.ppu.cyclesSinceVblank + s.cfg.intEntryCycles
            budget := s.ppu.budget - s.cfg.intEntryCycles }

/-- R611, R614, R621: an IRQ request is entered when I = 0; with I = 1 it is lost, or remembered under
IRQ_LEVEL_SENSITIVE; a remembered request is entered at the start of a later step. That an entry made at
the request clears `irq_pending` too is read from 10_state.md R34, which R611 does not repeat (DEDUCED,
log 24). -/
def Obligations.IrqRequestIsMaskedByI : Prop :=
  (∀ s : State, s.flag .i = true → s.cfg.irqLevelSensitive = false → s.raiseIrq = s)
    ∧ (∀ s : State, s.flag .i = true → s.cfg.irqLevelSensitive = true →
        s.raiseIrq = { s with irqPending := true })
    ∧ (∀ s : State, s.mem.wf → s.flag .i = false →
        EntryFrom { s with irqPending := false }
            { s.raiseIrq with cyclesTotal := s.cyclesTotal, ppu := s.ppu } s.pc false 0xFFFE
          ∧ s.raiseIrq.cyclesTotal = s.cyclesTotal + s.cfg.intEntryCycles
          ∧ s.raiseIrq.ppu
            = { s.ppu with
                cyclesSinceVblank := s.ppu.cyclesSinceVblank + s.cfg.intEntryCycles
                budget := s.ppu.budget - s.cfg.intEntryCycles })
    ∧ ∀ s : State, s.halted = .running → s.resetPending = false →
        s.cfg.irqLevelSensitive = true → s.irqPending = true → s.flag .i = false →
        step s = step s.raiseIrq

/-- R305, R613: BRK takes the trap whatever I is: return address PC + 2, B set, vector 0xFFFE, cost 7. -/
def Obligations.BrkTakesTheTrap : Prop :=
  ∀ s : State, s.mem.wf →
    ∃ t, exec .brk s = .next t ∧ EntryFrom s { t with cyc := s.cyc } (s.pc + 2) true 0xFFFE
      ∧ t.cyc = s.cyc + 7

/-- R304, R615, R603: RTI pulls P (bit 5 forced), then PC low, then high, and changes nothing else; after
an entry it resumes where the entry interrupted: PC, S and every flag but B as they were; after BRK the
address is PC + 2. -/
def Obligations.RtiReturnsFromAnEntry : Prop :=
  (∀ s : State,
    exec .rti s = .next { s with
      p := s.mem.read (0x100 + (s.sp + 1).toNat) ||| 0x20
      pc := wordOf (s.mem.read (0x100 + (s.sp + 3).toNat)) (s.mem.read (0x100 + (s.sp + 2).toNat))
      sp := s.sp + 3
      cyc := s.cyc + 6 })
    ∧ (∀ s : State, s.mem.wf → ∃ t, exec .rti s.nmiEntry = .next t
      ∧ t.pc = s.pc ∧ t.sp = s.sp
      ∧ t.p = packP (s.flag .n) (s.flag .v) false (s.flag .d) (s.flag .i) (s.flag .z) (s.flag .c))
    ∧ (∀ s : State, s.mem.wf → ∃ t, exec .rti s.irqEntry = .next t
      ∧ t.pc = s.pc ∧ t.sp = s.sp
      ∧ t.p = packP (s.flag .n) (s.flag .v) false (s.flag .d) (s.flag .i) (s.flag .z) (s.flag .c))
    ∧ ∀ s : State, s.mem.wf → ∃ t u, exec .brk s = .next t ∧ exec .rti t = .next u
      ∧ u.pc = s.pc + 2 ∧ u.sp = s.sp ∧ u.a = s.a ∧ u.x = s.x ∧ u.y = s.y
      ∧ u.p = packP (s.flag .n) (s.flag .v) true (s.flag .d) (s.flag .i) (s.flag .z) (s.flag .c)

/-! ## The scheduler -/

/-- R554: the boundary that begins vertical blank sets the flag, zeroes the counter, and makes the NMI
entry when ctrl[7] is set. By default (MMC3_COUNT_IN_VBLANK false) the mapper does nothing there. -/
def Obligations.VblankStartRaisesNmi : Prop :=
  ∀ s u : State, s.ppu.line = 240 →
    u = State.mapperUpdate { s with ppu := { s.ppu with line := 241 } } →
    (s.boundary
      = if u.ppu.ctrl.getLsbD 7 then
          State.nmiEntry { u with ppu := { u.ppu with vblank := true, cyclesSinceVblank := 0 } }
        else { u with ppu := { u.ppu with vblank := true, cyclesSinceVblank := 0 } })
    ∧ (s.cfg.mmc3CountInVblank = false → u = { s with ppu := { s.ppu with line := 241 } })

/-- R555: the boundary that ends vertical blank clears the three flags, restarts at line -1 and counts
the frame; every other register stays. R553, R537: the mapper's update follows, and by default it does
nothing there (the spec's own decisions D12, D29 and D52; log 19). -/
def Obligations.VblankEndRestartsTheFrame : Prop :=
  ∀ s u : State, s.ppu.line = 260 →
    u = { s with ppu := { s.ppu with
        vblank := false, sprite0Hit := false, spriteOverflow := false
        line := -1, frame := s.ppu.frame + 1 } } →
    s.boundary = u.mapperUpdate ∧ s.boundary.ppu.line = -1
      ∧ (s.cfg.mmc3CountInVblank = false → s.boundary = u)

/-- R553, R451, R452, R556: a boundary onto a visible line renders that line after the mapper's update and
emits its 256 pixels in order, with the line's colours; the boundary onto line 240 emits the frame event
and renders nothing. R557 (b): a boundary onto the lines 242 to 260 of vertical blank is the line's advance
and the mapper's update alone, which by default (MMC3_COUNT_IN_VBLANK false, R537) does nothing there, so
that vblank stays as it is. -/
def Obligations.VisibleLineEmitsItsPixels : Prop :=
  ∀ s u : State, u = State.mapperUpdate { s with ppu := { s.ppu with line := s.ppu.line + 1 } } →
    (-1 ≤ s.ppu.line → s.ppu.line ≤ 238 →
      let q := u.ppu.renderLine u.cfg.blackIndex u.ppu.line
      u.ppu.line = s.ppu.line + 1
        ∧ (q.2.map (·.colour)).length = 256
        ∧ s.boundary
          = { u with
              ppu := q.1
              events := u.events ++ (List.range 256).map (fun x =>
                .drawPixel x (s.ppu.line + 1).toNat ((q.2.map (·.colour)).getD x 0)) })
    ∧ (s.ppu.line = 239 → s.boundary = { u with events := u.events ++ [.presentFrame] })
    ∧ (241 ≤ s.ppu.line → s.ppu.line ≤ 259 →
      s.boundary = u ∧ u.ppu.vblank = s.ppu.vblank
        ∧ (s.cfg.mmc3CountInVblank = false →
          s.boundary = { s with ppu := { s.ppu with line := s.ppu.line + 1 } }))

/-! ## The renderer -/

/-- R458, R466, R451: what a rendered line does to v: reload from t, then the vertical advance; and it
changes nothing of the PPU but v and the two sprite flags. -/
def Obligations.RenderLineMovesTheScroll : Prop :=
  ∀ (p : Ppu) (black : Colour) (line : Int),
    ∃ hit ovf,
      (p.renderLine black line).1
        = { p with
            v := if p.mask.getLsbD 3 || p.mask.getLsbD 4 then
                advanceY (if line = 0 then p.t else (p.v &&& 0x7BE0#15) ||| (p.t &&& 0x041F#15))
              else p.v
            sprite0Hit := hit, spriteOverflow := ovf }
        ∧ (p.sprite0Hit = true → hit = true) ∧ (p.spriteOverflow = true → ovf = true)
        ∧ (p.renderLine black line).2.length = 256

/-- R455, R456: the overflow flag is set exactly when rendering is enabled and nine or more of the 64
sprites cover the line; it is never cleared by rendering. -/
def Obligations.SpriteOverflowCountsNine : Prop :=
  ∀ (p : Ppu) (black : Colour) (line : Int),
    (p.renderLine black line).1.spriteOverflow = true ↔
      p.spriteOverflow = true
        ∨ ((p.mask.getLsbD 3 = true ∨ p.mask.getLsbD 4 = true)
          ∧ 9 ≤ ((List.range 64).filter (fun i => decide
              ((p.oam.read (4 * i)).toNat + 1 ≤ line
                ∧ line < (p.oam.read (4 * i)).toNat + 1
                  + (if p.ctrl.getLsbD 5 then 16 else 8)))).length)

/-- R471 (a), R470, R471 (b): with background and sprites off the line is 256 pixels of BLACK_INDEX and
nothing changes; with either off the sprite-0 flag does not change. -/
def Obligations.LayersThatAreOffShowNothing : Prop :=
  ∀ (p : Ppu) (black : Colour) (line : Int),
    (p.mask.getLsbD 3 = false → p.mask.getLsbD 4 = false →
      (p.renderLine black line).1 = p
        ∧ (p.renderLine black line).2.map (·.colour) = List.replicate 256 black)
    ∧ (p.mask.getLsbD 3 = false ∨ p.mask.getLsbD 4 = false →
      (p.renderLine black line).1.sprite0Hit = p.sprite0Hit)

/-- R457, R460 to R462, R465, R469: the colour of each column of a rendered line: of the selected sprites
in front, the one of lowest index that draws there; else the background; else of the sprites behind, the
one of lowest index; else the fill. R463, R470: the sprite-0 flag is set after the line exactly when it was
set before it or, at some column but the last, sprite 0 is selected and draws, behind or in front, where
an opaque background pixel is drawn. R455, R457, R458: which sprites are selected and which of them lie
behind, by the bytes of sprite memory, the fill and the reload. R462: a background pixel at a scroll
position, by the bytes of video memory: tile, attribute, fine Y and palette. R460: what a covering sprite
draws at a column, by its four bytes and the bytes of video memory: flips, tile of 8 by 8 or 8 by 16,
palette, the bounds of the row and the left columns. The nametable is read through the fold of R479. -/
def Obligations.PixelPriority : Prop :=
  (∀ (p : Ppu) (black : Colour) (line : Int),
    let r := p.reload line
    let sel := r.selected line
    (∀ x, x < 256 →
      ((p.renderLine black line).2.map (·.colour)).getD x 0
        = ((r.spriteAt line (sel.filter (fun i => !r.isBehind i)) x).or
            ((r.backgroundAt x).or (r.spriteAt line (sel.filter r.isBehind) x))).getD
          (r.fillColour black))
      ∧ ((p.renderLine black line).1.sprite0Hit = true ↔
        p.sprite0Hit = true
          ∨ ∃ x, x < 255 ∧ 0 ∈ sel ∧ (r.spriteAt line [0] x).isSome = true
            ∧ (r.backgroundAt x).isSome = true))
    ∧ (∀ (p : Ppu) (black : Colour) (line : Int) (i : Nat),
      p.selected line
          = (if p.mask.getLsbD 3 || p.mask.getLsbD 4 then
              ((List.range 64).filter (fun i => decide
                ((p.oam.read (4 * i)).toNat + 1 ≤ line
                  ∧ line < (p.oam.read (4 * i)).toNat + 1
                    + (if p.ctrl.getLsbD 5 then 16 else 8)))).take 8
            else [])
        ∧ p.isBehind i = (p.oam.read (4 * i + 2)).getLsbD 5
        ∧ p.fillColour black
          = (if p.mask.getLsbD 3 then (p.vram.read 0x3F00).setWidth 6 else black)
        ∧ p.reload line
          = { p with
              v := if p.mask.getLsbD 3 || p.mask.getLsbD 4 then
                  if line = 0 then p.t else (p.v &&& 0x7BE0#15) ||| (p.t &&& 0x041F#15)
                else p.v })
    ∧ (∀ (p : Ppu) (v : Scroll) (px : BitVec 3),
      let cx := v.toNat % 32
      let cy := v.toNat / 32 % 32
      let table := 0x2000 + v.toNat / 1024 % 4 * 0x400
      let named := fun a => (p.vram.read (vnorm p.mirroring (BitVec.ofNat 14 a))).toNat
      let tile := named (table + cy * 32 + cx)
      let attr := named (table + 0x3C0 + cy / 4 * 8 + cx / 4)
      let pal := attr / 2 ^ (cy / 2 % 2 * 4 + cx / 2 % 2 * 2) % 4
      let row := (if p.ctrl.getLsbD 4 then 0x1000 else 0x0000) + tile * 16 + v.toNat / 4096
      let q := 2 * ((p.vram.read (row + 8)).getLsbD (7 - px.toNat)).toNat
        + ((p.vram.read row).getLsbD (7 - px.toNat)).toNat
      p.bgPixel v px
        = if q = 0 then none else some ((p.vram.read (0x3F00 + pal * 4 + q)).setWidth 6))
    ∧ ∀ (p : Ppu) (line : Int) (i x : Nat),
      let y := (p.oam.read (4 * i)).toNat
      let tile := (p.oam.read (4 * i + 1)).toNat
      let attr := p.oam.read (4 * i + 2)
      let left := (p.oam.read (4 * i + 3)).toNat
      let h := if p.ctrl.getLsbD 5 then 16 else 8
      let r := (line - (y + 1)).toNat
      let r' := if attr.getLsbD 7 then h - 1 - r else r
      let row := if p.ctrl.getLsbD 5 then
          tile % 2 * 0x1000 + tile / 2 * 32 + (if r' < 8 then r' else r' + 8)
        else (if p.ctrl.getLsbD 3 then 0x1000 else 0x0000) + tile * 16 + r'
      let bit := if attr.getLsbD 6 then x - left else 7 - (x - left)
      let q := 2 * ((p.vram.read (row + 8)).getLsbD bit).toNat
        + ((p.vram.read row).getLsbD bit).toNat
      y + 1 ≤ line → line < y + 1 + h →
      ((p.spritePixels line i).find? (fun k => k.1 == x)).map (·.2)
        = if left ≤ x ∧ x < left + 8 ∧ x ≤ 255 ∧ q ≠ 0 ∧ p.mask.getLsbD 4 = true
            ∧ (8 ≤ x ∨ p.mask.getLsbD 2 = true) then
          some ((p.vram.read (0x3F10 + attr.toNat % 4 * 4 + q)).setWidth 6)
        else none

/-- R465, R466: the scroll counters: coarse X wraps at 32 with the horizontal toggle; fine Y counts to 7,
then coarse Y steps, 29 wrapping with the vertical toggle and 31 without. -/
def Obligations.ScrollCountersWrap : Prop :=
  ∀ v : Scroll,
    (v.toNat % 32 ≠ 31 → (incX v).toNat = v.toNat + 1)
      ∧ (v.toNat % 32 = 31 → ∀ j, j < 15 → (incX v).getLsbD j
          = if j < 5 then false else if j = 10 then !v.getLsbD 10 else v.getLsbD j)
      ∧ (v.toNat / 4096 ≠ 7 → (advanceY v).toNat = v.toNat + 4096)
      ∧ (v.toNat / 4096 = 7 → v.toNat / 32 % 32 ≠ 29 → v.toNat / 32 % 32 ≠ 31 →
          (advanceY v).toNat = v.toNat - 7 * 4096 + 32)
      ∧ (v.toNat / 4096 = 7 → v.toNat / 32 % 32 = 29 → ∀ j, j < 15 → (advanceY v).getLsbD j
          = if 5 ≤ j ∧ j < 10 ∨ 12 ≤ j then false
            else if j = 11 then !v.getLsbD 11 else v.getLsbD j)
      ∧ (v.toNat / 4096 = 7 → v.toNat / 32 % 32 = 31 → ∀ j, j < 15 → (advanceY v).getLsbD j
          = if 5 ≤ j ∧ j < 10 ∨ 12 ≤ j then false else v.getLsbD j)

/-! ## Operands -/

/-- R136 to R144: the effective address of each mode, its page-cross condition, and that resolving it
changes nothing. -/
def Obligations.EffectiveAddresses : Prop :=
  ∀ s : State,
    (∀ b, ((s.resolve (.zp b)).ea.toNat = b.toNat))
      ∧ (∀ b, (s.resolve (.zpx b)).ea.toNat = (b.toNat + s.x.toNat) % 256)
      ∧ (∀ b, (s.resolve (.zpy b)).ea.toNat = (b.toNat + s.y.toNat) % 256)
      ∧ (∀ w, (s.resolve (.abs w)).ea = w)
      ∧ (∀ w, (s.resolve (.abx w)).ea.toNat = (w.toNat + s.x.toNat) % 65536)
      ∧ (∀ w, (s.resolve (.aby w)).ea.toNat = (w.toNat + s.y.toNat) % 65536)
      ∧ (∀ b, (s.resolve (.izx b)).ea.toNat
          = (s.mem.read ((b.toNat + s.x.toNat) % 256)).toNat
            + 256 * (s.mem.read ((b.toNat + s.x.toNat + 1) % 256)).toNat)
      ∧ (∀ b, (s.resolve (.izy b)).ea.toNat
          = ((s.mem.read b.toNat).toNat + 256 * (s.mem.read ((b.toNat + 1) % 256)).toNat
            + s.y.toNat) % 65536)
      ∧ (∀ w, (s.resolve (.abx w)).crossed = true
          ↔ w.toNat / 256 ≠ (w.toNat + s.x.toNat) % 65536 / 256)
      ∧ (∀ w, (s.resolve (.aby w)).crossed = true
          ↔ w.toNat / 256 ≠ (w.toNat + s.y.toNat) % 65536 / 256)
      ∧ (∀ b, (s.resolve (.izy b)).crossed = true
          ↔ (s.mem.read ((b.toNat + 1) % 256)).toNat
            ≠ (s.resolve (.izy b)).ea.toNat / 256)
      ∧ ∀ a, (s.resolve a).s = s

/-- R84, R87, R135, R200: a read operand: the immediate byte, or one bus read at the effective address;
of a plain address the byte of main memory and no change; of a device only what a read can change. R93,
R426: a write-only PPU register reads as OPEN_BUS_VALUE and an address from 0x4000 to 0x4015 as APU_READ,
without a change. -/
def Obligations.OperandReadFrame : Prop :=
  ∀ s : State,
    (∀ b, (s.readSrc (.imm b)).m = b ∧ (s.readSrc (.imm b)).s = s)
      ∧ (∀ a, plainAddr (s.resolve a).ea = true →
          (s.readSrc (.mem a)).m = s.mem.read (norm (s.resolve a).ea).toNat
            ∧ (s.readSrc (.mem a)).s = s)
      ∧ (∀ a, ((s.readAddr a).m, (s.readAddr a).s) = s.memRead (s.resolve a).ea)
      ∧ (∀ o, OnlyReadEffects s (s.readSrc o).s)
      ∧ (∀ a : Word, 0x2000 ≤ a.toNat → a.toNat < 0x4000 →
          a.toNat % 8 = 0 ∨ a.toNat % 8 = 1 ∨ a.toNat % 8 = 3 ∨ a.toNat % 8 = 5 ∨ a.toNat % 8 = 6 →
          s.memRead a = (s.cfg.openBusValue, s))
      ∧ ∀ a : Word, 0x4000 ≤ a.toNat → a.toNat ≤ 0x4015 →
          s.memRead a = (s.cfg.apuRead.read a.toNat, s)

/-! ## Loads, stores, transfers, stack -/

/-- R201 to R203, R356: LDA, LDX, LDY, LAX. -/
def Obligations.LoadsWriteTheirRegister : Prop :=
  (∀ (s : State) (o : Src),
    let q := s.readSrc o
    let pc := s.pc + BitVec.ofNat 16 (modeSize o.mode)
    let cyc := s.cyc + readCost o.mode q.crossed
    exec (.lda o) s = .next { q.s with a := q.m, p := nzP s q.m, pc := pc, cyc := cyc }
      ∧ exec (.ldx o) s = .next { q.s with x := q.m, p := nzP s q.m, pc := pc, cyc := cyc }
      ∧ exec (.ldy o) s = .next { q.s with y := q.m, p := nzP s q.m, pc := pc, cyc := cyc })
    ∧ ∀ (s : State) (a : Addr),
      let q := s.readAddr a
      exec (.lax a) s = .next { q.s with
        a := q.m, x := q.m, p := nzP s q.m
        pc := s.pc + BitVec.ofNat 16 (modeSize a.mode)
        cyc := s.cyc + readCost a.mode q.crossed }

/-- R204 to R206, R355, R85: STA, STX, STY, SAX write their byte at the effective address through the
bus; PC and the cost apart nothing but the write's effect; below 0x8000 every other byte of main memory
stays. -/
def Obligations.StoresWriteTheirByte : Prop :=
  (∀ (s : State) (a : Addr),
    let ea := (s.resolve a).ea
    let done := fun w : State => { w with
      pc := s.pc + BitVec.ofNat 16 (modeSize a.mode), cyc := w.cyc + writeCost a.mode }
    exec (.sta a) s = .next (done (s.memWrite ea s.a))
      ∧ exec (.stx a) s = .next (done (s.memWrite ea s.x))
      ∧ exec (.sty a) s = .next (done (s.memWrite ea s.y))
      ∧ exec (.sax a) s = .next (done (s.memWrite ea (s.a &&& s.x))))
    ∧ ∀ (s : State) (a : Addr) (v : Byte), s.mem.wf →
      let ea := (s.resolve a).ea
      WriteKeeps s (s.memWrite ea v)
        ∧ (s.storesByte ea = true → (s.memWrite ea v).mem.read (norm ea).toNat = v)
        ∧ ((norm ea).toNat < 0x8000 → ∀ n, n ≠ (norm ea).toNat →
            (s.memWrite ea v).mem.read n = s.mem.read n)
        ∧ (0x8000 ≤ (norm ea).toNat → ∀ n, n < 0x8000 →
            (s.memWrite ea v).mem.read n = s.mem.read n)

/-- R207 to R212, R262 to R265: the register transfers and the register increments and decrements. -/
def Obligations.RegisterInstructions : Prop :=
  ∀ s : State,
    exec .tax s = .next { s with x := s.a, p := nzP s s.a, pc := s.pc + 1, cyc := s.cyc + 2 }
      ∧ exec .tay s = .next { s with y := s.a, p := nzP s s.a, pc := s.pc + 1, cyc := s.cyc + 2 }
      ∧ exec .txa s = .next { s with a := s.x, p := nzP s s.x, pc := s.pc + 1, cyc := s.cyc + 2 }
      ∧ exec .tya s = .next { s with a := s.y, p := nzP s s.y, pc := s.pc + 1, cyc := s.cyc + 2 }
      ∧ exec .tsx s = .next { s with x := s.sp, p := nzP s s.sp, pc := s.pc + 1, cyc := s.cyc + 2 }
      ∧ exec .txs s = .next { s with sp := s.x, pc := s.pc + 1, cyc := s.cyc + 2 }
      ∧ (∃ r : Byte, r.toNat = (s.x.toNat + 1) % 256
          ∧ exec .inx s = .next { s with x := r, p := nzP s r, pc := s.pc + 1, cyc := s.cyc + 2 })
      ∧ (∃ r : Byte, r.toNat = (s.y.toNat + 1) % 256
          ∧ exec .iny s = .next { s with y := r, p := nzP s r, pc := s.pc + 1, cyc := s.cyc + 2 })
      ∧ (∃ r : Byte, r.toNat = (s.x.toNat + 255) % 256
          ∧ exec .dex s = .next { s with x := r, p := nzP s r, pc := s.pc + 1, cyc := s.cyc + 2 })
      ∧ (∃ r : Byte, r.toNat = (s.y.toNat + 255) % 256
          ∧ exec .dey s = .next { s with y := r, p := nzP s r, pc := s.pc + 1, cyc := s.cyc + 2 })

/-- R213 to R216, R23: PHA, PHP, PLA, PLP, with every byte of memory. -/
def Obligations.StackInstructions : Prop :=
  ∀ s : State, s.mem.wf →
    (∃ t, exec .pha s = .next t
        ∧ (∀ n, t.mem.read n = if n = stackSlot s.sp 0 then s.a else s.mem.read n)
        ∧ t = { s with mem := t.mem, sp := s.sp - 1, pc := s.pc + 1, cyc := s.cyc + 3 })
      ∧ (∃ t, exec .php s = .next t
        ∧ (∀ n, t.mem.read n = if n = stackSlot s.sp 0 then s.p ||| 0x30 else s.mem.read n)
        ∧ t = { s with mem := t.mem, sp := s.sp - 1, pc := s.pc + 1, cyc := s.cyc + 3 })
      ∧ (∃ m, m = s.mem.read (0x100 + (s.sp.toNat + 1) % 256)
        ∧ exec .pla s = .next { s with
            a := m, p := nzP s m, sp := s.sp + 1, pc := s.pc + 1, cyc := s.cyc + 4 }
        ∧ exec .plp s = .next { s with
            p := m ||| 0x20, sp := s.sp + 1, pc := s.pc + 1, cyc := s.cyc + 4 })

/-- R213: a push then a pull gives the byte back and restores S, for every S, 0x00 and 0xFF included; so
for the status byte, whose B comes back 1 (R214, R216). -/
def Obligations.StackRoundTrip : Prop :=
  ∀ s : State, s.mem.wf →
    (∃ t u, exec .pha s = .next t ∧ exec .pla t = .next u ∧ u.a = s.a ∧ u.sp = s.sp)
      ∧ ∃ t u, exec .php s = .next t ∧ exec .plp t = .next u ∧ u.sp = s.sp
        ∧ u.p = packP (s.flag .n) (s.flag .v) true (s.flag .d) (s.flag .i) (s.flag .z) (s.flag .c)

/-! ## Arithmetic and logic -/

/-- R250, R251: ADC: the exact sum gives the result byte and C; V is signed overflow; D has no effect. -/
def Obligations.AdcIsTheExactSum : Prop :=
  ∀ (s : State) (o : Src),
    let q := s.readSrc o
    let c0 := (s.flag .c).toNat
    ∃ (r : Byte) (v c : Bool),
      exec (.adc o) s = .next { q.s with
          a := r, p := nvzcP s r v c
          pc := s.pc + BitVec.ofNat 16 (modeSize o.mode)
          cyc := s.cyc + readCost o.mode q.crossed }
        ∧ r.toNat + 256 * c.toNat = s.a.toNat + q.m.toNat + c0
        ∧ (v = true ↔ outOfSignedRange (s.a.toInt + q.m.toInt + c0))

/-- R250, R252, R363: SBC and its duplicate: A - m - (1 - C); C is 1 when no borrow occurred; V is signed
overflow. -/
def Obligations.SbcIsTheExactDifference : Prop :=
  (∀ (s : State) (o : Src),
    let q := s.readSrc o
    let b0 := 1 - (s.flag .c).toNat
    ∃ (r : Byte) (v c : Bool),
      exec (.sbc o) s = .next { q.s with
          a := r, p := nvzcP s r v c
          pc := s.pc + BitVec.ofNat 16 (modeSize o.mode)
          cyc := s.cyc + readCost o.mode q.crossed }
        ∧ (r.toNat : Int) = s.a.toNat - q.m.toNat - b0 + 256 * (1 - c.toNat)
        ∧ (c = true ↔ q.m.toNat + b0 ≤ s.a.toNat)
        ∧ (v = true ↔ outOfSignedRange (s.a.toInt - q.m.toInt - b0)))
    ∧ ∀ (s : State) (b : Byte), exec (.sbcAlt b) s = exec (.sbc (.imm b)) s

/-- R253 to R255: AND, ORA, EOR. -/
def Obligations.LogicOnA : Prop :=
  ∀ (s : State) (o : Src),
    let q := s.readSrc o
    let done := fun r : Byte => { q.s with
      a := r, p := nzP s r
      pc := s.pc + BitVec.ofNat 16 (modeSize o.mode)
      cyc := s.cyc + readCost o.mode q.crossed }
    exec (.and o) s = .next (done (s.a &&& q.m))
      ∧ exec (.ora o) s = .next (done (s.a ||| q.m))
      ∧ exec (.eor o) s = .next (done (s.a ^^^ q.m))

/-- R256 to R258: CMP, CPX, CPY: unsigned; only N, Z and C change; N is bit 7 of the difference, Z is
equality. -/
def Obligations.ComparesAreUnsigned : Prop :=
  ∀ (s : State) (o : Src),
    let q := s.readSrc o
    let done := fun reg : Byte => { q.s with
      p := packP (decide (128 ≤ (reg.toNat + 256 - q.m.toNat) % 256)) (s.flag .v) (s.flag .b)
        (s.flag .d) (s.flag .i) (decide (reg = q.m)) (decide (q.m.toNat ≤ reg.toNat))
      pc := s.pc + BitVec.ofNat 16 (modeSize o.mode)
      cyc := s.cyc + readCost o.mode q.crossed }
    exec (.cmp o) s = .next (done s.a)
      ∧ exec (.cpx o) s = .next (done s.x)
      ∧ exec (.cpy o) s = .next (done s.y)

/-- R259: BIT: Z from A AND m, N and V from bits 7 and 6 of m. -/
def Obligations.BitTestsMemory : Prop :=
  ∀ (s : State) (a : Addr),
    let q := s.readAddr a
    exec (.bit a) s = .next { q.s with
      p := packP (q.m.getLsbD 7) (q.m.getLsbD 6) (s.flag .b) (s.flag .d) (s.flag .i)
        (decide (s.a &&& q.m = 0)) (s.flag .c)
      pc := s.pc + BitVec.ofNat 16 (modeSize a.mode)
      cyc := s.cyc + readCost a.mode q.crossed }

/-- R260, R261, R92: INC and DEC of memory: one read, one write of the same address, N and Z. -/
def Obligations.IncDecMemory : Prop :=
  ∀ (s : State) (a : Addr),
    let q := s.readAddr a
    let done := fun r : Byte =>
      let w := q.s.memWrite (s.resolve a).ea r
      { w with
        p := nzP s r
        pc := s.pc + BitVec.ofNat 16 (modeSize a.mode), cyc := w.cyc + rmwCost a.mode }
    (∃ r : Byte, r.toNat = (q.m.toNat + 1) % 256 ∧ exec (.inc a) s = .next (done r))
      ∧ (∃ r : Byte, r.toNat = (q.m.toNat + 255) % 256 ∧ exec (.dec a) s = .next (done r))
      ∧ (s.mem.wf → s.storesByte (s.resolve a).ea = true → ∀ r n,
          (done r).mem.read n
            = if n = (norm (s.resolve a).ea).toNat then r else s.mem.read n)

/-- R266 to R269: shifts and rotates of A. -/
def Obligations.ShiftsOfA : Prop :=
  ∀ s : State,
    let c0 := (s.flag .c).toNat
    let a := s.a.toNat
    let done := fun (r : Byte) (c : Bool) => { s with
      a := r, p := nzcP s r c, pc := s.pc + 1, cyc := s.cyc + 2 }
    (∃ r : Byte, r.toNat = a * 2 % 256 ∧ exec (.asl .acc) s = .next (done r (decide (128 ≤ a))))
      ∧ (∃ r : Byte, r.toNat = a / 2 ∧ exec (.lsr .acc) s = .next (done r (decide (a % 2 = 1))))
      ∧ (∃ r : Byte, r.toNat = (a * 2 + c0) % 256
          ∧ exec (.rol .acc) s = .next (done r (decide (128 ≤ a))))
      ∧ (∃ r : Byte, r.toNat = a / 2 + 128 * c0
          ∧ exec (.ror .acc) s = .next (done r (decide (a % 2 = 1))))

/-- R266 to R269, R92: shifts and rotates of memory. -/
def Obligations.ShiftsOfMemory : Prop :=
  ∀ (s : State) (a : Addr),
    let q := s.readAddr a
    let c0 := (s.flag .c).toNat
    let m := q.m.toNat
    let done := fun (r : Byte) (c : Bool) =>
      let w := q.s.memWrite (s.resolve a).ea r
      { w with
        p := nzcP s r c
        pc := s.pc + BitVec.ofNat 16 (modeSize a.mode), cyc := w.cyc + rmwCost a.mode }
    (∃ r : Byte, r.toNat = m * 2 % 256
        ∧ exec (.asl (.mem a)) s = .next (done r (decide (128 ≤ m))))
      ∧ (∃ r : Byte, r.toNat = m / 2
        ∧ exec (.lsr (.mem a)) s = .next (done r (decide (m % 2 = 1))))
      ∧ (∃ r : Byte, r.toNat = (m * 2 + c0) % 256
        ∧ exec (.rol (.mem a)) s = .next (done r (decide (128 ≤ m))))
      ∧ (∃ r : Byte, r.toNat = m / 2 + 128 * c0
        ∧ exec (.ror (.mem a)) s = .next (done r (decide (m % 2 = 1))))
      ∧ (s.mem.wf → s.storesByte (s.resolve a).ea = true → ∀ r c n,
          (done r c).mem.read n
            = if n = (norm (s.resolve a).ea).toNat then r else s.mem.read n)

/-! ## Control flow -/

/-- R301, R142: JMP; the indirect pointer's second byte stays in the pointer's page. -/
def Obligations.JumpTargets : Prop :=
  (∀ (s : State) (w : Word), exec (.jmp (.abs w)) s = .next { s with pc := w, cyc := s.cyc + 3 })
    ∧ (∀ (s : State) (ptr : Word),
      let l := s.memRead ptr
      let h := l.2.memRead (BitVec.ofNat 16 (ptr.toNat / 256 * 256 + (ptr.toNat + 1) % 256))
      exec (.jmp (.ind ptr)) s = .next { h.2 with pc := wordOf h.1 l.1, cyc := s.cyc + 5 })
    ∧ ∀ s : State, s.mem.read 0x02FF = 0x80 → s.mem.read 0x0200 = 0x50 →
      exec (.jmp (.ind 0x02FF)) s = .next { s with pc := 0x5080, cyc := s.cyc + 5 }

/-- R302, R303, R300: JSR pushes the address of its third byte, RTS returns past it. -/
def Obligations.SubroutineCallAndReturn : Prop :=
  (∀ (s : State) (w : Word), s.mem.wf →
    ∃ t, exec (.jsr w) s = .next t
      ∧ (∀ n, t.mem.read n = if n = stackSlot s.sp 0 then hiByte (s.pc + 2)
          else if n = stackSlot s.sp 1 then loByte (s.pc + 2) else s.mem.read n)
      ∧ t = { s with mem := t.mem, sp := s.sp - 2, pc := w, cyc := s.cyc + 6 })
    ∧ (∀ s : State, exec .rts s = .next { s with
        pc := wordOf (s.mem.read (0x100 + (s.sp + 2).toNat)) (s.mem.read (0x100 + (s.sp + 1).toNat)) + 1
        sp := s.sp + 2
        cyc := s.cyc + 6 })
    ∧ ∀ (s : State) (w : Word), s.mem.wf →
      ∃ t u, exec (.jsr w) s = .next t ∧ exec .rts t = .next u ∧ u.pc = s.pc + 3 ∧ u.sp = s.sp

/-- R306 to R314, R145, R148: the eight branches. -/
def Obligations.BranchesFollowTheirFlag : Prop :=
  ∀ (s : State) (d : Byte),
    ∃ target : Word, (target.toNat : Int) = (s.pc.toNat + 2 + d.toInt) % 65536
      ∧ let go := fun cond : Bool =>
          if cond then
            { s with
              pc := target
              cyc := s.cyc + 3 + (if (s.pc + 2).toNat / 256 ≠ target.toNat / 256 then 1 else 0) }
          else { s with pc := s.pc + 2, cyc := s.cyc + 2 }
        exec (.bcc d) s = .next (go (!s.flag .c)) ∧ exec (.bcs d) s = .next (go (s.flag .c))
          ∧ exec (.beq d) s = .next (go (s.flag .z)) ∧ exec (.bne d) s = .next (go (!s.flag .z))
          ∧ exec (.bmi d) s = .next (go (s.flag .n)) ∧ exec (.bpl d) s = .next (go (!s.flag .n))
          ∧ exec (.bvc d) s = .next (go (!s.flag .v)) ∧ exec (.bvs d) s = .next (go (s.flag .v))

/-- R315 to R321: each flag instruction writes its one flag. -/
def Obligations.FlagInstructions : Prop :=
  ∀ s : State,
    let done := fun p : Byte => { s with p := p, pc := s.pc + 1, cyc := s.cyc + 2 }
    let n := s.flag .n
    let v := s.flag .v
    let b := s.flag .b
    let d := s.flag .d
    let i := s.flag .i
    let z := s.flag .z
    let c := s.flag .c
    exec .clc s = .next (done (packP n v b d i z false))
      ∧ exec .sec s = .next (done (packP n v b d i z true))
      ∧ exec .cli s = .next (done (packP n v b d false z c))
      ∧ exec .sei s = .next (done (packP n v b d true z c))
      ∧ exec .clv s = .next (done (packP n false b d i z c))
      ∧ exec .cld s = .next (done (packP n v b false i z c))
      ∧ exec .sed s = .next (done (packP n v b true i z c))

/-- R322, R364 to R366: NOP and its variants change nothing but PC, the cost, and what the discarded read
changes. -/
def Obligations.NoOperations : Prop :=
  (∀ (s : State) (op : Byte),
    exec .nop s = .next { s with pc := s.pc + 1, cyc := s.cyc + 2 }
      ∧ exec (.nopAlt op) s = .next { s with pc := s.pc + 1, cyc := s.cyc + 2 })
    ∧ (∀ (s : State) (op : Byte) (o : Src), (Instr.dop op o).wellFormed = true →
      exec (.dop op o) s = .next { s with
        pc := s.pc + 2
        cyc := s.cyc + readCost o.mode false })
    ∧ ∀ (s : State) (op : Byte) (a : Addr), (Instr.top op a).wellFormed = true →
      exec (.top op a) s = .next { (s.memRead (s.resolve a).ea).2 with
        pc := s.pc + 3
        cyc := s.cyc + readCost a.mode (s.resolve a).crossed }

/-! ## Undocumented instructions -/

/-- R351 to R354: SLO, RLA, SRE, RRA: read, shift, write, then combine the shifted byte with A. -/
def Obligations.UndocumentedShifts : Prop :=
  ∀ (s : State) (a : Addr),
    let q := s.readAddr a
    let c0 := (s.flag .c).toNat
    let m := q.m.toNat
    let done := fun (r n p : Byte) =>
      let w := q.s.memWrite (s.resolve a).ea r
      { w with
        a := n, p := p
        pc := s.pc + BitVec.ofNat 16 (modeSize a.mode), cyc := w.cyc + rmwCost a.mode }
    (∃ r n : Byte, r.toNat = m * 2 % 256 ∧ n = s.a ||| r
        ∧ exec (.slo a) s = .next (done r n (nzcP s n (decide (128 ≤ m)))))
      ∧ (∃ r n : Byte, r.toNat = (m * 2 + c0) % 256 ∧ n = s.a &&& r
        ∧ exec (.rla a) s = .next (done r n (nzcP s n (decide (128 ≤ m)))))
      ∧ (∃ r n : Byte, r.toNat = m / 2 ∧ n = s.a ^^^ r
        ∧ exec (.sre a) s = .next (done r n (nzcP s n (decide (m % 2 = 1)))))
      ∧ ∃ (r n : Byte) (v c : Bool), r.toNat = m / 2 + 128 * c0
        ∧ n.toNat + 256 * c.toNat = s.a.toNat + r.toNat + m % 2
        ∧ (v = true ↔ outOfSignedRange (s.a.toInt + r.toInt + (m % 2 : Nat)))
        ∧ exec (.rra a) s = .next (done r n (nvzcP s n v c))

/-- R357, R358: DCP compares A with the decremented byte, ISC subtracts the incremented byte from A. -/
def Obligations.UndocumentedCompareAndSubtract : Prop :=
  ∀ (s : State) (a : Addr),
    let q := s.readAddr a
    let b0 := 1 - (s.flag .c).toNat
    let done := fun (r n p : Byte) =>
      let w := q.s.memWrite (s.resolve a).ea r
      { w with
        a := n, p := p
        pc := s.pc + BitVec.ofNat 16 (modeSize a.mode), cyc := w.cyc + rmwCost a.mode }
    (∃ r d : Byte, r.toNat = (q.m.toNat + 255) % 256
        ∧ d.toNat = (s.a.toNat + 256 - r.toNat) % 256
        ∧ exec (.dcp a) s = .next (done r s.a (nzcP s d (decide (r.toNat ≤ s.a.toNat)))))
      ∧ ∃ (r n : Byte) (v c : Bool), r.toNat = (q.m.toNat + 1) % 256
        ∧ (n.toNat : Int) = s.a.toNat - r.toNat - b0 + 256 * (1 - c.toNat)
        ∧ (c = true ↔ r.toNat + b0 ≤ s.a.toNat)
        ∧ (v = true ↔ outOfSignedRange (s.a.toInt - r.toInt - b0))
        ∧ exec (.isc a) s = .next (done r n (nvzcP s n v c))

/-- R359 to R362: ANC, ALR, ARR, AXS. -/
def Obligations.UndocumentedImmediates : Prop :=
  ∀ (s : State) (op b : Byte),
    let m := s.a &&& b
    let c0 := (s.flag .c).toNat
    exec (.anc op b) s = .next { s with
        a := m, p := nzcP s m (m.getLsbD 7), pc := s.pc + 2, cyc := s.cyc + 2 }
      ∧ (∃ r : Byte, r.toNat = m.toNat / 2
        ∧ exec (.alr b) s = .next { s with
          a := r, p := nzcP s r (decide (m.toNat % 2 = 1)), pc := s.pc + 2, cyc := s.cyc + 2 })
      ∧ (∃ r : Byte, r.toNat = m.toNat / 2 + 128 * c0
        ∧ exec (.arr b) s = .next { s with
          a := r
          p := nvzcP s r (decide (r.toNat / 64 % 2 ≠ r.toNat / 32 % 2))
            (decide (r.toNat / 64 % 2 = 1))
          pc := s.pc + 2, cyc := s.cyc + 2 })
      ∧ ∃ r : Byte, r.toNat = ((s.a &&& s.x).toNat + 256 - b.toNat) % 256
        ∧ exec (.axs b) s = .next { s with
          x := r, p := nzcP s r (decide (b.toNat ≤ (s.a &&& s.x).toNat))
          pc := s.pc + 2, cyc := s.cyc + 2 }

/-! ## The bus -/

/-- R88: after a write at 0x0000 the four mirrors of the internal RAM agree. -/
def Obligations.RamMirrorsAgree : Prop :=
  ∀ (s : State) (v : Byte), s.mem.wf →
    ((s.memWrite 0x0000 v).memRead 0x0800).1 = v ∧ ((s.memWrite 0x0000 v).memRead 0x0000).1 = v
      ∧ ((s.memWrite 0x0000 v).memRead 0x1000).1 = v ∧ ((s.memWrite 0x0000 v).memRead 0x1800).1 = v

/-- R81, R82, R85, R430, R431: what a bus write does to main memory, at every address. R425: a write of an
audio register emits its event and changes nothing else. -/
def Obligations.BusWritesMainMemory : Prop :=
  ∀ (s : State) (a : Word) (v : Byte), s.mem.wf →
    let n := if a.toNat < 0x2000 then a.toNat % 0x800 else a.toNat
    let t := s.memWrite a v
    ((a.toNat < 0x2000 ∨ 0x4018 ≤ a.toNat ∧ a.toNat < 0x6000
        ∨ 0x6000 ≤ a.toNat ∧ a.toNat < 0x8000 ∧ s.sramEnabled = true ∧ s.sramReadonly = false) →
        (∀ k, t.mem.read k = if k = n then v else s.mem.read k) ∧ t = { s with mem := t.mem })
      ∧ (0x2000 ≤ a.toNat → a.toNat < 0x4018 → t.mem = s.mem)
      ∧ (0x4000 ≤ a.toNat → a.toNat ≤ 0x4013 ∨ a.toNat = 0x4015 ∨ a.toNat = 0x4017 →
          t = { s with events := s.events ++ [.apuWrite a v] })
      ∧ (0x6000 ≤ a.toNat → a.toNat < 0x8000 → s.sramEnabled = false ∨ s.sramReadonly = true →
          t = s)
      ∧ (0x8000 ≤ a.toNat → (∀ k, k < 0x8000 → t.mem.read k = s.mem.read k)
          ∧ (s.mapper = .nrom → t = s))
      ∧ WriteKeeps s t

/-- R405: a status read gives the three flags and the low bits, and clears vblank and w outside the
exempt window. -/
def Obligations.StatusReadClearsVblank : Prop :=
  ∀ (s : State) (a : Word), 0x2000 ≤ a.toNat → a.toNat < 0x4000 → a.toNat % 8 = 2 →
    let q := s.memRead a
    q.1.toNat = 128 * s.ppu.vblank.toNat + 64 * s.ppu.sprite0Hit.toNat
        + 32 * s.ppu.spriteOverflow.toNat + s.cfg.statusLowBits.toNat
      ∧ (s.ppu.line ≠ 260 ∨ s.cfg.exemptBudgets.contains s.ppu.budget = false →
          q.2 = { s with ppu := { s.ppu with vblank := false, w := false } })
      ∧ (s.ppu.line = 260 → s.cfg.exemptBudgets.contains s.ppu.budget = true → q.2 = s)

/-- R401, R402, R407 to R410: writes of 0x2000, 0x2001, 0x2005 and 0x2006, through every mirror, field by
field of t: fine Y, nametable, coarse Y, coarse X. -/
def Obligations.ScrollAndAddressWrites : Prop :=
  ∀ (s : State) (a : Word) (d : Byte), 0x2000 ≤ a.toNat → a.toNat < 0x4000 →
    let p := s.ppu
    (a.toNat % 8 = 0 → s.memWrite a d = { s with ppu := { p with
        ctrl := d, t := p.t.extractLsb' 12 3 ++ d.extractLsb' 0 2 ++ p.t.extractLsb' 0 10 } })
      ∧ (a.toNat % 8 = 1 → s.memWrite a d = { s with ppu := { p with mask := d } })
      ∧ (a.toNat % 8 = 2 → s.memWrite a d = s)
      ∧ (a.toNat % 8 = 5 → p.w = false → s.memWrite a d = { s with ppu := { p with
        t := p.t.extractLsb' 5 10 ++ d.extractLsb' 3 5, fineX := d.extractLsb' 0 3, w := true } })
      ∧ (a.toNat % 8 = 5 → p.w = true → s.memWrite a d = { s with ppu := { p with
        t := d.extractLsb' 0 3 ++ p.t.extractLsb' 10 2 ++ d.extractLsb' 3 5
          ++ p.t.extractLsb' 0 5
        w := false } })
      ∧ (a.toNat % 8 = 6 → p.w = false → s.memWrite a d = { s with ppu := { p with
        t := 0#1 ++ d.extractLsb' 0 6 ++ p.t.extractLsb' 0 8, w := true } })
      ∧ (a.toNat % 8 = 6 → p.w = true → s.memWrite a d = { s with ppu := { p with
        t := p.t.extractLsb' 8 7 ++ d, v := p.t.extractLsb' 8 7 ++ d, w := false } })

/-- R403, R404, R406, R411 to R413: the sprite-memory and video-memory ports. -/
def Obligations.DataPorts : Prop :=
  ∀ (s : State) (a : Word) (d : Byte), 0x2000 ≤ a.toNat → a.toNat < 0x4000 →
    let p := s.ppu
    let n := vnorm p.mirroring (p.v.setWidth 14)
    let v' := BitVec.ofNat 15 (p.v.toNat + if p.ctrl.getLsbD 2 then 32 else 1)
    (a.toNat % 8 = 3 → s.memWrite a d = { s with ppu := { p with oamAddr := d } })
      ∧ (a.toNat % 8 = 4 → s.memWrite a d = { s with ppu := { p with
          oam := p.oam.write p.oamAddr.toNat d
          oamAddr := BitVec.ofNat 8 (p.oamAddr.toNat + 1) } }
        ∧ s.memRead a = (p.oam.read p.oamAddr.toNat, s))
      ∧ (a.toNat % 8 = 7 → p.vram.wf →
        (∃ m : Memory, s.memWrite a d = { s with ppu := { p with vram := m, v := v' } }
            ∧ ∀ k, m.read k = if k = n then (if 0x3F00 ≤ n then d &&& 0x3F else d)
                else p.vram.read k)
          ∧ (p.v.toNat % 0x4000 < 0x3F00 →
            s.memRead a = (p.readBuffer, { s with ppu := { p with
              v := v', readBuffer := p.vram.read n } }))
          ∧ (0x3F00 ≤ p.v.toNat % 0x4000 →
            s.memRead a = (p.vram.read n, { s with ppu := { p with
              v := v'
              readBuffer := p.vram.read
                (vnorm p.mirroring (BitVec.ofNat 14 (p.v.toNat % 0x4000 - 0x1000))) } })))

/-- R482, R479: the palette aliases, the listed instances of the fold, and the fold of every address under
every mirroring: the pattern tables as they are, a nametable's offset in the physical table of its mode,
and the palette's 32 entries with the four aliases. -/
def Obligations.PaletteAndNametableFolds : Prop :=
  (∀ (p : Ppu) (v : Byte), p.vram.wf → (p.vramWrite 0x3F00 v).vramRead 0x3F10 = v &&& 0x3F)
    ∧ (∀ m, vnorm m 0x3F10 = 0x3F00 ∧ vnorm m 0x3F14 = 0x3F04 ∧ vnorm m 0x3F18 = 0x3F08
      ∧ vnorm m 0x3F1C = 0x3F0C ∧ vnorm m 0x3F11 = 0x3F11 ∧ vnorm m 0x3F01 = 0x3F01
      ∧ vnorm m 0x3F20 = 0x3F00 ∧ vnorm m 0x3FFF = 0x3F1F ∧ vnorm m 0x3FF4 = 0x3F04
      ∧ vnorm m 0x3000 = vnorm m 0x2000 ∧ vnorm m 0x7F00 = vnorm m 0x3F00)
    ∧ vnorm .horizontal 0x2400 = 0x2000 ∧ vnorm .horizontal 0x2800 = 0x2400
    ∧ vnorm .horizontal 0x2C00 = 0x2400 ∧ vnorm .vertical 0x2800 = 0x2000
    ∧ vnorm .vertical 0x2400 = 0x2400 ∧ vnorm .vertical 0x2C00 = 0x2400
    ∧ vnorm .singleB 0x2000 = 0x2400 ∧ vnorm .fourScreen 0x2C05 = 0x2C05
    ∧ vnorm .singleA 0x2C05 = 0x2005
    ∧ ∀ (m : Mirroring) (a : VAddr), (a.toNat < 0x2000 → vnorm m a = a.toNat)
      ∧ (0x2000 ≤ a.toNat → a.toNat < 0x3F00 →
        vnorm m a = 0x2000
          + (match m with
            | .horizontal => a.toNat / 0x800 % 2
            | .vertical => a.toNat / 0x400 % 2
            | .singleA => 0
            | .singleB => 1
            | .fourScreen => a.toNat / 0x400 % 4) * 0x400
          + a.toNat % 0x400)
      ∧ (0x3F00 ≤ a.toNat →
        vnorm m a = 0x3F00 + if a.toNat % 4 = 0 then a.toNat % 0x10 else a.toNat % 0x20)

/-- R416 (the spec's decision D22; log 19), R417: a store to 0x4014 copies 256 bytes, read through the bus, to
sprite memory from oam_addr on and costs 512 more;
with A = 0x10 and oam_addr = 0 the bytes are those of the internal RAM and STA costs 516. From any page,
the device registers' too (R87), the burst is 256 bus reads in order, with their side effects, each byte
stored before the next read: pages 0x20 to 0x3F read the PPU's data port 32 times and the status 32 times,
page 0x40 each controller once. -/
def Obligations.SpriteDmaCopiesAPage : Prop :=
  (∀ (s : State) (d : Byte), ∃ f : Nat → State, f 0 = s
      ∧ (∀ i, i < 256 →
        let r := (f i).memRead (BitVec.ofNat 16 (d.toNat * 256 + i))
        f (i + 1) = { r.2 with ppu := { r.2.ppu with
          oam := r.2.ppu.oam.write ((s.ppu.oamAddr.toNat + i) % 256) r.1 } })
      ∧ s.memWrite 0x4014 d = { f 256 with cyc := s.cyc + 512 }
      ∧ (s.memWrite 0x4014 d).ppu.oamAddr = s.ppu.oamAddr)
    ∧ (∀ (s : State) (d : Byte), 0x20 ≤ d.toNat → d.toNat < 0x40 →
      let t := s.memWrite 0x4014 d
      t.ppu.v.toNat = (s.ppu.v.toNat + 32 * (if s.ppu.ctrl.getLsbD 2 then 32 else 1)) % 0x8000
        ∧ (s.ppu.line ≠ 260 ∨ s.cfg.exemptBudgets.contains s.ppu.budget = false →
          t.ppu.vblank = false ∧ t.ppu.w = false)
        ∧ t.pad0 = s.pad0 ∧ t.pad1 = s.pad1)
    ∧ (∀ s : State,
      let t := s.memWrite 0x4014 0x40
      t = { s with
          cyc := s.cyc + 512
          ppu := { s.ppu with oam := t.ppu.oam }
          pad0 := { s.pad0 with count := s.pad0.count + 1 }
          pad1 := { s.pad1 with count := s.pad1.count + 1 } })
    ∧ (∀ (s : State) (d : Byte), s.ppu.oam.wf → d.toNat < 0x20 ∨ 0x41 ≤ d.toNat →
      (∀ i, i < 256 → (s.memWrite 0x4014 d).ppu.oam.read ((s.ppu.oamAddr.toNat + i) % 256)
          = s.byteAt (BitVec.ofNat 16 (d.toNat * 256 + i)))
        ∧ (s.memWrite 0x4014 d).cyc = s.cyc + 512
        ∧ s.memWrite 0x4014 d
          = { s with
              cyc := s.cyc + 512
              ppu := { s.ppu with oam := (s.memWrite 0x4014 d).ppu.oam } })
    ∧ ∀ s : State, s.ppu.oam.wf → s.ppu.oamAddr = 0 → s.a = 0x10 →
      ∃ t, exec (.sta (.abs 0x4014)) s = .next t
        ∧ (∀ i, i < 256 → t.ppu.oam.read i = s.mem.read i)
        ∧ t.cyc = s.cyc + 516

/-- R420, R421: after a strobe the k-th read of a port gives bit k of its button word, then the tail
bits, those that PAD_TAIL lists or, where nothing is said of it, the uninterpreted ones (log 13); the other
port's counter does not move. -/
def Obligations.ControllersSerialiseButtons : Prop :=
  ∀ (s : State) (d : Byte) (k : Nat),
    let tail := fun (t : PadTail) (port : Nat) =>
      match t with
      | .listed bits rest => bits.getD (k - 8) rest
      | .free => freePadTail port k
    let s0 := s.memWrite 0x4016 d
    let u0 := (fun t : State => (t.memRead 0x4016).2)^[k] s0
    let u1 := (fun t : State => (t.memRead 0x4017).2)^[k] s0
    (u0.memRead 0x4016).1
        = (if (if k < 8 then s.buttons0.getLsbD k else tail s.cfg.padTail0 0)
          then 1 else 0)
      ∧ (u1.memRead 0x4017).1
        = (if (if k < 8 then s.buttons1.getLsbD k else tail s.cfg.padTail1 1)
          then 1 else 0)
      ∧ u0 = { s with
          pad0 := { latch := s.buttons0, count := k }
          pad1 := { latch := s.buttons1, count := 0 } }

/-! ## The mappers -/

/-- R527: five writes to 0x8000 with bit 7 clear, from an empty shift register, commit exactly the value
of their bits into register 0; the first four copy nothing. The rule's example from reset: reg[0] is 0x0E,
vertical mirroring, PRG mode 3, 8 KiB CHR, and a sixth write 0x80 changes nothing. Three writes and one
with bit 7 set leave the empty shift register again, so that only the five writes after them commit.
R522 to R525, with the spec's own field layouts (D27; log 19): five writes to any addresses commit into the
register of the last one's window, and the windows, the pattern tables and the mirroring follow the four
registers; a write with bit 7 set clears the shift register and, where the parameter
MMC1_RESET_SETS_PRG_MODE says so, sets PRG mode 3 and switches. -/
def Obligations.Mmc1FiveWritesCommit : Prop :=
  (∀ (s : State) (r : Mmc1) (d0 d1 d2 d3 d4 : Byte), s.mapper = .mmc1 r → r.shiftCount = 0 →
      r.shiftAcc = 0 → d0.getLsbD 7 = false → d1.getLsbD 7 = false → d2.getLsbD 7 = false →
      d3.getLsbD 7 = false → d4.getLsbD 7 = false →
      let s4 := (((s.memWrite 0x8000 d0).memWrite 0x8000 d1).memWrite 0x8000 d2).memWrite 0x8000 d3
      ∃ r', (s4.memWrite 0x8000 d4).mapper = .mmc1 r'
        ∧ r'.reg[0].toNat = (d0.getLsbD 0).toNat + 2 * (d1.getLsbD 0).toNat
          + 4 * (d2.getLsbD 0).toNat + 8 * (d3.getLsbD 0).toNat + 16 * (d4.getLsbD 0).toNat
        ∧ r'.reg[1] = r.reg[1] ∧ r'.reg[2] = r.reg[2] ∧ r'.reg[3] = r.reg[3]
        ∧ r'.shiftAcc = 0 ∧ r'.shiftCount = 0
        ∧ s4.mem = s.mem ∧ s4.ppu = s.ppu)
    ∧ (∀ (s : State) (n : Word), s.mapper = .mmc1 initMmc1 → s.cart.fourScreen = false →
      s.cfg.mmc1ResetSetsPrgMode = false → 0 < s.cart.prgCount → 0x8000 ≤ n.toNat →
      let s5 := ((((s.memWrite 0x8000 0x00).memWrite 0x8000 0x01).memWrite 0x8000 0x01).memWrite
        0x8000 0x01).memWrite 0x8000 0x00
      s5.mapper = .mmc1 { shiftAcc := 0, shiftCount := 0, reg := #v[0x0E, 0, 0, 0] }
        ∧ s5.ppu.mirroring = .vertical
        ∧ (∀ i, i < 16384 → s5.mem.read (0x8000 + i) = s.cart.prg.read i
          ∧ s5.mem.read (0xC000 + i) = s.cart.prg.read ((s.cart.prgCount - 1) * 16384 + i))
        ∧ (∀ i, i < 8192 → s.cart.chrCount ≠ 0 → s5.ppu.vram.read i = s.cart.chr.read i)
        ∧ s5.memWrite n 0x80 = s5)
    ∧ (∀ (s : State) (r : Mmc1) (d0 d1 d2 d3 : Byte), s.mapper = .mmc1 r → r.shiftCount = 0 →
      r.shiftAcc = 0 → d0.getLsbD 7 = false → d1.getLsbD 7 = false → d2.getLsbD 7 = false →
      d3.getLsbD 7 = true →
      let t := (((s.memWrite 0x8000 d0).memWrite 0x8000 d1).memWrite 0x8000 d2).memWrite 0x8000 d3
      (∃ r', t.mapper = .mmc1 r' ∧ r'.shiftCount = 0 ∧ r'.shiftAcc = 0
          ∧ r'.reg[1] = r.reg[1] ∧ r'.reg[2] = r.reg[2] ∧ r'.reg[3] = r.reg[3])
        ∧ (s.cfg.mmc1ResetSetsPrgMode = false → t = s))
    ∧ (∀ (s : State) (r : Mmc1) (a0 a1 a2 a3 a4 : Word) (d0 d1 d2 d3 d4 : Byte), s.mapper = .mmc1 r →
      r.shiftCount = 0 → r.shiftAcc = 0 → d0.getLsbD 7 = false → d1.getLsbD 7 = false →
      d2.getLsbD 7 = false → d3.getLsbD 7 = false → d4.getLsbD 7 = false → 0x8000 ≤ a0.toNat →
      0x8000 ≤ a1.toNat → 0x8000 ≤ a2.toNat → 0x8000 ≤ a3.toNat → 0x8000 ≤ a4.toNat →
      let s4 := (((s.memWrite a0 d0).memWrite a1 d1).memWrite a2 d2).memWrite a3 d3
      ∃ r' : Mmc1, s4 = { s with mapper := s4.mapper }
        ∧ r'.shiftAcc = 0 ∧ r'.shiftCount = 0
        ∧ (∀ j : Fin 4,
          (j.val = a4.toNat / 8192 % 4 →
            r'.reg[j].toNat = (d0.getLsbD 0).toNat + 2 * (d1.getLsbD 0).toNat
              + 4 * (d2.getLsbD 0).toNat + 8 * (d3.getLsbD 0).toNat + 16 * (d4.getLsbD 0).toNat)
          ∧ (j.val ≠ a4.toNat / 8192 % 4 → r'.reg[j] = r.reg[j]))
        ∧ Mmc1Layout s (s4.memWrite a4 d4) r')
    ∧ ∀ (s : State) (r : Mmc1) (a : Word) (d : Byte), s.mapper = .mmc1 r → 0x8000 ≤ a.toNat →
      d.getLsbD 7 = true →
      (s.cfg.mmc1ResetSetsPrgMode = false →
        s.memWrite a d = { s with mapper := .mmc1 { r with shiftAcc := 0, shiftCount := 0 } })
      ∧ (s.cfg.mmc1ResetSetsPrgMode = true →
        Mmc1Layout s (s.memWrite a d)
          { shiftAcc := 0, shiftCount := 0, reg := r.reg.set 0 (r.reg[0] ||| 0x0C) })

/-- R504, R505, R514, R515, R518, R519: a write at or above 0x8000 switches UNROM's lower PRG window, or
CNROM's CHR, to the bank of the written byte modulo the number of banks. -/
def Obligations.LatchMappersSwitchBanks : Prop :=
  (∀ (s : State) (latch d : Byte) (a : Word), s.mapper = .unrom latch → 0x8000 ≤ a.toNat →
      let t := s.memWrite a d
      (∀ n, t.mem.read n
          = if 0x8000 ≤ n ∧ n < 0xC000 then
              s.cart.prg.read (d.toNat % s.cart.prgCount * 16384 + (n - 0x8000))
            else s.mem.read n)
        ∧ t = { s with mem := t.mem, mapper := .unrom d })
    ∧ ∀ (s : State) (latch d : Byte) (a : Word), s.mapper = .cnrom latch → 0x8000 ≤ a.toNat →
      let t := s.memWrite a d
      (∀ n, t.ppu.vram.read n
          = if n < 0x2000 ∧ s.cart.chrCount ≠ 0 then
              s.cart.chr.read (d.toNat % s.cart.chrCount * 8192 + n)
            else s.ppu.vram.read n)
        ∧ t = { s with mapper := .cnrom d, ppu := { s.ppu with vram := t.ppu.vram } }

/-- R531 to R534, R504, R505: MMC3's bank registers: the register a write at 0x8000 to 0x9FFF sets, and
the byte every window shows after it. -/
def Obligations.Mmc3BanksFollowTheirRegisters : Prop :=
  ∀ (s : State) (r : Mmc3) (a : Word) (d : Byte), s.mapper = .mmc3 r → 0x8000 ≤ a.toNat →
    a.toNat < 0xA000 →
    let t := s.memWrite a d
    ∃ r' : Mmc3, t = { s with
        mem := t.mem, mapper := .mmc3 r', ppu := { s.ppu with vram := t.ppu.vram } }
      ∧ (a.toNat % 2 = 0 → r' = { r with bankSelect := d })
      ∧ (a.toNat % 2 = 1 → r' = { r with bankReg := r'.bankReg }
        ∧ ∀ j : Fin 8, r'.bankReg[j] = if j.val = r.bankSelect.toNat % 8 then d else r.bankReg[j])
      ∧ (∀ n, n < 0x8000 → t.mem.read n = s.mem.read n)
      ∧ (∀ n, 0x2000 ≤ n ∨ s.cart.chrCount = 0 → t.ppu.vram.read n = s.ppu.vram.read n)
      ∧ (let banks := s.cart.prgCount * 2
        let swap := r'.bankSelect.getLsbD 6
        let bank := fun k : Nat =>
          if k = 1 then r'.bankReg[7].toNat
          else if k = 3 then banks - 1
          else if k = (if swap then 2 else 0) then r'.bankReg[6].toNat
          else banks - 2
        ∀ k i, k < 4 → i < 8192 →
          t.mem.read (0x8000 + k * 8192 + i) = s.cart.prg.read (bank k % banks * 8192 + i))
      ∧ (let banks := s.cart.chrCount * 8
        let bank := fun k : Fin 8 =>
          if k = 0 then r'.bankReg[0].toNat / 2 * 2
          else if k = 1 then r'.bankReg[0].toNat / 2 * 2 + 1
          else if k = 2 then r'.bankReg[1].toNat / 2 * 2
          else if k = 3 then r'.bankReg[1].toNat / 2 * 2 + 1
          else r'.bankReg[k.val - 2].toNat
        ∀ (k : Fin 8) (i : Nat), i < 1024 → s.cart.chrCount ≠ 0 →
          t.ppu.vram.read ((k.val + if r'.bankSelect.getLsbD 7 then 4 else 0) % 8 * 1024 + i)
            = s.cart.chr.read (bank k % banks * 1024 + i))

/-- R535, R536: MMC3's mirroring, SRAM and interrupt registers, through every mirror of their address. -/
def Obligations.Mmc3RegisterWrites : Prop :=
  ∀ (s : State) (r : Mmc3) (a : Word) (d : Byte), s.mapper = .mmc3 r → 0xA000 ≤ a.toNat →
    (a.toNat < 0xC000 → a.toNat % 2 = 0 → s.cart.fourScreen = false →
        s.memWrite a d = { s with ppu := { s.ppu with
          mirroring := if d.getLsbD 0 then .horizontal else .vertical } })
      ∧ (a.toNat < 0xC000 → a.toNat % 2 = 0 → s.cart.fourScreen = true → s.memWrite a d = s)
      ∧ (a.toNat < 0xC000 → a.toNat % 2 = 1 → s.memWrite a d
          = { s with sramEnabled := d.getLsbD 7, sramReadonly := d.getLsbD 6 })
      ∧ (0xC000 ≤ a.toNat → a.toNat < 0xE000 → a.toNat % 2 = 0 →
          s.memWrite a d = { s with mapper := .mmc3 { r with irqLatch := d } })
      ∧ (0xC000 ≤ a.toNat → a.toNat < 0xE000 → a.toNat % 2 = 1 →
          s.memWrite a d = { s with mapper := .mmc3 { r with irqCounter := 0, irqReload := true } })
      ∧ (0xE000 ≤ a.toNat → a.toNat % 2 = 0 → s.memWrite a d
          = { s with mapper := .mmc3 { r with irqEnabled := false }, irqPending := false })
      ∧ (0xE000 ≤ a.toNat → a.toNat % 2 = 1 →
          s.memWrite a d = { s with mapper := .mmc3 { r with irqEnabled := true } })

/-- R537: MMC3's counter at a boundary: clocked on lines 0 to 240 while rendering is enabled (or on every
line under MMC3_COUNT_IN_VBLANK); it reloads at zero or on request, else counts down; at zero while
enabled it requests the IRQ. The other variants do nothing. -/
def Obligations.Mmc3CountsScanlines : Prop :=
  (∀ (s : State) (r : Mmc3), s.mapper = .mmc3 r →
      let clocked := (s.ppu.mask.getLsbD 3 = true ∨ s.ppu.mask.getLsbD 4 = true)
        ∧ (s.cfg.mmc3CountInVblank = true ∨ 0 ≤ s.ppu.line ∧ s.ppu.line ≤ 240)
      (¬ clocked → s.mapperUpdate = s)
        ∧ (clocked → ∃ c : Byte,
          (c.toNat : Int) = (if r.irqCounter = 0 ∨ r.irqReload = true then (r.irqLatch.toNat : Int)
            else r.irqCounter.toNat - 1)
          ∧ let t := { s with mapper := .mmc3 { r with
              irqCounter := c
              irqReload := false } }
            s.mapperUpdate = if c = 0 ∧ r.irqEnabled = true then State.raiseIrq t else t))
    ∧ ∀ s : State, (∀ r, s.mapper ≠ .mmc3 r) → s.mapperUpdate = s

/-! ## Invariants -/

/-- R24, R30, R50 to R52, R61, R75, R557: the invariant holds at power-on, for every parameter with a positive
scanline, every cartridge and every initial memory inside its array, and so at reset. -/
def Obligations.InvariantHoldsAtPowerOn : Prop :=
  State.reset.Invariant
    ∧ ∀ (cfg : Params) (c : Cartridge) (ram vram oam : Memory), 0 < cfg.cyclesPerScanline →
      ram.wf → vram.wf → vram.inside 0x4000 → oam.wf → oam.inside 0x100 → c.prg.wf → c.chr.wf →
      (State.powerOn cfg c ram vram oam).Invariant

/-- R24, R30, R50 to R52, R61, R552, R557 (c): every step keeps the invariant: memories in canonical form and
inside their arrays, bit 5 of P set, palette bytes of six bits, the line in -1 to 260, budget left, the
cycles spent equal to the budgets consumed, the mapper the cartridge's variant. -/
def Obligations.EveryStepKeepsTheInvariant : Prop :=
  ∀ s t : State, s.Invariant → step s = .next t → t.Invariant

/-- R8, R60, R420: no step writes the cartridge record, the parameters or the button words, or sets the
reset request. -/
def Obligations.NoStepWritesConfiguration : Prop :=
  ∀ s t : State, step s = .next t →
    t.cart = s.cart ∧ t.cfg = s.cfg ∧ t.buttons0 = s.buttons0 ∧ t.buttons1 = s.buttons1
      ∧ t.resetPending = false

end Statements
end

