-- ==== Sys2Proof/Laws/Memory.lean ====
section
/-! SUPPORT. What the memory operations do to the byte at an address, and that each keeps the canonical
form and the address bound. -/

namespace Sys2Proof.Machine

/-! ### Reading -/

@[simp] theorem read_nil (a : Nat) : Memory.read [] a = unlistedByte := rfl

theorem read_cons (k : Nat) (v : Byte) (m : Memory) (a : Nat) :
    Memory.read ((k, v) :: m) a = if k = a then v else Memory.read m a := rfl

theorem read_eq_unlisted {m : Memory} {a : Nat} (h : ∀ c ∈ m, c.1 ≠ a) :
    Memory.read m a = unlistedByte := by
  induction m with
  | nil => rfl
  | cons c m ih =>
    obtain ⟨k, v⟩ := c
    have hk : k ≠ a := h (k, v) (by simp)
    rw [read_cons, if_neg hk, ih (fun c hc => h c (by simp [hc]))]

theorem read_consEntry (k : Nat) (v : Byte) (m : Memory) (a : Nat) (h : ∀ c ∈ m, c.1 ≠ k) :
    Memory.read (consEntry k v m) a = if k = a then v else Memory.read m a := by
  unfold consEntry
  by_cases hv : v = unlistedByte
  · by_cases hk : k = a
    · subst hk
      rw [if_pos hv, if_pos rfl, read_eq_unlisted h, hv]
    · rw [if_pos hv, if_neg hk]
  · rw [if_neg hv, read_cons]

/-- Read after write, for a memory in canonical form. -/
theorem read_write {m : Memory} (h : m.wf) (k : Nat) (v : Byte) (a : Nat) :
    Memory.read (m.write k v) a = if k = a then v else Memory.read m a := by
  obtain ⟨hs, -⟩ := h
  induction m with
  | nil => exact read_consEntry k v [] a (by simp)
  | cons c m ih =>
    obtain ⟨j, w⟩ := c
    rw [List.pairwise_cons] at hs
    have ih := ih hs.2
    unfold Memory.write
    split
    · rename_i hlt
      rw [read_cons, read_cons, ih]
      split
      · rw [if_neg (by omega)]
      · rfl
    · rename_i hge
      split
      · rename_i heq
        rw [read_consEntry _ _ _ _ (fun c hc => by have := hs.1 c hc; simp at this; omega), read_cons]
        subst heq
        split <;> rfl
      · rename_i hne
        rw [read_consEntry]
        intro c hc
        rcases List.mem_cons.mp hc with rfl | hc
        · simp; omega
        · have := hs.1 c hc
          simp at this; omega

theorem read_append (m n : Memory) (a : Nat) :
    Memory.read (m ++ n) a = if ∃ c ∈ m, c.1 = a then Memory.read m a else Memory.read n a := by
  induction m with
  | nil => simp
  | cons c m ih =>
    obtain ⟨k, v⟩ := c
    rw [List.cons_append, read_cons, read_cons, ih]
    by_cases hk : k = a
    · simp [hk]
    · simp [hk]

theorem read_filter (m : Memory) (q : Nat → Prop) [DecidablePred q] (a : Nat) :
    Memory.read (m.filter (fun c => decide (q c.1))) a
      = if q a then Memory.read m a else unlistedByte := by
  induction m with
  | nil => simp
  | cons c m ih =>
    obtain ⟨k, v⟩ := c
    by_cases hq : q k
    · rw [List.filter_cons_of_pos (by simpa using hq), read_cons, read_cons, ih]
      by_cases hk : k = a
      · subst hk; simp [hq]
      · simp [hk]
    · rw [List.filter_cons_of_neg (by simpa using hq), ih, read_cons]
      by_cases hk : k = a
      · subst hk; simp [hq]
      · simp [hk]

theorem read_below (m : Memory) (b a : Nat) :
    Memory.read (m.below b) a = if a < b then Memory.read m a else unlistedByte :=
  read_filter m (fun k => k < b) a

theorem read_above (m : Memory) (b a : Nat) :
    Memory.read (m.above b) a = if b ≤ a then Memory.read m a else unlistedByte :=
  read_filter m (fun k => b ≤ k) a

theorem read_slice (src : Memory) (off size dst a : Nat) :
    Memory.read (src.slice off size dst) a
      = if dst ≤ a ∧ a < dst + size then Memory.read src (a - dst + off) else unlistedByte := by
  unfold Memory.slice
  induction src with
  | nil => simp
  | cons c m ih =>
    obtain ⟨k, v⟩ := c
    by_cases hk : off ≤ k ∧ k < off + size
    · rw [List.filter_cons_of_pos (by simpa using hk), List.map_cons, read_cons, ih, read_cons]
      by_cases ha : dst ≤ a ∧ a < dst + size
      · by_cases he : k - off + dst = a
        · rw [if_pos he, if_pos ha, if_pos (by omega)]
        · rw [if_neg he, if_pos ha, if_pos ha, if_neg (by omega)]
      · rw [if_neg (by omega), if_neg ha, if_neg ha]
    · rw [List.filter_cons_of_neg (by simpa using hk), ih, read_cons]
      by_cases ha : dst ≤ a ∧ a < dst + size
      · rw [if_pos ha, if_pos ha, if_neg (by omega)]
      · rw [if_neg ha, if_neg ha]

/-- What a bulk copy leaves at each address. -/
theorem read_copy (m src : Memory) (dst size off a : Nat) :
    Memory.read (m.copy src dst size off) a
      = if dst ≤ a ∧ a < dst + size then Memory.read src (a - dst + off) else Memory.read m a := by
  unfold Memory.copy
  rw [read_append, read_append, read_below, read_slice, read_above]
  have hb : (∃ c ∈ m.below dst, c.1 = a) → a < dst := by
    rintro ⟨c, hc, rfl⟩
    simpa [Memory.below] using (List.mem_filter.mp hc).2
  have hs : (∃ c ∈ src.slice off size dst, c.1 = a) → dst ≤ a ∧ a < dst + size := by
    rintro ⟨c, hc, rfl⟩
    simp only [Memory.slice, List.mem_map, List.mem_filter, decide_eq_true_eq] at hc
    obtain ⟨d, ⟨-, h1, h2⟩, rfl⟩ := hc
    simp only
    omega
  by_cases h1 : ∃ c ∈ m.below dst, c.1 = a
  · have := hb h1
    rw [if_pos h1, if_pos this, if_neg (by omega)]
  · rw [if_neg h1]
    by_cases hlt : a < dst
    · have hno : ∀ c ∈ m, c.1 ≠ a := by
        intro c hc he
        exact h1 ⟨c, by simpa [Memory.below, hc, he] using hlt, he⟩
      rw [if_neg (fun h => by have := hs h; omega), if_neg (by omega), if_neg (by omega),
        read_eq_unlisted hno]
    · by_cases h2 : ∃ c ∈ src.slice off size dst, c.1 = a
      · have := hs h2
        rw [if_pos h2, if_pos this, if_pos this]
      · rw [if_neg h2]
        by_cases hin : dst ≤ a ∧ a < dst + size
        · rw [if_neg (by omega), if_pos hin]
          have : ∀ c ∈ src.slice off size dst, c.1 ≠ a := fun c hc he => h2 ⟨c, hc, he⟩
          have h3 := read_slice src off size dst a
          rw [if_pos hin, read_eq_unlisted this] at h3
          exact h3
        · rw [if_neg hin, if_pos (by omega)]

/-! ### The canonical form and the bound -/

theorem wf_nil : Memory.wf [] := by simp [Memory.wf]

theorem wf_tail {c : Host.Cell} {m : Memory} (h : Memory.wf (c :: m)) : Memory.wf m :=
  ⟨(List.pairwise_cons.mp h.1).2, fun d hd => h.2 d (by simp [hd])⟩

theorem mem_consEntry {k : Nat} {v : Byte} {m : Memory} {c : Host.Cell}
    (h : c ∈ consEntry k v m) : (c = (k, v) ∧ v ≠ unlistedByte) ∨ c ∈ m := by
  unfold consEntry at h
  split at h
  · exact .inr h
  · rename_i hv
    rcases List.mem_cons.mp h with h | h
    · exact .inl ⟨h, hv⟩
    · exact .inr h

theorem mem_write {m : Memory} {k : Nat} {v : Byte} {c : Host.Cell} (h : c ∈ m.write k v) :
    (c = (k, v) ∧ v ≠ unlistedByte) ∨ c ∈ m := by
  induction m with
  | nil => exact mem_consEntry h
  | cons d m ih =>
    obtain ⟨j, w⟩ := d
    unfold Memory.write at h
    split at h
    · rcases List.mem_cons.mp h with h | h
      · exact .inr (by simp [h])
      · rcases ih h with h | h
        · exact .inl h
        · exact .inr (by simp [h])
    · split at h
      · rcases mem_consEntry h with h | h
        · exact .inl h
        · exact .inr (by simp [h])
      · exact mem_consEntry h

theorem wf_consEntry {k : Nat} {v : Byte} {m : Memory} (h : m.wf) (hk : ∀ c ∈ m, k < c.1) :
    (consEntry k v m).wf := by
  unfold consEntry
  split
  · exact h
  · rename_i hv
    refine ⟨List.pairwise_cons.mpr ⟨hk, h.1⟩, ?_⟩
    intro c hc
    rcases List.mem_cons.mp hc with rfl | hc
    · exact hv
    · exact h.2 c hc

/-- A store keeps the canonical form. -/
theorem wf_write {m : Memory} (h : m.wf) (k : Nat) (v : Byte) : (m.write k v).wf := by
  induction m with
  | nil => exact wf_consEntry wf_nil (by simp)
  | cons d m ih =>
    obtain ⟨j, w⟩ := d
    have hp := List.pairwise_cons.mp h.1
    have ih := ih (wf_tail h)
    unfold Memory.write
    split
    · rename_i hlt
      refine ⟨List.pairwise_cons.mpr ⟨?_, ih.1⟩, ?_⟩
      · intro c hc
        rcases mem_write hc with ⟨rfl, -⟩ | hc
        · exact hlt
        · exact hp.1 c hc
      · intro c hc
        rcases List.mem_cons.mp hc with rfl | hc
        · exact h.2 _ (by simp)
        · exact ih.2 c hc
    · split
      · rename_i heq
        exact wf_consEntry (wf_tail h) (fun c hc => by have := hp.1 c hc; simp at this; omega)
      · refine wf_consEntry h ?_
        intro c hc
        rcases List.mem_cons.mp hc with rfl | hc
        · simp; omega
        · have := hp.1 c hc
          simp at this; omega

/-- A store below the bound keeps the bound. -/
theorem inside_write {m : Memory} {n k : Nat} (h : m.inside n) (hk : k < n) (v : Byte) :
    (m.write k v).inside n := by
  intro c hc
  rcases mem_write hc with ⟨rfl, -⟩ | hc
  · exact hk
  · exact h c hc

theorem wf_filter {m : Memory} (h : m.wf) (q : Host.Cell → Bool) : Memory.wf (m.filter q) :=
  ⟨h.1.filter q, fun c hc => h.2 c (List.mem_filter.mp hc).1⟩

theorem wf_slice {src : Memory} (h : src.wf) (off size dst : Nat) : (src.slice off size dst).wf := by
  have hf := wf_filter h (fun c => decide (off ≤ c.1 ∧ c.1 < off + size))
  refine ⟨?_, ?_⟩
  · unfold Memory.slice
    rw [List.pairwise_map]
    refine List.Pairwise.imp_of_mem ?_ hf.1
    intro c d hc hd hlt
    simp only [List.mem_filter, decide_eq_true_eq] at hc hd
    simp only
    omega
  · intro c hc
    simp only [Memory.slice, List.mem_map] at hc
    obtain ⟨d, hd, rfl⟩ := hc
    exact hf.2 d hd

theorem mem_copy {m src : Memory} {dst size off : Nat} {c : Host.Cell}
    (h : c ∈ m.copy src dst size off) : c ∈ m ∨ (dst ≤ c.1 ∧ c.1 < dst + size) := by
  simp only [Memory.copy, List.mem_append] at h
  rcases h with h | h | h
  · exact .inl (List.mem_filter.mp h).1
  · refine .inr ?_
    simp only [Memory.slice, List.mem_map, List.mem_filter, decide_eq_true_eq] at h
    obtain ⟨d, ⟨-, h1, h2⟩, rfl⟩ := h
    simp only
    omega
  · exact .inl (List.mem_filter.mp h).1

/-- A bulk copy from a memory in canonical form keeps the canonical form. -/
theorem wf_copy {m src : Memory} (h : m.wf) (hs : src.wf) (dst size off : Nat) :
    (m.copy src dst size off).wf := by
  have h1 : (m.below dst).wf := wf_filter h _
  have h2 := wf_slice hs off size dst
  have h3 : (m.above (dst + size)).wf := wf_filter h _
  refine ⟨?_, ?_⟩
  · unfold Memory.copy
    rw [List.pairwise_append, List.pairwise_append]
    refine ⟨h1.1, ⟨h2.1, h3.1, ?_⟩, ?_⟩
    · intro c hc d hd
      simp only [Memory.slice, List.mem_map, List.mem_filter, decide_eq_true_eq] at hc
      simp only [Memory.above, List.mem_filter, decide_eq_true_eq] at hd
      obtain ⟨e, ⟨-, h1, h2⟩, rfl⟩ := hc
      simp only
      omega
    · intro c hc d hd
      simp only [Memory.below, List.mem_filter, decide_eq_true_eq] at hc
      rcases List.mem_append.mp hd with hd | hd
      · simp only [Memory.slice, List.mem_map, List.mem_filter, decide_eq_true_eq] at hd
        obtain ⟨e, ⟨-, h1, h2⟩, rfl⟩ := hd
        simp only
        omega
      · simp only [Memory.above, List.mem_filter, decide_eq_true_eq] at hd
        omega
  · intro c hc
    simp only [Memory.copy, List.mem_append] at hc
    rcases hc with hc | hc | hc
    · exact h1.2 c hc
    · exact h2.2 c hc
    · exact h3.2 c hc

theorem inside_copy {m src : Memory} {n dst size : Nat} (h : m.inside n) (hd : dst + size ≤ n)
    (off : Nat) : (m.copy src dst size off).inside n := by
  intro c hc
  rcases mem_copy hc with hc | hc
  · exact h c hc
  · omega

/-- Two memories in canonical form that read alike are one memory. -/
theorem ext_of_read {m n : Memory} (hm : m.wf) (hn : n.wf)
    (h : ∀ a, Memory.read m a = Memory.read n a) : m = n := by
  induction m generalizing n with
  | nil =>
    cases n with
    | nil => rfl
    | cons d n =>
      obtain ⟨j, w⟩ := d
      have := h j
      rw [read_nil, read_cons, if_pos rfl] at this
      exact absurd this.symm (hn.2 (j, w) (by simp))
  | cons c m ih =>
    obtain ⟨k, v⟩ := c
    cases n with
    | nil =>
      have := h k
      rw [read_nil, read_cons, if_pos rfl] at this
      exact absurd this (hm.2 (k, v) (by simp))
    | cons d n =>
      obtain ⟨j, w⟩ := d
      have hpm := (List.pairwise_cons.mp hm.1).1
      have hpn := (List.pairwise_cons.mp hn.1).1
      have hv : v ≠ unlistedByte := hm.2 (k, v) (by simp)
      have hw : w ≠ unlistedByte := hn.2 (j, w) (by simp)
      have hkj : k = j := by
        rcases Nat.lt_trichotomy k j with hlt | heq | hlt
        · have h1 := h k
          rw [read_cons, if_pos rfl, read_cons, if_neg (by omega), read_eq_unlisted] at h1
          · exact absurd h1 hv
          · intro e he
            have := hpn e he
            simp at this; omega
        · exact heq
        · have h1 := h j
          rw [read_cons, if_neg (by omega), read_cons, if_pos rfl, read_eq_unlisted] at h1
          · exact absurd h1.symm hw
          · intro e he
            have := hpm e he
            simp at this; omega
      subst hkj
      have hvw : v = w := by
        have h1 := h k
        rwa [read_cons, if_pos rfl, read_cons, if_pos rfl] at h1
      subst hvw
      rw [ih (wf_tail hm) (wf_tail hn)]
      intro a
      by_cases ha : k = a
      · subst ha
        rw [read_eq_unlisted (fun e he => by have := hpm e he; simp at this; omega),
          read_eq_unlisted (fun e he => by have := hpn e he; simp at this; omega)]
      · have h1 := h a
        rwa [read_cons, if_neg ha, read_cons, if_neg ha] at h1

/-! ### VRAM_INIT with its palette masked (10_state.md R51, D10) -/

/-- Masking moves no entry. -/
theorem mem_maskPalette {m : Memory} {c : Host.Cell} (h : c ∈ maskPalette m) : ∃ d ∈ m, d.1 = c.1 := by
  induction m with
  | nil => exact absurd h List.not_mem_nil
  | cons e m ih =>
    obtain ⟨k, v⟩ := e
    have tl : c ∈ maskPalette m → ∃ d ∈ (k, v) :: m, d.1 = c.1 := fun hc =>
      (ih hc).imp fun d hd => ⟨List.mem_cons_of_mem _ hd.1, hd.2⟩
    have hd : ∀ w, c ∈ (k, w) :: maskPalette m → ∃ d ∈ (k, v) :: m, d.1 = c.1 := fun w hc =>
      (List.mem_cons.mp hc).elim (fun he => ⟨(k, v), List.mem_cons_self, by rw [he]⟩) tl
    unfold maskPalette at h
    split at h
    · exact hd v h
    · unfold consEntry at h
      split at h
      · exact tl h
      · exact hd _ h

/-- Below the palette nothing changes. -/
theorem read_maskPalette_below (m : Memory) {a : Nat} (ha : a < 0x3F00) :
    (maskPalette m).read a = m.read a := by
  induction m with
  | nil => rfl
  | cons e m ih =>
    obtain ⟨k, v⟩ := e
    unfold maskPalette
    split
    · rw [read_cons, read_cons, ih]
    · rename_i hk
      have hne : k ≠ a := by omega
      unfold consEntry
      rw [read_cons, if_neg hne]
      split
      · exact ih
      · rw [read_cons, if_neg hne, ih]

/-- A palette byte has its upper two bits clear. -/
theorem read_maskPalette_lt (m : Memory) {a : Nat} (ha : 0x3F00 ≤ a) :
    ((maskPalette m).read a).toNat < 64 := by
  induction m with
  | nil => exact show (0x00 : Byte).toNat < 64 by decide
  | cons e m ih =>
    obtain ⟨k, v⟩ := e
    unfold maskPalette
    split
    · rw [read_cons, if_neg (by omega)]
      exact ih
    · unfold consEntry
      split
      · exact ih
      · rw [read_cons]
        split
        · rw [BitVec.toNat_and]
          exact Nat.lt_of_le_of_lt Nat.and_le_right (by decide)
        · exact ih

/-- A palette byte is VRAM_INIT's with the upper two bits cleared. -/
theorem read_maskPalette {m : Memory} (h : m.wf) {a : Nat} (ha : 0x3F00 ≤ a) :
    (maskPalette m).read a = m.read a &&& 0x3F := by
  obtain ⟨hs, -⟩ := h
  induction m with
  | nil => exact show (0x00 : Byte) = 0x00 &&& 0x3F by decide
  | cons e m ih =>
    obtain ⟨k, v⟩ := e
    rw [List.pairwise_cons] at hs
    unfold maskPalette
    split
    · rw [read_cons, read_cons, if_neg (by omega), if_neg (by omega), ih hs.2]
    · rw [read_consEntry, read_cons, ih hs.2]
      · split <;> rfl
      · intro c hc
        obtain ⟨d, hd, he⟩ := mem_maskPalette hc
        have := hs.1 d hd
        simp only at this
        omega

theorem wf_maskPalette {m : Memory} (h : m.wf) : (maskPalette m).wf := by
  obtain ⟨hs, hv⟩ := h
  induction m with
  | nil => exact ⟨List.Pairwise.nil, by simp [maskPalette]⟩
  | cons e m ih =>
    obtain ⟨k, v⟩ := e
    rw [List.pairwise_cons] at hs
    have ih := ih hs.2 (fun c hc => hv c (List.mem_cons_of_mem _ hc))
    have hlt : ∀ c ∈ maskPalette m, k < c.1 := fun c hc => by
      obtain ⟨d, hd, he⟩ := mem_maskPalette hc
      exact he ▸ hs.1 d hd
    have put : ∀ w, w ≠ unlistedByte → Memory.wf ((k, w) :: maskPalette m) := fun w hw =>
      ⟨List.pairwise_cons.mpr ⟨hlt, ih.1⟩, fun c hc =>
        (List.mem_cons.mp hc).elim (fun he => he ▸ hw) (ih.2 c)⟩
    unfold maskPalette
    split
    · exact put v (hv (k, v) List.mem_cons_self)
    · unfold consEntry
      split
      · exact ih
      · exact put _ (by assumption)

theorem inside_maskPalette {m : Memory} {n : Nat} (h : m.inside n) : (maskPalette m).inside n :=
  fun _ hc => by
    obtain ⟨d, hd, he⟩ := mem_maskPalette hc
    exact he ▸ h d hd

end Sys2Proof.Machine
end

