-- ==== Sys2Proof/Laws/Bits.lean ====
section
/-! SUPPORT. Words and their bytes. -/

namespace Sys2Proof.Machine

@[simp] theorem wordOf_hi_lo (w : Word) : wordOf (hiByte w) (loByte w) = w := by
  apply BitVec.eq_of_getLsbD_eq
  intro j hj
  simp only [wordOf, hiByte, loByte, BitVec.getLsbD_append, BitVec.getLsbD_extractLsb']
  by_cases h : j < 8
  · simp [h]
  · have h2 : 8 + (j - 8) = j := by omega
    have h3 : j - 8 < 8 := by omega
    simp [h, h2, h3]

@[simp] theorem loByte_wordOf (a b : Byte) : loByte (wordOf a b) = b := by
  apply BitVec.eq_of_getLsbD_eq
  intro j hj
  simp only [wordOf, loByte, BitVec.getLsbD_extractLsb', BitVec.getLsbD_append]
  simp [hj]

@[simp] theorem hiByte_wordOf (a b : Byte) : hiByte (wordOf a b) = a := by
  apply BitVec.eq_of_getLsbD_eq
  intro j hj
  simp only [wordOf, hiByte, BitVec.getLsbD_extractLsb', BitVec.getLsbD_append]
  simp [hj]

/-- A word is its low byte plus 256 times its high byte. -/
theorem wordOf_toNat (h l : Byte) : (wordOf h l).toNat = l.toNat + 256 * h.toNat := by
  have hl := l.isLt
  unfold wordOf
  rw [BitVec.toNat_append, Nat.shiftLeft_eq, Nat.mul_comm, ← Nat.two_pow_add_eq_or_of_lt hl]
  omega

theorem and_ff00 (w : Word) : w &&& 0xFF00#16 = wordOf (hiByte w) 0 := by
  apply BitVec.eq_of_getLsbD_eq
  intro j hj
  simp only [wordOf, hiByte, BitVec.getLsbD_and, BitVec.getLsbD_append, BitVec.getLsbD_extractLsb']
  interval_cases j <;> simp

theorem and_00ff (w : Word) : w &&& 0x00FF#16 = wordOf 0 (loByte w) := by
  apply BitVec.eq_of_getLsbD_eq
  intro j hj
  simp only [wordOf, loByte, BitVec.getLsbD_and, BitVec.getLsbD_append, BitVec.getLsbD_extractLsb']
  interval_cases j <;> simp

theorem hiByte_toNat (w : Word) : (hiByte w).toNat = w.toNat / 256 := by
  have := w.isLt
  simp [hiByte, BitVec.extractLsb'_toNat, Nat.shiftRight_eq_div_pow]
  omega

theorem loByte_toNat (w : Word) : (loByte w).toNat = w.toNat % 256 := by
  simp [loByte, BitVec.extractLsb'_toNat]

/-- Pages as numbers. -/
theorem pagesDiffer_eq (u w : Word) : pagesDiffer u w = decide (u.toNat / 256 ≠ w.toNat / 256) := by
  unfold pagesDiffer
  rw [and_ff00, and_ff00, ← hiByte_toNat, ← hiByte_toNat, Bool.eq_iff_iff, bne_iff_ne,
    decide_eq_true_iff, not_iff_not]
  constructor
  · intro h
    rw [← hiByte_wordOf (hiByte u) 0, h, hiByte_wordOf]
  · intro h
    rw [BitVec.eq_of_toNat_eq h]

end Sys2Proof.Machine
end

