-- ==== Sys2Proof/Laws/State.lean ====
section
/-! SUPPORT. One lemma per field per update of the state, true by unfolding the record. -/

namespace Sys2Proof.Machine

/-! ### State.setP -/

@[simp] theorem setP_a (s : State) (v : Byte) : (s.setP v).a = s.a := rfl
@[simp] theorem setP_x (s : State) (v : Byte) : (s.setP v).x = s.x := rfl
@[simp] theorem setP_y (s : State) (v : Byte) : (s.setP v).y = s.y := rfl
@[simp] theorem setP_sp (s : State) (v : Byte) : (s.setP v).sp = s.sp := rfl
@[simp] theorem setP_p (s : State) (v : Byte) : (s.setP v).p = forceBit5 v := rfl
@[simp] theorem setP_pc (s : State) (v : Byte) : (s.setP v).pc = s.pc := rfl
@[simp] theorem setP_cyclesTotal (s : State) (v : Byte) :
    (s.setP v).cyclesTotal = s.cyclesTotal := rfl
@[simp] theorem setP_irqPending (s : State) (v : Byte) : (s.setP v).irqPending = s.irqPending := rfl
@[simp] theorem setP_mem (s : State) (v : Byte) : (s.setP v).mem = s.mem := rfl
@[simp] theorem setP_sramEnabled (s : State) (v : Byte) :
    (s.setP v).sramEnabled = s.sramEnabled := rfl
@[simp] theorem setP_sramReadonly (s : State) (v : Byte) :
    (s.setP v).sramReadonly = s.sramReadonly := rfl
@[simp] theorem setP_pad0 (s : State) (v : Byte) : (s.setP v).pad0 = s.pad0 := rfl
@[simp] theorem setP_pad1 (s : State) (v : Byte) : (s.setP v).pad1 = s.pad1 := rfl
@[simp] theorem setP_buttons0 (s : State) (v : Byte) : (s.setP v).buttons0 = s.buttons0 := rfl
@[simp] theorem setP_buttons1 (s : State) (v : Byte) : (s.setP v).buttons1 = s.buttons1 := rfl
@[simp] theorem setP_ppu (s : State) (v : Byte) : (s.setP v).ppu = s.ppu := rfl
@[simp] theorem setP_mapper (s : State) (v : Byte) : (s.setP v).mapper = s.mapper := rfl
@[simp] theorem setP_cart (s : State) (v : Byte) : (s.setP v).cart = s.cart := rfl
@[simp] theorem setP_cfg (s : State) (v : Byte) : (s.setP v).cfg = s.cfg := rfl
@[simp] theorem setP_resetPending (s : State) (v : Byte) :
    (s.setP v).resetPending = s.resetPending := rfl
@[simp] theorem setP_halted (s : State) (v : Byte) : (s.setP v).halted = s.halted := rfl
@[simp] theorem setP_cyc (s : State) (v : Byte) : (s.setP v).cyc = s.cyc := rfl
@[simp] theorem setP_events (s : State) (v : Byte) : (s.setP v).events = s.events := rfl

/-! ### State.setFlag -/

@[simp] theorem setFlag_a (s : State) (f : Flag) (v : Bool) : (s.setFlag f v).a = s.a := rfl
@[simp] theorem setFlag_x (s : State) (f : Flag) (v : Bool) : (s.setFlag f v).x = s.x := rfl
@[simp] theorem setFlag_y (s : State) (f : Flag) (v : Bool) : (s.setFlag f v).y = s.y := rfl
@[simp] theorem setFlag_sp (s : State) (f : Flag) (v : Bool) : (s.setFlag f v).sp = s.sp := rfl
@[simp] theorem setFlag_p (s : State) (f : Flag) (v : Bool) :
    (s.setFlag f v).p = forceBit5 (withFlag f v s.p) := rfl
@[simp] theorem setFlag_pc (s : State) (f : Flag) (v : Bool) : (s.setFlag f v).pc = s.pc := rfl
@[simp] theorem setFlag_cyclesTotal (s : State) (f : Flag) (v : Bool) :
    (s.setFlag f v).cyclesTotal = s.cyclesTotal := rfl
@[simp] theorem setFlag_irqPending (s : State) (f : Flag) (v : Bool) :
    (s.setFlag f v).irqPending = s.irqPending := rfl
@[simp] theorem setFlag_mem (s : State) (f : Flag) (v : Bool) : (s.setFlag f v).mem = s.mem := rfl
@[simp] theorem setFlag_sramEnabled (s : State) (f : Flag) (v : Bool) :
    (s.setFlag f v).sramEnabled = s.sramEnabled := rfl
@[simp] theorem setFlag_sramReadonly (s : State) (f : Flag) (v : Bool) :
    (s.setFlag f v).sramReadonly = s.sramReadonly := rfl
@[simp] theorem setFlag_pad0 (s : State) (f : Flag) (v : Bool) :
    (s.setFlag f v).pad0 = s.pad0 := rfl
@[simp] theorem setFlag_pad1 (s : State) (f : Flag) (v : Bool) :
    (s.setFlag f v).pad1 = s.pad1 := rfl
@[simp] theorem setFlag_buttons0 (s : State) (f : Flag) (v : Bool) :
    (s.setFlag f v).buttons0 = s.buttons0 := rfl
@[simp] theorem setFlag_buttons1 (s : State) (f : Flag) (v : Bool) :
    (s.setFlag f v).buttons1 = s.buttons1 := rfl
@[simp] theorem setFlag_ppu (s : State) (f : Flag) (v : Bool) : (s.setFlag f v).ppu = s.ppu := rfl
@[simp] theorem setFlag_mapper (s : State) (f : Flag) (v : Bool) :
    (s.setFlag f v).mapper = s.mapper := rfl
@[simp] theorem setFlag_cart (s : State) (f : Flag) (v : Bool) :
    (s.setFlag f v).cart = s.cart := rfl
@[simp] theorem setFlag_cfg (s : State) (f : Flag) (v : Bool) : (s.setFlag f v).cfg = s.cfg := rfl
@[simp] theorem setFlag_resetPending (s : State) (f : Flag) (v : Bool) :
    (s.setFlag f v).resetPending = s.resetPending := rfl
@[simp] theorem setFlag_halted (s : State) (f : Flag) (v : Bool) :
    (s.setFlag f v).halted = s.halted := rfl
@[simp] theorem setFlag_cyc (s : State) (f : Flag) (v : Bool) : (s.setFlag f v).cyc = s.cyc := rfl
@[simp] theorem setFlag_events (s : State) (f : Flag) (v : Bool) :
    (s.setFlag f v).events = s.events := rfl

/-! ### State.setNZ -/

@[simp] theorem setNZ_a (s : State) (v : Byte) : (s.setNZ v).a = s.a := rfl
@[simp] theorem setNZ_x (s : State) (v : Byte) : (s.setNZ v).x = s.x := rfl
@[simp] theorem setNZ_y (s : State) (v : Byte) : (s.setNZ v).y = s.y := rfl
@[simp] theorem setNZ_sp (s : State) (v : Byte) : (s.setNZ v).sp = s.sp := rfl
@[simp] theorem setNZ_pc (s : State) (v : Byte) : (s.setNZ v).pc = s.pc := rfl
@[simp] theorem setNZ_cyclesTotal (s : State) (v : Byte) :
    (s.setNZ v).cyclesTotal = s.cyclesTotal := rfl
@[simp] theorem setNZ_irqPending (s : State) (v : Byte) :
    (s.setNZ v).irqPending = s.irqPending := rfl
@[simp] theorem setNZ_mem (s : State) (v : Byte) : (s.setNZ v).mem = s.mem := rfl
@[simp] theorem setNZ_sramEnabled (s : State) (v : Byte) :
    (s.setNZ v).sramEnabled = s.sramEnabled := rfl
@[simp] theorem setNZ_sramReadonly (s : State) (v : Byte) :
    (s.setNZ v).sramReadonly = s.sramReadonly := rfl
@[simp] theorem setNZ_pad0 (s : State) (v : Byte) : (s.setNZ v).pad0 = s.pad0 := rfl
@[simp] theorem setNZ_pad1 (s : State) (v : Byte) : (s.setNZ v).pad1 = s.pad1 := rfl
@[simp] theorem setNZ_buttons0 (s : State) (v : Byte) : (s.setNZ v).buttons0 = s.buttons0 := rfl
@[simp] theorem setNZ_buttons1 (s : State) (v : Byte) : (s.setNZ v).buttons1 = s.buttons1 := rfl
@[simp] theorem setNZ_ppu (s : State) (v : Byte) : (s.setNZ v).ppu = s.ppu := rfl
@[simp] theorem setNZ_mapper (s : State) (v : Byte) : (s.setNZ v).mapper = s.mapper := rfl
@[simp] theorem setNZ_cart (s : State) (v : Byte) : (s.setNZ v).cart = s.cart := rfl
@[simp] theorem setNZ_cfg (s : State) (v : Byte) : (s.setNZ v).cfg = s.cfg := rfl
@[simp] theorem setNZ_resetPending (s : State) (v : Byte) :
    (s.setNZ v).resetPending = s.resetPending := rfl
@[simp] theorem setNZ_halted (s : State) (v : Byte) : (s.setNZ v).halted = s.halted := rfl
@[simp] theorem setNZ_cyc (s : State) (v : Byte) : (s.setNZ v).cyc = s.cyc := rfl
@[simp] theorem setNZ_events (s : State) (v : Byte) : (s.setNZ v).events = s.events := rfl

/-! ### State.finish -/

@[simp] theorem finish_a (s : State) (n c : Nat) : (s.finish n c).a = s.a := rfl
@[simp] theorem finish_x (s : State) (n c : Nat) : (s.finish n c).x = s.x := rfl
@[simp] theorem finish_y (s : State) (n c : Nat) : (s.finish n c).y = s.y := rfl
@[simp] theorem finish_sp (s : State) (n c : Nat) : (s.finish n c).sp = s.sp := rfl
@[simp] theorem finish_p (s : State) (n c : Nat) : (s.finish n c).p = s.p := rfl
@[simp] theorem finish_pc (s : State) (n c : Nat) :
    (s.finish n c).pc = s.pc + BitVec.ofNat 16 n := rfl
@[simp] theorem finish_cyclesTotal (s : State) (n c : Nat) :
    (s.finish n c).cyclesTotal = s.cyclesTotal := rfl
@[simp] theorem finish_irqPending (s : State) (n c : Nat) :
    (s.finish n c).irqPending = s.irqPending := rfl
@[simp] theorem finish_mem (s : State) (n c : Nat) : (s.finish n c).mem = s.mem := rfl
@[simp] theorem finish_sramEnabled (s : State) (n c : Nat) :
    (s.finish n c).sramEnabled = s.sramEnabled := rfl
@[simp] theorem finish_sramReadonly (s : State) (n c : Nat) :
    (s.finish n c).sramReadonly = s.sramReadonly := rfl
@[simp] theorem finish_pad0 (s : State) (n c : Nat) : (s.finish n c).pad0 = s.pad0 := rfl
@[simp] theorem finish_pad1 (s : State) (n c : Nat) : (s.finish n c).pad1 = s.pad1 := rfl
@[simp] theorem finish_buttons0 (s : State) (n c : Nat) :
    (s.finish n c).buttons0 = s.buttons0 := rfl
@[simp] theorem finish_buttons1 (s : State) (n c : Nat) :
    (s.finish n c).buttons1 = s.buttons1 := rfl
@[simp] theorem finish_ppu (s : State) (n c : Nat) : (s.finish n c).ppu = s.ppu := rfl
@[simp] theorem finish_mapper (s : State) (n c : Nat) : (s.finish n c).mapper = s.mapper := rfl
@[simp] theorem finish_cart (s : State) (n c : Nat) : (s.finish n c).cart = s.cart := rfl
@[simp] theorem finish_cfg (s : State) (n c : Nat) : (s.finish n c).cfg = s.cfg := rfl
@[simp] theorem finish_resetPending (s : State) (n c : Nat) :
    (s.finish n c).resetPending = s.resetPending := rfl
@[simp] theorem finish_halted (s : State) (n c : Nat) : (s.finish n c).halted = s.halted := rfl
@[simp] theorem finish_cyc (s : State) (n c : Nat) : (s.finish n c).cyc = s.cyc + c := rfl
@[simp] theorem finish_events (s : State) (n c : Nat) : (s.finish n c).events = s.events := rfl

/-! ### State.transfer -/

@[simp] theorem transfer_a (s : State) (w : Word) (c : Nat) : (s.transfer w c).a = s.a := rfl
@[simp] theorem transfer_x (s : State) (w : Word) (c : Nat) : (s.transfer w c).x = s.x := rfl
@[simp] theorem transfer_y (s : State) (w : Word) (c : Nat) : (s.transfer w c).y = s.y := rfl
@[simp] theorem transfer_sp (s : State) (w : Word) (c : Nat) : (s.transfer w c).sp = s.sp := rfl
@[simp] theorem transfer_p (s : State) (w : Word) (c : Nat) : (s.transfer w c).p = s.p := rfl
@[simp] theorem transfer_pc (s : State) (w : Word) (c : Nat) : (s.transfer w c).pc = w := rfl
@[simp] theorem transfer_cyclesTotal (s : State) (w : Word) (c : Nat) :
    (s.transfer w c).cyclesTotal = s.cyclesTotal := rfl
@[simp] theorem transfer_irqPending (s : State) (w : Word) (c : Nat) :
    (s.transfer w c).irqPending = s.irqPending := rfl
@[simp] theorem transfer_mem (s : State) (w : Word) (c : Nat) : (s.transfer w c).mem = s.mem := rfl
@[simp] theorem transfer_sramEnabled (s : State) (w : Word) (c : Nat) :
    (s.transfer w c).sramEnabled = s.sramEnabled := rfl
@[simp] theorem transfer_sramReadonly (s : State) (w : Word) (c : Nat) :
    (s.transfer w c).sramReadonly = s.sramReadonly := rfl
@[simp] theorem transfer_pad0 (s : State) (w : Word) (c : Nat) :
    (s.transfer w c).pad0 = s.pad0 := rfl
@[simp] theorem transfer_pad1 (s : State) (w : Word) (c : Nat) :
    (s.transfer w c).pad1 = s.pad1 := rfl
@[simp] theorem transfer_buttons0 (s : State) (w : Word) (c : Nat) :
    (s.transfer w c).buttons0 = s.buttons0 := rfl
@[simp] theorem transfer_buttons1 (s : State) (w : Word) (c : Nat) :
    (s.transfer w c).buttons1 = s.buttons1 := rfl
@[simp] theorem transfer_ppu (s : State) (w : Word) (c : Nat) : (s.transfer w c).ppu = s.ppu := rfl
@[simp] theorem transfer_mapper (s : State) (w : Word) (c : Nat) :
    (s.transfer w c).mapper = s.mapper := rfl
@[simp] theorem transfer_cart (s : State) (w : Word) (c : Nat) :
    (s.transfer w c).cart = s.cart := rfl
@[simp] theorem transfer_cfg (s : State) (w : Word) (c : Nat) : (s.transfer w c).cfg = s.cfg := rfl
@[simp] theorem transfer_resetPending (s : State) (w : Word) (c : Nat) :
    (s.transfer w c).resetPending = s.resetPending := rfl
@[simp] theorem transfer_halted (s : State) (w : Word) (c : Nat) :
    (s.transfer w c).halted = s.halted := rfl
@[simp] theorem transfer_cyc (s : State) (w : Word) (c : Nat) :
    (s.transfer w c).cyc = s.cyc + c := rfl
@[simp] theorem transfer_events (s : State) (w : Word) (c : Nat) :
    (s.transfer w c).events = s.events := rfl

/-! ### State.accumulate -/

@[simp] theorem accumulate_a (s : State) (k : Nat) : (s.accumulate k).a = s.a := rfl
@[simp] theorem accumulate_x (s : State) (k : Nat) : (s.accumulate k).x = s.x := rfl
@[simp] theorem accumulate_y (s : State) (k : Nat) : (s.accumulate k).y = s.y := rfl
@[simp] theorem accumulate_sp (s : State) (k : Nat) : (s.accumulate k).sp = s.sp := rfl
@[simp] theorem accumulate_p (s : State) (k : Nat) : (s.accumulate k).p = s.p := rfl
@[simp] theorem accumulate_pc (s : State) (k : Nat) : (s.accumulate k).pc = s.pc := rfl
@[simp] theorem accumulate_cyclesTotal (s : State) (k : Nat) :
    (s.accumulate k).cyclesTotal = s.cyclesTotal + k := rfl
@[simp] theorem accumulate_irqPending (s : State) (k : Nat) :
    (s.accumulate k).irqPending = s.irqPending := rfl
@[simp] theorem accumulate_mem (s : State) (k : Nat) : (s.accumulate k).mem = s.mem := rfl
@[simp] theorem accumulate_sramEnabled (s : State) (k : Nat) :
    (s.accumulate k).sramEnabled = s.sramEnabled := rfl
@[simp] theorem accumulate_sramReadonly (s : State) (k : Nat) :
    (s.accumulate k).sramReadonly = s.sramReadonly := rfl
@[simp] theorem accumulate_pad0 (s : State) (k : Nat) : (s.accumulate k).pad0 = s.pad0 := rfl
@[simp] theorem accumulate_pad1 (s : State) (k : Nat) : (s.accumulate k).pad1 = s.pad1 := rfl
@[simp] theorem accumulate_buttons0 (s : State) (k : Nat) :
    (s.accumulate k).buttons0 = s.buttons0 := rfl
@[simp] theorem accumulate_buttons1 (s : State) (k : Nat) :
    (s.accumulate k).buttons1 = s.buttons1 := rfl
@[simp] theorem accumulate_mapper (s : State) (k : Nat) : (s.accumulate k).mapper = s.mapper := rfl
@[simp] theorem accumulate_cart (s : State) (k : Nat) : (s.accumulate k).cart = s.cart := rfl
@[simp] theorem accumulate_cfg (s : State) (k : Nat) : (s.accumulate k).cfg = s.cfg := rfl
@[simp] theorem accumulate_resetPending (s : State) (k : Nat) :
    (s.accumulate k).resetPending = s.resetPending := rfl
@[simp] theorem accumulate_halted (s : State) (k : Nat) : (s.accumulate k).halted = s.halted := rfl
@[simp] theorem accumulate_cyc (s : State) (k : Nat) : (s.accumulate k).cyc = s.cyc := rfl
@[simp] theorem accumulate_events (s : State) (k : Nat) : (s.accumulate k).events = s.events := rfl

/-! ### State.store -/

@[simp] theorem store_a (s : State) (n : Word) (v : Byte) : (s.store n v).a = s.a := rfl
@[simp] theorem store_x (s : State) (n : Word) (v : Byte) : (s.store n v).x = s.x := rfl
@[simp] theorem store_y (s : State) (n : Word) (v : Byte) : (s.store n v).y = s.y := rfl
@[simp] theorem store_sp (s : State) (n : Word) (v : Byte) : (s.store n v).sp = s.sp := rfl
@[simp] theorem store_p (s : State) (n : Word) (v : Byte) : (s.store n v).p = s.p := rfl
@[simp] theorem store_pc (s : State) (n : Word) (v : Byte) : (s.store n v).pc = s.pc := rfl
@[simp] theorem store_cyclesTotal (s : State) (n : Word) (v : Byte) :
    (s.store n v).cyclesTotal = s.cyclesTotal := rfl
@[simp] theorem store_irqPending (s : State) (n : Word) (v : Byte) :
    (s.store n v).irqPending = s.irqPending := rfl
@[simp] theorem store_mem (s : State) (n : Word) (v : Byte) :
    (s.store n v).mem = s.mem.write n.toNat v := rfl
@[simp] theorem store_sramEnabled (s : State) (n : Word) (v : Byte) :
    (s.store n v).sramEnabled = s.sramEnabled := rfl
@[simp] theorem store_sramReadonly (s : State) (n : Word) (v : Byte) :
    (s.store n v).sramReadonly = s.sramReadonly := rfl
@[simp] theorem store_pad0 (s : State) (n : Word) (v : Byte) : (s.store n v).pad0 = s.pad0 := rfl
@[simp] theorem store_pad1 (s : State) (n : Word) (v : Byte) : (s.store n v).pad1 = s.pad1 := rfl
@[simp] theorem store_buttons0 (s : State) (n : Word) (v : Byte) :
    (s.store n v).buttons0 = s.buttons0 := rfl
@[simp] theorem store_buttons1 (s : State) (n : Word) (v : Byte) :
    (s.store n v).buttons1 = s.buttons1 := rfl
@[simp] theorem store_ppu (s : State) (n : Word) (v : Byte) : (s.store n v).ppu = s.ppu := rfl
@[simp] theorem store_mapper (s : State) (n : Word) (v : Byte) :
    (s.store n v).mapper = s.mapper := rfl
@[simp] theorem store_cart (s : State) (n : Word) (v : Byte) : (s.store n v).cart = s.cart := rfl
@[simp] theorem store_cfg (s : State) (n : Word) (v : Byte) : (s.store n v).cfg = s.cfg := rfl
@[simp] theorem store_resetPending (s : State) (n : Word) (v : Byte) :
    (s.store n v).resetPending = s.resetPending := rfl
@[simp] theorem store_halted (s : State) (n : Word) (v : Byte) :
    (s.store n v).halted = s.halted := rfl
@[simp] theorem store_cyc (s : State) (n : Word) (v : Byte) : (s.store n v).cyc = s.cyc := rfl
@[simp] theorem store_events (s : State) (n : Word) (v : Byte) :
    (s.store n v).events = s.events := rfl

/-! ### State.putOam -/

@[simp] theorem putOam_a (s : State) (i v : Byte) : (s.putOam i v).a = s.a := rfl
@[simp] theorem putOam_x (s : State) (i v : Byte) : (s.putOam i v).x = s.x := rfl
@[simp] theorem putOam_y (s : State) (i v : Byte) : (s.putOam i v).y = s.y := rfl
@[simp] theorem putOam_sp (s : State) (i v : Byte) : (s.putOam i v).sp = s.sp := rfl
@[simp] theorem putOam_p (s : State) (i v : Byte) : (s.putOam i v).p = s.p := rfl
@[simp] theorem putOam_pc (s : State) (i v : Byte) : (s.putOam i v).pc = s.pc := rfl
@[simp] theorem putOam_cyclesTotal (s : State) (i v : Byte) :
    (s.putOam i v).cyclesTotal = s.cyclesTotal := rfl
@[simp] theorem putOam_irqPending (s : State) (i v : Byte) :
    (s.putOam i v).irqPending = s.irqPending := rfl
@[simp] theorem putOam_mem (s : State) (i v : Byte) : (s.putOam i v).mem = s.mem := rfl
@[simp] theorem putOam_sramEnabled (s : State) (i v : Byte) :
    (s.putOam i v).sramEnabled = s.sramEnabled := rfl
@[simp] theorem putOam_sramReadonly (s : State) (i v : Byte) :
    (s.putOam i v).sramReadonly = s.sramReadonly := rfl
@[simp] theorem putOam_pad0 (s : State) (i v : Byte) : (s.putOam i v).pad0 = s.pad0 := rfl
@[simp] theorem putOam_pad1 (s : State) (i v : Byte) : (s.putOam i v).pad1 = s.pad1 := rfl
@[simp] theorem putOam_buttons0 (s : State) (i v : Byte) :
    (s.putOam i v).buttons0 = s.buttons0 := rfl
@[simp] theorem putOam_buttons1 (s : State) (i v : Byte) :
    (s.putOam i v).buttons1 = s.buttons1 := rfl
@[simp] theorem putOam_mapper (s : State) (i v : Byte) : (s.putOam i v).mapper = s.mapper := rfl
@[simp] theorem putOam_cart (s : State) (i v : Byte) : (s.putOam i v).cart = s.cart := rfl
@[simp] theorem putOam_cfg (s : State) (i v : Byte) : (s.putOam i v).cfg = s.cfg := rfl
@[simp] theorem putOam_resetPending (s : State) (i v : Byte) :
    (s.putOam i v).resetPending = s.resetPending := rfl
@[simp] theorem putOam_halted (s : State) (i v : Byte) : (s.putOam i v).halted = s.halted := rfl
@[simp] theorem putOam_cyc (s : State) (i v : Byte) : (s.putOam i v).cyc = s.cyc := rfl
@[simp] theorem putOam_events (s : State) (i v : Byte) : (s.putOam i v).events = s.events := rfl

/-! ### State.strobe -/

@[simp] theorem strobe_a (s : State) : s.strobe.a = s.a := rfl
@[simp] theorem strobe_x (s : State) : s.strobe.x = s.x := rfl
@[simp] theorem strobe_y (s : State) : s.strobe.y = s.y := rfl
@[simp] theorem strobe_sp (s : State) : s.strobe.sp = s.sp := rfl
@[simp] theorem strobe_p (s : State) : s.strobe.p = s.p := rfl
@[simp] theorem strobe_pc (s : State) : s.strobe.pc = s.pc := rfl
@[simp] theorem strobe_cyclesTotal (s : State) : s.strobe.cyclesTotal = s.cyclesTotal := rfl
@[simp] theorem strobe_irqPending (s : State) : s.strobe.irqPending = s.irqPending := rfl
@[simp] theorem strobe_mem (s : State) : s.strobe.mem = s.mem := rfl
@[simp] theorem strobe_sramEnabled (s : State) : s.strobe.sramEnabled = s.sramEnabled := rfl
@[simp] theorem strobe_sramReadonly (s : State) : s.strobe.sramReadonly = s.sramReadonly := rfl
@[simp] theorem strobe_buttons0 (s : State) : s.strobe.buttons0 = s.buttons0 := rfl
@[simp] theorem strobe_buttons1 (s : State) : s.strobe.buttons1 = s.buttons1 := rfl
@[simp] theorem strobe_ppu (s : State) : s.strobe.ppu = s.ppu := rfl
@[simp] theorem strobe_mapper (s : State) : s.strobe.mapper = s.mapper := rfl
@[simp] theorem strobe_cart (s : State) : s.strobe.cart = s.cart := rfl
@[simp] theorem strobe_cfg (s : State) : s.strobe.cfg = s.cfg := rfl
@[simp] theorem strobe_resetPending (s : State) : s.strobe.resetPending = s.resetPending := rfl
@[simp] theorem strobe_halted (s : State) : s.strobe.halted = s.halted := rfl
@[simp] theorem strobe_cyc (s : State) : s.strobe.cyc = s.cyc := rfl
@[simp] theorem strobe_events (s : State) : s.strobe.events = s.events := rfl

/-! ### State.copyPrg -/

@[simp] theorem copyPrg_a (s : State) (d n b : Nat) : (s.copyPrg d n b).a = s.a := rfl
@[simp] theorem copyPrg_x (s : State) (d n b : Nat) : (s.copyPrg d n b).x = s.x := rfl
@[simp] theorem copyPrg_y (s : State) (d n b : Nat) : (s.copyPrg d n b).y = s.y := rfl
@[simp] theorem copyPrg_sp (s : State) (d n b : Nat) : (s.copyPrg d n b).sp = s.sp := rfl
@[simp] theorem copyPrg_p (s : State) (d n b : Nat) : (s.copyPrg d n b).p = s.p := rfl
@[simp] theorem copyPrg_pc (s : State) (d n b : Nat) : (s.copyPrg d n b).pc = s.pc := rfl
@[simp] theorem copyPrg_cyclesTotal (s : State) (d n b : Nat) :
    (s.copyPrg d n b).cyclesTotal = s.cyclesTotal := rfl
@[simp] theorem copyPrg_irqPending (s : State) (d n b : Nat) :
    (s.copyPrg d n b).irqPending = s.irqPending := rfl
@[simp] theorem copyPrg_sramEnabled (s : State) (d n b : Nat) :
    (s.copyPrg d n b).sramEnabled = s.sramEnabled := rfl
@[simp] theorem copyPrg_sramReadonly (s : State) (d n b : Nat) :
    (s.copyPrg d n b).sramReadonly = s.sramReadonly := rfl
@[simp] theorem copyPrg_pad0 (s : State) (d n b : Nat) : (s.copyPrg d n b).pad0 = s.pad0 := rfl
@[simp] theorem copyPrg_pad1 (s : State) (d n b : Nat) : (s.copyPrg d n b).pad1 = s.pad1 := rfl
@[simp] theorem copyPrg_buttons0 (s : State) (d n b : Nat) :
    (s.copyPrg d n b).buttons0 = s.buttons0 := rfl
@[simp] theorem copyPrg_buttons1 (s : State) (d n b : Nat) :
    (s.copyPrg d n b).buttons1 = s.buttons1 := rfl
@[simp] theorem copyPrg_ppu (s : State) (d n b : Nat) : (s.copyPrg d n b).ppu = s.ppu := rfl
@[simp] theorem copyPrg_mapper (s : State) (d n b : Nat) :
    (s.copyPrg d n b).mapper = s.mapper := rfl
@[simp] theorem copyPrg_cart (s : State) (d n b : Nat) : (s.copyPrg d n b).cart = s.cart := rfl
@[simp] theorem copyPrg_cfg (s : State) (d n b : Nat) : (s.copyPrg d n b).cfg = s.cfg := rfl
@[simp] theorem copyPrg_resetPending (s : State) (d n b : Nat) :
    (s.copyPrg d n b).resetPending = s.resetPending := rfl
@[simp] theorem copyPrg_halted (s : State) (d n b : Nat) :
    (s.copyPrg d n b).halted = s.halted := rfl
@[simp] theorem copyPrg_cyc (s : State) (d n b : Nat) : (s.copyPrg d n b).cyc = s.cyc := rfl
@[simp] theorem copyPrg_events (s : State) (d n b : Nat) :
    (s.copyPrg d n b).events = s.events := rfl

/-! ### State.addA -/

@[simp] theorem addA_a (s : State) (m : Byte) :
    (s.addA m).a = (addWithCarry s.a m (s.flag .c)).r := rfl
@[simp] theorem addA_x (s : State) (m : Byte) : (s.addA m).x = s.x := rfl
@[simp] theorem addA_y (s : State) (m : Byte) : (s.addA m).y = s.y := rfl
@[simp] theorem addA_sp (s : State) (m : Byte) : (s.addA m).sp = s.sp := rfl
@[simp] theorem addA_pc (s : State) (m : Byte) : (s.addA m).pc = s.pc := rfl
@[simp] theorem addA_cyclesTotal (s : State) (m : Byte) :
    (s.addA m).cyclesTotal = s.cyclesTotal := rfl
@[simp] theorem addA_irqPending (s : State) (m : Byte) : (s.addA m).irqPending = s.irqPending := rfl
@[simp] theorem addA_mem (s : State) (m : Byte) : (s.addA m).mem = s.mem := rfl
@[simp] theorem addA_sramEnabled (s : State) (m : Byte) :
    (s.addA m).sramEnabled = s.sramEnabled := rfl
@[simp] theorem addA_sramReadonly (s : State) (m : Byte) :
    (s.addA m).sramReadonly = s.sramReadonly := rfl
@[simp] theorem addA_pad0 (s : State) (m : Byte) : (s.addA m).pad0 = s.pad0 := rfl
@[simp] theorem addA_pad1 (s : State) (m : Byte) : (s.addA m).pad1 = s.pad1 := rfl
@[simp] theorem addA_buttons0 (s : State) (m : Byte) : (s.addA m).buttons0 = s.buttons0 := rfl
@[simp] theorem addA_buttons1 (s : State) (m : Byte) : (s.addA m).buttons1 = s.buttons1 := rfl
@[simp] theorem addA_ppu (s : State) (m : Byte) : (s.addA m).ppu = s.ppu := rfl
@[simp] theorem addA_mapper (s : State) (m : Byte) : (s.addA m).mapper = s.mapper := rfl
@[simp] theorem addA_cart (s : State) (m : Byte) : (s.addA m).cart = s.cart := rfl
@[simp] theorem addA_cfg (s : State) (m : Byte) : (s.addA m).cfg = s.cfg := rfl
@[simp] theorem addA_resetPending (s : State) (m : Byte) :
    (s.addA m).resetPending = s.resetPending := rfl
@[simp] theorem addA_halted (s : State) (m : Byte) : (s.addA m).halted = s.halted := rfl
@[simp] theorem addA_cyc (s : State) (m : Byte) : (s.addA m).cyc = s.cyc := rfl
@[simp] theorem addA_events (s : State) (m : Byte) : (s.addA m).events = s.events := rfl

/-! ### State.subA -/

@[simp] theorem subA_a (s : State) (m : Byte) :
    (s.subA m).a = (subWithCarry s.a m (s.flag .c)).r := rfl
@[simp] theorem subA_x (s : State) (m : Byte) : (s.subA m).x = s.x := rfl
@[simp] theorem subA_y (s : State) (m : Byte) : (s.subA m).y = s.y := rfl
@[simp] theorem subA_sp (s : State) (m : Byte) : (s.subA m).sp = s.sp := rfl
@[simp] theorem subA_pc (s : State) (m : Byte) : (s.subA m).pc = s.pc := rfl
@[simp] theorem subA_cyclesTotal (s : State) (m : Byte) :
    (s.subA m).cyclesTotal = s.cyclesTotal := rfl
@[simp] theorem subA_irqPending (s : State) (m : Byte) : (s.subA m).irqPending = s.irqPending := rfl
@[simp] theorem subA_mem (s : State) (m : Byte) : (s.subA m).mem = s.mem := rfl
@[simp] theorem subA_sramEnabled (s : State) (m : Byte) :
    (s.subA m).sramEnabled = s.sramEnabled := rfl
@[simp] theorem subA_sramReadonly (s : State) (m : Byte) :
    (s.subA m).sramReadonly = s.sramReadonly := rfl
@[simp] theorem subA_pad0 (s : State) (m : Byte) : (s.subA m).pad0 = s.pad0 := rfl
@[simp] theorem subA_pad1 (s : State) (m : Byte) : (s.subA m).pad1 = s.pad1 := rfl
@[simp] theorem subA_buttons0 (s : State) (m : Byte) : (s.subA m).buttons0 = s.buttons0 := rfl
@[simp] theorem subA_buttons1 (s : State) (m : Byte) : (s.subA m).buttons1 = s.buttons1 := rfl
@[simp] theorem subA_ppu (s : State) (m : Byte) : (s.subA m).ppu = s.ppu := rfl
@[simp] theorem subA_mapper (s : State) (m : Byte) : (s.subA m).mapper = s.mapper := rfl
@[simp] theorem subA_cart (s : State) (m : Byte) : (s.subA m).cart = s.cart := rfl
@[simp] theorem subA_cfg (s : State) (m : Byte) : (s.subA m).cfg = s.cfg := rfl
@[simp] theorem subA_resetPending (s : State) (m : Byte) :
    (s.subA m).resetPending = s.resetPending := rfl
@[simp] theorem subA_halted (s : State) (m : Byte) : (s.subA m).halted = s.halted := rfl
@[simp] theorem subA_cyc (s : State) (m : Byte) : (s.subA m).cyc = s.cyc := rfl
@[simp] theorem subA_events (s : State) (m : Byte) : (s.subA m).events = s.events := rfl

/-! ### State.compare -/

@[simp] theorem compare_a (s : State) (r m : Byte) : (s.compare r m).a = s.a := rfl
@[simp] theorem compare_x (s : State) (r m : Byte) : (s.compare r m).x = s.x := rfl
@[simp] theorem compare_y (s : State) (r m : Byte) : (s.compare r m).y = s.y := rfl
@[simp] theorem compare_sp (s : State) (r m : Byte) : (s.compare r m).sp = s.sp := rfl
@[simp] theorem compare_pc (s : State) (r m : Byte) : (s.compare r m).pc = s.pc := rfl
@[simp] theorem compare_cyclesTotal (s : State) (r m : Byte) :
    (s.compare r m).cyclesTotal = s.cyclesTotal := rfl
@[simp] theorem compare_irqPending (s : State) (r m : Byte) :
    (s.compare r m).irqPending = s.irqPending := rfl
@[simp] theorem compare_mem (s : State) (r m : Byte) : (s.compare r m).mem = s.mem := rfl
@[simp] theorem compare_sramEnabled (s : State) (r m : Byte) :
    (s.compare r m).sramEnabled = s.sramEnabled := rfl
@[simp] theorem compare_sramReadonly (s : State) (r m : Byte) :
    (s.compare r m).sramReadonly = s.sramReadonly := rfl
@[simp] theorem compare_pad0 (s : State) (r m : Byte) : (s.compare r m).pad0 = s.pad0 := rfl
@[simp] theorem compare_pad1 (s : State) (r m : Byte) : (s.compare r m).pad1 = s.pad1 := rfl
@[simp] theorem compare_buttons0 (s : State) (r m : Byte) :
    (s.compare r m).buttons0 = s.buttons0 := rfl
@[simp] theorem compare_buttons1 (s : State) (r m : Byte) :
    (s.compare r m).buttons1 = s.buttons1 := rfl
@[simp] theorem compare_ppu (s : State) (r m : Byte) : (s.compare r m).ppu = s.ppu := rfl
@[simp] theorem compare_mapper (s : State) (r m : Byte) : (s.compare r m).mapper = s.mapper := rfl
@[simp] theorem compare_cart (s : State) (r m : Byte) : (s.compare r m).cart = s.cart := rfl
@[simp] theorem compare_cfg (s : State) (r m : Byte) : (s.compare r m).cfg = s.cfg := rfl
@[simp] theorem compare_resetPending (s : State) (r m : Byte) :
    (s.compare r m).resetPending = s.resetPending := rfl
@[simp] theorem compare_halted (s : State) (r m : Byte) : (s.compare r m).halted = s.halted := rfl
@[simp] theorem compare_cyc (s : State) (r m : Byte) : (s.compare r m).cyc = s.cyc := rfl
@[simp] theorem compare_events (s : State) (r m : Byte) : (s.compare r m).events = s.events := rfl

/-! ### State.beginStep -/

@[simp] theorem beginStep_a (s : State) : s.beginStep.a = s.a := rfl
@[simp] theorem beginStep_x (s : State) : s.beginStep.x = s.x := rfl
@[simp] theorem beginStep_y (s : State) : s.beginStep.y = s.y := rfl
@[simp] theorem beginStep_sp (s : State) : s.beginStep.sp = s.sp := rfl
@[simp] theorem beginStep_p (s : State) : s.beginStep.p = s.p := rfl
@[simp] theorem beginStep_pc (s : State) : s.beginStep.pc = s.pc := rfl
@[simp] theorem beginStep_cyclesTotal (s : State) : s.beginStep.cyclesTotal = s.cyclesTotal := rfl
@[simp] theorem beginStep_irqPending (s : State) : s.beginStep.irqPending = s.irqPending := rfl
@[simp] theorem beginStep_mem (s : State) : s.beginStep.mem = s.mem := rfl
@[simp] theorem beginStep_sramEnabled (s : State) : s.beginStep.sramEnabled = s.sramEnabled := rfl
@[simp] theorem beginStep_sramReadonly (s : State) :
    s.beginStep.sramReadonly = s.sramReadonly := rfl
@[simp] theorem beginStep_pad0 (s : State) : s.beginStep.pad0 = s.pad0 := rfl
@[simp] theorem beginStep_pad1 (s : State) : s.beginStep.pad1 = s.pad1 := rfl
@[simp] theorem beginStep_buttons0 (s : State) : s.beginStep.buttons0 = s.buttons0 := rfl
@[simp] theorem beginStep_buttons1 (s : State) : s.beginStep.buttons1 = s.buttons1 := rfl
@[simp] theorem beginStep_ppu (s : State) : s.beginStep.ppu = s.ppu := rfl
@[simp] theorem beginStep_mapper (s : State) : s.beginStep.mapper = s.mapper := rfl
@[simp] theorem beginStep_cart (s : State) : s.beginStep.cart = s.cart := rfl
@[simp] theorem beginStep_cfg (s : State) : s.beginStep.cfg = s.cfg := rfl
@[simp] theorem beginStep_resetPending (s : State) :
    s.beginStep.resetPending = s.resetPending := rfl
@[simp] theorem beginStep_halted (s : State) : s.beginStep.halted = s.halted := rfl
@[simp] theorem beginStep_cyc (s : State) : s.beginStep.cyc = 0 := rfl
@[simp] theorem beginStep_events (s : State) : s.beginStep.events = [] := rfl

/-! ### State.advanceLine -/

@[simp] theorem advanceLine_a (s : State) : s.advanceLine.a = s.a := rfl
@[simp] theorem advanceLine_x (s : State) : s.advanceLine.x = s.x := rfl
@[simp] theorem advanceLine_y (s : State) : s.advanceLine.y = s.y := rfl
@[simp] theorem advanceLine_sp (s : State) : s.advanceLine.sp = s.sp := rfl
@[simp] theorem advanceLine_p (s : State) : s.advanceLine.p = s.p := rfl
@[simp] theorem advanceLine_pc (s : State) : s.advanceLine.pc = s.pc := rfl
@[simp] theorem advanceLine_cyclesTotal (s : State) :
    s.advanceLine.cyclesTotal = s.cyclesTotal := rfl
@[simp] theorem advanceLine_irqPending (s : State) : s.advanceLine.irqPending = s.irqPending := rfl
@[simp] theorem advanceLine_mem (s : State) : s.advanceLine.mem = s.mem := rfl
@[simp] theorem advanceLine_sramEnabled (s : State) :
    s.advanceLine.sramEnabled = s.sramEnabled := rfl
@[simp] theorem advanceLine_sramReadonly (s : State) :
    s.advanceLine.sramReadonly = s.sramReadonly := rfl
@[simp] theorem advanceLine_pad0 (s : State) : s.advanceLine.pad0 = s.pad0 := rfl
@[simp] theorem advanceLine_pad1 (s : State) : s.advanceLine.pad1 = s.pad1 := rfl
@[simp] theorem advanceLine_buttons0 (s : State) : s.advanceLine.buttons0 = s.buttons0 := rfl
@[simp] theorem advanceLine_buttons1 (s : State) : s.advanceLine.buttons1 = s.buttons1 := rfl
@[simp] theorem advanceLine_mapper (s : State) : s.advanceLine.mapper = s.mapper := rfl
@[simp] theorem advanceLine_cart (s : State) : s.advanceLine.cart = s.cart := rfl
@[simp] theorem advanceLine_cfg (s : State) : s.advanceLine.cfg = s.cfg := rfl
@[simp] theorem advanceLine_resetPending (s : State) :
    s.advanceLine.resetPending = s.resetPending := rfl
@[simp] theorem advanceLine_halted (s : State) : s.advanceLine.halted = s.halted := rfl
@[simp] theorem advanceLine_cyc (s : State) : s.advanceLine.cyc = s.cyc := rfl
@[simp] theorem advanceLine_events (s : State) : s.advanceLine.events = s.events := rfl

/-! ### State.endVblank -/

@[simp] theorem endVblank_a (s : State) : s.endVblank.a = s.a := rfl
@[simp] theorem endVblank_x (s : State) : s.endVblank.x = s.x := rfl
@[simp] theorem endVblank_y (s : State) : s.endVblank.y = s.y := rfl
@[simp] theorem endVblank_sp (s : State) : s.endVblank.sp = s.sp := rfl
@[simp] theorem endVblank_p (s : State) : s.endVblank.p = s.p := rfl
@[simp] theorem endVblank_pc (s : State) : s.endVblank.pc = s.pc := rfl
@[simp] theorem endVblank_cyclesTotal (s : State) : s.endVblank.cyclesTotal = s.cyclesTotal := rfl
@[simp] theorem endVblank_irqPending (s : State) : s.endVblank.irqPending = s.irqPending := rfl
@[simp] theorem endVblank_mem (s : State) : s.endVblank.mem = s.mem := rfl
@[simp] theorem endVblank_sramEnabled (s : State) : s.endVblank.sramEnabled = s.sramEnabled := rfl
@[simp] theorem endVblank_sramReadonly (s : State) :
    s.endVblank.sramReadonly = s.sramReadonly := rfl
@[simp] theorem endVblank_pad0 (s : State) : s.endVblank.pad0 = s.pad0 := rfl
@[simp] theorem endVblank_pad1 (s : State) : s.endVblank.pad1 = s.pad1 := rfl
@[simp] theorem endVblank_buttons0 (s : State) : s.endVblank.buttons0 = s.buttons0 := rfl
@[simp] theorem endVblank_buttons1 (s : State) : s.endVblank.buttons1 = s.buttons1 := rfl
@[simp] theorem endVblank_mapper (s : State) : s.endVblank.mapper = s.mapper := rfl
@[simp] theorem endVblank_cart (s : State) : s.endVblank.cart = s.cart := rfl
@[simp] theorem endVblank_cfg (s : State) : s.endVblank.cfg = s.cfg := rfl
@[simp] theorem endVblank_resetPending (s : State) :
    s.endVblank.resetPending = s.resetPending := rfl
@[simp] theorem endVblank_halted (s : State) : s.endVblank.halted = s.halted := rfl
@[simp] theorem endVblank_cyc (s : State) : s.endVblank.cyc = s.cyc := rfl
@[simp] theorem endVblank_events (s : State) : s.endVblank.events = s.events := rfl

/-! ### State.renderLine -/

@[simp] theorem renderLine_a (s : State) : s.renderLine.a = s.a := rfl
@[simp] theorem renderLine_x (s : State) : s.renderLine.x = s.x := rfl
@[simp] theorem renderLine_y (s : State) : s.renderLine.y = s.y := rfl
@[simp] theorem renderLine_sp (s : State) : s.renderLine.sp = s.sp := rfl
@[simp] theorem renderLine_p (s : State) : s.renderLine.p = s.p := rfl
@[simp] theorem renderLine_pc (s : State) : s.renderLine.pc = s.pc := rfl
@[simp] theorem renderLine_cyclesTotal (s : State) : s.renderLine.cyclesTotal = s.cyclesTotal := rfl
@[simp] theorem renderLine_irqPending (s : State) : s.renderLine.irqPending = s.irqPending := rfl
@[simp] theorem renderLine_mem (s : State) : s.renderLine.mem = s.mem := rfl
@[simp] theorem renderLine_sramEnabled (s : State) : s.renderLine.sramEnabled = s.sramEnabled := rfl
@[simp] theorem renderLine_sramReadonly (s : State) :
    s.renderLine.sramReadonly = s.sramReadonly := rfl
@[simp] theorem renderLine_pad0 (s : State) : s.renderLine.pad0 = s.pad0 := rfl
@[simp] theorem renderLine_pad1 (s : State) : s.renderLine.pad1 = s.pad1 := rfl
@[simp] theorem renderLine_buttons0 (s : State) : s.renderLine.buttons0 = s.buttons0 := rfl
@[simp] theorem renderLine_buttons1 (s : State) : s.renderLine.buttons1 = s.buttons1 := rfl
@[simp] theorem renderLine_mapper (s : State) : s.renderLine.mapper = s.mapper := rfl
@[simp] theorem renderLine_cart (s : State) : s.renderLine.cart = s.cart := rfl
@[simp] theorem renderLine_cfg (s : State) : s.renderLine.cfg = s.cfg := rfl
@[simp] theorem renderLine_resetPending (s : State) :
    s.renderLine.resetPending = s.resetPending := rfl
@[simp] theorem renderLine_halted (s : State) : s.renderLine.halted = s.halted := rfl
@[simp] theorem renderLine_cyc (s : State) : s.renderLine.cyc = s.cyc := rfl

end Sys2Proof.Machine
end

