-- ==== Sys2Proof/Laws/Flags.lean ====
section
/-! SUPPORT. The status register as its flags: every write of P is `packP` of what the flags become. -/

namespace Sys2Proof.Machine

@[simp] theorem flagOf_forceBit5 (f : Flag) (p : Byte) : flagOf f (forceBit5 p) = flagOf f p := by
  cases f <;> simp [flagOf, forceBit5, Flag.bit]

@[simp] theorem flagOf_withFlag (f g : Flag) (v : Bool) (p : Byte) :
    flagOf f (withFlag g v p) = if f = g then v else flagOf f p := by
  cases v <;> cases f <;> cases g <;>
    simp [flagOf, withFlag, Flag.bit, Flag.bitMask]

@[simp] theorem flagOf_packP (f : Flag) (n v b d i z c : Bool) :
    flagOf f (packP n v b d i z c)
      = match f with
        | .n => n | .v => v | .b => b | .d => d | .i => i | .z => z | .c => c := by
  cases f <;> cases n <;> cases v <;> cases b <;> cases d <;> cases i <;> cases z <;> cases c <;> rfl

theorem packP_bit5 (n v b d i z c : Bool) : (packP n v b d i z c).getLsbD 5 = true := by
  cases n <;> cases v <;> cases b <;> cases d <;> cases i <;> cases z <;> cases c <;> rfl

theorem forceBit5_bit5 (p : Byte) : (forceBit5 p).getLsbD 5 = true := by
  simp [forceBit5]

/-- A status byte with bit 5 set is its flags. -/
theorem eq_packP {p : Byte} (h : p.getLsbD 5 = true) :
    p = packP (flagOf .n p) (flagOf .v p) (flagOf .b p) (flagOf .d p) (flagOf .i p) (flagOf .z p)
      (flagOf .c p) := by
  apply BitVec.eq_of_getLsbD_eq
  intro j hj
  have hp := packP_bit5 (flagOf .n p) (flagOf .v p) (flagOf .b p) (flagOf .d p) (flagOf .i p)
    (flagOf .z p) (flagOf .c p)
  have h7 := flagOf_packP .n (flagOf .n p) (flagOf .v p) (flagOf .b p) (flagOf .d p) (flagOf .i p)
    (flagOf .z p) (flagOf .c p)
  have h6 := flagOf_packP .v (flagOf .n p) (flagOf .v p) (flagOf .b p) (flagOf .d p) (flagOf .i p)
    (flagOf .z p) (flagOf .c p)
  have h4 := flagOf_packP .b (flagOf .n p) (flagOf .v p) (flagOf .b p) (flagOf .d p) (flagOf .i p)
    (flagOf .z p) (flagOf .c p)
  have h3 := flagOf_packP .d (flagOf .n p) (flagOf .v p) (flagOf .b p) (flagOf .d p) (flagOf .i p)
    (flagOf .z p) (flagOf .c p)
  have h2 := flagOf_packP .i (flagOf .n p) (flagOf .v p) (flagOf .b p) (flagOf .d p) (flagOf .i p)
    (flagOf .z p) (flagOf .c p)
  have h1 := flagOf_packP .z (flagOf .n p) (flagOf .v p) (flagOf .b p) (flagOf .d p) (flagOf .i p)
    (flagOf .z p) (flagOf .c p)
  have h0 := flagOf_packP .c (flagOf .n p) (flagOf .v p) (flagOf .b p) (flagOf .d p) (flagOf .i p)
    (flagOf .z p) (flagOf .c p)
  interval_cases j
  · exact h0.symm
  · exact h1.symm
  · exact h2.symm
  · exact h3.symm
  · exact h4.symm
  · exact h.trans hp.symm
  · exact h6.symm
  · exact h7.symm

/-- A forced status byte is its flags. -/
theorem forceBit5_eq_packP (p : Byte) :
    forceBit5 p = packP (flagOf .n p) (flagOf .v p) (flagOf .b p) (flagOf .d p) (flagOf .i p)
      (flagOf .z p) (flagOf .c p) := by
  have h := eq_packP (forceBit5_bit5 p)
  simpa using h

/-! ### The writes of P -/

@[simp] theorem setP_flag (s : State) (v : Byte) (f : Flag) : (s.setP v).flag f = flagOf f v := by
  simp [State.flag]

@[simp] theorem setFlag_flag (s : State) (g : Flag) (v : Bool) (f : Flag) :
    (s.setFlag g v).flag f = if f = g then v else s.flag f := by
  simp [State.flag]

@[simp] theorem setNZ_flag (s : State) (v : Byte) (f : Flag) :
    (s.setNZ v).flag f
      = if f = .z then decide (v = 0) else if f = .n then v.getLsbD 7 else s.flag f := by
  simp [State.setNZ]

/-- One flag written, the others as they were. -/
theorem setFlag_p_eq (s : State) (f : Flag) (v : Bool) :
    (s.setFlag f v).p
      = packP (if Flag.n = f then v else s.flag .n) (if Flag.v = f then v else s.flag .v)
          (if Flag.b = f then v else s.flag .b) (if Flag.d = f then v else s.flag .d)
          (if Flag.i = f then v else s.flag .i) (if Flag.z = f then v else s.flag .z)
          (if Flag.c = f then v else s.flag .c) := by
  rw [setFlag_p, forceBit5_eq_packP]
  simp only [flagOf_withFlag, State.flag]

/-- `SetNZ` writes N and Z and nothing else. -/
theorem setNZ_p_eq (s : State) (v : Byte) :
    (s.setNZ v).p
      = packP (v.getLsbD 7) (s.flag .v) (s.flag .b) (s.flag .d) (s.flag .i) (decide (v = 0))
          (s.flag .c) := by
  unfold State.setNZ
  rw [setFlag_p_eq]
  simp

/-- ADC's flags N, V, Z, C. -/
theorem addA_p_eq (s : State) (m : Byte) :
    (s.addA m).p
      = packP ((addWithCarry s.a m (s.flag .c)).r.getLsbD 7) (addWithCarry s.a m (s.flag .c)).v
          (s.flag .b) (s.flag .d) (s.flag .i) (decide ((addWithCarry s.a m (s.flag .c)).r = 0))
          (addWithCarry s.a m (s.flag .c)).c := by
  unfold State.addA
  simp [setNZ_p_eq, State.flag]
  rfl

/-- SBC's flags N, V, Z, C. -/
theorem subA_p_eq (s : State) (m : Byte) :
    (s.subA m).p
      = packP ((subWithCarry s.a m (s.flag .c)).r.getLsbD 7) (subWithCarry s.a m (s.flag .c)).v
          (s.flag .b) (s.flag .d) (s.flag .i) (decide ((subWithCarry s.a m (s.flag .c)).r = 0))
          (subWithCarry s.a m (s.flag .c)).c := by
  unfold State.subA
  simp [setNZ_p_eq, State.flag]
  rfl

/-- A comparison's flags N, Z, C. -/
theorem compare_p_eq (s : State) (r m : Byte) :
    (s.compare r m).p
      = packP ((r - m).getLsbD 7) (s.flag .v) (s.flag .b) (s.flag .d) (s.flag .i)
          (decide (r - m = 0)) (decide (m.toNat ≤ r.toNat)) := by
  unfold State.compare
  simp [setNZ_p_eq]

/-! ### Bit 5 -/

theorem setP_bit5 (s : State) (v : Byte) : (s.setP v).bit5Set := forceBit5_bit5 v
theorem setFlag_bit5 (s : State) (f : Flag) (v : Bool) : (s.setFlag f v).bit5Set :=
  forceBit5_bit5 _
theorem setNZ_bit5 (s : State) (v : Byte) : (s.setNZ v).bit5Set := forceBit5_bit5 _

/-! ### Addition as integers -/

/-- The result byte and the carry are the exact sum (R250). -/
theorem addWithCarry_exact (a m : Byte) (c : Bool) :
    (addWithCarry a m c).r.toNat + 256 * (addWithCarry a m c).c.toNat
      = a.toNat + m.toNat + c.toNat := by
  have ha := a.isLt
  have hm := m.isLt
  have hc : c.toNat ≤ 1 := by cases c <;> simp
  simp only [addWithCarry, BitVec.toNat_ofNat]
  by_cases h : 0xFF < a.toNat + m.toNat + c.toNat
  · simp [h]; omega
  · simp [h]; omega

end Sys2Proof.Machine
end

