-- ==== Sys2Proof/Laws/Mapper.lean ====
section
/-! SUPPORT. What each mapper operation leaves alone, field by field, and that a write below 0x8000
reaches no mapper. -/

namespace Sys2Proof.Machine

/-! ### copyChr -/

@[simp] theorem copyChr_a (s : State) (d n b : Nat) :
    (s.copyChr d n b).a = s.a := by
  unfold State.copyChr; split <;> rfl
@[simp] theorem copyChr_x (s : State) (d n b : Nat) :
    (s.copyChr d n b).x = s.x := by
  unfold State.copyChr; split <;> rfl
@[simp] theorem copyChr_y (s : State) (d n b : Nat) :
    (s.copyChr d n b).y = s.y := by
  unfold State.copyChr; split <;> rfl
@[simp] theorem copyChr_sp (s : State) (d n b : Nat) :
    (s.copyChr d n b).sp = s.sp := by
  unfold State.copyChr; split <;> rfl
@[simp] theorem copyChr_p (s : State) (d n b : Nat) :
    (s.copyChr d n b).p = s.p := by
  unfold State.copyChr; split <;> rfl
@[simp] theorem copyChr_pc (s : State) (d n b : Nat) :
    (s.copyChr d n b).pc = s.pc := by
  unfold State.copyChr; split <;> rfl
@[simp] theorem copyChr_cyclesTotal (s : State) (d n b : Nat) :
    (s.copyChr d n b).cyclesTotal = s.cyclesTotal := by
  unfold State.copyChr; split <;> rfl
@[simp] theorem copyChr_irqPending (s : State) (d n b : Nat) :
    (s.copyChr d n b).irqPending = s.irqPending := by
  unfold State.copyChr; split <;> rfl
@[simp] theorem copyChr_mem (s : State) (d n b : Nat) :
    (s.copyChr d n b).mem = s.mem := by
  unfold State.copyChr; split <;> rfl
@[simp] theorem copyChr_sramEnabled (s : State) (d n b : Nat) :
    (s.copyChr d n b).sramEnabled = s.sramEnabled := by
  unfold State.copyChr; split <;> rfl
@[simp] theorem copyChr_sramReadonly (s : State) (d n b : Nat) :
    (s.copyChr d n b).sramReadonly = s.sramReadonly := by
  unfold State.copyChr; split <;> rfl
@[simp] theorem copyChr_pad0 (s : State) (d n b : Nat) :
    (s.copyChr d n b).pad0 = s.pad0 := by
  unfold State.copyChr; split <;> rfl
@[simp] theorem copyChr_pad1 (s : State) (d n b : Nat) :
    (s.copyChr d n b).pad1 = s.pad1 := by
  unfold State.copyChr; split <;> rfl
@[simp] theorem copyChr_buttons0 (s : State) (d n b : Nat) :
    (s.copyChr d n b).buttons0 = s.buttons0 := by
  unfold State.copyChr; split <;> rfl
@[simp] theorem copyChr_buttons1 (s : State) (d n b : Nat) :
    (s.copyChr d n b).buttons1 = s.buttons1 := by
  unfold State.copyChr; split <;> rfl
@[simp] theorem copyChr_mapper (s : State) (d n b : Nat) :
    (s.copyChr d n b).mapper = s.mapper := by
  unfold State.copyChr; split <;> rfl
@[simp] theorem copyChr_cart (s : State) (d n b : Nat) :
    (s.copyChr d n b).cart = s.cart := by
  unfold State.copyChr; split <;> rfl
@[simp] theorem copyChr_cfg (s : State) (d n b : Nat) :
    (s.copyChr d n b).cfg = s.cfg := by
  unfold State.copyChr; split <;> rfl
@[simp] theorem copyChr_resetPending (s : State) (d n b : Nat) :
    (s.copyChr d n b).resetPending = s.resetPending := by
  unfold State.copyChr; split <;> rfl
@[simp] theorem copyChr_halted (s : State) (d n b : Nat) :
    (s.copyChr d n b).halted = s.halted := by
  unfold State.copyChr; split <;> rfl
@[simp] theorem copyChr_cyc (s : State) (d n b : Nat) :
    (s.copyChr d n b).cyc = s.cyc := by
  unfold State.copyChr; split <;> rfl
@[simp] theorem copyChr_events (s : State) (d n b : Nat) :
    (s.copyChr d n b).events = s.events := by
  unfold State.copyChr; split <;> rfl

/-! ### forceMirroring -/

@[simp] theorem forceMirroring_a (s : State) (m : Mirroring) :
    (s.forceMirroring m).a = s.a := by
  unfold State.forceMirroring; split <;> rfl
@[simp] theorem forceMirroring_x (s : State) (m : Mirroring) :
    (s.forceMirroring m).x = s.x := by
  unfold State.forceMirroring; split <;> rfl
@[simp] theorem forceMirroring_y (s : State) (m : Mirroring) :
    (s.forceMirroring m).y = s.y := by
  unfold State.forceMirroring; split <;> rfl
@[simp] theorem forceMirroring_sp (s : State) (m : Mirroring) :
    (s.forceMirroring m).sp = s.sp := by
  unfold State.forceMirroring; split <;> rfl
@[simp] theorem forceMirroring_p (s : State) (m : Mirroring) :
    (s.forceMirroring m).p = s.p := by
  unfold State.forceMirroring; split <;> rfl
@[simp] theorem forceMirroring_pc (s : State) (m : Mirroring) :
    (s.forceMirroring m).pc = s.pc := by
  unfold State.forceMirroring; split <;> rfl
@[simp] theorem forceMirroring_cyclesTotal (s : State) (m : Mirroring) :
    (s.forceMirroring m).cyclesTotal = s.cyclesTotal := by
  unfold State.forceMirroring; split <;> rfl
@[simp] theorem forceMirroring_irqPending (s : State) (m : Mirroring) :
    (s.forceMirroring m).irqPending = s.irqPending := by
  unfold State.forceMirroring; split <;> rfl
@[simp] theorem forceMirroring_mem (s : State) (m : Mirroring) :
    (s.forceMirroring m).mem = s.mem := by
  unfold State.forceMirroring; split <;> rfl
@[simp] theorem forceMirroring_sramEnabled (s : State) (m : Mirroring) :
    (s.forceMirroring m).sramEnabled = s.sramEnabled := by
  unfold State.forceMirroring; split <;> rfl
@[simp] theorem forceMirroring_sramReadonly (s : State) (m : Mirroring) :
    (s.forceMirroring m).sramReadonly = s.sramReadonly := by
  unfold State.forceMirroring; split <;> rfl
@[simp] theorem forceMirroring_pad0 (s : State) (m : Mirroring) :
    (s.forceMirroring m).pad0 = s.pad0 := by
  unfold State.forceMirroring; split <;> rfl
@[simp] theorem forceMirroring_pad1 (s : State) (m : Mirroring) :
    (s.forceMirroring m).pad1 = s.pad1 := by
  unfold State.forceMirroring; split <;> rfl
@[simp] theorem forceMirroring_buttons0 (s : State) (m : Mirroring) :
    (s.forceMirroring m).buttons0 = s.buttons0 := by
  unfold State.forceMirroring; split <;> rfl
@[simp] theorem forceMirroring_buttons1 (s : State) (m : Mirroring) :
    (s.forceMirroring m).buttons1 = s.buttons1 := by
  unfold State.forceMirroring; split <;> rfl
@[simp] theorem forceMirroring_mapper (s : State) (m : Mirroring) :
    (s.forceMirroring m).mapper = s.mapper := by
  unfold State.forceMirroring; split <;> rfl
@[simp] theorem forceMirroring_cart (s : State) (m : Mirroring) :
    (s.forceMirroring m).cart = s.cart := by
  unfold State.forceMirroring; split <;> rfl
@[simp] theorem forceMirroring_cfg (s : State) (m : Mirroring) :
    (s.forceMirroring m).cfg = s.cfg := by
  unfold State.forceMirroring; split <;> rfl
@[simp] theorem forceMirroring_resetPending (s : State) (m : Mirroring) :
    (s.forceMirroring m).resetPending = s.resetPending := by
  unfold State.forceMirroring; split <;> rfl
@[simp] theorem forceMirroring_halted (s : State) (m : Mirroring) :
    (s.forceMirroring m).halted = s.halted := by
  unfold State.forceMirroring; split <;> rfl
@[simp] theorem forceMirroring_cyc (s : State) (m : Mirroring) :
    (s.forceMirroring m).cyc = s.cyc := by
  unfold State.forceMirroring; split <;> rfl
@[simp] theorem forceMirroring_events (s : State) (m : Mirroring) :
    (s.forceMirroring m).events = s.events := by
  unfold State.forceMirroring; split <;> rfl

/-! ### fixedLayout -/

@[simp] theorem fixedLayout_a (s : State) :
    s.fixedLayout.a = s.a := by
  simp [State.fixedLayout]
@[simp] theorem fixedLayout_x (s : State) :
    s.fixedLayout.x = s.x := by
  simp [State.fixedLayout]
@[simp] theorem fixedLayout_y (s : State) :
    s.fixedLayout.y = s.y := by
  simp [State.fixedLayout]
@[simp] theorem fixedLayout_sp (s : State) :
    s.fixedLayout.sp = s.sp := by
  simp [State.fixedLayout]
@[simp] theorem fixedLayout_p (s : State) :
    s.fixedLayout.p = s.p := by
  simp [State.fixedLayout]
@[simp] theorem fixedLayout_pc (s : State) :
    s.fixedLayout.pc = s.pc := by
  simp [State.fixedLayout]
@[simp] theorem fixedLayout_cyclesTotal (s : State) :
    s.fixedLayout.cyclesTotal = s.cyclesTotal := by
  simp [State.fixedLayout]
@[simp] theorem fixedLayout_irqPending (s : State) :
    s.fixedLayout.irqPending = s.irqPending := by
  simp [State.fixedLayout]
@[simp] theorem fixedLayout_sramEnabled (s : State) :
    s.fixedLayout.sramEnabled = s.sramEnabled := by
  simp [State.fixedLayout]
@[simp] theorem fixedLayout_sramReadonly (s : State) :
    s.fixedLayout.sramReadonly = s.sramReadonly := by
  simp [State.fixedLayout]
@[simp] theorem fixedLayout_pad0 (s : State) :
    s.fixedLayout.pad0 = s.pad0 := by
  simp [State.fixedLayout]
@[simp] theorem fixedLayout_pad1 (s : State) :
    s.fixedLayout.pad1 = s.pad1 := by
  simp [State.fixedLayout]
@[simp] theorem fixedLayout_buttons0 (s : State) :
    s.fixedLayout.buttons0 = s.buttons0 := by
  simp [State.fixedLayout]
@[simp] theorem fixedLayout_buttons1 (s : State) :
    s.fixedLayout.buttons1 = s.buttons1 := by
  simp [State.fixedLayout]
@[simp] theorem fixedLayout_mapper (s : State) :
    s.fixedLayout.mapper = s.mapper := by
  simp [State.fixedLayout]
@[simp] theorem fixedLayout_cart (s : State) :
    s.fixedLayout.cart = s.cart := by
  simp [State.fixedLayout]
@[simp] theorem fixedLayout_cfg (s : State) :
    s.fixedLayout.cfg = s.cfg := by
  simp [State.fixedLayout]
@[simp] theorem fixedLayout_resetPending (s : State) :
    s.fixedLayout.resetPending = s.resetPending := by
  simp [State.fixedLayout]
@[simp] theorem fixedLayout_halted (s : State) :
    s.fixedLayout.halted = s.halted := by
  simp [State.fixedLayout]
@[simp] theorem fixedLayout_cyc (s : State) :
    s.fixedLayout.cyc = s.cyc := by
  simp [State.fixedLayout]
@[simp] theorem fixedLayout_events (s : State) :
    s.fixedLayout.events = s.events := by
  simp [State.fixedLayout]

/-! ### mmc1Prg -/

@[simp] theorem mmc1Prg_a (s : State) (r : Mmc1) :
    (s.mmc1Prg r).a = s.a := by
  unfold State.mmc1Prg; simp only []; split <;> simp
@[simp] theorem mmc1Prg_x (s : State) (r : Mmc1) :
    (s.mmc1Prg r).x = s.x := by
  unfold State.mmc1Prg; simp only []; split <;> simp
@[simp] theorem mmc1Prg_y (s : State) (r : Mmc1) :
    (s.mmc1Prg r).y = s.y := by
  unfold State.mmc1Prg; simp only []; split <;> simp
@[simp] theorem mmc1Prg_sp (s : State) (r : Mmc1) :
    (s.mmc1Prg r).sp = s.sp := by
  unfold State.mmc1Prg; simp only []; split <;> simp
@[simp] theorem mmc1Prg_p (s : State) (r : Mmc1) :
    (s.mmc1Prg r).p = s.p := by
  unfold State.mmc1Prg; simp only []; split <;> simp
@[simp] theorem mmc1Prg_pc (s : State) (r : Mmc1) :
    (s.mmc1Prg r).pc = s.pc := by
  unfold State.mmc1Prg; simp only []; split <;> simp
@[simp] theorem mmc1Prg_cyclesTotal (s : State) (r : Mmc1) :
    (s.mmc1Prg r).cyclesTotal = s.cyclesTotal := by
  unfold State.mmc1Prg; simp only []; split <;> simp
@[simp] theorem mmc1Prg_irqPending (s : State) (r : Mmc1) :
    (s.mmc1Prg r).irqPending = s.irqPending := by
  unfold State.mmc1Prg; simp only []; split <;> simp
@[simp] theorem mmc1Prg_sramEnabled (s : State) (r : Mmc1) :
    (s.mmc1Prg r).sramEnabled = s.sramEnabled := by
  unfold State.mmc1Prg; simp only []; split <;> simp
@[simp] theorem mmc1Prg_sramReadonly (s : State) (r : Mmc1) :
    (s.mmc1Prg r).sramReadonly = s.sramReadonly := by
  unfold State.mmc1Prg; simp only []; split <;> simp
@[simp] theorem mmc1Prg_pad0 (s : State) (r : Mmc1) :
    (s.mmc1Prg r).pad0 = s.pad0 := by
  unfold State.mmc1Prg; simp only []; split <;> simp
@[simp] theorem mmc1Prg_pad1 (s : State) (r : Mmc1) :
    (s.mmc1Prg r).pad1 = s.pad1 := by
  unfold State.mmc1Prg; simp only []; split <;> simp
@[simp] theorem mmc1Prg_buttons0 (s : State) (r : Mmc1) :
    (s.mmc1Prg r).buttons0 = s.buttons0 := by
  unfold State.mmc1Prg; simp only []; split <;> simp
@[simp] theorem mmc1Prg_buttons1 (s : State) (r : Mmc1) :
    (s.mmc1Prg r).buttons1 = s.buttons1 := by
  unfold State.mmc1Prg; simp only []; split <;> simp
@[simp] theorem mmc1Prg_ppu (s : State) (r : Mmc1) :
    (s.mmc1Prg r).ppu = s.ppu := by
  unfold State.mmc1Prg; simp only []; split <;> simp
@[simp] theorem mmc1Prg_mapper (s : State) (r : Mmc1) :
    (s.mmc1Prg r).mapper = s.mapper := by
  unfold State.mmc1Prg; simp only []; split <;> simp
@[simp] theorem mmc1Prg_cart (s : State) (r : Mmc1) :
    (s.mmc1Prg r).cart = s.cart := by
  unfold State.mmc1Prg; simp only []; split <;> simp
@[simp] theorem mmc1Prg_cfg (s : State) (r : Mmc1) :
    (s.mmc1Prg r).cfg = s.cfg := by
  unfold State.mmc1Prg; simp only []; split <;> simp
@[simp] theorem mmc1Prg_resetPending (s : State) (r : Mmc1) :
    (s.mmc1Prg r).resetPending = s.resetPending := by
  unfold State.mmc1Prg; simp only []; split <;> simp
@[simp] theorem mmc1Prg_halted (s : State) (r : Mmc1) :
    (s.mmc1Prg r).halted = s.halted := by
  unfold State.mmc1Prg; simp only []; split <;> simp
@[simp] theorem mmc1Prg_cyc (s : State) (r : Mmc1) :
    (s.mmc1Prg r).cyc = s.cyc := by
  unfold State.mmc1Prg; simp only []; split <;> simp
@[simp] theorem mmc1Prg_events (s : State) (r : Mmc1) :
    (s.mmc1Prg r).events = s.events := by
  unfold State.mmc1Prg; simp only []; split <;> simp

/-! ### mmc1Chr -/

@[simp] theorem mmc1Chr_a (s : State) (r : Mmc1) :
    (s.mmc1Chr r).a = s.a := by
  unfold State.mmc1Chr; split <;> simp
@[simp] theorem mmc1Chr_x (s : State) (r : Mmc1) :
    (s.mmc1Chr r).x = s.x := by
  unfold State.mmc1Chr; split <;> simp
@[simp] theorem mmc1Chr_y (s : State) (r : Mmc1) :
    (s.mmc1Chr r).y = s.y := by
  unfold State.mmc1Chr; split <;> simp
@[simp] theorem mmc1Chr_sp (s : State) (r : Mmc1) :
    (s.mmc1Chr r).sp = s.sp := by
  unfold State.mmc1Chr; split <;> simp
@[simp] theorem mmc1Chr_p (s : State) (r : Mmc1) :
    (s.mmc1Chr r).p = s.p := by
  unfold State.mmc1Chr; split <;> simp
@[simp] theorem mmc1Chr_pc (s : State) (r : Mmc1) :
    (s.mmc1Chr r).pc = s.pc := by
  unfold State.mmc1Chr; split <;> simp
@[simp] theorem mmc1Chr_cyclesTotal (s : State) (r : Mmc1) :
    (s.mmc1Chr r).cyclesTotal = s.cyclesTotal := by
  unfold State.mmc1Chr; split <;> simp
@[simp] theorem mmc1Chr_irqPending (s : State) (r : Mmc1) :
    (s.mmc1Chr r).irqPending = s.irqPending := by
  unfold State.mmc1Chr; split <;> simp
@[simp] theorem mmc1Chr_mem (s : State) (r : Mmc1) :
    (s.mmc1Chr r).mem = s.mem := by
  unfold State.mmc1Chr; split <;> simp
@[simp] theorem mmc1Chr_sramEnabled (s : State) (r : Mmc1) :
    (s.mmc1Chr r).sramEnabled = s.sramEnabled := by
  unfold State.mmc1Chr; split <;> simp
@[simp] theorem mmc1Chr_sramReadonly (s : State) (r : Mmc1) :
    (s.mmc1Chr r).sramReadonly = s.sramReadonly := by
  unfold State.mmc1Chr; split <;> simp
@[simp] theorem mmc1Chr_pad0 (s : State) (r : Mmc1) :
    (s.mmc1Chr r).pad0 = s.pad0 := by
  unfold State.mmc1Chr; split <;> simp
@[simp] theorem mmc1Chr_pad1 (s : State) (r : Mmc1) :
    (s.mmc1Chr r).pad1 = s.pad1 := by
  unfold State.mmc1Chr; split <;> simp
@[simp] theorem mmc1Chr_buttons0 (s : State) (r : Mmc1) :
    (s.mmc1Chr r).buttons0 = s.buttons0 := by
  unfold State.mmc1Chr; split <;> simp
@[simp] theorem mmc1Chr_buttons1 (s : State) (r : Mmc1) :
    (s.mmc1Chr r).buttons1 = s.buttons1 := by
  unfold State.mmc1Chr; split <;> simp
@[simp] theorem mmc1Chr_mapper (s : State) (r : Mmc1) :
    (s.mmc1Chr r).mapper = s.mapper := by
  unfold State.mmc1Chr; split <;> simp
@[simp] theorem mmc1Chr_cart (s : State) (r : Mmc1) :
    (s.mmc1Chr r).cart = s.cart := by
  unfold State.mmc1Chr; split <;> simp
@[simp] theorem mmc1Chr_cfg (s : State) (r : Mmc1) :
    (s.mmc1Chr r).cfg = s.cfg := by
  unfold State.mmc1Chr; split <;> simp
@[simp] theorem mmc1Chr_resetPending (s : State) (r : Mmc1) :
    (s.mmc1Chr r).resetPending = s.resetPending := by
  unfold State.mmc1Chr; split <;> simp
@[simp] theorem mmc1Chr_halted (s : State) (r : Mmc1) :
    (s.mmc1Chr r).halted = s.halted := by
  unfold State.mmc1Chr; split <;> simp
@[simp] theorem mmc1Chr_cyc (s : State) (r : Mmc1) :
    (s.mmc1Chr r).cyc = s.cyc := by
  unfold State.mmc1Chr; split <;> simp
@[simp] theorem mmc1Chr_events (s : State) (r : Mmc1) :
    (s.mmc1Chr r).events = s.events := by
  unfold State.mmc1Chr; split <;> simp

/-! ### mmc3Prg -/

@[simp] theorem mmc3Prg_a (s : State) (r : Mmc3) :
    (s.mmc3Prg r).a = s.a := by
  unfold State.mmc3Prg; simp only []; split <;> simp
@[simp] theorem mmc3Prg_x (s : State) (r : Mmc3) :
    (s.mmc3Prg r).x = s.x := by
  unfold State.mmc3Prg; simp only []; split <;> simp
@[simp] theorem mmc3Prg_y (s : State) (r : Mmc3) :
    (s.mmc3Prg r).y = s.y := by
  unfold State.mmc3Prg; simp only []; split <;> simp
@[simp] theorem mmc3Prg_sp (s : State) (r : Mmc3) :
    (s.mmc3Prg r).sp = s.sp := by
  unfold State.mmc3Prg; simp only []; split <;> simp
@[simp] theorem mmc3Prg_p (s : State) (r : Mmc3) :
    (s.mmc3Prg r).p = s.p := by
  unfold State.mmc3Prg; simp only []; split <;> simp
@[simp] theorem mmc3Prg_pc (s : State) (r : Mmc3) :
    (s.mmc3Prg r).pc = s.pc := by
  unfold State.mmc3Prg; simp only []; split <;> simp
@[simp] theorem mmc3Prg_cyclesTotal (s : State) (r : Mmc3) :
    (s.mmc3Prg r).cyclesTotal = s.cyclesTotal := by
  unfold State.mmc3Prg; simp only []; split <;> simp
@[simp] theorem mmc3Prg_irqPending (s : State) (r : Mmc3) :
    (s.mmc3Prg r).irqPending = s.irqPending := by
  unfold State.mmc3Prg; simp only []; split <;> simp
@[simp] theorem mmc3Prg_sramEnabled (s : State) (r : Mmc3) :
    (s.mmc3Prg r).sramEnabled = s.sramEnabled := by
  unfold State.mmc3Prg; simp only []; split <;> simp
@[simp] theorem mmc3Prg_sramReadonly (s : State) (r : Mmc3) :
    (s.mmc3Prg r).sramReadonly = s.sramReadonly := by
  unfold State.mmc3Prg; simp only []; split <;> simp
@[simp] theorem mmc3Prg_pad0 (s : State) (r : Mmc3) :
    (s.mmc3Prg r).pad0 = s.pad0 := by
  unfold State.mmc3Prg; simp only []; split <;> simp
@[simp] theorem mmc3Prg_pad1 (s : State) (r : Mmc3) :
    (s.mmc3Prg r).pad1 = s.pad1 := by
  unfold State.mmc3Prg; simp only []; split <;> simp
@[simp] theorem mmc3Prg_buttons0 (s : State) (r : Mmc3) :
    (s.mmc3Prg r).buttons0 = s.buttons0 := by
  unfold State.mmc3Prg; simp only []; split <;> simp
@[simp] theorem mmc3Prg_buttons1 (s : State) (r : Mmc3) :
    (s.mmc3Prg r).buttons1 = s.buttons1 := by
  unfold State.mmc3Prg; simp only []; split <;> simp
@[simp] theorem mmc3Prg_ppu (s : State) (r : Mmc3) :
    (s.mmc3Prg r).ppu = s.ppu := by
  unfold State.mmc3Prg; simp only []; split <;> simp
@[simp] theorem mmc3Prg_mapper (s : State) (r : Mmc3) :
    (s.mmc3Prg r).mapper = s.mapper := by
  unfold State.mmc3Prg; simp only []; split <;> simp
@[simp] theorem mmc3Prg_cart (s : State) (r : Mmc3) :
    (s.mmc3Prg r).cart = s.cart := by
  unfold State.mmc3Prg; simp only []; split <;> simp
@[simp] theorem mmc3Prg_cfg (s : State) (r : Mmc3) :
    (s.mmc3Prg r).cfg = s.cfg := by
  unfold State.mmc3Prg; simp only []; split <;> simp
@[simp] theorem mmc3Prg_resetPending (s : State) (r : Mmc3) :
    (s.mmc3Prg r).resetPending = s.resetPending := by
  unfold State.mmc3Prg; simp only []; split <;> simp
@[simp] theorem mmc3Prg_halted (s : State) (r : Mmc3) :
    (s.mmc3Prg r).halted = s.halted := by
  unfold State.mmc3Prg; simp only []; split <;> simp
@[simp] theorem mmc3Prg_cyc (s : State) (r : Mmc3) :
    (s.mmc3Prg r).cyc = s.cyc := by
  unfold State.mmc3Prg; simp only []; split <;> simp
@[simp] theorem mmc3Prg_events (s : State) (r : Mmc3) :
    (s.mmc3Prg r).events = s.events := by
  unfold State.mmc3Prg; simp only []; split <;> simp

/-! ### mmc3Chr -/

@[simp] theorem mmc3Chr_a (s : State) (r : Mmc3) :
    (s.mmc3Chr r).a = s.a := by
  simp [State.mmc3Chr]
@[simp] theorem mmc3Chr_x (s : State) (r : Mmc3) :
    (s.mmc3Chr r).x = s.x := by
  simp [State.mmc3Chr]
@[simp] theorem mmc3Chr_y (s : State) (r : Mmc3) :
    (s.mmc3Chr r).y = s.y := by
  simp [State.mmc3Chr]
@[simp] theorem mmc3Chr_sp (s : State) (r : Mmc3) :
    (s.mmc3Chr r).sp = s.sp := by
  simp [State.mmc3Chr]
@[simp] theorem mmc3Chr_p (s : State) (r : Mmc3) :
    (s.mmc3Chr r).p = s.p := by
  simp [State.mmc3Chr]
@[simp] theorem mmc3Chr_pc (s : State) (r : Mmc3) :
    (s.mmc3Chr r).pc = s.pc := by
  simp [State.mmc3Chr]
@[simp] theorem mmc3Chr_cyclesTotal (s : State) (r : Mmc3) :
    (s.mmc3Chr r).cyclesTotal = s.cyclesTotal := by
  simp [State.mmc3Chr]
@[simp] theorem mmc3Chr_irqPending (s : State) (r : Mmc3) :
    (s.mmc3Chr r).irqPending = s.irqPending := by
  simp [State.mmc3Chr]
@[simp] theorem mmc3Chr_mem (s : State) (r : Mmc3) :
    (s.mmc3Chr r).mem = s.mem := by
  simp [State.mmc3Chr]
@[simp] theorem mmc3Chr_sramEnabled (s : State) (r : Mmc3) :
    (s.mmc3Chr r).sramEnabled = s.sramEnabled := by
  simp [State.mmc3Chr]
@[simp] theorem mmc3Chr_sramReadonly (s : State) (r : Mmc3) :
    (s.mmc3Chr r).sramReadonly = s.sramReadonly := by
  simp [State.mmc3Chr]
@[simp] theorem mmc3Chr_pad0 (s : State) (r : Mmc3) :
    (s.mmc3Chr r).pad0 = s.pad0 := by
  simp [State.mmc3Chr]
@[simp] theorem mmc3Chr_pad1 (s : State) (r : Mmc3) :
    (s.mmc3Chr r).pad1 = s.pad1 := by
  simp [State.mmc3Chr]
@[simp] theorem mmc3Chr_buttons0 (s : State) (r : Mmc3) :
    (s.mmc3Chr r).buttons0 = s.buttons0 := by
  simp [State.mmc3Chr]
@[simp] theorem mmc3Chr_buttons1 (s : State) (r : Mmc3) :
    (s.mmc3Chr r).buttons1 = s.buttons1 := by
  simp [State.mmc3Chr]
@[simp] theorem mmc3Chr_mapper (s : State) (r : Mmc3) :
    (s.mmc3Chr r).mapper = s.mapper := by
  simp [State.mmc3Chr]
@[simp] theorem mmc3Chr_cart (s : State) (r : Mmc3) :
    (s.mmc3Chr r).cart = s.cart := by
  simp [State.mmc3Chr]
@[simp] theorem mmc3Chr_cfg (s : State) (r : Mmc3) :
    (s.mmc3Chr r).cfg = s.cfg := by
  simp [State.mmc3Chr]
@[simp] theorem mmc3Chr_resetPending (s : State) (r : Mmc3) :
    (s.mmc3Chr r).resetPending = s.resetPending := by
  simp [State.mmc3Chr]
@[simp] theorem mmc3Chr_halted (s : State) (r : Mmc3) :
    (s.mmc3Chr r).halted = s.halted := by
  simp [State.mmc3Chr]
@[simp] theorem mmc3Chr_cyc (s : State) (r : Mmc3) :
    (s.mmc3Chr r).cyc = s.cyc := by
  simp [State.mmc3Chr]
@[simp] theorem mmc3Chr_events (s : State) (r : Mmc3) :
    (s.mmc3Chr r).events = s.events := by
  simp [State.mmc3Chr]

/-! ### mmc3Write -/

@[simp] theorem mmc3Write_a (s : State) (r : Mmc3) (n : Word) (d : Byte) :
    (s.mmc3Write r n d).a = s.a := by
  unfold State.mmc3Write; split <;> simp
@[simp] theorem mmc3Write_x (s : State) (r : Mmc3) (n : Word) (d : Byte) :
    (s.mmc3Write r n d).x = s.x := by
  unfold State.mmc3Write; split <;> simp
@[simp] theorem mmc3Write_y (s : State) (r : Mmc3) (n : Word) (d : Byte) :
    (s.mmc3Write r n d).y = s.y := by
  unfold State.mmc3Write; split <;> simp
@[simp] theorem mmc3Write_sp (s : State) (r : Mmc3) (n : Word) (d : Byte) :
    (s.mmc3Write r n d).sp = s.sp := by
  unfold State.mmc3Write; split <;> simp
@[simp] theorem mmc3Write_p (s : State) (r : Mmc3) (n : Word) (d : Byte) :
    (s.mmc3Write r n d).p = s.p := by
  unfold State.mmc3Write; split <;> simp
@[simp] theorem mmc3Write_pc (s : State) (r : Mmc3) (n : Word) (d : Byte) :
    (s.mmc3Write r n d).pc = s.pc := by
  unfold State.mmc3Write; split <;> simp
@[simp] theorem mmc3Write_cyclesTotal (s : State) (r : Mmc3) (n : Word) (d : Byte) :
    (s.mmc3Write r n d).cyclesTotal = s.cyclesTotal := by
  unfold State.mmc3Write; split <;> simp
@[simp] theorem mmc3Write_pad0 (s : State) (r : Mmc3) (n : Word) (d : Byte) :
    (s.mmc3Write r n d).pad0 = s.pad0 := by
  unfold State.mmc3Write; split <;> simp
@[simp] theorem mmc3Write_pad1 (s : State) (r : Mmc3) (n : Word) (d : Byte) :
    (s.mmc3Write r n d).pad1 = s.pad1 := by
  unfold State.mmc3Write; split <;> simp
@[simp] theorem mmc3Write_buttons0 (s : State) (r : Mmc3) (n : Word) (d : Byte) :
    (s.mmc3Write r n d).buttons0 = s.buttons0 := by
  unfold State.mmc3Write; split <;> simp
@[simp] theorem mmc3Write_buttons1 (s : State) (r : Mmc3) (n : Word) (d : Byte) :
    (s.mmc3Write r n d).buttons1 = s.buttons1 := by
  unfold State.mmc3Write; split <;> simp
@[simp] theorem mmc3Write_cart (s : State) (r : Mmc3) (n : Word) (d : Byte) :
    (s.mmc3Write r n d).cart = s.cart := by
  unfold State.mmc3Write; split <;> simp
@[simp] theorem mmc3Write_cfg (s : State) (r : Mmc3) (n : Word) (d : Byte) :
    (s.mmc3Write r n d).cfg = s.cfg := by
  unfold State.mmc3Write; split <;> simp
@[simp] theorem mmc3Write_resetPending (s : State) (r : Mmc3) (n : Word) (d : Byte) :
    (s.mmc3Write r n d).resetPending = s.resetPending := by
  unfold State.mmc3Write; split <;> simp
@[simp] theorem mmc3Write_halted (s : State) (r : Mmc3) (n : Word) (d : Byte) :
    (s.mmc3Write r n d).halted = s.halted := by
  unfold State.mmc3Write; split <;> simp
@[simp] theorem mmc3Write_cyc (s : State) (r : Mmc3) (n : Word) (d : Byte) :
    (s.mmc3Write r n d).cyc = s.cyc := by
  unfold State.mmc3Write; split <;> simp
@[simp] theorem mmc3Write_events (s : State) (r : Mmc3) (n : Word) (d : Byte) :
    (s.mmc3Write r n d).events = s.events := by
  unfold State.mmc3Write; split <;> simp

/-! ### switchBanks -/

@[simp] theorem switchBanks_a (s : State) (n : Word) (d : Byte) :
    (s.switchBanks n d).a = s.a := by
  unfold State.switchBanks; split <;> simp
@[simp] theorem switchBanks_x (s : State) (n : Word) (d : Byte) :
    (s.switchBanks n d).x = s.x := by
  unfold State.switchBanks; split <;> simp
@[simp] theorem switchBanks_y (s : State) (n : Word) (d : Byte) :
    (s.switchBanks n d).y = s.y := by
  unfold State.switchBanks; split <;> simp
@[simp] theorem switchBanks_sp (s : State) (n : Word) (d : Byte) :
    (s.switchBanks n d).sp = s.sp := by
  unfold State.switchBanks; split <;> simp
@[simp] theorem switchBanks_p (s : State) (n : Word) (d : Byte) :
    (s.switchBanks n d).p = s.p := by
  unfold State.switchBanks; split <;> simp
@[simp] theorem switchBanks_pc (s : State) (n : Word) (d : Byte) :
    (s.switchBanks n d).pc = s.pc := by
  unfold State.switchBanks; split <;> simp
@[simp] theorem switchBanks_cyclesTotal (s : State) (n : Word) (d : Byte) :
    (s.switchBanks n d).cyclesTotal = s.cyclesTotal := by
  unfold State.switchBanks; split <;> simp
@[simp] theorem switchBanks_pad0 (s : State) (n : Word) (d : Byte) :
    (s.switchBanks n d).pad0 = s.pad0 := by
  unfold State.switchBanks; split <;> simp
@[simp] theorem switchBanks_pad1 (s : State) (n : Word) (d : Byte) :
    (s.switchBanks n d).pad1 = s.pad1 := by
  unfold State.switchBanks; split <;> simp
@[simp] theorem switchBanks_buttons0 (s : State) (n : Word) (d : Byte) :
    (s.switchBanks n d).buttons0 = s.buttons0 := by
  unfold State.switchBanks; split <;> simp
@[simp] theorem switchBanks_buttons1 (s : State) (n : Word) (d : Byte) :
    (s.switchBanks n d).buttons1 = s.buttons1 := by
  unfold State.switchBanks; split <;> simp
@[simp] theorem switchBanks_cart (s : State) (n : Word) (d : Byte) :
    (s.switchBanks n d).cart = s.cart := by
  unfold State.switchBanks; split <;> simp
@[simp] theorem switchBanks_cfg (s : State) (n : Word) (d : Byte) :
    (s.switchBanks n d).cfg = s.cfg := by
  unfold State.switchBanks; split <;> simp
@[simp] theorem switchBanks_resetPending (s : State) (n : Word) (d : Byte) :
    (s.switchBanks n d).resetPending = s.resetPending := by
  unfold State.switchBanks; split <;> simp
@[simp] theorem switchBanks_halted (s : State) (n : Word) (d : Byte) :
    (s.switchBanks n d).halted = s.halted := by
  unfold State.switchBanks; split <;> simp
@[simp] theorem switchBanks_cyc (s : State) (n : Word) (d : Byte) :
    (s.switchBanks n d).cyc = s.cyc := by
  unfold State.switchBanks; split <;> simp
@[simp] theorem switchBanks_events (s : State) (n : Word) (d : Byte) :
    (s.switchBanks n d).events = s.events := by
  unfold State.switchBanks; split <;> simp

/-! ### intercept -/

@[simp] theorem intercept_a (s : State) (n : Word) (d : Byte) :
    (s.intercept n d).a = s.a := by
  unfold State.intercept; simp only []; split <;> simp
@[simp] theorem intercept_x (s : State) (n : Word) (d : Byte) :
    (s.intercept n d).x = s.x := by
  unfold State.intercept; simp only []; split <;> simp
@[simp] theorem intercept_y (s : State) (n : Word) (d : Byte) :
    (s.intercept n d).y = s.y := by
  unfold State.intercept; simp only []; split <;> simp
@[simp] theorem intercept_sp (s : State) (n : Word) (d : Byte) :
    (s.intercept n d).sp = s.sp := by
  unfold State.intercept; simp only []; split <;> simp
@[simp] theorem intercept_p (s : State) (n : Word) (d : Byte) :
    (s.intercept n d).p = s.p := by
  unfold State.intercept; simp only []; split <;> simp
@[simp] theorem intercept_pc (s : State) (n : Word) (d : Byte) :
    (s.intercept n d).pc = s.pc := by
  unfold State.intercept; simp only []; split <;> simp
@[simp] theorem intercept_cyclesTotal (s : State) (n : Word) (d : Byte) :
    (s.intercept n d).cyclesTotal = s.cyclesTotal := by
  unfold State.intercept; simp only []; split <;> simp
@[simp] theorem intercept_pad0 (s : State) (n : Word) (d : Byte) :
    (s.intercept n d).pad0 = s.pad0 := by
  unfold State.intercept; simp only []; split <;> simp
@[simp] theorem intercept_pad1 (s : State) (n : Word) (d : Byte) :
    (s.intercept n d).pad1 = s.pad1 := by
  unfold State.intercept; simp only []; split <;> simp
@[simp] theorem intercept_buttons0 (s : State) (n : Word) (d : Byte) :
    (s.intercept n d).buttons0 = s.buttons0 := by
  unfold State.intercept; simp only []; split <;> simp
@[simp] theorem intercept_buttons1 (s : State) (n : Word) (d : Byte) :
    (s.intercept n d).buttons1 = s.buttons1 := by
  unfold State.intercept; simp only []; split <;> simp
@[simp] theorem intercept_cart (s : State) (n : Word) (d : Byte) :
    (s.intercept n d).cart = s.cart := by
  unfold State.intercept; simp only []; split <;> simp
@[simp] theorem intercept_cfg (s : State) (n : Word) (d : Byte) :
    (s.intercept n d).cfg = s.cfg := by
  unfold State.intercept; simp only []; split <;> simp
@[simp] theorem intercept_resetPending (s : State) (n : Word) (d : Byte) :
    (s.intercept n d).resetPending = s.resetPending := by
  unfold State.intercept; simp only []; split <;> simp
@[simp] theorem intercept_halted (s : State) (n : Word) (d : Byte) :
    (s.intercept n d).halted = s.halted := by
  unfold State.intercept; simp only []; split <;> simp
@[simp] theorem intercept_cyc (s : State) (n : Word) (d : Byte) :
    (s.intercept n d).cyc = s.cyc := by
  unfold State.intercept; simp only []; split <;> simp
@[simp] theorem intercept_events (s : State) (n : Word) (d : Byte) :
    (s.intercept n d).events = s.events := by
  unfold State.intercept; simp only []; split <;> simp

/-! ### mapperReset -/

@[simp] theorem mapperReset_a (s : State) :
    s.mapperReset.a = s.a := by
  unfold State.mapperReset; simp only []; split <;> simp
@[simp] theorem mapperReset_x (s : State) :
    s.mapperReset.x = s.x := by
  unfold State.mapperReset; simp only []; split <;> simp
@[simp] theorem mapperReset_y (s : State) :
    s.mapperReset.y = s.y := by
  unfold State.mapperReset; simp only []; split <;> simp
@[simp] theorem mapperReset_sp (s : State) :
    s.mapperReset.sp = s.sp := by
  unfold State.mapperReset; simp only []; split <;> simp
@[simp] theorem mapperReset_p (s : State) :
    s.mapperReset.p = s.p := by
  unfold State.mapperReset; simp only []; split <;> simp
@[simp] theorem mapperReset_pc (s : State) :
    s.mapperReset.pc = s.pc := by
  unfold State.mapperReset; simp only []; split <;> simp
@[simp] theorem mapperReset_cyclesTotal (s : State) :
    s.mapperReset.cyclesTotal = s.cyclesTotal := by
  unfold State.mapperReset; simp only []; split <;> simp
@[simp] theorem mapperReset_irqPending (s : State) :
    s.mapperReset.irqPending = s.irqPending := by
  unfold State.mapperReset; simp only []; split <;> simp
@[simp] theorem mapperReset_pad0 (s : State) :
    s.mapperReset.pad0 = s.pad0 := by
  unfold State.mapperReset; simp only []; split <;> simp
@[simp] theorem mapperReset_pad1 (s : State) :
    s.mapperReset.pad1 = s.pad1 := by
  unfold State.mapperReset; simp only []; split <;> simp
@[simp] theorem mapperReset_buttons0 (s : State) :
    s.mapperReset.buttons0 = s.buttons0 := by
  unfold State.mapperReset; simp only []; split <;> simp
@[simp] theorem mapperReset_buttons1 (s : State) :
    s.mapperReset.buttons1 = s.buttons1 := by
  unfold State.mapperReset; simp only []; split <;> simp
@[simp] theorem mapperReset_cart (s : State) :
    s.mapperReset.cart = s.cart := by
  unfold State.mapperReset; simp only []; split <;> simp
@[simp] theorem mapperReset_cfg (s : State) :
    s.mapperReset.cfg = s.cfg := by
  unfold State.mapperReset; simp only []; split <;> simp
@[simp] theorem mapperReset_resetPending (s : State) :
    s.mapperReset.resetPending = s.resetPending := by
  unfold State.mapperReset; simp only []; split <;> simp
@[simp] theorem mapperReset_halted (s : State) :
    s.mapperReset.halted = s.halted := by
  unfold State.mapperReset; simp only []; split <;> simp
@[simp] theorem mapperReset_cyc (s : State) :
    s.mapperReset.cyc = s.cyc := by
  unfold State.mapperReset; simp only []; split <;> simp
@[simp] theorem mapperReset_events (s : State) :
    s.mapperReset.events = s.events := by
  unfold State.mapperReset; simp only []; split <;> simp

/-! ### Writes below 0x8000 (R502) -/

theorem intercept_below (s : State) {n : Word} (h : n.toNat < 0x8000) (d : Byte) :
    s.intercept n d = s := by
  simp [State.intercept, Mapper.checkAddress, h]

end Sys2Proof.Machine
end

