-- ==== Sys2Proof/Laws/Bus.lean ====
section
/-! SUPPORT. The address map and the two bus primitives: where an address falls, what a read returns
and leaves, what a write stores and leaves. -/

namespace Sys2Proof.Machine

/-! ### The address map -/

theorem norm_toNat (a : Word) :
    (norm a).toNat
      = if a.toNat < 0x2000 then a.toNat % 0x800
        else if a.toNat < 0x4000 then 0x2000 + a.toNat % 8
        else a.toNat := by
  unfold norm
  have e1 : (a &&& 0x07FF#16).toNat = a.toNat % 0x800 := by
    rw [BitVec.toNat_and]
    exact Nat.and_two_pow_sub_one_eq_mod a.toNat 11
  have e2 : (a &&& 0x0007#16).toNat = a.toNat % 8 := by
    rw [BitVec.toNat_and]
    exact Nat.and_two_pow_sub_one_eq_mod a.toNat 3
  split
  · exact e1
  · split
    · have h3 : a.toNat % 8 < 8 := Nat.mod_lt _ (by omega)
      have e3 : (0x2000#16 + (a &&& 0x0007#16)).toNat = 0x2000 + a.toNat % 8 := by
        rw [BitVec.toNat_add, e2]
        simp only [BitVec.toNat_ofNat]
        omega
      exact e3
    · rfl

theorem norm_lt (a : Word) : (norm a).toNat < 0x10000 := (norm a).isLt

/-- The row of the map by the address itself (R82). -/
theorem region_norm (a : Word) :
    region (norm a)
      = if a.toNat < 0x2000 then .ram
        else if a.toNat < 0x4000 then .ppu
        else if a.toNat = 0x4014 then .dma
        else if a.toNat = 0x4016 then .pad0
        else if a.toNat = 0x4017 then .pad1
        else if a.toNat < 0x4018 then .audio
        else if a.toNat < 0x6000 then .storage
        else if a.toNat < 0x8000 then .sram
        else .rom := by
  unfold region
  rw [norm_toNat]
  by_cases h1 : a.toNat < 0x2000
  · rw [if_pos h1, if_pos (by omega), if_pos h1]
  · by_cases h2 : a.toNat < 0x4000
    · rw [if_neg h1, if_pos h2, if_neg (by omega), if_pos (by omega), if_neg h1, if_pos h2]
    · rw [if_neg h1, if_neg h2]

/-- The last row of the map (R82). -/
theorem region_of_rom {n : Word} (h : 0x8000 ≤ n.toNat) : region n = .rom := by
  unfold region
  repeat' split
  all_goals first | rfl | omega

theorem region_of_ram {a : Word} (h : a.toNat < 0x2000) : region (norm a) = .ram := by
  rw [region_norm, if_pos h]

theorem plainAddr_of_ram {a : Word} (h : a.toNat < 0x2000) : plainAddr a = true := by
  simp [plainAddr, region_of_ram h]

theorem plainAddr_of_storage {a : Word} (h : 0x4018 ≤ a.toNat) : plainAddr a = true := by
  have : region (norm a) = .storage ∨ region (norm a) = .sram ∨ region (norm a) = .rom := by
    rw [region_norm]
    repeat' split
    all_goals first | omega | simp
  rcases this with h | h | h <;> simp [plainAddr, h]

theorem norm_eq_dma {a : Word} : norm a = 0x4014 ↔ region (norm a) = .dma := by
  constructor
  · intro h; rw [h]; rfl
  · intro h
    rw [region_norm] at h
    apply BitVec.eq_of_toNat_eq
    rw [norm_toNat]
    repeat' split at h
    all_goals first | (cases h; done) | skip
    rename_i h1 h2 h3
    rw [if_neg h1, if_neg h2, h3]
    rfl

@[simp] theorem zext16_toNat (b : Byte) : (zext16 b).toNat = b.toNat := by
  have := b.isLt
  simp [zext16]
  omega

theorem zext16_ram (b : Byte) : (zext16 b).toNat < 0x2000 := by
  have := b.isLt
  simp; omega

theorem stackAddr_toNat (sp : Byte) : (stackAddr sp).toNat = 0x100 + sp.toNat := by
  have := sp.isLt
  simp [stackAddr, BitVec.toNat_add]
  omega

theorem stackAddr_ram (sp : Byte) : (stackAddr sp).toNat < 0x2000 := by
  have := sp.isLt
  rw [stackAddr_toNat]; omega

theorem norm_stackAddr (sp : Byte) : (norm (stackAddr sp)).toNat = 0x100 + sp.toNat := by
  have := sp.isLt
  rw [norm_toNat, stackAddr_toNat]
  split <;> omega

theorem norm_zext16 (b : Byte) : (norm (zext16 b)).toNat = b.toNat := by
  have := b.isLt
  rw [norm_toNat, zext16_toNat]
  split <;> omega

/-! ### Reads -/

/-- A read of a plain address gives the byte of main memory and changes nothing (R84). -/
theorem memRead_plain (s : State) {a : Word} (h : plainAddr a = true) :
    s.memRead a = (s.byteAt a, s) := by
  unfold plainAddr at h
  unfold State.memRead State.byteAt
  simp only []
  generalize region (norm a) = r at h ⊢
  cases r <;> simp_all

/-! ### What a read leaves alone -/

@[simp] theorem memRead_a (s : State) (a : Word) :
    (s.memRead a).2.a = s.a := by
  unfold State.memRead; simp only []; split <;> rfl
@[simp] theorem memRead_x (s : State) (a : Word) :
    (s.memRead a).2.x = s.x := by
  unfold State.memRead; simp only []; split <;> rfl
@[simp] theorem memRead_y (s : State) (a : Word) :
    (s.memRead a).2.y = s.y := by
  unfold State.memRead; simp only []; split <;> rfl
@[simp] theorem memRead_sp (s : State) (a : Word) :
    (s.memRead a).2.sp = s.sp := by
  unfold State.memRead; simp only []; split <;> rfl
@[simp] theorem memRead_p (s : State) (a : Word) :
    (s.memRead a).2.p = s.p := by
  unfold State.memRead; simp only []; split <;> rfl
@[simp] theorem memRead_pc (s : State) (a : Word) :
    (s.memRead a).2.pc = s.pc := by
  unfold State.memRead; simp only []; split <;> rfl
@[simp] theorem memRead_cyclesTotal (s : State) (a : Word) :
    (s.memRead a).2.cyclesTotal = s.cyclesTotal := by
  unfold State.memRead; simp only []; split <;> rfl
@[simp] theorem memRead_irqPending (s : State) (a : Word) :
    (s.memRead a).2.irqPending = s.irqPending := by
  unfold State.memRead; simp only []; split <;> rfl
@[simp] theorem memRead_mem (s : State) (a : Word) :
    (s.memRead a).2.mem = s.mem := by
  unfold State.memRead; simp only []; split <;> rfl
@[simp] theorem memRead_sramEnabled (s : State) (a : Word) :
    (s.memRead a).2.sramEnabled = s.sramEnabled := by
  unfold State.memRead; simp only []; split <;> rfl
@[simp] theorem memRead_sramReadonly (s : State) (a : Word) :
    (s.memRead a).2.sramReadonly = s.sramReadonly := by
  unfold State.memRead; simp only []; split <;> rfl
@[simp] theorem memRead_buttons0 (s : State) (a : Word) :
    (s.memRead a).2.buttons0 = s.buttons0 := by
  unfold State.memRead; simp only []; split <;> rfl
@[simp] theorem memRead_buttons1 (s : State) (a : Word) :
    (s.memRead a).2.buttons1 = s.buttons1 := by
  unfold State.memRead; simp only []; split <;> rfl
@[simp] theorem memRead_mapper (s : State) (a : Word) :
    (s.memRead a).2.mapper = s.mapper := by
  unfold State.memRead; simp only []; split <;> rfl
@[simp] theorem memRead_cart (s : State) (a : Word) :
    (s.memRead a).2.cart = s.cart := by
  unfold State.memRead; simp only []; split <;> rfl
@[simp] theorem memRead_cfg (s : State) (a : Word) :
    (s.memRead a).2.cfg = s.cfg := by
  unfold State.memRead; simp only []; split <;> rfl
@[simp] theorem memRead_resetPending (s : State) (a : Word) :
    (s.memRead a).2.resetPending = s.resetPending := by
  unfold State.memRead; simp only []; split <;> rfl
@[simp] theorem memRead_halted (s : State) (a : Word) :
    (s.memRead a).2.halted = s.halted := by
  unfold State.memRead; simp only []; split <;> rfl
@[simp] theorem memRead_cyc (s : State) (a : Word) :
    (s.memRead a).2.cyc = s.cyc := by
  unfold State.memRead; simp only []; split <;> rfl
@[simp] theorem memRead_events (s : State) (a : Word) :
    (s.memRead a).2.events = s.events := by
  unfold State.memRead; simp only []; split <;> rfl

/-- What a register read may change of the PPU: the vertical-blank flag and the toggle, the video address and
the read buffer (R87). -/
theorem readReg_frame (cfg : Params) (r : PpuReg) (p : Ppu) :
    ∃ vb w v rb, (p.readReg cfg r).2 = { p with vblank := vb, w := w, v := v, readBuffer := rb } := by
  cases r
  case status =>
    simp only [Ppu.readReg, Ppu.readStatus]
    split
    · exact ⟨p.vblank, p.w, p.v, p.readBuffer, rfl⟩
    · exact ⟨false, false, p.v, p.readBuffer, rfl⟩
  case data =>
    simp only [Ppu.readReg, Ppu.readData]
    split
    · exact ⟨p.vblank, p.w, _, _, rfl⟩
    · exact ⟨p.vblank, p.w, _, _, rfl⟩
  all_goals exact ⟨p.vblank, p.w, p.v, p.readBuffer, rfl⟩

/-- Everything a read can change (R87). -/
theorem memRead_frame (s : State) (a : Word) :
    ∃ vb w v rb c0 c1, (s.memRead a).2
      = { s with
          ppu := { s.ppu with vblank := vb, w := w, v := v, readBuffer := rb }
          pad0 := { s.pad0 with count := c0 }
          pad1 := { s.pad1 with count := c1 } } := by
  unfold State.memRead
  simp only []
  split
  case h_5 =>
    obtain ⟨vb, w, v, rb, h⟩ := readReg_frame s.cfg (ppuReg (norm a)) s.ppu
    exact ⟨vb, w, v, rb, s.pad0.count, s.pad1.count, by rw [h]⟩
  case h_8 => exact ⟨s.ppu.vblank, s.ppu.w, s.ppu.v, s.ppu.readBuffer, _, s.pad1.count, rfl⟩
  case h_9 => exact ⟨s.ppu.vblank, s.ppu.w, s.ppu.v, s.ppu.readBuffer, s.pad0.count, _, rfl⟩
  all_goals
    exact ⟨s.ppu.vblank, s.ppu.w, s.ppu.v, s.ppu.readBuffer, s.pad0.count, s.pad1.count, rfl⟩

@[simp] theorem memRead_ppu_ctrl (s : State) (a : Word) :
    (s.memRead a).2.ppu.ctrl = s.ppu.ctrl := by
  obtain ⟨_, _, _, _, _, _, h⟩ := memRead_frame s a; rw [h]
@[simp] theorem memRead_ppu_mask (s : State) (a : Word) :
    (s.memRead a).2.ppu.mask = s.ppu.mask := by
  obtain ⟨_, _, _, _, _, _, h⟩ := memRead_frame s a; rw [h]
@[simp] theorem memRead_ppu_sprite0Hit (s : State) (a : Word) :
    (s.memRead a).2.ppu.sprite0Hit = s.ppu.sprite0Hit := by
  obtain ⟨_, _, _, _, _, _, h⟩ := memRead_frame s a; rw [h]
@[simp] theorem memRead_ppu_spriteOverflow (s : State) (a : Word) :
    (s.memRead a).2.ppu.spriteOverflow = s.ppu.spriteOverflow := by
  obtain ⟨_, _, _, _, _, _, h⟩ := memRead_frame s a; rw [h]
@[simp] theorem memRead_ppu_oamAddr (s : State) (a : Word) :
    (s.memRead a).2.ppu.oamAddr = s.ppu.oamAddr := by
  obtain ⟨_, _, _, _, _, _, h⟩ := memRead_frame s a; rw [h]
@[simp] theorem memRead_ppu_t (s : State) (a : Word) :
    (s.memRead a).2.ppu.t = s.ppu.t := by
  obtain ⟨_, _, _, _, _, _, h⟩ := memRead_frame s a; rw [h]
@[simp] theorem memRead_ppu_fineX (s : State) (a : Word) :
    (s.memRead a).2.ppu.fineX = s.ppu.fineX := by
  obtain ⟨_, _, _, _, _, _, h⟩ := memRead_frame s a; rw [h]
@[simp] theorem memRead_ppu_mirroring (s : State) (a : Word) :
    (s.memRead a).2.ppu.mirroring = s.ppu.mirroring := by
  obtain ⟨_, _, _, _, _, _, h⟩ := memRead_frame s a; rw [h]
@[simp] theorem memRead_ppu_line (s : State) (a : Word) :
    (s.memRead a).2.ppu.line = s.ppu.line := by
  obtain ⟨_, _, _, _, _, _, h⟩ := memRead_frame s a; rw [h]
@[simp] theorem memRead_ppu_budget (s : State) (a : Word) :
    (s.memRead a).2.ppu.budget = s.ppu.budget := by
  obtain ⟨_, _, _, _, _, _, h⟩ := memRead_frame s a; rw [h]
@[simp] theorem memRead_ppu_frame (s : State) (a : Word) :
    (s.memRead a).2.ppu.frame = s.ppu.frame := by
  obtain ⟨_, _, _, _, _, _, h⟩ := memRead_frame s a; rw [h]
@[simp] theorem memRead_ppu_cyclesSinceVblank (s : State) (a : Word) :
    (s.memRead a).2.ppu.cyclesSinceVblank = s.ppu.cyclesSinceVblank := by
  obtain ⟨_, _, _, _, _, _, h⟩ := memRead_frame s a; rw [h]
@[simp] theorem memRead_ppu_vram (s : State) (a : Word) :
    (s.memRead a).2.ppu.vram = s.ppu.vram := by
  obtain ⟨_, _, _, _, _, _, h⟩ := memRead_frame s a; rw [h]
@[simp] theorem memRead_ppu_oam (s : State) (a : Word) :
    (s.memRead a).2.ppu.oam = s.ppu.oam := by
  obtain ⟨_, _, _, _, _, _, h⟩ := memRead_frame s a; rw [h]

/-! ### The sprite DMA loop -/

@[simp] theorem dmaLoop_a (s : State) (k : Nat) (i : Byte) (w : Word) :
    (dmaLoop k i w s).a = s.a := by
  induction k generalizing i w s with
  | zero => rfl
  | succ k ih => simp [dmaLoop, ih]
@[simp] theorem dmaLoop_x (s : State) (k : Nat) (i : Byte) (w : Word) :
    (dmaLoop k i w s).x = s.x := by
  induction k generalizing i w s with
  | zero => rfl
  | succ k ih => simp [dmaLoop, ih]
@[simp] theorem dmaLoop_y (s : State) (k : Nat) (i : Byte) (w : Word) :
    (dmaLoop k i w s).y = s.y := by
  induction k generalizing i w s with
  | zero => rfl
  | succ k ih => simp [dmaLoop, ih]
@[simp] theorem dmaLoop_sp (s : State) (k : Nat) (i : Byte) (w : Word) :
    (dmaLoop k i w s).sp = s.sp := by
  induction k generalizing i w s with
  | zero => rfl
  | succ k ih => simp [dmaLoop, ih]
@[simp] theorem dmaLoop_p (s : State) (k : Nat) (i : Byte) (w : Word) :
    (dmaLoop k i w s).p = s.p := by
  induction k generalizing i w s with
  | zero => rfl
  | succ k ih => simp [dmaLoop, ih]
@[simp] theorem dmaLoop_pc (s : State) (k : Nat) (i : Byte) (w : Word) :
    (dmaLoop k i w s).pc = s.pc := by
  induction k generalizing i w s with
  | zero => rfl
  | succ k ih => simp [dmaLoop, ih]
@[simp] theorem dmaLoop_cyclesTotal (s : State) (k : Nat) (i : Byte) (w : Word) :
    (dmaLoop k i w s).cyclesTotal = s.cyclesTotal := by
  induction k generalizing i w s with
  | zero => rfl
  | succ k ih => simp [dmaLoop, ih]
@[simp] theorem dmaLoop_irqPending (s : State) (k : Nat) (i : Byte) (w : Word) :
    (dmaLoop k i w s).irqPending = s.irqPending := by
  induction k generalizing i w s with
  | zero => rfl
  | succ k ih => simp [dmaLoop, ih]
@[simp] theorem dmaLoop_mem (s : State) (k : Nat) (i : Byte) (w : Word) :
    (dmaLoop k i w s).mem = s.mem := by
  induction k generalizing i w s with
  | zero => rfl
  | succ k ih => simp [dmaLoop, ih]
@[simp] theorem dmaLoop_sramEnabled (s : State) (k : Nat) (i : Byte) (w : Word) :
    (dmaLoop k i w s).sramEnabled = s.sramEnabled := by
  induction k generalizing i w s with
  | zero => rfl
  | succ k ih => simp [dmaLoop, ih]
@[simp] theorem dmaLoop_sramReadonly (s : State) (k : Nat) (i : Byte) (w : Word) :
    (dmaLoop k i w s).sramReadonly = s.sramReadonly := by
  induction k generalizing i w s with
  | zero => rfl
  | succ k ih => simp [dmaLoop, ih]
@[simp] theorem dmaLoop_buttons0 (s : State) (k : Nat) (i : Byte) (w : Word) :
    (dmaLoop k i w s).buttons0 = s.buttons0 := by
  induction k generalizing i w s with
  | zero => rfl
  | succ k ih => simp [dmaLoop, ih]
@[simp] theorem dmaLoop_buttons1 (s : State) (k : Nat) (i : Byte) (w : Word) :
    (dmaLoop k i w s).buttons1 = s.buttons1 := by
  induction k generalizing i w s with
  | zero => rfl
  | succ k ih => simp [dmaLoop, ih]
@[simp] theorem dmaLoop_mapper (s : State) (k : Nat) (i : Byte) (w : Word) :
    (dmaLoop k i w s).mapper = s.mapper := by
  induction k generalizing i w s with
  | zero => rfl
  | succ k ih => simp [dmaLoop, ih]
@[simp] theorem dmaLoop_cart (s : State) (k : Nat) (i : Byte) (w : Word) :
    (dmaLoop k i w s).cart = s.cart := by
  induction k generalizing i w s with
  | zero => rfl
  | succ k ih => simp [dmaLoop, ih]
@[simp] theorem dmaLoop_cfg (s : State) (k : Nat) (i : Byte) (w : Word) :
    (dmaLoop k i w s).cfg = s.cfg := by
  induction k generalizing i w s with
  | zero => rfl
  | succ k ih => simp [dmaLoop, ih]
@[simp] theorem dmaLoop_resetPending (s : State) (k : Nat) (i : Byte) (w : Word) :
    (dmaLoop k i w s).resetPending = s.resetPending := by
  induction k generalizing i w s with
  | zero => rfl
  | succ k ih => simp [dmaLoop, ih]
@[simp] theorem dmaLoop_halted (s : State) (k : Nat) (i : Byte) (w : Word) :
    (dmaLoop k i w s).halted = s.halted := by
  induction k generalizing i w s with
  | zero => rfl
  | succ k ih => simp [dmaLoop, ih]
@[simp] theorem dmaLoop_cyc (s : State) (k : Nat) (i : Byte) (w : Word) :
    (dmaLoop k i w s).cyc = s.cyc := by
  induction k generalizing i w s with
  | zero => rfl
  | succ k ih => simp [dmaLoop, ih]
@[simp] theorem dmaLoop_events (s : State) (k : Nat) (i : Byte) (w : Word) :
    (dmaLoop k i w s).events = s.events := by
  induction k generalizing i w s with
  | zero => rfl
  | succ k ih => simp [dmaLoop, ih]

/-! ### Primary effect -/

@[simp] theorem primaryWrite_a (s : State) (n : Word) (v : Byte) :
    (s.primaryWrite n v).a = s.a := by
  unfold State.primaryWrite; split <;> (try split) <;> simp [State.spriteDma]
@[simp] theorem primaryWrite_x (s : State) (n : Word) (v : Byte) :
    (s.primaryWrite n v).x = s.x := by
  unfold State.primaryWrite; split <;> (try split) <;> simp [State.spriteDma]
@[simp] theorem primaryWrite_y (s : State) (n : Word) (v : Byte) :
    (s.primaryWrite n v).y = s.y := by
  unfold State.primaryWrite; split <;> (try split) <;> simp [State.spriteDma]
@[simp] theorem primaryWrite_sp (s : State) (n : Word) (v : Byte) :
    (s.primaryWrite n v).sp = s.sp := by
  unfold State.primaryWrite; split <;> (try split) <;> simp [State.spriteDma]
@[simp] theorem primaryWrite_p (s : State) (n : Word) (v : Byte) :
    (s.primaryWrite n v).p = s.p := by
  unfold State.primaryWrite; split <;> (try split) <;> simp [State.spriteDma]
@[simp] theorem primaryWrite_pc (s : State) (n : Word) (v : Byte) :
    (s.primaryWrite n v).pc = s.pc := by
  unfold State.primaryWrite; split <;> (try split) <;> simp [State.spriteDma]
@[simp] theorem primaryWrite_cyclesTotal (s : State) (n : Word) (v : Byte) :
    (s.primaryWrite n v).cyclesTotal = s.cyclesTotal := by
  unfold State.primaryWrite; split <;> (try split) <;> simp [State.spriteDma]
@[simp] theorem primaryWrite_irqPending (s : State) (n : Word) (v : Byte) :
    (s.primaryWrite n v).irqPending = s.irqPending := by
  unfold State.primaryWrite; split <;> (try split) <;> simp [State.spriteDma]
@[simp] theorem primaryWrite_sramEnabled (s : State) (n : Word) (v : Byte) :
    (s.primaryWrite n v).sramEnabled = s.sramEnabled := by
  unfold State.primaryWrite; split <;> (try split) <;> simp [State.spriteDma]
@[simp] theorem primaryWrite_sramReadonly (s : State) (n : Word) (v : Byte) :
    (s.primaryWrite n v).sramReadonly = s.sramReadonly := by
  unfold State.primaryWrite; split <;> (try split) <;> simp [State.spriteDma]
@[simp] theorem primaryWrite_buttons0 (s : State) (n : Word) (v : Byte) :
    (s.primaryWrite n v).buttons0 = s.buttons0 := by
  unfold State.primaryWrite; split <;> (try split) <;> simp [State.spriteDma]
@[simp] theorem primaryWrite_buttons1 (s : State) (n : Word) (v : Byte) :
    (s.primaryWrite n v).buttons1 = s.buttons1 := by
  unfold State.primaryWrite; split <;> (try split) <;> simp [State.spriteDma]
@[simp] theorem primaryWrite_mapper (s : State) (n : Word) (v : Byte) :
    (s.primaryWrite n v).mapper = s.mapper := by
  unfold State.primaryWrite; split <;> (try split) <;> simp [State.spriteDma]
@[simp] theorem primaryWrite_cart (s : State) (n : Word) (v : Byte) :
    (s.primaryWrite n v).cart = s.cart := by
  unfold State.primaryWrite; split <;> (try split) <;> simp [State.spriteDma]
@[simp] theorem primaryWrite_cfg (s : State) (n : Word) (v : Byte) :
    (s.primaryWrite n v).cfg = s.cfg := by
  unfold State.primaryWrite; split <;> (try split) <;> simp [State.spriteDma]
@[simp] theorem primaryWrite_resetPending (s : State) (n : Word) (v : Byte) :
    (s.primaryWrite n v).resetPending = s.resetPending := by
  unfold State.primaryWrite; split <;> (try split) <;> simp [State.spriteDma]
@[simp] theorem primaryWrite_halted (s : State) (n : Word) (v : Byte) :
    (s.primaryWrite n v).halted = s.halted := by
  unfold State.primaryWrite; split <;> (try split) <;> simp [State.spriteDma]

/-! ### What a write leaves alone -/

@[simp] theorem memWrite_a (s : State) (a : Word) (v : Byte) :
    (s.memWrite a v).a = s.a := by
  simp [State.memWrite]
@[simp] theorem memWrite_x (s : State) (a : Word) (v : Byte) :
    (s.memWrite a v).x = s.x := by
  simp [State.memWrite]
@[simp] theorem memWrite_y (s : State) (a : Word) (v : Byte) :
    (s.memWrite a v).y = s.y := by
  simp [State.memWrite]
@[simp] theorem memWrite_sp (s : State) (a : Word) (v : Byte) :
    (s.memWrite a v).sp = s.sp := by
  simp [State.memWrite]
@[simp] theorem memWrite_p (s : State) (a : Word) (v : Byte) :
    (s.memWrite a v).p = s.p := by
  simp [State.memWrite]
@[simp] theorem memWrite_pc (s : State) (a : Word) (v : Byte) :
    (s.memWrite a v).pc = s.pc := by
  simp [State.memWrite]
@[simp] theorem memWrite_cyclesTotal (s : State) (a : Word) (v : Byte) :
    (s.memWrite a v).cyclesTotal = s.cyclesTotal := by
  simp [State.memWrite]
@[simp] theorem memWrite_buttons0 (s : State) (a : Word) (v : Byte) :
    (s.memWrite a v).buttons0 = s.buttons0 := by
  simp [State.memWrite]
@[simp] theorem memWrite_buttons1 (s : State) (a : Word) (v : Byte) :
    (s.memWrite a v).buttons1 = s.buttons1 := by
  simp [State.memWrite]
@[simp] theorem memWrite_cart (s : State) (a : Word) (v : Byte) :
    (s.memWrite a v).cart = s.cart := by
  simp [State.memWrite]
@[simp] theorem memWrite_cfg (s : State) (a : Word) (v : Byte) :
    (s.memWrite a v).cfg = s.cfg := by
  simp [State.memWrite]
@[simp] theorem memWrite_resetPending (s : State) (a : Word) (v : Byte) :
    (s.memWrite a v).resetPending = s.resetPending := by
  simp [State.memWrite]
@[simp] theorem memWrite_halted (s : State) (a : Word) (v : Byte) :
    (s.memWrite a v).halted = s.halted := by
  simp [State.memWrite]

/-- The cost a write adds (R416): 512 for a store to 0x4014. -/
theorem memWrite_cyc (s : State) (a : Word) (v : Byte) :
    (s.memWrite a v).cyc = s.cyc + if norm a = 0x4014 then 512 else 0 := by
  have h : (s.primaryWrite (norm a) v).cyc
      = s.cyc + if region (norm a) = .dma then 512 else 0 := by
    unfold State.primaryWrite
    split <;> (try split) <;> simp_all [State.spriteDma, dmaCost]
  simp only [State.memWrite, intercept_cyc, h, norm_eq_dma]

/-- A write to the internal RAM stores the byte and does nothing else (R85). -/
theorem memWrite_ram (s : State) {a : Word} (h : a.toNat < 0x2000) (v : Byte) :
    s.memWrite a v = s.store (norm a) v := by
  unfold State.memWrite
  rw [intercept_below _ (by rw [norm_toNat, if_pos h]; omega)]
  simp [State.primaryWrite, region_of_ram h]

/-- A write where the byte is stored does nothing else (R85). -/
theorem memWrite_store (s : State) {a : Word} (h : s.storesByte a = true) (v : Byte) :
    s.memWrite a v = s.store (norm a) v := by
  unfold State.storesByte at h
  have hn : (norm a).toNat < 0x8000 := by
    by_contra hn
    rw [region_of_rom (Nat.le_of_not_lt hn)] at h
    exact Bool.false_ne_true h
  unfold State.memWrite
  rw [intercept_below _ hn]
  unfold State.primaryWrite
  generalize region (norm a) = r at h ⊢
  cases r <;> simp_all

/-! ### The stack -/

/-- A push stores at 0x0100 + S and decrements S; nothing else changes (10_state.md R23). -/
theorem push_eq (s : State) (v : Byte) :
    s.push v = { s with mem := s.mem.write (0x100 + s.sp.toNat) v, sp := s.sp - 1 } := by
  unfold State.push
  simp only []
  rw [memWrite_ram s (stackAddr_ram s.sp)]
  simp [State.store, norm_stackAddr]

/-- A pull increments S and reads at 0x0100 + S; nothing else changes. -/
theorem pull_eq (s : State) :
    s.pull = (s.mem.read (0x100 + (s.sp + 1).toNat), { s with sp := s.sp + 1 }) := by
  unfold State.pull
  simp only []
  rw [memRead_plain _ (plainAddr_of_ram (stackAddr_ram _))]
  simp [State.byteAt, norm_stackAddr]

end Sys2Proof.Machine
end

