-- ==== Sys2Proof/Laws/Operands.lean ====
section
/-! SUPPORT. Operands: a resolved operand leaves the state as it was, and a read operand leaves what one bus
read leaves. -/

namespace Sys2Proof.Machine

/-- The two bytes of a zero-page pointer; the reads change nothing (R143, R144). -/
theorem zeroPagePointer_eq (s : State) (p : Byte) :
    s.zeroPagePointer p
      = (wordOf (s.mem.read (p + 1).toNat) (s.mem.read p.toNat), s) := by
  unfold State.zeroPagePointer
  simp only [memRead_plain _ (plainAddr_of_ram (zext16_ram _)), State.byteAt, norm_zext16]

/-- Resolving an operand changes nothing. -/
@[simp] theorem resolve_s (s : State) (a : Addr) : (s.resolve a).s = s := by
  cases a <;> simp [State.resolve, indexed, zeroPagePointer_eq]

/-- A read operand is one bus read at the effective address. -/
theorem readAddr_eq (s : State) (a : Addr) :
    s.readAddr a
      = { m := (s.memRead (s.resolve a).ea).1, ea := (s.resolve a).ea
          crossed := (s.resolve a).crossed, s := (s.memRead (s.resolve a).ea).2 } := by
  simp [State.readAddr]

@[simp] theorem readAddr_ea (s : State) (a : Addr) : (s.readAddr a).ea = (s.resolve a).ea := by
  simp [readAddr_eq]

@[simp] theorem readAddr_crossed (s : State) (a : Addr) :
    (s.readAddr a).crossed = (s.resolve a).crossed := by
  simp [readAddr_eq]

@[simp] theorem readSrc_imm (s : State) (b : Byte) :
    s.readSrc (.imm b) = { m := b, ea := 0, crossed := false, s := s } := rfl

@[simp] theorem readSrc_mem (s : State) (a : Addr) : s.readSrc (.mem a) = s.readAddr a := rfl

@[simp] theorem readAddr_s_a (s : State) (a : Addr) :
    (s.readAddr a).s.a = s.a := by
  simp [readAddr_eq]
@[simp] theorem readAddr_s_x (s : State) (a : Addr) :
    (s.readAddr a).s.x = s.x := by
  simp [readAddr_eq]
@[simp] theorem readAddr_s_y (s : State) (a : Addr) :
    (s.readAddr a).s.y = s.y := by
  simp [readAddr_eq]
@[simp] theorem readAddr_s_sp (s : State) (a : Addr) :
    (s.readAddr a).s.sp = s.sp := by
  simp [readAddr_eq]
@[simp] theorem readAddr_s_p (s : State) (a : Addr) :
    (s.readAddr a).s.p = s.p := by
  simp [readAddr_eq]
@[simp] theorem readAddr_s_pc (s : State) (a : Addr) :
    (s.readAddr a).s.pc = s.pc := by
  simp [readAddr_eq]
@[simp] theorem readAddr_s_cyclesTotal (s : State) (a : Addr) :
    (s.readAddr a).s.cyclesTotal = s.cyclesTotal := by
  simp [readAddr_eq]
@[simp] theorem readAddr_s_irqPending (s : State) (a : Addr) :
    (s.readAddr a).s.irqPending = s.irqPending := by
  simp [readAddr_eq]
@[simp] theorem readAddr_s_mem (s : State) (a : Addr) :
    (s.readAddr a).s.mem = s.mem := by
  simp [readAddr_eq]
@[simp] theorem readAddr_s_sramEnabled (s : State) (a : Addr) :
    (s.readAddr a).s.sramEnabled = s.sramEnabled := by
  simp [readAddr_eq]
@[simp] theorem readAddr_s_sramReadonly (s : State) (a : Addr) :
    (s.readAddr a).s.sramReadonly = s.sramReadonly := by
  simp [readAddr_eq]
@[simp] theorem readAddr_s_buttons0 (s : State) (a : Addr) :
    (s.readAddr a).s.buttons0 = s.buttons0 := by
  simp [readAddr_eq]
@[simp] theorem readAddr_s_buttons1 (s : State) (a : Addr) :
    (s.readAddr a).s.buttons1 = s.buttons1 := by
  simp [readAddr_eq]
@[simp] theorem readAddr_s_mapper (s : State) (a : Addr) :
    (s.readAddr a).s.mapper = s.mapper := by
  simp [readAddr_eq]
@[simp] theorem readAddr_s_cart (s : State) (a : Addr) :
    (s.readAddr a).s.cart = s.cart := by
  simp [readAddr_eq]
@[simp] theorem readAddr_s_cfg (s : State) (a : Addr) :
    (s.readAddr a).s.cfg = s.cfg := by
  simp [readAddr_eq]
@[simp] theorem readAddr_s_resetPending (s : State) (a : Addr) :
    (s.readAddr a).s.resetPending = s.resetPending := by
  simp [readAddr_eq]
@[simp] theorem readAddr_s_halted (s : State) (a : Addr) :
    (s.readAddr a).s.halted = s.halted := by
  simp [readAddr_eq]
@[simp] theorem readAddr_s_cyc (s : State) (a : Addr) :
    (s.readAddr a).s.cyc = s.cyc := by
  simp [readAddr_eq]
@[simp] theorem readAddr_s_events (s : State) (a : Addr) :
    (s.readAddr a).s.events = s.events := by
  simp [readAddr_eq]

@[simp] theorem readSrc_s_a (s : State) (o : Src) :
    (s.readSrc o).s.a = s.a := by
  cases o <;> simp
@[simp] theorem readSrc_s_x (s : State) (o : Src) :
    (s.readSrc o).s.x = s.x := by
  cases o <;> simp
@[simp] theorem readSrc_s_y (s : State) (o : Src) :
    (s.readSrc o).s.y = s.y := by
  cases o <;> simp
@[simp] theorem readSrc_s_sp (s : State) (o : Src) :
    (s.readSrc o).s.sp = s.sp := by
  cases o <;> simp
@[simp] theorem readSrc_s_p (s : State) (o : Src) :
    (s.readSrc o).s.p = s.p := by
  cases o <;> simp
@[simp] theorem readSrc_s_pc (s : State) (o : Src) :
    (s.readSrc o).s.pc = s.pc := by
  cases o <;> simp
@[simp] theorem readSrc_s_cyclesTotal (s : State) (o : Src) :
    (s.readSrc o).s.cyclesTotal = s.cyclesTotal := by
  cases o <;> simp
@[simp] theorem readSrc_s_irqPending (s : State) (o : Src) :
    (s.readSrc o).s.irqPending = s.irqPending := by
  cases o <;> simp
@[simp] theorem readSrc_s_mem (s : State) (o : Src) :
    (s.readSrc o).s.mem = s.mem := by
  cases o <;> simp
@[simp] theorem readSrc_s_sramEnabled (s : State) (o : Src) :
    (s.readSrc o).s.sramEnabled = s.sramEnabled := by
  cases o <;> simp
@[simp] theorem readSrc_s_sramReadonly (s : State) (o : Src) :
    (s.readSrc o).s.sramReadonly = s.sramReadonly := by
  cases o <;> simp
@[simp] theorem readSrc_s_buttons0 (s : State) (o : Src) :
    (s.readSrc o).s.buttons0 = s.buttons0 := by
  cases o <;> simp
@[simp] theorem readSrc_s_buttons1 (s : State) (o : Src) :
    (s.readSrc o).s.buttons1 = s.buttons1 := by
  cases o <;> simp
@[simp] theorem readSrc_s_mapper (s : State) (o : Src) :
    (s.readSrc o).s.mapper = s.mapper := by
  cases o <;> simp
@[simp] theorem readSrc_s_cart (s : State) (o : Src) :
    (s.readSrc o).s.cart = s.cart := by
  cases o <;> simp
@[simp] theorem readSrc_s_cfg (s : State) (o : Src) :
    (s.readSrc o).s.cfg = s.cfg := by
  cases o <;> simp
@[simp] theorem readSrc_s_resetPending (s : State) (o : Src) :
    (s.readSrc o).s.resetPending = s.resetPending := by
  cases o <;> simp
@[simp] theorem readSrc_s_halted (s : State) (o : Src) :
    (s.readSrc o).s.halted = s.halted := by
  cases o <;> simp
@[simp] theorem readSrc_s_cyc (s : State) (o : Src) :
    (s.readSrc o).s.cyc = s.cyc := by
  cases o <;> simp
@[simp] theorem readSrc_s_events (s : State) (o : Src) :
    (s.readSrc o).s.events = s.events := by
  cases o <;> simp

@[simp] theorem readAddr_s_flag (s : State) (a : Addr) (f : Flag) :
    (s.readAddr a).s.flag f = s.flag f := by
  simp [State.flag]

@[simp] theorem readSrc_s_flag (s : State) (o : Src) (f : Flag) :
    (s.readSrc o).s.flag f = s.flag f := by
  simp [State.flag]

@[simp] theorem memRead_flag (s : State) (a : Word) (f : Flag) :
    (s.memRead a).2.flag f = s.flag f := by
  simp [State.flag]

@[simp] theorem memWrite_flag (s : State) (a : Word) (v : Byte) (f : Flag) :
    (s.memWrite a v).flag f = s.flag f := by
  simp [State.flag]

/-- A pushed word: high byte at 0x0100 + S, low byte below it, S down by two (R300). -/
theorem pushWord_eq (s : State) (w : Word) :
    s.pushWord w
      = { s with
          mem := (s.mem.write (0x100 + s.sp.toNat) (hiByte w)).write (0x100 + (s.sp - 1).toNat)
            (loByte w)
          sp := s.sp - 2 } := by
  have h : s.sp - 1#8 - 1#8 = s.sp - 2#8 := by rw [BitVec.sub_sub]; rfl
  simpa [State.pushWord, push_eq] using h

/-- A pulled word: low byte first, S up by two. -/
theorem pullWord_eq (s : State) :
    s.pullWord
      = (wordOf (s.mem.read (0x100 + (s.sp + 2).toNat)) (s.mem.read (0x100 + (s.sp + 1).toNat)),
          { s with sp := s.sp + 2 }) := by
  have h : s.sp + 1#8 + 1#8 = s.sp + 2#8 := by rw [BitVec.add_assoc]; rfl
  simp [State.pullWord, pull_eq, h]

theorem plainAddr_vector {v : Word} (h : 0x8000 ≤ v.toNat) : plainAddr v = true :=
  plainAddr_of_storage (by omega)

theorem norm_high {v : Word} (h : 0x4000 ≤ v.toNat) : (norm v).toNat = v.toNat := by
  rw [norm_toNat, if_neg (by omega), if_neg (by omega)]

/-- The word at one of the three vectors. -/
def vectorWord (m : Memory) (n : Nat) : Word := wordOf (m.read (n + 1)) (m.read n)

theorem memRead16_vector (s : State) {v : Word} (h : 0x8000 ≤ v.toNat) (h' : v.toNat < 0xFFFF) :
    s.memRead16 v = (vectorWord s.mem v.toNat, s) := by
  have h1 : (v + 1).toNat = v.toNat + 1 := by
    rw [BitVec.toNat_add]; simp; omega
  unfold State.memRead16
  simp only [memRead_plain _ (plainAddr_vector h)]
  rw [memRead_plain _ (plainAddr_vector (by omega))]
  simp only [State.byteAt]
  rw [norm_high (by omega), norm_high (by omega), h1]
  rfl

/-- Taking an exception, whole: three bytes pushed, B and I, PC from the vector (R602). -/
theorem takeVector_eq (s : State) (ret : Word) (b : Bool) {v : Word} (h : 0x8000 ≤ v.toNat)
    (h' : v.toNat < 0xFFFF) :
    s.takeVector ret b v
      = (let pushed := packP (s.flag .n) (s.flag .v) b (s.flag .d) (s.flag .i) (s.flag .z)
          (s.flag .c)
        let mem := ((s.mem.write (0x100 + s.sp.toNat) (hiByte ret)).write
          (0x100 + (s.sp - 1).toNat) (loByte ret)).write (0x100 + (s.sp - 2).toNat) pushed
        { s with
          mem := mem, sp := s.sp - 3, pc := vectorWord mem v.toNat
          p := packP (s.flag .n) (s.flag .v) b (s.flag .d) true (s.flag .z) (s.flag .c) }) := by
  have h3 : s.sp - 2#8 - 1#8 = s.sp - 3#8 := by rw [BitVec.sub_sub]; rfl
  have hp : ((s.pushWord ret).setFlag .b b).p
      = packP (s.flag .n) (s.flag .v) b (s.flag .d) (s.flag .i) (s.flag .z) (s.flag .c) := by
    rw [setFlag_p_eq]; simp [pushWord_eq, State.flag]
  unfold State.takeVector
  simp only [memRead16_vector _ h h']
  simp only [push_eq, hp]
  simp [pushWord_eq, State.setFlag, State.setP, h3]
  rw [forceBit5_eq_packP]
  simp

/-- Returning from an exception, whole (R304). -/
theorem returnFromInterrupt_eq (s : State) :
    s.returnFromInterrupt
      = { s with
          sp := s.sp + 3
          p := forceBit5 (s.mem.read (0x100 + (s.sp + 1).toNat))
          pc := wordOf (s.mem.read (0x100 + (s.sp + 3).toNat))
            (s.mem.read (0x100 + (s.sp + 2).toNat)) } := by
  have h2 : s.sp + 1#8 + 1#8 = s.sp + 2#8 := by rw [BitVec.add_assoc]; rfl
  have h3 : s.sp + 1#8 + 2#8 = s.sp + 3#8 := by rw [BitVec.add_assoc]; rfl
  simp [State.returnFromInterrupt, pull_eq, pullWord_eq, State.setP, h2, h3]

/-! ### Jumps and branches -/

/-- The second byte of an indirect jump's pointer, as a number (R142). -/
theorem samePageNext_eq (ptr : Word) :
    samePageNext ptr = BitVec.ofNat 16 (ptr.toNat / 256 * 256 + (ptr.toNat + 1) % 256) := by
  apply BitVec.eq_of_toNat_eq
  have h : samePageNext ptr = wordOf (hiByte ptr) (loByte (ptr + 1)) := by
    show (ptr &&& 0xFF00#16) ||| ((ptr + 1) &&& 0x00FF#16) = _
    rw [and_ff00, and_00ff]
    generalize hiByte ptr = a
    generalize loByte (ptr + 1) = b
    apply BitVec.eq_of_getLsbD_eq
    intro j hj
    simp only [wordOf, BitVec.getLsbD_or, BitVec.getLsbD_append]
    split <;> simp
  rw [h, wordOf_toNat, hiByte_toNat, loByte_toNat]
  have := ptr.isLt
  simp [BitVec.toNat_add]
  omega

/-- The target of a branch, as an integer (R145). -/
theorem branchTarget_toNat (pc0 : Word) (d : Byte) :
    ((branchTarget pc0 d).toNat : Int) = (pc0.toNat + 2 + d.toInt) % 65536 := by
  unfold branchTarget sext16
  have h1 := pc0.isLt
  have h3 : ((BitVec.signExtend 16 d).toNat : Int) = d.toInt
      ∨ ((BitVec.signExtend 16 d).toNat : Int) = d.toInt + 65536 := by
    have := BitVec.toInt_signExtend_of_le (x := d) (v := 16) (by omega)
    have h4 := BitVec.toInt_eq_toNat_cond (BitVec.signExtend 16 d)
    split at h4 <;> omega
  have h5 := BitVec.toInt_lt (x := d)
  have h6 := BitVec.le_toInt (x := d)
  simp only [BitVec.toNat_add]
  rcases h3 with h3 | h3 <;> simp <;> omega

end Sys2Proof.Machine
end

