-- ==== Sys2Proof/Laws/Acts.lean ====
section
/-! SUPPORT. What the operations of the machine can do, said once: every bus access, mapper switch,
instruction and interrupt entry is a sequence of the elementary changes below. -/

namespace Sys2Proof.Machine

/-- The elementary changes of an instruction. None touches the counters of the scheduler, the
configuration, the button words, the reset request or the halt. -/
inductive Act (s : State) : State → Prop where
  /-- CPU registers and the cost; a new P has bit 5 set. -/
  | cpu (a x y sp p : Byte) (pc : Word) (cyc : Nat) (hp : p = s.p ∨ p.getLsbD 5 = true) :
    Act s { s with a := a, x := x, y := y, sp := sp, p := p, pc := pc, cyc := cyc }
  /-- The side effects of a bus read (R87). -/
  | read (vb w : Bool) (v : Scroll) (rb : Byte) (c0 c1 : Nat) :
    Act s { s with
      ppu := { s.ppu with vblank := vb, w := w, v := v, readBuffer := rb }
      pad0 := { s.pad0 with count := c0 }
      pad1 := { s.pad1 with count := c1 } }
  /-- A byte of main memory below the ROM window. -/
  | store (n : Nat) (v : Byte) (hn : n < 0x8000) : Act s { s with mem := s.mem.write n v }
  /-- A write of a PPU register. -/
  | ppu (r : PpuReg) (d : Byte) : Act s { s with ppu := s.ppu.writeReg r d }
  /-- A byte of sprite memory. -/
  | oam (n : Nat) (v : Byte) (hn : n < 0x100) :
    Act s { s with ppu := { s.ppu with oam := s.ppu.oam.write n v } }
  /-- The strobe (R420). -/
  | strobe : Act s s.strobe
  /-- An output. -/
  | event (e : Event) : Act s { s with events := s.events ++ [e] }
  /-- A PRG copy into the ROM window (R504). -/
  | prg (dst size b : Nat) (lo : 0x8000 ≤ dst) (hi : dst + size ≤ 0x10000) :
    Act s (s.copyPrg dst size b)
  /-- A CHR copy into the pattern tables (R504). -/
  | chr (dst size b : Nat) (hi : dst + size ≤ 0x2000) : Act s (s.copyChr dst size b)
  /-- The mirroring. -/
  | mirror (m : Mirroring) : Act s { s with ppu := { s.ppu with mirroring := m } }
  /-- The mapper's registers, of the variant it is. -/
  | regs (m : Mapper) (hm : s.MapperOk → State.MapperOk { s with mapper := m }) :
    Act s { s with mapper := m }
  /-- The SRAM switches. -/
  | sram (e r : Bool) : Act s { s with sramEnabled := e, sramReadonly := r }
  /-- A pending IRQ dropped. -/
  | ack : Act s { s with irqPending := false }

/-- A sequence of elementary changes. -/
inductive Acts (s : State) : State → Prop where
  | refl : Acts s s
  | tail {t u : State} (h : Acts s t) (h' : Act t u) : Acts s u

theorem Act.one {s t : State} (h : Act s t) : Acts s t := Acts.refl.tail h

theorem Acts.trans {s t u : State} (h : Acts s t) (h' : Acts t u) : Acts s u := by
  induction h' with
  | refl => exact h
  | tail _ h ih => exact ih.tail h

/-! ### What every sequence keeps -/

/-- What no elementary change touches. -/
theorem Act.keeps {s t : State} (h : Act s t) :
    t.cyclesTotal = s.cyclesTotal ∧ t.buttons0 = s.buttons0 ∧ t.buttons1 = s.buttons1
      ∧ t.cart = s.cart ∧ t.cfg = s.cfg ∧ t.resetPending = s.resetPending ∧ t.halted = s.halted
      ∧ t.ppu.line = s.ppu.line ∧ t.ppu.budget = s.ppu.budget ∧ t.ppu.frame = s.ppu.frame
      ∧ t.ppu.cyclesSinceVblank = s.ppu.cyclesSinceVblank := by
  cases h
  case ppu r d =>
    cases r <;> simp [Ppu.writeReg, Ppu.writeControl, Ppu.writeOamData, Ppu.writeScroll,
      Ppu.writeAddress, Ppu.writeData, Ppu.advanceV, Ppu.vramWrite] <;> split <;> simp
  case chr dst size b hi =>
    simp [State.copyChr]
    split <;> simp
  all_goals exact ⟨rfl, rfl, rfl, rfl, rfl, rfl, rfl, rfl, rfl, rfl, rfl⟩

theorem Acts.keeps {s t : State} (h : Acts s t) :
    t.cyclesTotal = s.cyclesTotal ∧ t.buttons0 = s.buttons0 ∧ t.buttons1 = s.buttons1
      ∧ t.cart = s.cart ∧ t.cfg = s.cfg ∧ t.resetPending = s.resetPending ∧ t.halted = s.halted
      ∧ t.ppu.line = s.ppu.line ∧ t.ppu.budget = s.ppu.budget ∧ t.ppu.frame = s.ppu.frame
      ∧ t.ppu.cyclesSinceVblank = s.ppu.cyclesSinceVblank := by
  induction h with
  | refl => exact ⟨rfl, rfl, rfl, rfl, rfl, rfl, rfl, rfl, rfl, rfl, rfl⟩
  | tail _ h ih =>
    obtain ⟨h1, h2, h3, h4, h5, h6, h7, h8, h9, h10, h11⟩ := h.keeps
    rw [h1, h2, h3, h4, h5, h6, h7, h8, h9, h10, h11]
    exact ih

/-- A pending IRQ can only be dropped. -/
theorem Acts.pending {s t : State} (h : Acts s t) (hp : s.irqPending = false) :
    t.irqPending = false := by
  induction h with
  | refl => exact hp
  | tail _ h ih =>
    cases h <;> try exact ih
    case chr => simp [ih]
    case ack => rfl

theorem Acts.bit5 {s t : State} (h : Acts s t) (hp : s.bit5Set) : t.bit5Set := by
  induction h with
  | refl => exact hp
  | tail _ h ih =>
    cases h <;> try exact ih
    case chr => simpa [State.bit5Set] using ih
    case cpu hp =>
      rcases hp with hp | hp
      · show _ = true
        rw [show _ = _ from congrArg (fun p : Byte => p.getLsbD 5) hp]
        exact ih
      · exact hp

theorem Acts.mapperOk {s t : State} (h : Acts s t) (hm : s.MapperOk) : t.MapperOk := by
  induction h with
  | refl => exact hm
  | tail _ h ih =>
    cases h <;> try exact ih
    case chr => simpa [State.MapperOk] using ih
    case regs hr => exact hr ih

/-- Video memory as a fold leaves it. -/
theorem vnorm_lt (m : Mirroring) (a : VAddr) : vnorm m a < 0x4000 := by
  have ha := a.isLt
  have hp : palettePage a.toNat < 0x20 := by
    unfold palettePage
    simp only []
    split <;> omega
  have ht : physicalTable m (a.toNat % 0x1000 / 0x400) < 4 := by
    unfold physicalTable
    split <;> omega
  unfold vnorm
  simp only []
  split
  · omega
  · split <;> omega

theorem writeReg_vram (p : Ppu) (r : PpuReg) (d : Byte) :
    (p.writeReg r d).vram = p.vram
      ∨ (p.writeReg r d).vram = (p.vramWrite p.dataAddress d).vram := by
  cases r <;> simp [Ppu.writeReg, Ppu.writeControl, Ppu.writeOamData, Ppu.writeScroll,
      Ppu.writeAddress, Ppu.writeData, Ppu.advanceV] <;> split <;> simp

theorem writeReg_oam (p : Ppu) (r : PpuReg) (d : Byte) :
    (p.writeReg r d).oam = p.oam
      ∨ (p.writeReg r d).oam = p.oam.write p.oamAddr.toNat d := by
  cases r <;> simp [Ppu.writeReg, Ppu.writeControl, Ppu.writeOamData, Ppu.writeScroll,
      Ppu.writeAddress, Ppu.writeData, Ppu.advanceV, Ppu.vramWrite] <;> split <;> simp

theorem Act.memoriesOk {s t : State} (h : Act s t) (hm : s.MemoriesOk) : t.MemoriesOk := by
  obtain ⟨h1, h2, h3, h4, h5, h6, h7, h8⟩ := hm
  cases h
  case store n v hn =>
    exact ⟨wf_write h1 _ _, inside_write h2 (by omega) _, h3, h4, h5, h6, h7, h8⟩
  case oam n v hn =>
    exact ⟨h1, h2, h3, h4, wf_write h5 _ _, inside_write h6 hn _, h7, h8⟩
  case prg dst size b lo hi =>
    exact ⟨wf_copy h1 h7 _ _ _, inside_copy h2 hi _, h3, h4, h5, h6, h7, h8⟩
  case chr dst size b hi =>
    unfold State.copyChr
    split
    · exact ⟨h1, h2, h3, h4, h5, h6, h7, h8⟩
    · exact ⟨h1, h2, wf_copy h3 h8 _ _ _, inside_copy h4 (by omega) _, h5, h6, h7, h8⟩
  case ppu r d =>
    have hv : Memory.wf (s.ppu.writeReg r d).vram ∧ Memory.inside (s.ppu.writeReg r d).vram 0x4000 := by
      rcases writeReg_vram s.ppu r d with h | h <;> rw [h]
      · exact ⟨h3, h4⟩
      · exact ⟨wf_write h3 _ _, inside_write h4 (vnorm_lt _ _) _⟩
    have ho : Memory.wf (s.ppu.writeReg r d).oam ∧ Memory.inside (s.ppu.writeReg r d).oam 0x100 := by
      rcases writeReg_oam s.ppu r d with h | h <;> rw [h]
      · exact ⟨h5, h6⟩
      · exact ⟨wf_write h5 _ _, inside_write h6 s.ppu.oamAddr.isLt _⟩
    exact ⟨h1, h2, hv.1, hv.2, ho.1, ho.2, h7, h8⟩
  all_goals exact ⟨h1, h2, h3, h4, h5, h6, h7, h8⟩

theorem Acts.memoriesOk {s t : State} (h : Acts s t) (hm : s.MemoriesOk) : t.MemoriesOk := by
  induction h with
  | refl => exact hm
  | tail _ h ih => exact h.memoriesOk ih

theorem and_3f_lt (d : Byte) : (d &&& 0x3F).toNat < 64 := by
  have : (d &&& 0x3F#8).toNat ≤ 63 := by
    rw [BitVec.toNat_and]
    exact Nat.and_le_right
  exact Nat.lt_succ_of_le this

theorem Act.paletteOk {s t : State} (h : Act s t) (hm : s.MemoriesOk) (hp : s.PaletteOk) :
    t.PaletteOk := by
  cases h
  case chr dst size b hi =>
    unfold State.copyChr
    split
    · exact hp
    · intro a ha
      show (Memory.read (s.ppu.vram.copy s.cart.chr dst size _) a).toNat < 64
      rw [read_copy, if_neg (by omega)]
      exact hp a ha
  case ppu r d =>
    intro a ha
    show (Memory.read (s.ppu.writeReg r d).vram a).toNat < 64
    rcases writeReg_vram s.ppu r d with h | h <;> rw [h]
    · exact hp a ha
    · show (Memory.read (s.ppu.vram.write _ _) a).toNat < 64
      rw [read_write hm.vram]
      split
      · rename_i hk
        rw [hk, if_pos ha]
        exact and_3f_lt d
      · exact hp a ha
  all_goals exact hp

theorem Acts.paletteOk {s t : State} (h : Acts s t) (hm : s.MemoriesOk) (hp : s.PaletteOk) :
    t.PaletteOk := by
  induction h with
  | refl => exact hp
  | tail h' h ih => exact h.paletteOk (Acts.memoriesOk h' hm) ih

/-! ### The operations as sequences -/

theorem acts_memRead (s : State) (a : Word) : Acts s (s.memRead a).2 := by
  obtain ⟨vb, w, v, rb, c0, c1, h⟩ := memRead_frame s a
  rw [h]
  exact (Act.read vb w v rb c0 c1).one

theorem acts_copyPrg {s t : State} (h : Acts s t) (dst size b : Nat) (lo : 0x8000 ≤ dst)
    (hi : dst + size ≤ 0x10000) : Acts s (t.copyPrg dst size b) :=
  h.tail (.prg dst size b lo hi)

theorem acts_copyChr {s t : State} (h : Acts s t) (dst size b : Nat) (hi : dst + size ≤ 0x2000) :
    Acts s (t.copyChr dst size b) :=
  h.tail (.chr dst size b hi)

theorem acts_mmc1Prg {s t : State} (h : Acts s t) (r : Mmc1) : Acts s (t.mmc1Prg r) := by
  unfold State.mmc1Prg
  simp only []
  split <;> exact acts_copyPrg (acts_copyPrg h _ _ _ (by omega) (by omega)) _ _ _ (by omega) (by omega)

theorem acts_mmc1Chr {s t : State} (h : Acts s t) (r : Mmc1) : Acts s (t.mmc1Chr r) := by
  unfold State.mmc1Chr
  split
  · exact acts_copyChr (acts_copyChr h _ _ _ (by omega)) _ _ _ (by omega)
  · exact acts_copyChr h _ _ _ (by omega)

theorem acts_mmc3Prg {s t : State} (h : Acts s t) (r : Mmc3) : Acts s (t.mmc3Prg r) := by
  unfold State.mmc3Prg
  simp only []
  split <;>
  exact acts_copyPrg (acts_copyPrg (acts_copyPrg (acts_copyPrg h _ _ _ (by omega) (by omega)) _ _ _
    (by omega) (by omega)) _ _ _ (by omega) (by omega)) _ _ _ (by omega) (by omega)

theorem acts_mmc3Chr {s t : State} (h : Acts s t) (r : Mmc3) : Acts s (t.mmc3Chr r) := by
  unfold State.mmc3Chr
  simp only []
  split
  all_goals
    iterate 8 refine acts_copyChr ?_ _ _ _ (by decide)
    exact h

theorem acts_forceMirroring {s t : State} (h : Acts s t) (m : Mirroring) :
    Acts s (t.forceMirroring m) := by
  unfold State.forceMirroring
  split
  · exact h
  · exact h.tail (.mirror m)

theorem acts_fixedLayout {s t : State} (h : Acts s t) : Acts s t.fixedLayout :=
  acts_copyChr (acts_copyPrg (acts_copyPrg h _ _ _ (by omega) (by omega)) _ _ _ (by omega) (by omega))
    _ _ _ (by omega)

theorem acts_mmc3Write {s : State} {r : Mmc3} (hr : s.mapper = .mmc3 r) (n : Word) (d : Byte) :
    Acts s (s.mmc3Write r n d) := by
  have hm : ∀ r' : Mmc3, s.MapperOk → State.MapperOk { s with mapper := .mmc3 r' } := by
    intro r' h
    unfold State.MapperOk at *
    rw [hr] at h
    exact h
  unfold State.mmc3Write
  split
  · exact acts_mmc3Chr (acts_mmc3Prg (Act.one (.regs _ (hm _))) _) _
  · exact acts_mmc3Chr (acts_mmc3Prg (Act.one (.regs _ (hm _))) _) _
  · exact acts_forceMirroring .refl _
  · exact (Act.sram _ _).one
  · exact Act.one (.regs _ (hm _))
  · exact Act.one (.regs _ (hm _))
  · exact (Act.one (.regs _ (hm { r with irqEnabled := false }))).tail .ack
  · exact Act.one (.regs _ (hm _))

theorem acts_switchBanks (s : State) (n : Word) (d : Byte) : Acts s (s.switchBanks n d) := by
  unfold State.switchBanks
  split
  · exact .refl
  · exact .refl
  · exact acts_copyPrg .refl _ _ _ (by omega) (by omega)
  · exact acts_copyChr .refl _ _ _ (by omega)
  · exact acts_mmc1Chr (acts_mmc1Prg (acts_forceMirroring .refl _) _) _
  · rename_i r hr
    exact acts_mmc3Write hr n d

theorem shiftIn_count {r : Mmc1} (h : r.shiftCount ≤ 4) (g : Bool) (n : Word) (d : Byte) :
    (r.shiftIn g n d).1.shiftCount ≤ 4 := by
  unfold Mmc1.shiftIn
  split
  · simp only []
    split <;> simp
  · simp only []
    split
    · simp
    · simp only []
      omega

theorem checkAddress_ok (s : State) (n : Word) (d : Byte) (h : s.MapperOk) :
    State.MapperOk { s with mapper := (s.mapper.checkAddress s.cfg n d).1 } := by
  unfold State.MapperOk at *
  simp only []
  generalize s.mapper = m at *
  unfold Mapper.checkAddress
  by_cases hn : n.toNat < 0x8000
  · rw [if_pos hn]
    exact h
  · rw [if_neg hn]
    cases m
    case mmc1 r => exact ⟨h.1, shiftIn_count h.2 _ _ _⟩
    all_goals exact h

theorem acts_intercept (s : State) (n : Word) (d : Byte) : Acts s (s.intercept n d) := by
  unfold State.intercept
  simp only []
  have h : Acts s { s with mapper := (s.mapper.checkAddress s.cfg n d).1 } :=
    Act.one (.regs _ (checkAddress_ok s n d))
  split
  · exact h.trans (acts_switchBanks _ _ _)
  · exact h

theorem acts_mapperReset (s : State) : Acts s s.mapperReset := by
  unfold State.mapperReset
  simp only []
  have h : Acts s { s with
      sramEnabled := true, sramReadonly := false
      ppu := { s.ppu with mirroring := seedMirroring s.cart } } :=
    ((Act.sram true false).one).tail (.mirror (seedMirroring s.cart))
  split
  · exact acts_fixedLayout h
  · rename_i hm
    refine acts_fixedLayout (h.tail (.regs _ ?_))
    unfold State.MapperOk
    simp [hm]
  · rename_i hm
    refine acts_fixedLayout (h.tail (.regs _ ?_))
    unfold State.MapperOk
    simp [hm]
  · rename_i hm
    refine acts_mmc1Chr (acts_mmc1Prg (h.tail (.regs _ ?_)) _) _
    unfold State.MapperOk
    simp [hm, initMmc1]
    exact fun h _ => h
  · rename_i hm
    refine acts_mmc3Chr (acts_mmc3Prg (h.tail (.regs _ ?_)) _) _
    unfold State.MapperOk
    simp [hm]
  · exact h

theorem acts_dmaLoop (k : Nat) (i : Byte) (w : Word) (s : State) : Acts s (dmaLoop k i w s) := by
  induction k generalizing i w s with
  | zero => exact .refl
  | succ k ih =>
    exact ((acts_memRead s w).tail (.oam _ _ (BitVec.isLt _))).trans (ih _ _ _)

theorem Acts.cpu {s t : State} (h : Acts s t) (a x y sp p : Byte) (pc : Word) (cyc : Nat)
    (hp : p = t.p ∨ p.getLsbD 5 = true) :
    Acts s { t with a := a, x := x, y := y, sp := sp, p := p, pc := pc, cyc := cyc } :=
  h.tail (.cpu a x y sp p pc cyc hp)

theorem region_bounds (n : Word) :
    (region n = .ram → n.toNat < 0x8000) ∧ (region n = .storage → n.toNat < 0x8000)
      ∧ (region n = .sram → n.toNat < 0x8000) := by
  unfold region
  refine ⟨?_, ?_, ?_⟩ <;> repeat' split
  all_goals intro h
  all_goals first | omega | simp at h

theorem acts_primaryWrite (s : State) (n : Word) (v : Byte) : Acts s (s.primaryWrite n v) := by
  obtain ⟨h1, h2, h3⟩ := region_bounds n
  unfold State.primaryWrite
  split
  · rename_i h
    exact (Act.store _ _ (h1 h)).one
  · rename_i h
    exact (Act.store _ _ (h2 h)).one
  · exact (Act.ppu _ _).one
  · exact (Act.event _).one
  · exact (Act.event _).one
  · exact (acts_dmaLoop 256 0 (wordOf v 0) s).cpu _ _ _ _ _ _ _ (.inl rfl)
  · exact Act.strobe.one
  · rename_i h
    split
    · exact (Act.store _ _ (h3 h)).one
    · exact .refl
  · exact .refl

/-- A bus write. -/
theorem acts_memWrite (s : State) (a : Word) (v : Byte) : Acts s (s.memWrite a v) :=
  (acts_primaryWrite s _ _).trans (acts_intercept _ _ _)

theorem acts_push (s : State) (v : Byte) : Acts s (s.push v) :=
  (acts_memWrite s _ v).cpu _ _ _ _ _ _ _ (.inl rfl)

theorem acts_pull (s : State) : Acts s s.pull.2 :=
  (Acts.cpu .refl s.a s.x s.y (s.sp + 1) s.p s.pc s.cyc (.inl rfl)).trans (acts_memRead _ _)

theorem acts_setP (s : State) (v : Byte) : Acts s (s.setP v) :=
  Acts.cpu .refl s.a s.x s.y s.sp _ s.pc s.cyc (.inr (forceBit5_bit5 v))

theorem acts_setFlag (s : State) (f : Flag) (v : Bool) : Acts s (s.setFlag f v) := acts_setP s _

theorem acts_setNZ (s : State) (v : Byte) : Acts s (s.setNZ v) :=
  (acts_setFlag s _ _).trans (acts_setFlag _ _ _)

theorem acts_compare (s : State) (r m : Byte) : Acts s (s.compare r m) :=
  (acts_setFlag s _ _).trans (acts_setNZ _ _)

theorem acts_addA (s : State) (m : Byte) : Acts s (s.addA m) :=
  (((acts_setFlag s _ _).trans (acts_setFlag _ _ _)).cpu _ _ _ _ _ _ _ (.inl rfl)).trans
    (acts_setNZ _ _)

theorem acts_subA (s : State) (m : Byte) : Acts s (s.subA m) :=
  (((acts_setFlag s _ _).trans (acts_setFlag _ _ _)).cpu _ _ _ _ _ _ _ (.inl rfl)).trans
    (acts_setNZ _ _)

theorem acts_memRead16 (s : State) (a : Word) : Acts s (s.memRead16 a).2 :=
  (acts_memRead s a).trans (acts_memRead _ _)

theorem acts_pushWord (s : State) (w : Word) : Acts s (s.pushWord w) :=
  (acts_push s _).trans (acts_push _ _)

theorem acts_pullWord (s : State) : Acts s s.pullWord.2 := by
  have h1 := acts_pull s
  have h2 := acts_pull s.pull.2
  unfold State.pullWord
  generalize s.pull = q at h1 h2 ⊢
  exact h1.trans h2

theorem acts_finish {s t : State} (h : Acts s t) (n k : Nat) : Acts s (t.finish n k) :=
  h.cpu _ _ _ _ _ _ _ (.inl rfl)

theorem acts_transfer {s t : State} (h : Acts s t) (w : Word) (k : Nat) : Acts s (t.transfer w k) :=
  h.cpu _ _ _ _ _ _ _ (.inl rfl)

/-- Taking an exception. -/
theorem acts_takeVector (s : State) (ret : Word) (b : Bool) (v : Word) :
    Acts s (s.takeVector ret b v) :=
  ((((((acts_pushWord s ret).trans (acts_setFlag _ _ _)).trans (acts_push _ _)).trans
    (acts_setFlag _ _ _)).trans (acts_memRead16 _ _))).cpu _ _ _ _ _ _ _ (.inl rfl)

theorem acts_returnFromInterrupt (s : State) : Acts s s.returnFromInterrupt :=
  (((acts_pull s).trans (acts_setP _ _)).trans (acts_pullWord _)).cpu _ _ _ _ _ _ _ (.inl rfl)

theorem acts_readAddr (s : State) (a : Addr) : Acts s (s.readAddr a).s := by
  rw [readAddr_eq]
  exact acts_memRead s _

theorem acts_readSrc (s : State) (o : Src) : Acts s (s.readSrc o).s := by
  cases o
  · exact .refl
  · exact acts_readAddr s _

theorem acts_jumpTarget (s : State) (t : JmpTarget) : Acts s (s.jumpTarget t).2 := by
  cases t
  · exact .refl
  · exact (acts_memRead s _).trans (acts_memRead _ _)

theorem acts_branch (s : State) (c : Bool) (d : Byte) : Acts s (s.branch c d) := by
  unfold State.branch
  simp only []
  split <;> exact acts_transfer .refl _ _

theorem acts_resolve (s : State) (a : Addr) : Acts s (s.resolve a).s := by
  rw [resolve_s]
  exact .refl

theorem acts_load (s : State) (o : Src) (put : State → Byte → State)
    (hput : ∀ (t : State) (v : Byte), Acts t (put t v)) : Acts s (s.load o put) :=
  acts_finish (((acts_readSrc s o).trans (hput _ _)).trans (acts_setNZ _ _)) _ _

theorem acts_storeReg (s : State) (a : Addr) (v : Byte) : Acts s (s.storeReg a v) :=
  acts_finish ((acts_resolve s a).trans (acts_memWrite _ _ _)) _ _

theorem acts_logic (s : State) (o : Src) (f : Byte → Byte → Byte) : Acts s (s.logic o f) :=
  acts_finish (((acts_readSrc s o).cpu _ _ _ _ _ _ _ (.inl rfl)).trans (acts_setNZ _ _)) _ _

theorem acts_compareReg (s : State) (o : Src) (r : Byte) : Acts s (s.compareReg o r) :=
  acts_finish ((acts_readSrc s o).trans (acts_compare _ _ _)) _ _

theorem acts_stepMemory (s : State) (a : Addr) (d : Byte) : Acts s (s.stepMemory a d) :=
  acts_finish (((acts_readAddr s a).trans (acts_setNZ _ _)).trans (acts_memWrite _ _ _)) _ _

theorem acts_shift (s : State) (k : Shift) (o : Dst) : Acts s (s.shift k o) := by
  cases o
  · exact acts_finish (((acts_setFlag s _ _).trans (acts_setNZ _ _)).cpu _ _ _ _ _ _ _ (.inl rfl)) _ _
  · exact acts_finish ((((acts_readAddr s _).trans (acts_setFlag _ _ _)).trans
      (acts_setNZ _ _)).trans (acts_memWrite _ _ _)) _ _

theorem acts_shiftThenLogic (s : State) (k : Shift) (a : Addr) (f : Byte → Byte → Byte) :
    Acts s (s.shiftThenLogic k a f) :=
  acts_finish (((((acts_readAddr s a).trans (acts_setFlag _ _ _)).trans
    (acts_memWrite _ _ _)).cpu _ _ _ _ _ _ _ (.inl rfl)).trans (acts_setNZ _ _)) _ _

theorem Acts.setRegs {s t : State} (h : Acts s t) (a x y sp : Byte) :
    Acts s { t with a := a, x := x, y := y, sp := sp } :=
  h.cpu a x y sp t.p t.pc t.cyc (.inl rfl)

/-- Every instruction but the ones without semantics is a sequence of elementary changes. -/
theorem acts_exec (i : Instr) (s : State) (h : ∀ op, i ≠ .unimpl op) :
    ∃ t, exec i s = .next t ∧ Acts s t := by
  cases i
  case lda o => exact ⟨_, rfl, acts_load s o _ fun t v => Acts.setRegs .refl v t.x t.y t.sp⟩
  case ldx o => exact ⟨_, rfl, acts_load s o _ fun t v => Acts.setRegs .refl t.a v t.y t.sp⟩
  case ldy o => exact ⟨_, rfl, acts_load s o _ fun t v => Acts.setRegs .refl t.a t.x v t.sp⟩
  case sta a => exact ⟨_, rfl, acts_storeReg s a _⟩
  case stx a => exact ⟨_, rfl, acts_storeReg s a _⟩
  case sty a => exact ⟨_, rfl, acts_storeReg s a _⟩
  case tax => exact ⟨_, rfl, acts_finish ((Acts.setRegs .refl s.a s.a s.y s.sp).trans (acts_setNZ _ _)) 1 2⟩
  case tay => exact ⟨_, rfl, acts_finish ((Acts.setRegs .refl s.a s.x s.a s.sp).trans (acts_setNZ _ _)) 1 2⟩
  case txa => exact ⟨_, rfl, acts_finish ((Acts.setRegs .refl s.x s.x s.y s.sp).trans (acts_setNZ _ _)) 1 2⟩
  case tya => exact ⟨_, rfl, acts_finish ((Acts.setRegs .refl s.y s.x s.y s.sp).trans (acts_setNZ _ _)) 1 2⟩
  case tsx => exact ⟨_, rfl, acts_finish ((Acts.setRegs .refl s.a s.sp s.y s.sp).trans (acts_setNZ _ _)) 1 2⟩
  case txs => exact ⟨_, rfl, acts_finish (Acts.setRegs .refl s.a s.x s.y s.x) 1 2⟩
  case pha => exact ⟨_, rfl, acts_finish (acts_push s _) 1 3⟩
  case php => exact ⟨_, rfl, acts_finish (acts_push s _) 1 3⟩
  case pla =>
    exact ⟨_, rfl, acts_finish (((acts_pull s).setRegs _ _ _ _).trans (acts_setNZ _ _)) 1 4⟩
  case plp => exact ⟨_, rfl, acts_finish ((acts_pull s).trans (acts_setP _ _)) 1 4⟩
  case adc o => exact ⟨_, rfl, acts_finish ((acts_readSrc s o).trans (acts_addA _ _)) _ _⟩
  case sbc o => exact ⟨_, rfl, acts_finish ((acts_readSrc s o).trans (acts_subA _ _)) _ _⟩
  case and o => exact ⟨_, rfl, acts_logic s o _⟩
  case ora o => exact ⟨_, rfl, acts_logic s o _⟩
  case eor o => exact ⟨_, rfl, acts_logic s o _⟩
  case cmp o => exact ⟨_, rfl, acts_compareReg s o _⟩
  case cpx o => exact ⟨_, rfl, acts_compareReg s o _⟩
  case cpy o => exact ⟨_, rfl, acts_compareReg s o _⟩
  case bit a =>
    exact ⟨_, rfl, acts_finish ((((acts_readAddr s a).trans (acts_setFlag _ _ _)).trans
      (acts_setFlag _ _ _)).trans (acts_setFlag _ _ _)) _ _⟩
  case inc a => exact ⟨_, rfl, acts_stepMemory s a _⟩
  case dec a => exact ⟨_, rfl, acts_stepMemory s a _⟩
  case inx => exact ⟨_, rfl, acts_finish ((Acts.setRegs .refl s.a _ s.y s.sp).trans (acts_setNZ _ _)) 1 2⟩
  case iny => exact ⟨_, rfl, acts_finish ((Acts.setRegs .refl s.a s.x _ s.sp).trans (acts_setNZ _ _)) 1 2⟩
  case dex => exact ⟨_, rfl, acts_finish ((Acts.setRegs .refl s.a _ s.y s.sp).trans (acts_setNZ _ _)) 1 2⟩
  case dey => exact ⟨_, rfl, acts_finish ((Acts.setRegs .refl s.a s.x _ s.sp).trans (acts_setNZ _ _)) 1 2⟩
  case asl o => exact ⟨_, rfl, acts_shift s _ o⟩
  case lsr o => exact ⟨_, rfl, acts_shift s _ o⟩
  case rol o => exact ⟨_, rfl, acts_shift s _ o⟩
  case ror o => exact ⟨_, rfl, acts_shift s _ o⟩
  case jmp t => exact ⟨_, rfl, acts_transfer (acts_jumpTarget s t) _ _⟩
  case jsr w => exact ⟨_, rfl, acts_transfer (acts_pushWord s _) _ _⟩
  case rts => exact ⟨_, rfl, acts_transfer (acts_pullWord s) _ _⟩
  case rti => exact ⟨_, rfl, acts_transfer (acts_returnFromInterrupt s) _ _⟩
  case brk => exact ⟨_, rfl, acts_transfer (acts_takeVector s _ _ _) _ _⟩
  case bcc d => exact ⟨_, rfl, acts_branch s _ d⟩
  case bcs d => exact ⟨_, rfl, acts_branch s _ d⟩
  case beq d => exact ⟨_, rfl, acts_branch s _ d⟩
  case bne d => exact ⟨_, rfl, acts_branch s _ d⟩
  case bmi d => exact ⟨_, rfl, acts_branch s _ d⟩
  case bpl d => exact ⟨_, rfl, acts_branch s _ d⟩
  case bvc d => exact ⟨_, rfl, acts_branch s _ d⟩
  case bvs d => exact ⟨_, rfl, acts_branch s _ d⟩
  case clc => exact ⟨_, rfl, acts_finish (acts_setFlag s _ _) 1 2⟩
  case sec => exact ⟨_, rfl, acts_finish (acts_setFlag s _ _) 1 2⟩
  case cli => exact ⟨_, rfl, acts_finish (acts_setFlag s _ _) 1 2⟩
  case sei => exact ⟨_, rfl, acts_finish (acts_setFlag s _ _) 1 2⟩
  case clv => exact ⟨_, rfl, acts_finish (acts_setFlag s _ _) 1 2⟩
  case cld => exact ⟨_, rfl, acts_finish (acts_setFlag s _ _) 1 2⟩
  case sed => exact ⟨_, rfl, acts_finish (acts_setFlag s _ _) 1 2⟩
  case nop => exact ⟨_, rfl, acts_finish .refl 1 2⟩
  case slo a => exact ⟨_, rfl, acts_shiftThenLogic s _ a _⟩
  case rla a => exact ⟨_, rfl, acts_shiftThenLogic s _ a _⟩
  case sre a => exact ⟨_, rfl, acts_shiftThenLogic s _ a _⟩
  case rra a =>
    exact ⟨_, rfl, acts_finish ((((acts_readAddr s a).trans (acts_setFlag _ _ _)).trans
      (acts_memWrite _ _ _)).trans (acts_addA _ _)) _ _⟩
  case dcp a =>
    exact ⟨_, rfl, acts_finish (((acts_readAddr s a).trans (acts_memWrite _ _ _)).trans
      (acts_compare _ _ _)) _ _⟩
  case isc a =>
    exact ⟨_, rfl, acts_finish (((acts_readAddr s a).trans (acts_memWrite _ _ _)).trans
      (acts_subA _ _)) _ _⟩
  case sax a =>
    exact ⟨_, rfl, acts_finish ((acts_resolve s a).trans (acts_memWrite _ _ _)) _ _⟩
  case lax a =>
    exact ⟨_, rfl, acts_finish (((acts_readAddr s a).setRegs _ _ _ _).trans (acts_setNZ _ _)) _ _⟩
  case anc op b =>
    exact ⟨_, rfl, acts_finish (((Acts.setRegs .refl _ s.x s.y s.sp).trans (acts_setNZ _ _)).trans
      (acts_setFlag _ _ _)) 2 2⟩
  case alr b =>
    exact ⟨_, rfl, acts_finish (((acts_setFlag s _ _).setRegs _ _ _ _).trans (acts_setNZ _ _)) 2 2⟩
  case arr b =>
    exact ⟨_, rfl, acts_finish ((((Acts.setRegs .refl _ s.x s.y s.sp).trans (acts_setNZ _ _)).trans
      (acts_setFlag _ _ _)).trans (acts_setFlag _ _ _)) 2 2⟩
  case axs b =>
    exact ⟨_, rfl, acts_finish (((acts_setFlag s _ _).setRegs _ _ _ _).trans (acts_setNZ _ _)) 2 2⟩
  case sbcAlt b => exact ⟨_, rfl, acts_finish (acts_subA s _) 2 2⟩
  case nopAlt op => exact ⟨_, rfl, acts_finish .refl 1 2⟩
  case dop op o => exact ⟨_, rfl, acts_finish (acts_readSrc s o) _ _⟩
  case top op a => exact ⟨_, rfl, acts_finish (acts_readAddr s a) _ _⟩
  case unimpl op => exact absurd rfl (h op)

/-- The fetch. -/
theorem acts_fetch (s : State) : Acts s s.fetch.2 := by
  unfold State.fetch
  simp only []
  split
  · exact acts_memRead s _
  · exact (acts_memRead s _).trans (acts_memRead _ _)
  · exact ((acts_memRead s _).trans (acts_memRead _ _)).trans (acts_memRead _ _)

/-- The RESET event. It takes the reset request away; the rest is a sequence. -/
theorem acts_resetEvent (s : State) :
    Acts { s with resetPending := false } s.resetEvent := by
  have h : Acts { s with resetPending := false }
      (State.setP { s with
        a := s.cfg.resetA, x := s.cfg.resetX, y := s.cfg.resetY, sp := s.cfg.resetS
        irqPending := false, resetPending := false } s.cfg.resetP) :=
    (((Act.ack).one).cpu _ _ _ _ _ _ _ (.inl rfl)).trans (acts_setP _ _)
  exact ((h.trans (acts_mapperReset _)).trans (acts_memRead16 _ _)).cpu _ _ _ _ _ _ _ (.inl rfl)

end Sys2Proof.Machine
end

