-- ==== Sys2Proof/Laws/Banks.lean ====
section
/-! SUPPORT. What a bank switch leaves alone: main memory below the ROM window, video memory from 0x2000
on, and of the PPU everything but video memory and the mirroring. -/

namespace Sys2Proof.Machine

/-- What differs between `s` and `t` in the memories and the PPU is the ROM window, the pattern tables and
the mirroring. -/
structure BanksOnly (s t : State) : Prop where
  mem : ∀ n, n < 0x8000 → t.mem.read n = s.mem.read n
  vram : ∀ n, 0x2000 ≤ n → t.ppu.vram.read n = s.ppu.vram.read n
  chrRam : s.cart.chrCount = 0 → t.ppu.vram = s.ppu.vram
  ppu : t.ppu = { s.ppu with vram := t.ppu.vram, mirroring := t.ppu.mirroring }
  cart : t.cart = s.cart

theorem BanksOnly.refl (s : State) : BanksOnly s s :=
  ⟨fun _ _ => rfl, fun _ _ => rfl, fun _ => rfl, rfl, rfl⟩

theorem BanksOnly.trans {s t u : State} (h : BanksOnly s t) (h' : BanksOnly t u) : BanksOnly s u := by
  refine ⟨fun n hn => (h'.mem n hn).trans (h.mem n hn), fun n hn => (h'.vram n hn).trans (h.vram n hn),
    fun hc => (h'.chrRam (h.cart ▸ hc)).trans (h.chrRam hc), ?_, h'.cart.trans h.cart⟩
  rw [h'.ppu, h.ppu]

theorem banks_copyPrg (s : State) (dst size b : Nat) (h : 0x8000 ≤ dst) :
    BanksOnly s (s.copyPrg dst size b) := by
  refine ⟨fun n hn => ?_, fun _ _ => rfl, fun _ => rfl, rfl, rfl⟩
  show Memory.read (s.mem.copy _ _ _ _) n = _
  rw [read_copy, if_neg (by omega)]

theorem banks_copyChr (s : State) (dst size b : Nat) (h : dst + size ≤ 0x2000) :
    BanksOnly s (s.copyChr dst size b) := by
  unfold State.copyChr
  split
  · exact .refl s
  · refine ⟨fun _ _ => rfl, fun n hn => ?_, fun hc => absurd hc (by assumption), rfl, rfl⟩
    show Memory.read (s.ppu.vram.copy _ _ _ _) n = _
    rw [read_copy, if_neg (by omega)]

theorem banks_forceMirroring (s : State) (m : Mirroring) : BanksOnly s (s.forceMirroring m) := by
  unfold State.forceMirroring
  split
  · exact .refl s
  · exact ⟨fun _ _ => rfl, fun _ _ => rfl, fun _ => rfl, rfl, rfl⟩

/-- A change of anything but the memories, the PPU and the cartridge. -/
theorem banks_of_eq {s t : State} (hm : t.mem = s.mem) (hp : t.ppu = s.ppu) (hc : t.cart = s.cart) :
    BanksOnly s t :=
  ⟨fun _ _ => by rw [hm], fun _ _ => by rw [hp], fun _ => by rw [hp], by rw [hp], hc⟩

theorem BanksOnly.copyPrg {s t : State} (h : BanksOnly s t) (dst size b : Nat) (hd : 0x8000 ≤ dst) :
    BanksOnly s (t.copyPrg dst size b) := h.trans (banks_copyPrg t dst size b hd)

theorem BanksOnly.copyChr {s t : State} (h : BanksOnly s t) (dst size b : Nat)
    (hd : dst + size ≤ 0x2000) : BanksOnly s (t.copyChr dst size b) :=
  h.trans (banks_copyChr t dst size b hd)

theorem BanksOnly.withMapper {s t : State} (h : BanksOnly s t) (m : Mapper) :
    BanksOnly s { t with mapper := m } := h.trans (banks_of_eq rfl rfl rfl)

theorem BanksOnly.mmc1Prg {s t : State} (h : BanksOnly s t) (r : Mmc1) : BanksOnly s (t.mmc1Prg r) := by
  unfold State.mmc1Prg
  simp only []
  split <;> exact (h.copyPrg _ _ _ (by omega)).copyPrg _ _ _ (by omega)

theorem BanksOnly.mmc1Chr {s t : State} (h : BanksOnly s t) (r : Mmc1) : BanksOnly s (t.mmc1Chr r) := by
  unfold State.mmc1Chr
  split
  · exact (h.copyChr _ _ _ (by omega)).copyChr _ _ _ (by omega)
  · exact h.copyChr _ _ _ (by omega)

theorem BanksOnly.mmc3Prg {s t : State} (h : BanksOnly s t) (r : Mmc3) : BanksOnly s (t.mmc3Prg r) := by
  unfold State.mmc3Prg
  simp only []
  split <;>
    exact (((h.copyPrg _ _ _ (by omega)).copyPrg _ _ _ (by omega)).copyPrg _ _ _ (by omega)).copyPrg
      _ _ _ (by omega)

theorem BanksOnly.mmc3Chr {s t : State} (h : BanksOnly s t) (r : Mmc3) : BanksOnly s (t.mmc3Chr r) := by
  unfold State.mmc3Chr
  simp only []
  split
  all_goals
    iterate 8 refine BanksOnly.copyChr ?_ _ _ _ (by decide)
    exact h

theorem BanksOnly.fixedLayout {s t : State} (h : BanksOnly s t) : BanksOnly s t.fixedLayout :=
  ((h.copyPrg _ _ _ (by omega)).copyPrg _ _ _ (by omega)).copyChr _ _ _ (by omega)

theorem banks_mmc3Write (s : State) (r : Mmc3) (n : Word) (d : Byte) :
    BanksOnly s (s.mmc3Write r n d) := by
  unfold State.mmc3Write
  split
  · exact (((BanksOnly.refl s).withMapper _).mmc3Prg _).mmc3Chr _
  · exact (((BanksOnly.refl s).withMapper _).mmc3Prg _).mmc3Chr _
  · exact banks_forceMirroring _ _
  all_goals exact banks_of_eq rfl rfl rfl

theorem banks_switchBanks (s : State) (n : Word) (d : Byte) : BanksOnly s (s.switchBanks n d) := by
  unfold State.switchBanks
  split
  · exact .refl s
  · exact .refl s
  · exact banks_copyPrg _ _ _ _ (by omega)
  · exact banks_copyChr _ _ _ _ (by omega)
  · exact ((banks_forceMirroring _ _).mmc1Prg _).mmc1Chr _
  · exact banks_mmc3Write _ _ _ _

/-- The interception of a write (R502). -/
theorem banks_intercept (s : State) (n : Word) (d : Byte) : BanksOnly s (s.intercept n d) := by
  unfold State.intercept
  simp only []
  have h := (BanksOnly.refl s).withMapper (s.mapper.checkAddress s.cfg n d).1
  split
  · exact h.trans (banks_switchBanks _ _ _)
  · exact h

/-- `reset()` of the mapper, after its own mirroring seed (R506). -/
theorem banks_mapperReset (s : State) :
    BanksOnly { s with ppu := { s.ppu with mirroring := seedMirroring s.cart } } s.mapperReset := by
  unfold State.mapperReset
  simp only []
  have h : BanksOnly { s with ppu := { s.ppu with mirroring := seedMirroring s.cart } }
      { s with
        sramEnabled := true, sramReadonly := false
        ppu := { s.ppu with mirroring := seedMirroring s.cart } } := banks_of_eq rfl rfl rfl
  split
  · exact h.fixedLayout
  · exact (h.withMapper _).fixedLayout
  · exact (h.withMapper _).fixedLayout
  · exact ((h.withMapper _).mmc1Prg _).mmc1Chr _
  · exact ((h.withMapper _).mmc3Prg _).mmc3Chr _
  · exact h

/-! ### Main memory after a bus write -/

/-- A write at or above 0x8000 is the mapper's interception alone (R82, R85). -/
theorem memWrite_rom (s : State) {a : Word} (h : 0x8000 ≤ a.toNat) (v : Byte) :
    s.memWrite a v = s.intercept a v := by
  have hn : norm a = a := by
    apply BitVec.eq_of_toNat_eq
    rw [norm_toNat, if_neg (by omega), if_neg (by omega)]
  unfold State.memWrite
  rw [hn]
  unfold State.primaryWrite
  rw [region_of_rom h]

/-- A write below 0x8000 is its primary effect alone. -/
theorem memWrite_primary (s : State) {a : Word} (h : (norm a).toNat < 0x8000) (v : Byte) :
    s.memWrite a v = s.primaryWrite (norm a) v := intercept_below _ h _

/-- A write below 0x8000 changes at most the byte at the normalised address. -/
theorem memWrite_other (s : State) (hw : s.mem.wf) {a : Word} (h : (norm a).toNat < 0x8000) (v : Byte)
    {n : Nat} (hn : n ≠ (norm a).toNat) : (s.memWrite a v).mem.read n = s.mem.read n := by
  rw [memWrite_primary s h]
  unfold State.primaryWrite
  have hs : (s.store (norm a) v).mem.read n = s.mem.read n := by
    show Memory.read (s.mem.write _ _) n = _
    rw [read_write hw, if_neg (Ne.symm hn)]
  split
  · exact hs
  · exact hs
  · rfl
  · rfl
  · rfl
  · simp [State.spriteDma]
  · rfl
  · split
    · exact hs
    · rfl
  · rfl

/-- A write at or above 0x8000 changes nothing below it. -/
theorem memWrite_below (s : State) {a : Word} (h : 0x8000 ≤ (norm a).toNat) (v : Byte) {n : Nat}
    (hn : n < 0x8000) : (s.memWrite a v).mem.read n = s.mem.read n := by
  have ha : 0x8000 ≤ a.toNat := by
    rw [norm_toNat] at h
    split at h
    · omega
    · split at h <;> omega
  rw [memWrite_rom s ha]
  exact (banks_intercept s a v).mem n hn

end Sys2Proof.Machine
end

