-- ==== Sys2Proof/Laws/Commute.lean ====
section
/-! SUPPORT. The bus does not look at P: writing P before or after an access is the same. -/

namespace Sys2Proof.Machine

/-- The state with P replaced. -/
def State.withP (s : State) (p : Byte) : State := { s with p := p }

theorem memRead_withP (s : State) (p : Byte) (a : Word) :
    (s.withP p).memRead a = ((s.memRead a).1, (s.memRead a).2.withP p) := by
  unfold State.memRead
  simp only [State.withP]
  split <;> rfl

theorem copyChr_withP (s : State) (p : Byte) (d n b : Nat) :
    (s.withP p).copyChr d n b = (s.copyChr d n b).withP p := by
  unfold State.copyChr State.withP
  simp only []
  split <;> rfl

theorem copyPrg_withP (s : State) (p : Byte) (d n b : Nat) :
    (s.withP p).copyPrg d n b = (s.copyPrg d n b).withP p := rfl

theorem forceMirroring_withP (s : State) (p : Byte) (m : Mirroring) :
    (s.withP p).forceMirroring m = (s.forceMirroring m).withP p := by
  unfold State.forceMirroring State.withP
  simp only []
  split <;> rfl

theorem mmc1Prg_withP (s : State) (p : Byte) (r : Mmc1) :
    (s.withP p).mmc1Prg r = (s.mmc1Prg r).withP p := by
  unfold State.mmc1Prg
  simp only []
  split <;> rfl

theorem mmc1Chr_withP (s : State) (p : Byte) (r : Mmc1) :
    (s.withP p).mmc1Chr r = (s.mmc1Chr r).withP p := by
  unfold State.mmc1Chr
  split <;> simp [copyChr_withP]

theorem mmc3Prg_withP (s : State) (p : Byte) (r : Mmc3) :
    (s.withP p).mmc3Prg r = (s.mmc3Prg r).withP p := by
  unfold State.mmc3Prg
  simp only []
  split <;> rfl

theorem mmc3Chr_withP (s : State) (p : Byte) (r : Mmc3) :
    (s.withP p).mmc3Chr r = (s.mmc3Chr r).withP p := by
  simp only [State.mmc3Chr, copyChr_withP]

theorem withMapper_withP (s : State) (p : Byte) (m : Mapper) :
    ({ s.withP p with mapper := m } : State) = State.withP { s with mapper := m } p := rfl

theorem mmc3Write_withP (s : State) (p : Byte) (r : Mmc3) (n : Word) (d : Byte) :
    (s.withP p).mmc3Write r n d = (s.mmc3Write r n d).withP p := by
  unfold State.mmc3Write
  split
  · simp only [withMapper_withP, mmc3Prg_withP, mmc3Chr_withP]
  · simp only [withMapper_withP, mmc3Prg_withP, mmc3Chr_withP]
  · exact forceMirroring_withP _ _ _
  all_goals rfl

theorem switchBanks_withP (s : State) (p : Byte) (n : Word) (d : Byte) :
    (s.withP p).switchBanks n d = (s.switchBanks n d).withP p := by
  unfold State.switchBanks
  have h : (s.withP p).mapper = s.mapper := rfl
  rw [h]
  split
  · rfl
  · rfl
  · rfl
  · exact copyChr_withP _ _ _ _ _
  · rw [forceMirroring_withP, mmc1Prg_withP, mmc1Chr_withP]
  · exact mmc3Write_withP _ _ _ _ _

theorem intercept_withP (s : State) (p : Byte) (n : Word) (d : Byte) :
    (s.withP p).intercept n d = (s.intercept n d).withP p := by
  show (if (s.mapper.checkAddress s.cfg n d).2 then
      (State.withP { s with mapper := (s.mapper.checkAddress s.cfg n d).1 } p).switchBanks n d
    else State.withP { s with mapper := (s.mapper.checkAddress s.cfg n d).1 } p) = _
  rw [switchBanks_withP]
  unfold State.intercept
  simp only []
  split <;> rfl

theorem dmaLoop_withP (k : Nat) (i : Byte) (w : Word) (s : State) (p : Byte) :
    dmaLoop k i w (s.withP p) = (dmaLoop k i w s).withP p := by
  induction k generalizing i w s with
  | zero => rfl
  | succ k ih =>
    simp only [dmaLoop, memRead_withP]
    exact ih _ _ ((s.memRead w).2.putOam i (s.memRead w).1)

theorem primaryWrite_withP (s : State) (p : Byte) (n : Word) (v : Byte) :
    (s.withP p).primaryWrite n v = (s.primaryWrite n v).withP p := by
  unfold State.primaryWrite
  split
  case h_6 =>
    simp only [State.spriteDma, dmaLoop_withP]
    generalize dmaLoop 256 0 (wordOf v 0) s = t
    rfl
  case h_8 =>
    show (if (s.sramEnabled && !s.sramReadonly) = true then (s.withP p).store n v
      else s.withP p) = _
    split <;> rfl
  all_goals rfl

/-- A write does not look at P. -/
theorem memWrite_withP (s : State) (p : Byte) (a : Word) (v : Byte) :
    (s.withP p).memWrite a v = (s.memWrite a v).withP p := by
  simp only [State.memWrite, primaryWrite_withP, intercept_withP]

end Sys2Proof.Machine
end

