-- ==== Sys2Proof/Laws/PerInstr.lean ====
section
/-! SUPPORT. Per instruction: a well-formed instruction has an opcode, and the opcode with the operand bytes
the encoder lays out builds it again. -/

namespace Sys2Proof

open Machine (wordOf hiByte loByte wordOf_hi_lo)

namespace Laws.HasOpcode

/-- A well-formed instruction has an opcode byte; from it and the operand bytes the decoder's table builds
the instruction, and the table gives the opcode as many operand bytes as the encoder lays out. -/
def Statement (i : Instr) : Prop :=
  i.wellFormed = true → ∃ op, opcodeOf i = some op
    ∧ instrOf true op ((operandBytesOf i).getD 0 0) ((operandBytesOf i).getD 1 0) = i
    ∧ (operandBytesOf i).length = operandBytes true op

theorem lda (o : Src) : Statement (.lda o) := by
  intro h
  cases o with
  | imm b => exact ⟨0xA9, rfl, rfl, rfl⟩
  | mem a =>
    cases a with
    | zp b => exact ⟨0xA5, rfl, rfl, rfl⟩
    | zpx b => exact ⟨0xB5, rfl, rfl, rfl⟩
    | zpy b => exact (Bool.false_ne_true h).elim
    | abs w => exact ⟨0xAD, rfl, congrArg (fun u => Instr.lda (.mem (.abs u))) (wordOf_hi_lo w), rfl⟩
    | abx w => exact ⟨0xBD, rfl, congrArg (fun u => Instr.lda (.mem (.abx u))) (wordOf_hi_lo w), rfl⟩
    | aby w => exact ⟨0xB9, rfl, congrArg (fun u => Instr.lda (.mem (.aby u))) (wordOf_hi_lo w), rfl⟩
    | izx b => exact ⟨0xA1, rfl, rfl, rfl⟩
    | izy b => exact ⟨0xB1, rfl, rfl, rfl⟩

theorem ldx (o : Src) : Statement (.ldx o) := by
  intro h
  cases o with
  | imm b => exact ⟨0xA2, rfl, rfl, rfl⟩
  | mem a =>
    cases a with
    | zp b => exact ⟨0xA6, rfl, rfl, rfl⟩
    | zpx b => exact (Bool.false_ne_true h).elim
    | zpy b => exact ⟨0xB6, rfl, rfl, rfl⟩
    | abs w => exact ⟨0xAE, rfl, congrArg (fun u => Instr.ldx (.mem (.abs u))) (wordOf_hi_lo w), rfl⟩
    | abx w => exact (Bool.false_ne_true h).elim
    | aby w => exact ⟨0xBE, rfl, congrArg (fun u => Instr.ldx (.mem (.aby u))) (wordOf_hi_lo w), rfl⟩
    | izx b => exact (Bool.false_ne_true h).elim
    | izy b => exact (Bool.false_ne_true h).elim

theorem ldy (o : Src) : Statement (.ldy o) := by
  intro h
  cases o with
  | imm b => exact ⟨0xA0, rfl, rfl, rfl⟩
  | mem a =>
    cases a with
    | zp b => exact ⟨0xA4, rfl, rfl, rfl⟩
    | zpx b => exact ⟨0xB4, rfl, rfl, rfl⟩
    | zpy b => exact (Bool.false_ne_true h).elim
    | abs w => exact ⟨0xAC, rfl, congrArg (fun u => Instr.ldy (.mem (.abs u))) (wordOf_hi_lo w), rfl⟩
    | abx w => exact ⟨0xBC, rfl, congrArg (fun u => Instr.ldy (.mem (.abx u))) (wordOf_hi_lo w), rfl⟩
    | aby w => exact (Bool.false_ne_true h).elim
    | izx b => exact (Bool.false_ne_true h).elim
    | izy b => exact (Bool.false_ne_true h).elim

theorem sta (a : Addr) : Statement (.sta a) := by
  intro h
  cases a with
  | zp b => exact ⟨0x85, rfl, rfl, rfl⟩
  | zpx b => exact ⟨0x95, rfl, rfl, rfl⟩
  | zpy b => exact (Bool.false_ne_true h).elim
  | abs w => exact ⟨0x8D, rfl, congrArg (fun u => Instr.sta (.abs u)) (wordOf_hi_lo w), rfl⟩
  | abx w => exact ⟨0x9D, rfl, congrArg (fun u => Instr.sta (.abx u)) (wordOf_hi_lo w), rfl⟩
  | aby w => exact ⟨0x99, rfl, congrArg (fun u => Instr.sta (.aby u)) (wordOf_hi_lo w), rfl⟩
  | izx b => exact ⟨0x81, rfl, rfl, rfl⟩
  | izy b => exact ⟨0x91, rfl, rfl, rfl⟩

theorem stx (a : Addr) : Statement (.stx a) := by
  intro h
  cases a with
  | zp b => exact ⟨0x86, rfl, rfl, rfl⟩
  | zpx b => exact (Bool.false_ne_true h).elim
  | zpy b => exact ⟨0x96, rfl, rfl, rfl⟩
  | abs w => exact ⟨0x8E, rfl, congrArg (fun u => Instr.stx (.abs u)) (wordOf_hi_lo w), rfl⟩
  | abx w => exact (Bool.false_ne_true h).elim
  | aby w => exact (Bool.false_ne_true h).elim
  | izx b => exact (Bool.false_ne_true h).elim
  | izy b => exact (Bool.false_ne_true h).elim

theorem sty (a : Addr) : Statement (.sty a) := by
  intro h
  cases a with
  | zp b => exact ⟨0x84, rfl, rfl, rfl⟩
  | zpx b => exact ⟨0x94, rfl, rfl, rfl⟩
  | zpy b => exact (Bool.false_ne_true h).elim
  | abs w => exact ⟨0x8C, rfl, congrArg (fun u => Instr.sty (.abs u)) (wordOf_hi_lo w), rfl⟩
  | abx w => exact (Bool.false_ne_true h).elim
  | aby w => exact (Bool.false_ne_true h).elim
  | izx b => exact (Bool.false_ne_true h).elim
  | izy b => exact (Bool.false_ne_true h).elim

theorem tax : Statement (.tax) := by
  intro _
  exact ⟨0xAA, rfl, rfl, rfl⟩

theorem tay : Statement (.tay) := by
  intro _
  exact ⟨0xA8, rfl, rfl, rfl⟩

theorem txa : Statement (.txa) := by
  intro _
  exact ⟨0x8A, rfl, rfl, rfl⟩

theorem tya : Statement (.tya) := by
  intro _
  exact ⟨0x98, rfl, rfl, rfl⟩

theorem tsx : Statement (.tsx) := by
  intro _
  exact ⟨0xBA, rfl, rfl, rfl⟩

theorem txs : Statement (.txs) := by
  intro _
  exact ⟨0x9A, rfl, rfl, rfl⟩

theorem pha : Statement (.pha) := by
  intro _
  exact ⟨0x48, rfl, rfl, rfl⟩

theorem php : Statement (.php) := by
  intro _
  exact ⟨0x08, rfl, rfl, rfl⟩

theorem pla : Statement (.pla) := by
  intro _
  exact ⟨0x68, rfl, rfl, rfl⟩

theorem plp : Statement (.plp) := by
  intro _
  exact ⟨0x28, rfl, rfl, rfl⟩

theorem adc (o : Src) : Statement (.adc o) := by
  intro h
  cases o with
  | imm b => exact ⟨0x69, rfl, rfl, rfl⟩
  | mem a =>
    cases a with
    | zp b => exact ⟨0x65, rfl, rfl, rfl⟩
    | zpx b => exact ⟨0x75, rfl, rfl, rfl⟩
    | zpy b => exact (Bool.false_ne_true h).elim
    | abs w => exact ⟨0x6D, rfl, congrArg (fun u => Instr.adc (.mem (.abs u))) (wordOf_hi_lo w), rfl⟩
    | abx w => exact ⟨0x7D, rfl, congrArg (fun u => Instr.adc (.mem (.abx u))) (wordOf_hi_lo w), rfl⟩
    | aby w => exact ⟨0x79, rfl, congrArg (fun u => Instr.adc (.mem (.aby u))) (wordOf_hi_lo w), rfl⟩
    | izx b => exact ⟨0x61, rfl, rfl, rfl⟩
    | izy b => exact ⟨0x71, rfl, rfl, rfl⟩

theorem sbc (o : Src) : Statement (.sbc o) := by
  intro h
  cases o with
  | imm b => exact ⟨0xE9, rfl, rfl, rfl⟩
  | mem a =>
    cases a with
    | zp b => exact ⟨0xE5, rfl, rfl, rfl⟩
    | zpx b => exact ⟨0xF5, rfl, rfl, rfl⟩
    | zpy b => exact (Bool.false_ne_true h).elim
    | abs w => exact ⟨0xED, rfl, congrArg (fun u => Instr.sbc (.mem (.abs u))) (wordOf_hi_lo w), rfl⟩
    | abx w => exact ⟨0xFD, rfl, congrArg (fun u => Instr.sbc (.mem (.abx u))) (wordOf_hi_lo w), rfl⟩
    | aby w => exact ⟨0xF9, rfl, congrArg (fun u => Instr.sbc (.mem (.aby u))) (wordOf_hi_lo w), rfl⟩
    | izx b => exact ⟨0xE1, rfl, rfl, rfl⟩
    | izy b => exact ⟨0xF1, rfl, rfl, rfl⟩

theorem and (o : Src) : Statement (.and o) := by
  intro h
  cases o with
  | imm b => exact ⟨0x29, rfl, rfl, rfl⟩
  | mem a =>
    cases a with
    | zp b => exact ⟨0x25, rfl, rfl, rfl⟩
    | zpx b => exact ⟨0x35, rfl, rfl, rfl⟩
    | zpy b => exact (Bool.false_ne_true h).elim
    | abs w => exact ⟨0x2D, rfl, congrArg (fun u => Instr.and (.mem (.abs u))) (wordOf_hi_lo w), rfl⟩
    | abx w => exact ⟨0x3D, rfl, congrArg (fun u => Instr.and (.mem (.abx u))) (wordOf_hi_lo w), rfl⟩
    | aby w => exact ⟨0x39, rfl, congrArg (fun u => Instr.and (.mem (.aby u))) (wordOf_hi_lo w), rfl⟩
    | izx b => exact ⟨0x21, rfl, rfl, rfl⟩
    | izy b => exact ⟨0x31, rfl, rfl, rfl⟩

theorem ora (o : Src) : Statement (.ora o) := by
  intro h
  cases o with
  | imm b => exact ⟨0x09, rfl, rfl, rfl⟩
  | mem a =>
    cases a with
    | zp b => exact ⟨0x05, rfl, rfl, rfl⟩
    | zpx b => exact ⟨0x15, rfl, rfl, rfl⟩
    | zpy b => exact (Bool.false_ne_true h).elim
    | abs w => exact ⟨0x0D, rfl, congrArg (fun u => Instr.ora (.mem (.abs u))) (wordOf_hi_lo w), rfl⟩
    | abx w => exact ⟨0x1D, rfl, congrArg (fun u => Instr.ora (.mem (.abx u))) (wordOf_hi_lo w), rfl⟩
    | aby w => exact ⟨0x19, rfl, congrArg (fun u => Instr.ora (.mem (.aby u))) (wordOf_hi_lo w), rfl⟩
    | izx b => exact ⟨0x01, rfl, rfl, rfl⟩
    | izy b => exact ⟨0x11, rfl, rfl, rfl⟩

theorem eor (o : Src) : Statement (.eor o) := by
  intro h
  cases o with
  | imm b => exact ⟨0x49, rfl, rfl, rfl⟩
  | mem a =>
    cases a with
    | zp b => exact ⟨0x45, rfl, rfl, rfl⟩
    | zpx b => exact ⟨0x55, rfl, rfl, rfl⟩
    | zpy b => exact (Bool.false_ne_true h).elim
    | abs w => exact ⟨0x4D, rfl, congrArg (fun u => Instr.eor (.mem (.abs u))) (wordOf_hi_lo w), rfl⟩
    | abx w => exact ⟨0x5D, rfl, congrArg (fun u => Instr.eor (.mem (.abx u))) (wordOf_hi_lo w), rfl⟩
    | aby w => exact ⟨0x59, rfl, congrArg (fun u => Instr.eor (.mem (.aby u))) (wordOf_hi_lo w), rfl⟩
    | izx b => exact ⟨0x41, rfl, rfl, rfl⟩
    | izy b => exact ⟨0x51, rfl, rfl, rfl⟩

theorem cmp (o : Src) : Statement (.cmp o) := by
  intro h
  cases o with
  | imm b => exact ⟨0xC9, rfl, rfl, rfl⟩
  | mem a =>
    cases a with
    | zp b => exact ⟨0xC5, rfl, rfl, rfl⟩
    | zpx b => exact ⟨0xD5, rfl, rfl, rfl⟩
    | zpy b => exact (Bool.false_ne_true h).elim
    | abs w => exact ⟨0xCD, rfl, congrArg (fun u => Instr.cmp (.mem (.abs u))) (wordOf_hi_lo w), rfl⟩
    | abx w => exact ⟨0xDD, rfl, congrArg (fun u => Instr.cmp (.mem (.abx u))) (wordOf_hi_lo w), rfl⟩
    | aby w => exact ⟨0xD9, rfl, congrArg (fun u => Instr.cmp (.mem (.aby u))) (wordOf_hi_lo w), rfl⟩
    | izx b => exact ⟨0xC1, rfl, rfl, rfl⟩
    | izy b => exact ⟨0xD1, rfl, rfl, rfl⟩

theorem cpx (o : Src) : Statement (.cpx o) := by
  intro h
  cases o with
  | imm b => exact ⟨0xE0, rfl, rfl, rfl⟩
  | mem a =>
    cases a with
    | zp b => exact ⟨0xE4, rfl, rfl, rfl⟩
    | zpx b => exact (Bool.false_ne_true h).elim
    | zpy b => exact (Bool.false_ne_true h).elim
    | abs w => exact ⟨0xEC, rfl, congrArg (fun u => Instr.cpx (.mem (.abs u))) (wordOf_hi_lo w), rfl⟩
    | abx w => exact (Bool.false_ne_true h).elim
    | aby w => exact (Bool.false_ne_true h).elim
    | izx b => exact (Bool.false_ne_true h).elim
    | izy b => exact (Bool.false_ne_true h).elim

theorem cpy (o : Src) : Statement (.cpy o) := by
  intro h
  cases o with
  | imm b => exact ⟨0xC0, rfl, rfl, rfl⟩
  | mem a =>
    cases a with
    | zp b => exact ⟨0xC4, rfl, rfl, rfl⟩
    | zpx b => exact (Bool.false_ne_true h).elim
    | zpy b => exact (Bool.false_ne_true h).elim
    | abs w => exact ⟨0xCC, rfl, congrArg (fun u => Instr.cpy (.mem (.abs u))) (wordOf_hi_lo w), rfl⟩
    | abx w => exact (Bool.false_ne_true h).elim
    | aby w => exact (Bool.false_ne_true h).elim
    | izx b => exact (Bool.false_ne_true h).elim
    | izy b => exact (Bool.false_ne_true h).elim

theorem bit (a : Addr) : Statement (.bit a) := by
  intro h
  cases a with
  | zp b => exact ⟨0x24, rfl, rfl, rfl⟩
  | zpx b => exact (Bool.false_ne_true h).elim
  | zpy b => exact (Bool.false_ne_true h).elim
  | abs w => exact ⟨0x2C, rfl, congrArg (fun u => Instr.bit (.abs u)) (wordOf_hi_lo w), rfl⟩
  | abx w => exact (Bool.false_ne_true h).elim
  | aby w => exact (Bool.false_ne_true h).elim
  | izx b => exact (Bool.false_ne_true h).elim
  | izy b => exact (Bool.false_ne_true h).elim

theorem inc (a : Addr) : Statement (.inc a) := by
  intro h
  cases a with
  | zp b => exact ⟨0xE6, rfl, rfl, rfl⟩
  | zpx b => exact ⟨0xF6, rfl, rfl, rfl⟩
  | zpy b => exact (Bool.false_ne_true h).elim
  | abs w => exact ⟨0xEE, rfl, congrArg (fun u => Instr.inc (.abs u)) (wordOf_hi_lo w), rfl⟩
  | abx w => exact ⟨0xFE, rfl, congrArg (fun u => Instr.inc (.abx u)) (wordOf_hi_lo w), rfl⟩
  | aby w => exact (Bool.false_ne_true h).elim
  | izx b => exact (Bool.false_ne_true h).elim
  | izy b => exact (Bool.false_ne_true h).elim

theorem dec (a : Addr) : Statement (.dec a) := by
  intro h
  cases a with
  | zp b => exact ⟨0xC6, rfl, rfl, rfl⟩
  | zpx b => exact ⟨0xD6, rfl, rfl, rfl⟩
  | zpy b => exact (Bool.false_ne_true h).elim
  | abs w => exact ⟨0xCE, rfl, congrArg (fun u => Instr.dec (.abs u)) (wordOf_hi_lo w), rfl⟩
  | abx w => exact ⟨0xDE, rfl, congrArg (fun u => Instr.dec (.abx u)) (wordOf_hi_lo w), rfl⟩
  | aby w => exact (Bool.false_ne_true h).elim
  | izx b => exact (Bool.false_ne_true h).elim
  | izy b => exact (Bool.false_ne_true h).elim

theorem inx : Statement (.inx) := by
  intro _
  exact ⟨0xE8, rfl, rfl, rfl⟩

theorem iny : Statement (.iny) := by
  intro _
  exact ⟨0xC8, rfl, rfl, rfl⟩

theorem dex : Statement (.dex) := by
  intro _
  exact ⟨0xCA, rfl, rfl, rfl⟩

theorem dey : Statement (.dey) := by
  intro _
  exact ⟨0x88, rfl, rfl, rfl⟩

theorem asl (o : Dst) : Statement (.asl o) := by
  intro h
  cases o with
  | acc => exact ⟨0x0A, rfl, rfl, rfl⟩
  | mem a =>
    cases a with
    | zp b => exact ⟨0x06, rfl, rfl, rfl⟩
    | zpx b => exact ⟨0x16, rfl, rfl, rfl⟩
    | zpy b => exact (Bool.false_ne_true h).elim
    | abs w => exact ⟨0x0E, rfl, congrArg (fun u => Instr.asl (.mem (.abs u))) (wordOf_hi_lo w), rfl⟩
    | abx w => exact ⟨0x1E, rfl, congrArg (fun u => Instr.asl (.mem (.abx u))) (wordOf_hi_lo w), rfl⟩
    | aby w => exact (Bool.false_ne_true h).elim
    | izx b => exact (Bool.false_ne_true h).elim
    | izy b => exact (Bool.false_ne_true h).elim

theorem lsr (o : Dst) : Statement (.lsr o) := by
  intro h
  cases o with
  | acc => exact ⟨0x4A, rfl, rfl, rfl⟩
  | mem a =>
    cases a with
    | zp b => exact ⟨0x46, rfl, rfl, rfl⟩
    | zpx b => exact ⟨0x56, rfl, rfl, rfl⟩
    | zpy b => exact (Bool.false_ne_true h).elim
    | abs w => exact ⟨0x4E, rfl, congrArg (fun u => Instr.lsr (.mem (.abs u))) (wordOf_hi_lo w), rfl⟩
    | abx w => exact ⟨0x5E, rfl, congrArg (fun u => Instr.lsr (.mem (.abx u))) (wordOf_hi_lo w), rfl⟩
    | aby w => exact (Bool.false_ne_true h).elim
    | izx b => exact (Bool.false_ne_true h).elim
    | izy b => exact (Bool.false_ne_true h).elim

theorem rol (o : Dst) : Statement (.rol o) := by
  intro h
  cases o with
  | acc => exact ⟨0x2A, rfl, rfl, rfl⟩
  | mem a =>
    cases a with
    | zp b => exact ⟨0x26, rfl, rfl, rfl⟩
    | zpx b => exact ⟨0x36, rfl, rfl, rfl⟩
    | zpy b => exact (Bool.false_ne_true h).elim
    | abs w => exact ⟨0x2E, rfl, congrArg (fun u => Instr.rol (.mem (.abs u))) (wordOf_hi_lo w), rfl⟩
    | abx w => exact ⟨0x3E, rfl, congrArg (fun u => Instr.rol (.mem (.abx u))) (wordOf_hi_lo w), rfl⟩
    | aby w => exact (Bool.false_ne_true h).elim
    | izx b => exact (Bool.false_ne_true h).elim
    | izy b => exact (Bool.false_ne_true h).elim

theorem ror (o : Dst) : Statement (.ror o) := by
  intro h
  cases o with
  | acc => exact ⟨0x6A, rfl, rfl, rfl⟩
  | mem a =>
    cases a with
    | zp b => exact ⟨0x66, rfl, rfl, rfl⟩
    | zpx b => exact ⟨0x76, rfl, rfl, rfl⟩
    | zpy b => exact (Bool.false_ne_true h).elim
    | abs w => exact ⟨0x6E, rfl, congrArg (fun u => Instr.ror (.mem (.abs u))) (wordOf_hi_lo w), rfl⟩
    | abx w => exact ⟨0x7E, rfl, congrArg (fun u => Instr.ror (.mem (.abx u))) (wordOf_hi_lo w), rfl⟩
    | aby w => exact (Bool.false_ne_true h).elim
    | izx b => exact (Bool.false_ne_true h).elim
    | izy b => exact (Bool.false_ne_true h).elim

theorem jmp (t : JmpTarget) : Statement (.jmp t) := by
  intro h
  cases t with
  | abs w => exact ⟨0x4C, rfl, congrArg (fun u => Instr.jmp (.abs u)) (wordOf_hi_lo w), rfl⟩
  | ind w => exact ⟨0x6C, rfl, congrArg (fun u => Instr.jmp (.ind u)) (wordOf_hi_lo w), rfl⟩

theorem jsr (w : Word) : Statement (.jsr w) := by
  intro _
  exact ⟨0x20, rfl, congrArg (fun u => Instr.jsr u) (wordOf_hi_lo w), rfl⟩

theorem rts : Statement (.rts) := by
  intro _
  exact ⟨0x60, rfl, rfl, rfl⟩

theorem rti : Statement (.rti) := by
  intro _
  exact ⟨0x40, rfl, rfl, rfl⟩

theorem brk : Statement (.brk) := by
  intro _
  exact ⟨0x00, rfl, rfl, rfl⟩

theorem bcc (d : Byte) : Statement (.bcc d) := by
  intro _
  exact ⟨0x90, rfl, rfl, rfl⟩

theorem bcs (d : Byte) : Statement (.bcs d) := by
  intro _
  exact ⟨0xB0, rfl, rfl, rfl⟩

theorem beq (d : Byte) : Statement (.beq d) := by
  intro _
  exact ⟨0xF0, rfl, rfl, rfl⟩

theorem bne (d : Byte) : Statement (.bne d) := by
  intro _
  exact ⟨0xD0, rfl, rfl, rfl⟩

theorem bmi (d : Byte) : Statement (.bmi d) := by
  intro _
  exact ⟨0x30, rfl, rfl, rfl⟩

theorem bpl (d : Byte) : Statement (.bpl d) := by
  intro _
  exact ⟨0x10, rfl, rfl, rfl⟩

theorem bvc (d : Byte) : Statement (.bvc d) := by
  intro _
  exact ⟨0x50, rfl, rfl, rfl⟩

theorem bvs (d : Byte) : Statement (.bvs d) := by
  intro _
  exact ⟨0x70, rfl, rfl, rfl⟩

theorem clc : Statement (.clc) := by
  intro _
  exact ⟨0x18, rfl, rfl, rfl⟩

theorem sec : Statement (.sec) := by
  intro _
  exact ⟨0x38, rfl, rfl, rfl⟩

theorem cli : Statement (.cli) := by
  intro _
  exact ⟨0x58, rfl, rfl, rfl⟩

theorem sei : Statement (.sei) := by
  intro _
  exact ⟨0x78, rfl, rfl, rfl⟩

theorem clv : Statement (.clv) := by
  intro _
  exact ⟨0xB8, rfl, rfl, rfl⟩

theorem cld : Statement (.cld) := by
  intro _
  exact ⟨0xD8, rfl, rfl, rfl⟩

theorem sed : Statement (.sed) := by
  intro _
  exact ⟨0xF8, rfl, rfl, rfl⟩

theorem nop : Statement (.nop) := by
  intro _
  exact ⟨0xEA, rfl, rfl, rfl⟩

theorem slo (a : Addr) : Statement (.slo a) := by
  intro h
  cases a with
  | zp b => exact ⟨0x07, rfl, rfl, rfl⟩
  | zpx b => exact ⟨0x17, rfl, rfl, rfl⟩
  | zpy b => exact (Bool.false_ne_true h).elim
  | abs w => exact ⟨0x0F, rfl, congrArg (fun u => Instr.slo (.abs u)) (wordOf_hi_lo w), rfl⟩
  | abx w => exact ⟨0x1F, rfl, congrArg (fun u => Instr.slo (.abx u)) (wordOf_hi_lo w), rfl⟩
  | aby w => exact ⟨0x1B, rfl, congrArg (fun u => Instr.slo (.aby u)) (wordOf_hi_lo w), rfl⟩
  | izx b => exact ⟨0x03, rfl, rfl, rfl⟩
  | izy b => exact ⟨0x13, rfl, rfl, rfl⟩

theorem rla (a : Addr) : Statement (.rla a) := by
  intro h
  cases a with
  | zp b => exact ⟨0x27, rfl, rfl, rfl⟩
  | zpx b => exact ⟨0x37, rfl, rfl, rfl⟩
  | zpy b => exact (Bool.false_ne_true h).elim
  | abs w => exact ⟨0x2F, rfl, congrArg (fun u => Instr.rla (.abs u)) (wordOf_hi_lo w), rfl⟩
  | abx w => exact ⟨0x3F, rfl, congrArg (fun u => Instr.rla (.abx u)) (wordOf_hi_lo w), rfl⟩
  | aby w => exact ⟨0x3B, rfl, congrArg (fun u => Instr.rla (.aby u)) (wordOf_hi_lo w), rfl⟩
  | izx b => exact ⟨0x23, rfl, rfl, rfl⟩
  | izy b => exact ⟨0x33, rfl, rfl, rfl⟩

theorem sre (a : Addr) : Statement (.sre a) := by
  intro h
  cases a with
  | zp b => exact ⟨0x47, rfl, rfl, rfl⟩
  | zpx b => exact ⟨0x57, rfl, rfl, rfl⟩
  | zpy b => exact (Bool.false_ne_true h).elim
  | abs w => exact ⟨0x4F, rfl, congrArg (fun u => Instr.sre (.abs u)) (wordOf_hi_lo w), rfl⟩
  | abx w => exact ⟨0x5F, rfl, congrArg (fun u => Instr.sre (.abx u)) (wordOf_hi_lo w), rfl⟩
  | aby w => exact ⟨0x5B, rfl, congrArg (fun u => Instr.sre (.aby u)) (wordOf_hi_lo w), rfl⟩
  | izx b => exact ⟨0x43, rfl, rfl, rfl⟩
  | izy b => exact ⟨0x53, rfl, rfl, rfl⟩

theorem rra (a : Addr) : Statement (.rra a) := by
  intro h
  cases a with
  | zp b => exact ⟨0x67, rfl, rfl, rfl⟩
  | zpx b => exact ⟨0x77, rfl, rfl, rfl⟩
  | zpy b => exact (Bool.false_ne_true h).elim
  | abs w => exact ⟨0x6F, rfl, congrArg (fun u => Instr.rra (.abs u)) (wordOf_hi_lo w), rfl⟩
  | abx w => exact ⟨0x7F, rfl, congrArg (fun u => Instr.rra (.abx u)) (wordOf_hi_lo w), rfl⟩
  | aby w => exact ⟨0x7B, rfl, congrArg (fun u => Instr.rra (.aby u)) (wordOf_hi_lo w), rfl⟩
  | izx b => exact ⟨0x63, rfl, rfl, rfl⟩
  | izy b => exact ⟨0x73, rfl, rfl, rfl⟩

theorem dcp (a : Addr) : Statement (.dcp a) := by
  intro h
  cases a with
  | zp b => exact ⟨0xC7, rfl, rfl, rfl⟩
  | zpx b => exact ⟨0xD7, rfl, rfl, rfl⟩
  | zpy b => exact (Bool.false_ne_true h).elim
  | abs w => exact ⟨0xCF, rfl, congrArg (fun u => Instr.dcp (.abs u)) (wordOf_hi_lo w), rfl⟩
  | abx w => exact ⟨0xDF, rfl, congrArg (fun u => Instr.dcp (.abx u)) (wordOf_hi_lo w), rfl⟩
  | aby w => exact ⟨0xDB, rfl, congrArg (fun u => Instr.dcp (.aby u)) (wordOf_hi_lo w), rfl⟩
  | izx b => exact ⟨0xC3, rfl, rfl, rfl⟩
  | izy b => exact ⟨0xD3, rfl, rfl, rfl⟩

theorem isc (a : Addr) : Statement (.isc a) := by
  intro h
  cases a with
  | zp b => exact ⟨0xE7, rfl, rfl, rfl⟩
  | zpx b => exact ⟨0xF7, rfl, rfl, rfl⟩
  | zpy b => exact (Bool.false_ne_true h).elim
  | abs w => exact ⟨0xEF, rfl, congrArg (fun u => Instr.isc (.abs u)) (wordOf_hi_lo w), rfl⟩
  | abx w => exact ⟨0xFF, rfl, congrArg (fun u => Instr.isc (.abx u)) (wordOf_hi_lo w), rfl⟩
  | aby w => exact ⟨0xFB, rfl, congrArg (fun u => Instr.isc (.aby u)) (wordOf_hi_lo w), rfl⟩
  | izx b => exact ⟨0xE3, rfl, rfl, rfl⟩
  | izy b => exact ⟨0xF3, rfl, rfl, rfl⟩

theorem sax (a : Addr) : Statement (.sax a) := by
  intro h
  cases a with
  | zp b => exact ⟨0x87, rfl, rfl, rfl⟩
  | zpx b => exact (Bool.false_ne_true h).elim
  | zpy b => exact ⟨0x97, rfl, rfl, rfl⟩
  | abs w => exact ⟨0x8F, rfl, congrArg (fun u => Instr.sax (.abs u)) (wordOf_hi_lo w), rfl⟩
  | abx w => exact (Bool.false_ne_true h).elim
  | aby w => exact (Bool.false_ne_true h).elim
  | izx b => exact ⟨0x83, rfl, rfl, rfl⟩
  | izy b => exact (Bool.false_ne_true h).elim

theorem lax (a : Addr) : Statement (.lax a) := by
  intro h
  cases a with
  | zp b => exact ⟨0xA7, rfl, rfl, rfl⟩
  | zpx b => exact (Bool.false_ne_true h).elim
  | zpy b => exact ⟨0xB7, rfl, rfl, rfl⟩
  | abs w => exact ⟨0xAF, rfl, congrArg (fun u => Instr.lax (.abs u)) (wordOf_hi_lo w), rfl⟩
  | abx w => exact (Bool.false_ne_true h).elim
  | aby w => exact ⟨0xBF, rfl, congrArg (fun u => Instr.lax (.aby u)) (wordOf_hi_lo w), rfl⟩
  | izx b => exact ⟨0xA3, rfl, rfl, rfl⟩
  | izy b => exact ⟨0xB3, rfl, rfl, rfl⟩

theorem anc (op : Byte) (b : Byte) : Statement (.anc op b) := by
  intro h
  simp only [Instr.wellFormed, ancOpcodes, List.contains_iff_mem, List.mem_cons,
    List.not_mem_nil, or_false] at h
  rcases h with rfl | rfl <;> exact ⟨_, rfl, rfl, rfl⟩

theorem alr (b : Byte) : Statement (.alr b) := by
  intro _
  exact ⟨0x4B, rfl, rfl, rfl⟩

theorem arr (b : Byte) : Statement (.arr b) := by
  intro _
  exact ⟨0x6B, rfl, rfl, rfl⟩

theorem axs (b : Byte) : Statement (.axs b) := by
  intro _
  exact ⟨0xCB, rfl, rfl, rfl⟩

theorem sbcAlt (b : Byte) : Statement (.sbcAlt b) := by
  intro _
  exact ⟨0xEB, rfl, rfl, rfl⟩

theorem nopAlt (op : Byte) : Statement (.nopAlt op) := by
  intro h
  simp only [Instr.wellFormed, nopAltOpcodes, List.contains_iff_mem, List.mem_cons,
    List.not_mem_nil, or_false] at h
  rcases h with rfl | rfl | rfl | rfl | rfl | rfl <;> exact ⟨_, rfl, rfl, rfl⟩

theorem dop (op : Byte) (o : Src) : Statement (.dop op o) := by
  intro h
  cases o with
  | imm b =>
    simp only [Instr.wellFormed, Src.mode, dopOpcodes, List.contains_iff_mem,
      List.mem_cons, List.not_mem_nil, or_false] at h
    rcases h with rfl | rfl | rfl | rfl | rfl <;> exact ⟨_, rfl, rfl, rfl⟩
  | mem a =>
    cases a with
    | zp b =>
      simp only [Instr.wellFormed, Src.mode, Addr.mode, dopOpcodes, List.contains_iff_mem,
        List.mem_cons, List.not_mem_nil, or_false] at h
      rcases h with rfl | rfl | rfl <;> exact ⟨_, rfl, rfl, rfl⟩
    | zpx b =>
      simp only [Instr.wellFormed, Src.mode, Addr.mode, dopOpcodes, List.contains_iff_mem,
        List.mem_cons, List.not_mem_nil, or_false] at h
      rcases h with rfl | rfl | rfl | rfl | rfl | rfl <;> exact ⟨_, rfl, rfl, rfl⟩
    | zpy b => exact (Bool.false_ne_true h).elim
    | abs w => exact (Bool.false_ne_true h).elim
    | abx w => exact (Bool.false_ne_true h).elim
    | aby w => exact (Bool.false_ne_true h).elim
    | izx b => exact (Bool.false_ne_true h).elim
    | izy b => exact (Bool.false_ne_true h).elim

theorem top (op : Byte) (a : Addr) : Statement (.top op a) := by
  intro h
  cases a with
  | zp b => exact (Bool.false_ne_true h).elim
  | zpx b => exact (Bool.false_ne_true h).elim
  | zpy b => exact (Bool.false_ne_true h).elim
  | abs w =>
    simp only [Instr.wellFormed, Addr.mode, topOpcodes, List.contains_iff_mem, List.mem_cons,
      List.not_mem_nil, or_false] at h
    subst h
    exact ⟨_, rfl, congrArg (fun u => Instr.top _ (.abs u)) (wordOf_hi_lo w), rfl⟩
  | abx w =>
    simp only [Instr.wellFormed, Addr.mode, topOpcodes, List.contains_iff_mem, List.mem_cons,
      List.not_mem_nil, or_false] at h
    rcases h with rfl | rfl | rfl | rfl | rfl | rfl <;>
      exact ⟨_, rfl, congrArg (fun u => Instr.top _ (.abx u)) (wordOf_hi_lo w), rfl⟩
  | aby w => exact (Bool.false_ne_true h).elim
  | izx b => exact (Bool.false_ne_true h).elim
  | izy b => exact (Bool.false_ne_true h).elim

theorem unimpl (op : Byte) : Statement (.unimpl op) := by
  intro h
  have key : ∀ op : Byte, Instr.wellFormed (.unimpl op) = true →
      opcodeOf (.unimpl op) = some op ∧ instrOf true op 0 0 = .unimpl op ∧ 0 = operandBytes true op := by
    decide +kernel
  exact ⟨op, key op h⟩

end Laws.HasOpcode

end Sys2Proof
end

