-- ==== Sys2Proof/Laws/Results.lean ====
section
/-! SUPPORT. The flag writes of the instruction rules as one replacement of P, and the arithmetic of the
results. -/

namespace Sys2Proof.Machine

/-! ### P replaced -/

theorem setP_eq (s : State) (v : Byte) : s.setP v = s.withP (v ||| 0x20) := rfl

theorem setNZ_eq (s : State) (r : Byte) : s.setNZ r = s.withP (nzP s r) := by
  have h : s.setNZ r = s.withP (s.setNZ r).p := rfl
  rw [h, setNZ_p_eq]
  rfl

theorem setFlag_eq (s : State) (f : Flag) (v : Bool) : s.setFlag f v = s.withP (s.setFlag f v).p :=
  rfl

theorem setC_setNZ_eq (s : State) (r : Byte) (c : Bool) :
    (s.setFlag .c c).setNZ r = s.withP (nzcP s r c) := by
  have h : (s.setFlag .c c).setNZ r = s.withP ((s.setFlag .c c).setNZ r).p := rfl
  rw [h, setNZ_p_eq]
  simp [nzcP]

theorem compare_eq (s : State) (r m : Byte) :
    s.compare r m = s.withP (nzcP s (r - m) (decide (m.toNat ≤ r.toNat))) :=
  setC_setNZ_eq s _ _

theorem addA_eq (s : State) (m : Byte) :
    s.addA m
      = (let q := addWithCarry s.a m (s.flag .c)
        { s with a := q.r, p := nvzcP s q.r q.v q.c }) := by
  have h : s.addA m = { s with a := (s.addA m).a, p := (s.addA m).p } := rfl
  rw [h, addA_p_eq, addA_a]
  rfl

theorem subA_eq (s : State) (m : Byte) :
    s.subA m
      = (let q := subWithCarry s.a m (s.flag .c)
        { s with a := q.r, p := nvzcP s q.r q.v q.c }) := by
  have h : s.subA m = { s with a := (s.subA m).a, p := (s.subA m).p } := rfl
  rw [h, subA_p_eq, subA_a]
  rfl

/-! ### P computed in a state that a read or a write has left -/

@[simp] theorem nzP_readSrc (s : State) (o : Src) (r : Byte) : nzP (s.readSrc o).s r = nzP s r := by
  simp [nzP]
@[simp] theorem nzcP_readSrc (s : State) (o : Src) (r : Byte) (c : Bool) :
    nzcP (s.readSrc o).s r c = nzcP s r c := by
  simp [nzcP]
@[simp] theorem nvzcP_readSrc (s : State) (o : Src) (r : Byte) (v c : Bool) :
    nvzcP (s.readSrc o).s r v c = nvzcP s r v c := by
  simp [nvzcP]
@[simp] theorem nzP_readAddr (s : State) (a : Addr) (r : Byte) :
    nzP (s.readAddr a).s r = nzP s r := by
  simp [nzP]
@[simp] theorem nzcP_readAddr (s : State) (a : Addr) (r : Byte) (c : Bool) :
    nzcP (s.readAddr a).s r c = nzcP s r c := by
  simp [nzcP]
@[simp] theorem nvzcP_readAddr (s : State) (a : Addr) (r : Byte) (v c : Bool) :
    nvzcP (s.readAddr a).s r v c = nvzcP s r v c := by
  simp [nvzcP]
@[simp] theorem nzP_memWrite (s : State) (a : Word) (v r : Byte) :
    nzP (s.memWrite a v) r = nzP s r := by
  simp [nzP]
@[simp] theorem nzcP_memWrite (s : State) (a : Word) (v r : Byte) (c : Bool) :
    nzcP (s.memWrite a v) r c = nzcP s r c := by
  simp [nzcP]
@[simp] theorem nvzcP_memWrite (s : State) (a : Word) (v r : Byte) (o c : Bool) :
    nvzcP (s.memWrite a v) r o c = nvzcP s r o c := by
  simp [nvzcP]

/-! ### Arithmetic -/

/-- The sign bit, as a number. -/
theorem sign_bit (b : Byte) : b.getLsbD 7 = decide (128 ≤ b.toNat) := by
  have h := b.isLt
  rw [BitVec.getLsbD, Nat.testBit_eq_decide_div_mod_eq]
  congr 1
  apply propext
  omega

theorem toInt_cases (b : Byte) :
    (b.getLsbD 7 = false ∧ b.toInt = b.toNat ∧ b.toNat < 128)
      ∨ (b.getLsbD 7 = true ∧ b.toInt = b.toNat - 256 ∧ 128 ≤ b.toNat) := by
  have h := b.isLt
  rw [sign_bit, BitVec.toInt_eq_toNat_cond]
  by_cases h' : 128 ≤ b.toNat
  · right
    refine ⟨by simpa using h', ?_, h'⟩
    rw [if_neg (by omega)]
    rfl
  · left
    refine ⟨by simpa using h', ?_, by omega⟩
    rw [if_pos (by omega)]

/-- The mask 0x80 tests bit 7. -/
theorem and_sign (b : Byte) : b &&& 0x80 ≠ 0 ↔ b.getLsbD 7 = true := by
  constructor
  · intro h
    by_contra hb
    apply h
    apply BitVec.eq_of_getLsbD_eq
    intro j hj
    interval_cases j <;> simp_all
  · intro h he
    have h7 : (b &&& 0x80).getLsbD 7 = true := by
      rw [BitVec.getLsbD_and, h]
      rfl
    rw [he] at h7
    exact absurd h7 (by decide)

/-- V of the addition is signed overflow (R250). -/
theorem addWithCarry_overflow (a m : Byte) (c : Bool) :
    (addWithCarry a m c).v = true ↔ outOfSignedRange (a.toInt + m.toInt + c.toNat) := by
  have hr : (addWithCarry a m c).r.toNat = (a.toNat + m.toNat + c.toNat) % 256 := by
    simp [addWithCarry]
  have hc : c.toNat ≤ 1 := by cases c <;> simp
  have hv : (addWithCarry a m c).v = true
      ↔ (a.getLsbD 7 = m.getLsbD 7 ∧ (addWithCarry a m c).r.getLsbD 7 ≠ a.getLsbD 7) := by
    show decide ((a ^^^ (addWithCarry a m c).r) &&& (m ^^^ (addWithCarry a m c).r) &&& 0x80 ≠ 0)
      = true ↔ _
    rw [decide_eq_true_iff, and_sign]
    rw [BitVec.getLsbD_and, BitVec.getLsbD_xor, BitVec.getLsbD_xor]
    cases a.getLsbD 7 <;> cases m.getLsbD 7 <;> cases (addWithCarry a m c).r.getLsbD 7 <;> simp
  rw [hv, sign_bit (addWithCarry a m c).r, hr]
  unfold outOfSignedRange
  have ha' := a.isLt
  have hm' := m.isLt
  rcases toInt_cases a with ⟨h1, h2, h3⟩ | ⟨h1, h2, h3⟩ <;>
  rcases toInt_cases m with ⟨g1, g2, g3⟩ | ⟨g1, g2, g3⟩ <;>
    rw [h1, h2, g1, g2] <;> simp <;> omega

theorem xor_ff_toNat (m : Byte) : (m ^^^ 0xFF).toNat = 255 - m.toNat := by
  have h : m ^^^ 0xFF#8 = ~~~ m := by
    apply BitVec.eq_of_getLsbD_eq
    intro j hj
    interval_cases j <;> simp
  show (m ^^^ 0xFF#8).toNat = _
  rw [h, BitVec.toNat_not]

theorem xor_ff_toInt (m : Byte) : (m ^^^ 0xFF).toInt = -1 - m.toInt := by
  have h := xor_ff_toNat m
  have hm := m.isLt
  rcases toInt_cases m with ⟨-, h2, h3⟩ | ⟨-, h2, h3⟩ <;>
  rcases toInt_cases (m ^^^ 0xFF) with ⟨-, g2, g3⟩ | ⟨-, g2, g3⟩ <;> omega

/-- Subtraction as integers (R250): result, borrow, signed overflow. -/
theorem subWithCarry_exact (a m : Byte) (c : Bool) :
    ((subWithCarry a m c).r.toNat : Int)
        = a.toNat - m.toNat - (1 - c.toNat : Nat) + 256 * (1 - (subWithCarry a m c).c.toNat)
      ∧ ((subWithCarry a m c).c = true ↔ m.toNat + (1 - c.toNat) ≤ a.toNat)
      ∧ ((subWithCarry a m c).v = true
        ↔ outOfSignedRange (a.toInt - m.toInt - (1 - c.toNat : Nat))) := by
  have hc : c.toNat ≤ 1 := by cases c <;> simp
  have hm := m.isLt
  have h1 := addWithCarry_exact a (m ^^^ 0xFF) c
  have h2 := xor_ff_toNat m
  have h3 : (addWithCarry a (m ^^^ 0xFF) c).c = decide (255 < a.toNat + (255 - m.toNat) + c.toNat) := by
    simp only [addWithCarry, h2]
  refine ⟨?_, ?_, ?_⟩
  · unfold subWithCarry
    rw [h2] at h1
    have : (addWithCarry a (m ^^^ 0xFF) c).c.toNat ≤ 1 := by
      cases (addWithCarry a (m ^^^ 0xFF) c).c <;> simp
    omega
  · unfold subWithCarry
    rw [h3, decide_eq_true_iff]
    omega
  · unfold subWithCarry
    rw [addWithCarry_overflow, xor_ff_toInt]
    unfold outOfSignedRange
    omega

/-- The four shifts as numbers (R266 to R269). -/
theorem shiftResult_asl (m : Byte) (c : Bool) :
    (shiftResult .asl m c).1.toNat = m.toNat * 2 % 256
      ∧ (shiftResult .asl m c).2 = decide (128 ≤ m.toNat) := by
  refine ⟨?_, sign_bit m⟩
  simp [shiftResult, BitVec.toNat_shiftLeft, Nat.shiftLeft_eq]

theorem low_bit (m : Byte) : m.getLsbD 0 = decide (m.toNat % 2 = 1) := by
  rw [BitVec.getLsbD, Nat.testBit_zero]

theorem shiftResult_lsr (m : Byte) (c : Bool) :
    (shiftResult .lsr m c).1.toNat = m.toNat / 2
      ∧ (shiftResult .lsr m c).2 = decide (m.toNat % 2 = 1) := by
  refine ⟨?_, low_bit m⟩
  simp [shiftResult, BitVec.toNat_ushiftRight, Nat.shiftRight_eq_div_pow]

theorem rotateLeft_eq (m : Byte) (c : Bool) :
    ((m <<< 1) ||| (BitVec.ofBool c).setWidth 8).toNat = (m.toNat * 2 + c.toNat) % 256 := by
  have hm := m.isLt
  cases c
  · have : ((m <<< 1) ||| (BitVec.ofBool false).setWidth 8) = m <<< 1 := by simp
    rw [this]
    simp [BitVec.toNat_shiftLeft, Nat.shiftLeft_eq]
  · have : ((m <<< 1) ||| (BitVec.ofBool true).setWidth 8) = m <<< 1 ||| 1#8 := rfl
    rw [this, BitVec.toNat_or, BitVec.toNat_shiftLeft, Nat.shiftLeft_eq]
    have h2 : m.toNat * 2 ^ 1 % 2 ^ 8 = 2 ^ 1 * (m.toNat % 128) := by omega
    rw [h2]
    show 2 ^ 1 * (m.toNat % 128) ||| 1 = _
    rw [← Nat.two_pow_add_eq_or_of_lt (by omega)]
    simp
    omega

theorem rotateRight_eq (m : Byte) (c : Bool) :
    ((m >>> 1) ||| ((BitVec.ofBool c).setWidth 8 <<< 7)).toNat = m.toNat / 2 + 128 * c.toNat := by
  have hm := m.isLt
  cases c
  · have : ((m >>> 1) ||| ((BitVec.ofBool false).setWidth 8 <<< 7)) = m >>> 1 := by simp
    rw [this]
    simp [BitVec.toNat_ushiftRight, Nat.shiftRight_eq_div_pow]
  · have : ((m >>> 1) ||| ((BitVec.ofBool true).setWidth 8 <<< 7)) = 128#8 ||| m >>> 1 := by
      rw [BitVec.or_comm]; rfl
    rw [this, BitVec.toNat_or, BitVec.toNat_ushiftRight, Nat.shiftRight_eq_div_pow]
    show 2 ^ 7 * 1 ||| m.toNat / 2 ^ 1 = _
    rw [← Nat.two_pow_add_eq_or_of_lt (by omega)]
    simp
    omega

theorem shiftResult_rol (m : Byte) (c : Bool) :
    (shiftResult .rol m c).1.toNat = (m.toNat * 2 + c.toNat) % 256
      ∧ (shiftResult .rol m c).2 = decide (128 ≤ m.toNat) :=
  ⟨rotateLeft_eq m c, sign_bit m⟩

theorem shiftResult_ror (m : Byte) (c : Bool) :
    (shiftResult .ror m c).1.toNat = m.toNat / 2 + 128 * c.toNat
      ∧ (shiftResult .ror m c).2 = decide (m.toNat % 2 = 1) :=
  ⟨rotateRight_eq m c, low_bit m⟩

theorem sub_sign (a m : Byte) :
    (a - m).getLsbD 7 = decide (128 ≤ (a.toNat + 256 - m.toNat) % 256) := by
  rw [sign_bit]
  congr 2
  bv_omega

theorem sub_eq_zero_decide (a m : Byte) : decide (a - m = 0) = decide (a = m) := by
  rw [decide_eq_decide]
  constructor <;> intro h <;> bv_omega

/-! ### The shared operations of the meanings, with their frame -/

theorem withP_flag (s : State) (p : Byte) (f : Flag) : (s.withP p).flag f = flagOf f p := rfl

/-- A write to a plain storing address after the operand's read: one byte. -/
theorem readAddr_write_read (s : State) (a : Addr) (hw : s.mem.wf)
    (hs : s.storesByte (s.resolve a).ea = true) (r : Byte) (n : Nat) :
    ((s.readAddr a).s.memWrite (s.resolve a).ea r).mem.read n
      = if n = (norm (s.resolve a).ea).toNat then r else s.mem.read n := by
  have h2 : (s.readAddr a).s.storesByte (s.resolve a).ea = true := by
    unfold State.storesByte at *
    simpa using hs
  rw [memWrite_store _ h2]
  simp only [State.store, readAddr_s_mem]
  rw [read_write hw]
  simp only [eq_comm]

/-- INC and DEC of memory (R260, R261). -/
theorem stepMemory_eq (s : State) (a : Addr) (d : Byte) :
    s.stepMemory a d
      = (let q := s.readAddr a
        let w := q.s.memWrite (s.resolve a).ea (q.m + d)
        { w with
          p := nzP s (q.m + d)
          pc := s.pc + BitVec.ofNat 16 (modeSize a.mode), cyc := w.cyc + rmwCost a.mode }) := by
  simp only [State.stepMemory, setNZ_eq, memWrite_withP, State.finish, readAddr_ea, nzP_readAddr]
  simp [State.withP]

/-- Shifts of A (R266 to R269). -/
theorem shift_acc_eq (s : State) (k : Shift) :
    s.shift k .acc
      = (let r := shiftResult k s.a (s.flag .c)
        { s with a := r.1, p := nzcP s r.1 r.2, pc := s.pc + 1, cyc := s.cyc + 2 }) := by
  simp only [State.shift, setC_setNZ_eq]
  rfl

/-- Shifts of memory (R266 to R269). -/
theorem shift_mem_eq (s : State) (k : Shift) (a : Addr) :
    s.shift k (.mem a)
      = (let q := s.readAddr a
        let r := shiftResult k q.m (s.flag .c)
        let w := q.s.memWrite (s.resolve a).ea r.1
        { w with
          p := nzcP s r.1 r.2
          pc := s.pc + BitVec.ofNat 16 (modeSize a.mode), cyc := w.cyc + rmwCost a.mode }) := by
  simp only [State.shift, setC_setNZ_eq, memWrite_withP, State.finish, readAddr_ea, nzcP_readAddr]
  simp [State.withP, State.flag]

theorem setFlag_readAddr (s : State) (a : Addr) (c : Bool) (ea : Word) (r : Byte) :
    ((s.readAddr a).s.setFlag .c c).memWrite ea r
      = ((s.readAddr a).s.memWrite ea r).withP ((s.readAddr a).s.setFlag .c c).p := by
  rw [← memWrite_withP]
  rfl

/-- SLO, RLA, SRE (R351 to R353). -/
theorem shiftThenLogic_eq (s : State) (k : Shift) (a : Addr) (f : Byte → Byte → Byte) :
    s.shiftThenLogic k a f
      = (let q := s.readAddr a
        let r := shiftResult k q.m (s.flag .c)
        let n := f s.a r.1
        let w := q.s.memWrite (s.resolve a).ea r.1
        { w with
          a := n, p := nzcP s n r.2
          pc := s.pc + BitVec.ofNat 16 (modeSize a.mode), cyc := w.cyc + rmwCost a.mode }) := by
  have hf : (s.readAddr a).s.flag .c = s.flag .c := by simp [State.flag]
  simp only [State.shiftThenLogic, setFlag_readAddr, readAddr_ea, hf]
  generalize shiftResult k (s.readAddr a).m (s.flag .c) = r
  rw [setNZ_eq]
  simp only [State.withP, nzP, State.finish, State.flag, nzcP]
  simp [flagOf_withFlag]

end Sys2Proof.Machine
end

