-- ==== Sys2Proof/Laws/Cost.lean ====
section
/-! SUPPORT. The cost of each instruction against its row of the opcode table (spec/30_encoding.md R146 to R148). -/

namespace Sys2Proof.Machine

/-- The page-cross condition of an operand. -/
theorem readSrc_crossed (s : State) (a : Addr) : (s.readSrc (.mem a)).crossed = (s.resolve a).crossed := rfl

/-- The table cost of an instruction that reads its operand. -/
theorem tableCost_read (i : Instr) (s : State) (a : Addr) (d : Descriptor) (hd : descrOf i = some d) (ha : operandOf i = some a) (hs : isStore i = false)
  (hr : d.rule = .page ∨ d.rule = .none) :
  tableCost i s = d.cycles + if d.rule = .page then pageCost (s.resolve a).crossed else 0 := by
  unfold tableCost
  rw [hd, ha]
  simp only [hs]
  rcases hr with h | h <;> simp [h, pageCost]

/-- The table cost of an instruction that stores to its operand. -/
theorem tableCost_store (i : Instr) (s : State) (a : Addr) (d : Descriptor) (hd : descrOf i = some d) (ha : operandOf i = some a) (hs : isStore i = true)
  (hr : d.rule = .none) :
  tableCost i s = d.cycles + if norm (s.resolve a).ea = 0x4014 then 512 else 0 := by
  unfold tableCost
  rw [hd, ha]
  simp only [hs]
  simp [hr]

/-- The table cost without an addressed operand. -/
theorem tableCost_plain (i : Instr) (s : State) (d : Descriptor) (hd : descrOf i = some d) (ha : operandOf i = none) 
  (hr : d.rule = .none) :
  tableCost i s = d.cycles  := by
  unfold tableCost
  rw [hd, ha]
  simp [hr]

/-- The cost the operation adds. -/
theorem load_cyc (s : State) (o : Src) (put : State → Byte → State) (h : ∀ t v, (put t v).cyc = t.cyc) : (s.load o put).cyc = s.cyc + readCost o.mode (s.readSrc o).crossed := by
  simp [State.load, State.finish, h]

/-- The cost the operation adds. -/
theorem storeReg_cyc (s : State) (a : Addr) (v : Byte) : (s.storeReg a v).cyc = s.cyc + ((if norm (s.resolve a).ea = 0x4014 then 512 else 0) + writeCost a.mode) := by
  simp [State.storeReg, State.finish, memWrite_cyc]; omega

/-- The cost the operation adds. -/
theorem logic_cyc (s : State) (o : Src) (f) : (s.logic o f).cyc = s.cyc + readCost o.mode (s.readSrc o).crossed := by
  simp [State.logic, State.finish]

/-- The cost the operation adds. -/
theorem compareReg_cyc (s : State) (o : Src) (f) : (s.compareReg o f).cyc = s.cyc + readCost o.mode (s.readSrc o).crossed := by
  simp [State.compareReg, State.finish]

/-- The cost the operation adds. -/
theorem stepMemory_cyc (s : State) (a : Addr) (f) : (s.stepMemory a f).cyc = s.cyc + ((if norm (s.resolve a).ea = 0x4014 then 512 else 0) + rmwCost a.mode) := by
  simp [State.stepMemory, State.finish, memWrite_cyc]; omega

/-- The cost the operation adds. -/
theorem shift_cyc (s : State) (k) (a : Addr) : (s.shift k (.mem a)).cyc = s.cyc + ((if norm (s.resolve a).ea = 0x4014 then 512 else 0) + rmwCost a.mode) := by
  simp [State.shift, State.finish, memWrite_cyc]; omega

/-- The cost the operation adds. -/
theorem shiftThenLogic_cyc (s : State) (k) (a : Addr) (f) : (s.shiftThenLogic k a f).cyc = s.cyc + ((if norm (s.resolve a).ea = 0x4014 then 512 else 0) + rmwCost a.mode) := by
  simp [State.shiftThenLogic, State.finish, memWrite_cyc]; omega

/-- The cost of LDA by the table. -/
theorem cost_lda (s : State) (o : Src) (h : (Instr.lda o).wellFormed = true) : readCost o.mode (s.readSrc o).crossed = tableCost (.lda o) s := by
  rcases o with b | a
  · first | exact (Bool.false_ne_true h).elim | (refine Eq.trans ?_ (tableCost_plain _ s _ rfl rfl rfl).symm; rfl)
  · cases a <;> first | exact (Bool.false_ne_true h).elim | (refine Eq.trans ?_ (tableCost_read _ _ _ _ rfl rfl rfl ?_).symm; rfl; first | exact .inl rfl | exact .inr rfl)

/-- The cost of LDX by the table. -/
theorem cost_ldx (s : State) (o : Src) (h : (Instr.ldx o).wellFormed = true) : readCost o.mode (s.readSrc o).crossed = tableCost (.ldx o) s := by
  rcases o with b | a
  · first | exact (Bool.false_ne_true h).elim | (refine Eq.trans ?_ (tableCost_plain _ s _ rfl rfl rfl).symm; rfl)
  · cases a <;> first | exact (Bool.false_ne_true h).elim | (refine Eq.trans ?_ (tableCost_read _ _ _ _ rfl rfl rfl ?_).symm; rfl; first | exact .inl rfl | exact .inr rfl)

/-- The cost of LDY by the table. -/
theorem cost_ldy (s : State) (o : Src) (h : (Instr.ldy o).wellFormed = true) : readCost o.mode (s.readSrc o).crossed = tableCost (.ldy o) s := by
  rcases o with b | a
  · first | exact (Bool.false_ne_true h).elim | (refine Eq.trans ?_ (tableCost_plain _ s _ rfl rfl rfl).symm; rfl)
  · cases a <;> first | exact (Bool.false_ne_true h).elim | (refine Eq.trans ?_ (tableCost_read _ _ _ _ rfl rfl rfl ?_).symm; rfl; first | exact .inl rfl | exact .inr rfl)

/-- The cost of ADC by the table. -/
theorem cost_adc (s : State) (o : Src) (h : (Instr.adc o).wellFormed = true) : readCost o.mode (s.readSrc o).crossed = tableCost (.adc o) s := by
  rcases o with b | a
  · first | exact (Bool.false_ne_true h).elim | (refine Eq.trans ?_ (tableCost_plain _ s _ rfl rfl rfl).symm; rfl)
  · cases a <;> first | exact (Bool.false_ne_true h).elim | (refine Eq.trans ?_ (tableCost_read _ _ _ _ rfl rfl rfl ?_).symm; rfl; first | exact .inl rfl | exact .inr rfl)

/-- The cost of SBC by the table. -/
theorem cost_sbc (s : State) (o : Src) (h : (Instr.sbc o).wellFormed = true) : readCost o.mode (s.readSrc o).crossed = tableCost (.sbc o) s := by
  rcases o with b | a
  · first | exact (Bool.false_ne_true h).elim | (refine Eq.trans ?_ (tableCost_plain _ s _ rfl rfl rfl).symm; rfl)
  · cases a <;> first | exact (Bool.false_ne_true h).elim | (refine Eq.trans ?_ (tableCost_read _ _ _ _ rfl rfl rfl ?_).symm; rfl; first | exact .inl rfl | exact .inr rfl)

/-- The cost of AND by the table. -/
theorem cost_and (s : State) (o : Src) (h : (Instr.and o).wellFormed = true) : readCost o.mode (s.readSrc o).crossed = tableCost (.and o) s := by
  rcases o with b | a
  · first | exact (Bool.false_ne_true h).elim | (refine Eq.trans ?_ (tableCost_plain _ s _ rfl rfl rfl).symm; rfl)
  · cases a <;> first | exact (Bool.false_ne_true h).elim | (refine Eq.trans ?_ (tableCost_read _ _ _ _ rfl rfl rfl ?_).symm; rfl; first | exact .inl rfl | exact .inr rfl)

/-- The cost of ORA by the table. -/
theorem cost_ora (s : State) (o : Src) (h : (Instr.ora o).wellFormed = true) : readCost o.mode (s.readSrc o).crossed = tableCost (.ora o) s := by
  rcases o with b | a
  · first | exact (Bool.false_ne_true h).elim | (refine Eq.trans ?_ (tableCost_plain _ s _ rfl rfl rfl).symm; rfl)
  · cases a <;> first | exact (Bool.false_ne_true h).elim | (refine Eq.trans ?_ (tableCost_read _ _ _ _ rfl rfl rfl ?_).symm; rfl; first | exact .inl rfl | exact .inr rfl)

/-- The cost of EOR by the table. -/
theorem cost_eor (s : State) (o : Src) (h : (Instr.eor o).wellFormed = true) : readCost o.mode (s.readSrc o).crossed = tableCost (.eor o) s := by
  rcases o with b | a
  · first | exact (Bool.false_ne_true h).elim | (refine Eq.trans ?_ (tableCost_plain _ s _ rfl rfl rfl).symm; rfl)
  · cases a <;> first | exact (Bool.false_ne_true h).elim | (refine Eq.trans ?_ (tableCost_read _ _ _ _ rfl rfl rfl ?_).symm; rfl; first | exact .inl rfl | exact .inr rfl)

/-- The cost of CMP by the table. -/
theorem cost_cmp (s : State) (o : Src) (h : (Instr.cmp o).wellFormed = true) : readCost o.mode (s.readSrc o).crossed = tableCost (.cmp o) s := by
  rcases o with b | a
  · first | exact (Bool.false_ne_true h).elim | (refine Eq.trans ?_ (tableCost_plain _ s _ rfl rfl rfl).symm; rfl)
  · cases a <;> first | exact (Bool.false_ne_true h).elim | (refine Eq.trans ?_ (tableCost_read _ _ _ _ rfl rfl rfl ?_).symm; rfl; first | exact .inl rfl | exact .inr rfl)

/-- The cost of CPX by the table. -/
theorem cost_cpx (s : State) (o : Src) (h : (Instr.cpx o).wellFormed = true) : readCost o.mode (s.readSrc o).crossed = tableCost (.cpx o) s := by
  rcases o with b | a
  · first | exact (Bool.false_ne_true h).elim | (refine Eq.trans ?_ (tableCost_plain _ s _ rfl rfl rfl).symm; rfl)
  · cases a <;> first | exact (Bool.false_ne_true h).elim | (refine Eq.trans ?_ (tableCost_read _ _ _ _ rfl rfl rfl ?_).symm; rfl; first | exact .inl rfl | exact .inr rfl)

/-- The cost of CPY by the table. -/
theorem cost_cpy (s : State) (o : Src) (h : (Instr.cpy o).wellFormed = true) : readCost o.mode (s.readSrc o).crossed = tableCost (.cpy o) s := by
  rcases o with b | a
  · first | exact (Bool.false_ne_true h).elim | (refine Eq.trans ?_ (tableCost_plain _ s _ rfl rfl rfl).symm; rfl)
  · cases a <;> first | exact (Bool.false_ne_true h).elim | (refine Eq.trans ?_ (tableCost_read _ _ _ _ rfl rfl rfl ?_).symm; rfl; first | exact .inl rfl | exact .inr rfl)

/-- The cost of BIT by the table. -/
theorem cost_bit (s : State) (a : Addr) (h : (Instr.bit a).wellFormed = true) : readCost a.mode (s.resolve a).crossed = tableCost (.bit a) s := by
  cases a <;> first | exact (Bool.false_ne_true h).elim | (refine Eq.trans ?_ (tableCost_read _ _ _ _ rfl rfl rfl ?_).symm; rfl; first | exact .inl rfl | exact .inr rfl)

/-- The cost of LAX by the table. -/
theorem cost_lax (s : State) (a : Addr) (h : (Instr.lax a).wellFormed = true) : readCost a.mode (s.resolve a).crossed = tableCost (.lax a) s := by
  cases a <;> first | exact (Bool.false_ne_true h).elim | (refine Eq.trans ?_ (tableCost_read _ _ _ _ rfl rfl rfl ?_).symm; rfl; first | exact .inl rfl | exact .inr rfl)

/-- The cost of STA by the table. -/
theorem cost_sta (s : State) (a : Addr) (h : (Instr.sta a).wellFormed = true) : ((if norm (s.resolve a).ea = 0x4014 then 512 else 0) + writeCost a.mode) = tableCost (.sta a) s := by
  rw [Nat.add_comm]
  cases a <;> first | exact (Bool.false_ne_true h).elim | (refine Eq.trans ?_ (tableCost_store _ _ _ _ rfl rfl rfl ?_).symm; rfl; exact rfl)

/-- The cost of STX by the table. -/
theorem cost_stx (s : State) (a : Addr) (h : (Instr.stx a).wellFormed = true) : ((if norm (s.resolve a).ea = 0x4014 then 512 else 0) + writeCost a.mode) = tableCost (.stx a) s := by
  rw [Nat.add_comm]
  cases a <;> first | exact (Bool.false_ne_true h).elim | (refine Eq.trans ?_ (tableCost_store _ _ _ _ rfl rfl rfl ?_).symm; rfl; exact rfl)

/-- The cost of STY by the table. -/
theorem cost_sty (s : State) (a : Addr) (h : (Instr.sty a).wellFormed = true) : ((if norm (s.resolve a).ea = 0x4014 then 512 else 0) + writeCost a.mode) = tableCost (.sty a) s := by
  rw [Nat.add_comm]
  cases a <;> first | exact (Bool.false_ne_true h).elim | (refine Eq.trans ?_ (tableCost_store _ _ _ _ rfl rfl rfl ?_).symm; rfl; exact rfl)

/-- The cost of SAX by the table. -/
theorem cost_sax (s : State) (a : Addr) (h : (Instr.sax a).wellFormed = true) : ((if norm (s.resolve a).ea = 0x4014 then 512 else 0) + writeCost a.mode) = tableCost (.sax a) s := by
  rw [Nat.add_comm]
  cases a <;> first | exact (Bool.false_ne_true h).elim | (refine Eq.trans ?_ (tableCost_store _ _ _ _ rfl rfl rfl ?_).symm; rfl; exact rfl)

/-- The cost of INC by the table. -/
theorem cost_inc (s : State) (a : Addr) (h : (Instr.inc a).wellFormed = true) : ((if norm (s.resolve a).ea = 0x4014 then 512 else 0) + rmwCost a.mode) = tableCost (.inc a) s := by
  rw [Nat.add_comm]
  cases a <;> first | exact (Bool.false_ne_true h).elim | (refine Eq.trans ?_ (tableCost_store _ _ _ _ rfl rfl rfl ?_).symm; rfl; exact rfl)

/-- The cost of DEC by the table. -/
theorem cost_dec (s : State) (a : Addr) (h : (Instr.dec a).wellFormed = true) : ((if norm (s.resolve a).ea = 0x4014 then 512 else 0) + rmwCost a.mode) = tableCost (.dec a) s := by
  rw [Nat.add_comm]
  cases a <;> first | exact (Bool.false_ne_true h).elim | (refine Eq.trans ?_ (tableCost_store _ _ _ _ rfl rfl rfl ?_).symm; rfl; exact rfl)

/-- The cost of SLO by the table. -/
theorem cost_slo (s : State) (a : Addr) (h : (Instr.slo a).wellFormed = true) : ((if norm (s.resolve a).ea = 0x4014 then 512 else 0) + rmwCost a.mode) = tableCost (.slo a) s := by
  rw [Nat.add_comm]
  cases a <;> first | exact (Bool.false_ne_true h).elim | (refine Eq.trans ?_ (tableCost_store _ _ _ _ rfl rfl rfl ?_).symm; rfl; exact rfl)

/-- The cost of RLA by the table. -/
theorem cost_rla (s : State) (a : Addr) (h : (Instr.rla a).wellFormed = true) : ((if norm (s.resolve a).ea = 0x4014 then 512 else 0) + rmwCost a.mode) = tableCost (.rla a) s := by
  rw [Nat.add_comm]
  cases a <;> first | exact (Bool.false_ne_true h).elim | (refine Eq.trans ?_ (tableCost_store _ _ _ _ rfl rfl rfl ?_).symm; rfl; exact rfl)

/-- The cost of SRE by the table. -/
theorem cost_sre (s : State) (a : Addr) (h : (Instr.sre a).wellFormed = true) : ((if norm (s.resolve a).ea = 0x4014 then 512 else 0) + rmwCost a.mode) = tableCost (.sre a) s := by
  rw [Nat.add_comm]
  cases a <;> first | exact (Bool.false_ne_true h).elim | (refine Eq.trans ?_ (tableCost_store _ _ _ _ rfl rfl rfl ?_).symm; rfl; exact rfl)

/-- The cost of RRA by the table. -/
theorem cost_rra (s : State) (a : Addr) (h : (Instr.rra a).wellFormed = true) : ((if norm (s.resolve a).ea = 0x4014 then 512 else 0) + rmwCost a.mode) = tableCost (.rra a) s := by
  rw [Nat.add_comm]
  cases a <;> first | exact (Bool.false_ne_true h).elim | (refine Eq.trans ?_ (tableCost_store _ _ _ _ rfl rfl rfl ?_).symm; rfl; exact rfl)

/-- The cost of DCP by the table. -/
theorem cost_dcp (s : State) (a : Addr) (h : (Instr.dcp a).wellFormed = true) : ((if norm (s.resolve a).ea = 0x4014 then 512 else 0) + rmwCost a.mode) = tableCost (.dcp a) s := by
  rw [Nat.add_comm]
  cases a <;> first | exact (Bool.false_ne_true h).elim | (refine Eq.trans ?_ (tableCost_store _ _ _ _ rfl rfl rfl ?_).symm; rfl; exact rfl)

/-- The cost of ISC by the table. -/
theorem cost_isc (s : State) (a : Addr) (h : (Instr.isc a).wellFormed = true) : ((if norm (s.resolve a).ea = 0x4014 then 512 else 0) + rmwCost a.mode) = tableCost (.isc a) s := by
  rw [Nat.add_comm]
  cases a <;> first | exact (Bool.false_ne_true h).elim | (refine Eq.trans ?_ (tableCost_store _ _ _ _ rfl rfl rfl ?_).symm; rfl; exact rfl)

/-- The cost of ASL by the table. -/
theorem cost_asl (s : State) (o : Dst) (h : (Instr.asl o).wellFormed = true) : (s.shift .asl o).cyc = s.cyc + tableCost (.asl o) s := by
  rcases o with _ | a
  · rw [tableCost_plain _ s _ rfl rfl rfl]; try rfl
  · rw [shift_cyc, Nat.add_comm (ite _ _ _)]; congr 1
    cases a <;> first | exact (Bool.false_ne_true h).elim | (refine Eq.trans ?_ (tableCost_store _ _ _ _ rfl rfl rfl ?_).symm; rfl; exact rfl)

/-- The cost of LSR by the table. -/
theorem cost_lsr (s : State) (o : Dst) (h : (Instr.lsr o).wellFormed = true) : (s.shift .lsr o).cyc = s.cyc + tableCost (.lsr o) s := by
  rcases o with _ | a
  · rw [tableCost_plain _ s _ rfl rfl rfl]; try rfl
  · rw [shift_cyc, Nat.add_comm (ite _ _ _)]; congr 1
    cases a <;> first | exact (Bool.false_ne_true h).elim | (refine Eq.trans ?_ (tableCost_store _ _ _ _ rfl rfl rfl ?_).symm; rfl; exact rfl)

/-- The cost of ROL by the table. -/
theorem cost_rol (s : State) (o : Dst) (h : (Instr.rol o).wellFormed = true) : (s.shift .rol o).cyc = s.cyc + tableCost (.rol o) s := by
  rcases o with _ | a
  · rw [tableCost_plain _ s _ rfl rfl rfl]; try rfl
  · rw [shift_cyc, Nat.add_comm (ite _ _ _)]; congr 1
    cases a <;> first | exact (Bool.false_ne_true h).elim | (refine Eq.trans ?_ (tableCost_store _ _ _ _ rfl rfl rfl ?_).symm; rfl; exact rfl)

/-- The cost of ROR by the table. -/
theorem cost_ror (s : State) (o : Dst) (h : (Instr.ror o).wellFormed = true) : (s.shift .ror o).cyc = s.cyc + tableCost (.ror o) s := by
  rcases o with _ | a
  · rw [tableCost_plain _ s _ rfl rfl rfl]; try rfl
  · rw [shift_cyc, Nat.add_comm (ite _ _ _)]; congr 1
    cases a <;> first | exact (Bool.false_ne_true h).elim | (refine Eq.trans ?_ (tableCost_store _ _ _ _ rfl rfl rfl ?_).symm; rfl; exact rfl)

/-- A push costs nothing by itself. -/
theorem push_cyc (s : State) (v : Byte) : (s.push v).cyc = s.cyc := by rw [push_eq]

/-- The cost of a branch (R148). -/
theorem branch_cyc (s : State) (i : Instr) (d : Descriptor) (c : Bool) (b : Byte) (h : descrOf i = some d) (hd : d = ⟨d.mnemonic, .rel, 2, 2, .branch, true⟩) (ho : operandOf i = none) (hc : branchTaken i s = c) (hb : displacementOf i = b) :
  (s.branch c b).cyc = s.cyc + tableCost i s := by
  unfold tableCost State.branch
  rw [h, hd, ho, hc, hb]
  cases c <;> simp [State.transfer, pageCost]; omega

end Sys2Proof.Machine
end

