-- ==== Sys2Proof/Laws/Exceptions.lean ====
section
/-! SUPPORT. Taking an exception and returning from one: everything they do, in the words of the
statements. -/

namespace Sys2Proof.Machine

/-- Slots of the stack below one pointer are different bytes. -/
theorem stackSlot_ne (sp : Byte) {j k : Byte} (h : j ≠ k) : stackSlot sp j ≠ stackSlot sp k := by
  unfold stackSlot
  intro e
  apply h
  bv_omega

theorem stackSlot_zero (sp : Byte) : stackSlot sp 0 = 0x100 + sp.toNat := by simp [stackSlot]

/-- Taking an exception is the entry of R602. -/
theorem takeVector_entry (s : State) (hw : s.mem.wf) (ret : Word) (b : Bool) {v : Word}
    (h : 0x8000 ≤ v.toNat) (h' : v.toNat < 0xFFFF) :
    EntryFrom s (s.takeVector ret b v) ret b v.toNat := by
  have h01 := stackSlot_ne s.sp (j := 0) (k := 1) (by decide)
  have h02 := stackSlot_ne s.sp (j := 0) (k := 2) (by decide)
  have h12 := stackSlot_ne s.sp (j := 1) (k := 2) (by decide)
  have hlt : ∀ k, stackSlot s.sp k < 0x8000 := fun k => by
    have := (s.sp - k).isLt
    unfold stackSlot
    omega
  have hmem : ∀ n, Memory.read (((s.mem.write (0x100 + s.sp.toNat) (hiByte ret)).write
      (0x100 + (s.sp - 1).toNat) (loByte ret)).write (0x100 + (s.sp - 2).toNat)
      (packP (s.flag .n) (s.flag .v) b (s.flag .d) (s.flag .i) (s.flag .z) (s.flag .c))) n
      = stackedByte s ret b n := by
    intro n
    rw [← stackSlot_zero]
    change Memory.read (((s.mem.write (stackSlot s.sp 0) (hiByte ret)).write
      (stackSlot s.sp 1) (loByte ret)).write (stackSlot s.sp 2) _) n = _
    rw [read_write (wf_write (wf_write hw _ _) _ _), read_write (wf_write hw _ _), read_write hw]
    unfold stackedByte
    by_cases h0 : stackSlot s.sp 0 = n
    · rw [if_neg (by omega), if_neg (by omega), if_pos h0, if_pos h0.symm]
    · by_cases h1 : stackSlot s.sp 1 = n
      · rw [if_neg (by omega), if_pos h1, if_neg (Ne.symm h0), if_pos h1.symm]
      · by_cases h2 : stackSlot s.sp 2 = n
        · rw [if_pos h2, if_neg (Ne.symm h0), if_neg (Ne.symm h1), if_pos h2.symm]
        · rw [if_neg h2, if_neg h1, if_neg h0, if_neg (Ne.symm h0), if_neg (Ne.symm h1),
            if_neg (Ne.symm h2)]
  have hhigh : ∀ n, 0x8000 ≤ n → stackedByte s ret b n = s.mem.read n := by
    intro n hn
    unfold stackedByte
    rw [if_neg (by have := hlt 0; omega), if_neg (by have := hlt 1; omega),
      if_neg (by have := hlt 2; omega)]
  rw [takeVector_eq s ret b h h']
  refine ⟨hmem, ?_⟩
  simp only [vectorWord, hmem, hhigh _ h, hhigh _ (Nat.le_succ_of_le h)]

/-- RTI (R304). -/
theorem execRti_eq (s : State) :
    execRti s = .next { s with
      sp := s.sp + 3
      p := forceBit5 (s.mem.read (0x100 + (s.sp + 1).toNat))
      pc := wordOf (s.mem.read (0x100 + (s.sp + 3).toNat)) (s.mem.read (0x100 + (s.sp + 2).toNat))
      cyc := s.cyc + 6 } := by
  unfold execRti
  simp only [returnFromInterrupt_eq, State.transfer]

/-- RTI from a state that an entry left: PC, S and the pushed status are back (R615). -/
theorem rti_of_entry {s t : State} {ret : Word} {b : Bool} {n : Nat} (h : EntryFrom s t ret b n) :
    execRti t = .next { t with
      sp := s.sp
      p := packP (s.flag .n) (s.flag .v) b (s.flag .d) (s.flag .i) (s.flag .z) (s.flag .c)
      pc := ret, cyc := t.cyc + 6 } := by
  obtain ⟨hm, ht⟩ := h
  have hsp : t.sp = s.sp - 3 := by rw [ht]
  have h01 := stackSlot_ne s.sp (j := 0) (k := 1) (by decide)
  have h02 := stackSlot_ne s.sp (j := 0) (k := 2) (by decide)
  have h12 := stackSlot_ne s.sp (j := 1) (k := 2) (by decide)
  have e3 : s.sp - 3 + 3 = s.sp := by bv_omega
  have a3 : 0x100 + s.sp.toNat = stackSlot s.sp 0 := (stackSlot_zero _).symm
  have a2 : 0x100 + (s.sp - 3 + 2).toNat = stackSlot s.sp 1 := by
    unfold stackSlot
    congr 2
    bv_omega
  have a1 : 0x100 + (s.sp - 3 + 1).toNat = stackSlot s.sp 2 := by
    unfold stackSlot
    congr 2
    bv_omega
  rw [execRti_eq]
  simp only [hsp, hm, e3, a1, a2, a3]
  have r0 : stackedByte s ret b (stackSlot s.sp 0) = hiByte ret := by
    unfold stackedByte
    rw [if_pos rfl]
  have r1 : stackedByte s ret b (stackSlot s.sp 1) = loByte ret := by
    unfold stackedByte
    rw [if_neg (Ne.symm h01), if_pos rfl]
  have r2 : stackedByte s ret b (stackSlot s.sp 2)
      = packP (s.flag .n) (s.flag .v) b (s.flag .d) (s.flag .i) (s.flag .z) (s.flag .c) := by
    unfold stackedByte
    rw [if_neg (Ne.symm h02), if_neg (Ne.symm h12), if_pos rfl]
  rw [r0, r1, r2, wordOf_hi_lo, forceBit5_eq_packP]
  simp

/-! ### The two entries with their accumulation -/

theorem takeVector_keeps (s : State) (ret : Word) (b : Bool) {v : Word} (h : 0x8000 ≤ v.toNat)
    (h' : v.toNat < 0xFFFF) :
    (s.takeVector ret b v).cyclesTotal = s.cyclesTotal ∧ (s.takeVector ret b v).ppu = s.ppu
      ∧ (s.takeVector ret b v).cfg = s.cfg ∧ (s.takeVector ret b v).cyc = s.cyc
      ∧ (s.takeVector ret b v).irqPending = s.irqPending
      ∧ (s.takeVector ret b v).mapper = s.mapper ∧ (s.takeVector ret b v).events = s.events := by
  rw [takeVector_eq s ret b h h']
  exact ⟨rfl, rfl, rfl, rfl, rfl, rfl, rfl⟩

theorem nmiVector_toNat : nmiVector.toNat = 0xFFFA := by decide
theorem irqVector_toNat : irqVector.toNat = 0xFFFE := by decide

/-- `Accumulate(INT_ENTRY_CYCLES)` after an entry (R610). -/
theorem nmiEntry_eq (s : State) :
    s.nmiEntry
      = { s.takeVector s.pc false nmiVector with
          cyclesTotal := s.cyclesTotal + s.cfg.intEntryCycles
          ppu := { s.ppu with
            cyclesSinceVblank := s.ppu.cyclesSinceVblank + s.cfg.intEntryCycles
            budget := s.ppu.budget - s.cfg.intEntryCycles } } := by
  obtain ⟨h1, h2, -⟩ := takeVector_keeps s s.pc false (v := nmiVector) (by decide) (by decide)
  unfold State.nmiEntry State.accumulate
  rw [h1, h2]

theorem irqEntry_eq (s : State) :
    s.irqEntry
      = { State.takeVector { s with irqPending := false } s.pc false irqVector with
          cyclesTotal := s.cyclesTotal + s.cfg.intEntryCycles
          ppu := { s.ppu with
            cyclesSinceVblank := s.ppu.cyclesSinceVblank + s.cfg.intEntryCycles
            budget := s.ppu.budget - s.cfg.intEntryCycles } } := by
  obtain ⟨h1, h2, -⟩ := takeVector_keeps { s with irqPending := false } s.pc false (v := irqVector)
    (by decide) (by decide)
  unfold State.irqEntry State.accumulate
  rw [h1, h2]

theorem EntryFrom.counters {s t : State} {ret : Word} {b : Bool} {n : Nat}
    (h : EntryFrom s t ret b n) :
    EntryFrom s { t with cyclesTotal := s.cyclesTotal, ppu := s.ppu } ret b n := by
  obtain ⟨h1, h2⟩ := h
  refine ⟨h1, ?_⟩
  rw [h2]

theorem nmiEntry_entry (s : State) (hw : s.mem.wf) :
    EntryFrom s { s.nmiEntry with cyclesTotal := s.cyclesTotal, ppu := s.ppu } s.pc false 0xFFFA := by
  have h := (takeVector_entry s hw s.pc false (v := nmiVector) (by decide) (by decide)).counters
  rw [nmiVector_toNat] at h
  rw [nmiEntry_eq]
  generalize s.takeVector s.pc false nmiVector = t at h ⊢
  exact h

theorem irqEntry_entry (s : State) (hw : s.mem.wf) :
    EntryFrom { s with irqPending := false }
      { s.irqEntry with cyclesTotal := s.cyclesTotal, ppu := s.ppu } s.pc false 0xFFFE := by
  have h := (takeVector_entry { s with irqPending := false } hw s.pc false (v := irqVector)
    (by decide) (by decide)).counters
  rw [irqVector_toNat] at h
  rw [irqEntry_eq]
  generalize State.takeVector { s with irqPending := false } s.pc false irqVector = t at h ⊢
  exact h

/-! ### What the two entries leave alone -/

@[simp] theorem nmiEntry_halted (s : State) : s.nmiEntry.halted = s.halted := by
  rw [nmiEntry_eq, takeVector_eq _ _ _ (v := nmiVector) (by decide) (by decide)]
@[simp] theorem nmiEntry_resetPending (s : State) : s.nmiEntry.resetPending = s.resetPending := by
  rw [nmiEntry_eq, takeVector_eq _ _ _ (v := nmiVector) (by decide) (by decide)]
@[simp] theorem nmiEntry_cfg (s : State) : s.nmiEntry.cfg = s.cfg := by
  rw [nmiEntry_eq, takeVector_eq _ _ _ (v := nmiVector) (by decide) (by decide)]
@[simp] theorem nmiEntry_cart (s : State) : s.nmiEntry.cart = s.cart := by
  rw [nmiEntry_eq, takeVector_eq _ _ _ (v := nmiVector) (by decide) (by decide)]
@[simp] theorem nmiEntry_mapper (s : State) : s.nmiEntry.mapper = s.mapper := by
  rw [nmiEntry_eq, takeVector_eq _ _ _ (v := nmiVector) (by decide) (by decide)]
@[simp] theorem nmiEntry_cyc (s : State) : s.nmiEntry.cyc = s.cyc := by
  rw [nmiEntry_eq, takeVector_eq _ _ _ (v := nmiVector) (by decide) (by decide)]
@[simp] theorem nmiEntry_events (s : State) : s.nmiEntry.events = s.events := by
  rw [nmiEntry_eq, takeVector_eq _ _ _ (v := nmiVector) (by decide) (by decide)]
@[simp] theorem nmiEntry_buttons0 (s : State) : s.nmiEntry.buttons0 = s.buttons0 := by
  rw [nmiEntry_eq, takeVector_eq _ _ _ (v := nmiVector) (by decide) (by decide)]
@[simp] theorem nmiEntry_buttons1 (s : State) : s.nmiEntry.buttons1 = s.buttons1 := by
  rw [nmiEntry_eq, takeVector_eq _ _ _ (v := nmiVector) (by decide) (by decide)]
@[simp] theorem nmiEntry_pad0 (s : State) : s.nmiEntry.pad0 = s.pad0 := by
  rw [nmiEntry_eq, takeVector_eq _ _ _ (v := nmiVector) (by decide) (by decide)]
@[simp] theorem nmiEntry_pad1 (s : State) : s.nmiEntry.pad1 = s.pad1 := by
  rw [nmiEntry_eq, takeVector_eq _ _ _ (v := nmiVector) (by decide) (by decide)]
@[simp] theorem nmiEntry_a (s : State) : s.nmiEntry.a = s.a := by
  rw [nmiEntry_eq, takeVector_eq _ _ _ (v := nmiVector) (by decide) (by decide)]
@[simp] theorem nmiEntry_x (s : State) : s.nmiEntry.x = s.x := by
  rw [nmiEntry_eq, takeVector_eq _ _ _ (v := nmiVector) (by decide) (by decide)]
@[simp] theorem nmiEntry_y (s : State) : s.nmiEntry.y = s.y := by
  rw [nmiEntry_eq, takeVector_eq _ _ _ (v := nmiVector) (by decide) (by decide)]
@[simp] theorem nmiEntry_sramEnabled (s : State) : s.nmiEntry.sramEnabled = s.sramEnabled := by
  rw [nmiEntry_eq, takeVector_eq _ _ _ (v := nmiVector) (by decide) (by decide)]
@[simp] theorem nmiEntry_sramReadonly (s : State) : s.nmiEntry.sramReadonly = s.sramReadonly := by
  rw [nmiEntry_eq, takeVector_eq _ _ _ (v := nmiVector) (by decide) (by decide)]
@[simp] theorem irqEntry_halted (s : State) : s.irqEntry.halted = s.halted := by
  rw [irqEntry_eq, takeVector_eq _ _ _ (v := irqVector) (by decide) (by decide)]
@[simp] theorem irqEntry_resetPending (s : State) : s.irqEntry.resetPending = s.resetPending := by
  rw [irqEntry_eq, takeVector_eq _ _ _ (v := irqVector) (by decide) (by decide)]
@[simp] theorem irqEntry_cfg (s : State) : s.irqEntry.cfg = s.cfg := by
  rw [irqEntry_eq, takeVector_eq _ _ _ (v := irqVector) (by decide) (by decide)]
@[simp] theorem irqEntry_cart (s : State) : s.irqEntry.cart = s.cart := by
  rw [irqEntry_eq, takeVector_eq _ _ _ (v := irqVector) (by decide) (by decide)]
@[simp] theorem irqEntry_mapper (s : State) : s.irqEntry.mapper = s.mapper := by
  rw [irqEntry_eq, takeVector_eq _ _ _ (v := irqVector) (by decide) (by decide)]
@[simp] theorem irqEntry_cyc (s : State) : s.irqEntry.cyc = s.cyc := by
  rw [irqEntry_eq, takeVector_eq _ _ _ (v := irqVector) (by decide) (by decide)]
@[simp] theorem irqEntry_events (s : State) : s.irqEntry.events = s.events := by
  rw [irqEntry_eq, takeVector_eq _ _ _ (v := irqVector) (by decide) (by decide)]
@[simp] theorem irqEntry_buttons0 (s : State) : s.irqEntry.buttons0 = s.buttons0 := by
  rw [irqEntry_eq, takeVector_eq _ _ _ (v := irqVector) (by decide) (by decide)]
@[simp] theorem irqEntry_buttons1 (s : State) : s.irqEntry.buttons1 = s.buttons1 := by
  rw [irqEntry_eq, takeVector_eq _ _ _ (v := irqVector) (by decide) (by decide)]
@[simp] theorem irqEntry_pad0 (s : State) : s.irqEntry.pad0 = s.pad0 := by
  rw [irqEntry_eq, takeVector_eq _ _ _ (v := irqVector) (by decide) (by decide)]
@[simp] theorem irqEntry_pad1 (s : State) : s.irqEntry.pad1 = s.pad1 := by
  rw [irqEntry_eq, takeVector_eq _ _ _ (v := irqVector) (by decide) (by decide)]
@[simp] theorem irqEntry_a (s : State) : s.irqEntry.a = s.a := by
  rw [irqEntry_eq, takeVector_eq _ _ _ (v := irqVector) (by decide) (by decide)]
@[simp] theorem irqEntry_x (s : State) : s.irqEntry.x = s.x := by
  rw [irqEntry_eq, takeVector_eq _ _ _ (v := irqVector) (by decide) (by decide)]
@[simp] theorem irqEntry_y (s : State) : s.irqEntry.y = s.y := by
  rw [irqEntry_eq, takeVector_eq _ _ _ (v := irqVector) (by decide) (by decide)]
@[simp] theorem irqEntry_sramEnabled (s : State) : s.irqEntry.sramEnabled = s.sramEnabled := by
  rw [irqEntry_eq, takeVector_eq _ _ _ (v := irqVector) (by decide) (by decide)]
@[simp] theorem irqEntry_sramReadonly (s : State) : s.irqEntry.sramReadonly = s.sramReadonly := by
  rw [irqEntry_eq, takeVector_eq _ _ _ (v := irqVector) (by decide) (by decide)]
@[simp] theorem nmiEntry_irqPending (s : State) : s.nmiEntry.irqPending = s.irqPending := by
  rw [nmiEntry_eq, takeVector_eq _ _ _ (v := nmiVector) (by decide) (by decide)]
@[simp] theorem irqEntry_irqPending (s : State) : s.irqEntry.irqPending = false := by
  rw [irqEntry_eq, takeVector_eq _ _ _ (v := irqVector) (by decide) (by decide)]
@[simp] theorem nmiEntry_cyclesTotal (s : State) :
    s.nmiEntry.cyclesTotal = s.cyclesTotal + s.cfg.intEntryCycles := by
  rw [nmiEntry_eq]
@[simp] theorem irqEntry_cyclesTotal (s : State) :
    s.irqEntry.cyclesTotal = s.cyclesTotal + s.cfg.intEntryCycles := by
  rw [irqEntry_eq]
@[simp] theorem nmiEntry_ppu (s : State) :
    s.nmiEntry.ppu = { s.ppu with
      cyclesSinceVblank := s.ppu.cyclesSinceVblank + s.cfg.intEntryCycles
      budget := s.ppu.budget - s.cfg.intEntryCycles } := by
  rw [nmiEntry_eq]
@[simp] theorem irqEntry_ppu (s : State) :
    s.irqEntry.ppu = { s.ppu with
      cyclesSinceVblank := s.ppu.cyclesSinceVblank + s.cfg.intEntryCycles
      budget := s.ppu.budget - s.cfg.intEntryCycles } := by
  rw [irqEntry_eq]
/-- The flags but I are as they were, I is set: a second request is masked. -/
theorem irqEntry_flag_i (s : State) : s.irqEntry.flag .i = true := by
  rw [irqEntry_eq, takeVector_eq _ _ _ (v := irqVector) (by decide) (by decide)]
  simp [State.flag]
theorem nmiEntry_flag_i (s : State) : s.nmiEntry.flag .i = true := by
  rw [nmiEntry_eq, takeVector_eq _ _ _ (v := nmiVector) (by decide) (by decide)]
  simp [State.flag]
theorem irqEntry_bit5 (s : State) : s.irqEntry.bit5Set := by
  rw [irqEntry_eq, takeVector_eq _ _ _ (v := irqVector) (by decide) (by decide)]
  exact packP_bit5 _ _ _ _ _ _ _
theorem nmiEntry_bit5 (s : State) : s.nmiEntry.bit5Set := by
  rw [nmiEntry_eq, takeVector_eq _ _ _ (v := nmiVector) (by decide) (by decide)]
  exact packP_bit5 _ _ _ _ _ _ _

end Sys2Proof.Machine
end

