-- ==== Sys2Proof/Laws/Step.lean ====
section
/-! SUPPORT. The three branches of a step (R551), and the start of the instruction branch. -/

namespace Sys2Proof.Machine

/-- The instruction branch of a step, after its fetch. -/
def runFetched (q : Instr × State) : Host.Outcome State Fault Refusal :=
  match exec q.1 q.2 with
  | .next t => t.endStep
  | .fault f => .fault f
  | .refused r => .refused r

theorem step_reset {s : State} (h : s.halted = .running) (hr : s.resetPending = true) :
    step s = s.beginStep.resetEvent.endStep := by
  have hr' : s.beginStep.resetPending = true := hr
  unfold step
  rw [h]
  simp only [haltFault, hr', if_true]

theorem step_instruction {s : State} (h : s.halted = .running) (hr : s.resetPending = false) :
    step s = runFetched s.beginStep.takePendingIrq.fetch := by
  have hr' : s.beginStep.resetPending = false := hr
  unfold step runFetched
  rw [h]
  simp only [haltFault, hr']
  rw [if_neg Bool.false_ne_true] <;> rfl

/-- The end of a step that did not halt the machine (R552). -/
theorem endStep_running {s t : State} (h : s.halted = .running) (ht : s.settle = some t) :
    s.endStep = .next t := by
  unfold State.endStep
  rw [h]
  simp only [ht]

theorem endStep_diverges {s : State} (h : s.halted = .running) (ht : s.settle = none) :
    s.endStep = .fault .scanlineLoopDiverges := by
  unfold State.endStep
  rw [h]
  simp only [ht]

/-- The end of a step that halted the machine: nothing more happens (R601). -/
theorem endStep_halted {s : State} (h : s.halted ≠ .running) : s.endStep = .next s := by
  unfold State.endStep
  cases hh : s.halted
  · exact absurd hh h
  · rfl
  · rfl

/-- The loop of R552 at the end of a step. -/
theorem settle_eq (s : State) :
    s.settle = runLines (lineFuel (s.accumulate s.cyc))
      { s with
        cyc := 0
        cyclesTotal := s.cyclesTotal + s.cyc
        ppu := { s.ppu with
          cyclesSinceVblank := s.ppu.cyclesSinceVblank + s.cyc
          budget := s.ppu.budget - s.cyc } } := rfl

theorem step_unsupported {s : State} {m : Nat} (h : s.halted = .unsupportedCartridge m) :
    step s = .fault (.unsupportedCartridge m) := by
  unfold step
  rw [h]
  rfl

theorem step_unimplemented {s : State} {op : Byte} {pc : Word}
    (h : s.halted = .unimplementedOpcode op pc) : step s = .fault (.unimplementedOpcode op pc) := by
  unfold step
  rw [h]
  rfl

@[simp] theorem beginStep_flag (s : State) (f : Flag) : s.beginStep.flag f = s.flag f := rfl

/-- No IRQ is taken (R614). -/
theorem takePendingIrq_none {s : State} (h : s.noPendingIrq) : s.takePendingIrq = s := by
  unfold State.takePendingIrq
  rcases h with h | h | h <;> rw [h] <;> simp

/-- The pending IRQ is taken (R614). -/
theorem takePendingIrq_some {s : State} (h : s.cfg.irqLevelSensitive = true)
    (hp : s.irqPending = true) (hi : s.flag .i = false) : s.takePendingIrq = s.irqEntry := by
  unfold State.takePendingIrq
  rw [h, hp, hi]
  rfl

/-- Bytes that stand at plain addresses are fetched without side effects. -/
theorem fetch_eq {s : State} {op b1 b2 : Byte} {n : Nat}
    (hn : operandBytes s.cfg.undocumentedEnabled op = n)
    (h0 : plainAddr s.pc = true ∧ s.byteAt s.pc = op)
    (h1 : 1 ≤ n → plainAddr (s.pc + 1) = true ∧ s.byteAt (s.pc + 1) = b1)
    (h2 : 2 ≤ n → plainAddr (s.pc + 2) = true ∧ s.byteAt (s.pc + 2) = b2) :
    s.fetch = (instrOf s.cfg.undocumentedEnabled op (if 1 ≤ n then b1 else 0)
      (if 2 ≤ n then b2 else 0), s) := by
  have e0 : s.memRead s.pc = (op, s) := by rw [memRead_plain _ h0.1, h0.2]
  unfold State.fetch
  simp only [e0, hn]
  match n with
  | 0 => rfl
  | 1 =>
    obtain ⟨p1, q1⟩ := h1 (by omega)
    have e1 : s.memRead (s.pc + 1) = (b1, s) := by rw [memRead_plain _ p1, q1]
    simp only [e1]
    rfl
  | k + 2 =>
    obtain ⟨p1, q1⟩ := h1 (by omega)
    obtain ⟨p2, q2⟩ := h2 (by omega)
    have e1 : s.memRead (s.pc + 1) = (b1, s) := by rw [memRead_plain _ p1, q1]
    have e2 : s.memRead (s.pc + 2) = (b2, s) := by rw [memRead_plain _ p2, q2]
    simp only [e1, e2]
    rw [if_pos (by omega), if_pos (by omega)]

end Sys2Proof.Machine
end

