-- ==== Sys2Proof/Laws/Scheduler.lean ====
section
/-! SUPPORT. The scanline boundary and the accumulation loop: what each part can do. -/

namespace Sys2Proof.Machine

/-! ### The renderer's frame -/

theorem reload_eq (p : Ppu) (line : Int) :
    p.reload line
      = { p with
          v := if p.mask.getLsbD 3 || p.mask.getLsbD 4 then
              if line = 0 then p.t else (p.v &&& 0x7BE0#15) ||| (p.t &&& 0x041F#15)
            else p.v } := by
  unfold Ppu.reload Ppu.rendering
  split
  · split <;> rfl
  · rfl

theorem length_drawBehindPixels (i : Nat) (ps : List (Nat × Colour)) (cols : List Column) :
    (drawBehindPixels i ps cols).length = cols.length := by
  induction ps generalizing cols with
  | nil => rfl
  | cons q ps ih =>
    obtain ⟨x, k⟩ := q
    simp only [drawBehindPixels, ih, List.length_modify]

theorem length_drawBehind (p : Ppu) (line : Int) (is : List Nat) (cols : List Column) :
    (p.drawBehind line is cols).length = cols.length := by
  induction is generalizing cols with
  | nil => rfl
  | cons i is ih => simp only [Ppu.drawBehind, ih, length_drawBehindPixels]

theorem length_bgWalk (p : Ppu) (cols : List Column) (x : Nat) (vv : Scroll) (px : BitVec 3) :
    (p.bgWalk cols x vv px).1.length = cols.length := by
  induction cols generalizing x vv px with
  | nil => rfl
  | cons c cs ih =>
    simp only [Ppu.bgWalk]
    split
    · simp [ih]
    · split <;> simp [ih]

theorem length_drawBackground (p : Ppu) (cols : List Column) :
    (p.drawBackground cols).1.length = cols.length := by
  unfold Ppu.drawBackground
  split
  · exact length_bgWalk _ _ _ _ _
  · rfl

theorem length_drawFrontPixels (i : Nat) (ps : List (Nat × Colour)) (q : List Column × Bool) :
    (drawFrontPixels i ps q).1.length = q.1.length := by
  induction ps generalizing q with
  | nil => rfl
  | cons r ps ih =>
    obtain ⟨x, k⟩ := r
    obtain ⟨cols, hit⟩ := q
    simp only [drawFrontPixels, ih, List.length_modify]

theorem length_drawFront (p : Ppu) (line : Int) (is : List Nat) (q : List Column × Bool) :
    (p.drawFront line is q).1.length = q.1.length := by
  induction is generalizing q with
  | nil => rfl
  | cons i is ih => simp only [Ppu.drawFront, ih, length_drawFrontPixels]

/-- A rendered line has 256 columns (R451). -/
theorem length_renderLine (black : Colour) (p : Ppu) (line : Int) :
    (p.renderLine black line).2.length = 256 := by
  simp only [Ppu.renderLine, length_drawFront, length_drawBackground, length_drawBehind, Ppu.fill,
    List.length_replicate]

/-- The renderer changes v and the two sprite flags, which it only sets (R451). -/
theorem renderLine_eq (black : Colour) (p : Ppu) (line : Int) :
    ∃ hit ovf, (p.renderLine black line).1
        = { p with
            v := if p.mask.getLsbD 3 || p.mask.getLsbD 4 then
                advanceY (if line = 0 then p.t else (p.v &&& 0x7BE0#15) ||| (p.t &&& 0x041F#15))
              else p.v
            sprite0Hit := hit, spriteOverflow := ovf }
      ∧ (p.sprite0Hit = true → hit = true) ∧ (p.spriteOverflow = true → ovf = true) := by
  refine ⟨(p.renderLine black line).1.sprite0Hit, (p.renderLine black line).1.spriteOverflow, ?_,
    ?_, ?_⟩
  · unfold Ppu.renderLine
    simp only [reload_eq, Ppu.rendering]
    cases p.mask.getLsbD 3 || p.mask.getLsbD 4 <;> simp
  · intro h
    simp [Ppu.renderLine, reload_eq, h]
  · intro h
    simp [Ppu.renderLine, reload_eq, h]

theorem pixelEvents_eq (y : Nat) (cols : List Column) (x : Nat) :
    pixelEvents y cols x
      = (List.range cols.length).map
          (fun j => .drawPixel (x + j) y ((cols.map (·.colour)).getD j 0)) := by
  induction cols generalizing x with
  | nil => rfl
  | cons c cs ih =>
    rw [pixelEvents, ih, List.length_cons, List.range_succ_eq_map, List.map_cons, List.map_map]
    congr 1
    apply List.map_congr_left
    intro j _
    simp only [Function.comp, List.map_cons, List.getD_cons_succ]
    congr 1
    omega

/-! ### The parts of a boundary -/

/-- A requested IRQ: nothing, remembered, or entered (R611, R614). -/
theorem raiseIrq_cases (s : State) :
    (s.flag .i = true ∧ s.cfg.irqLevelSensitive = false ∧ s.raiseIrq = s)
      ∨ (s.flag .i = true ∧ s.cfg.irqLevelSensitive = true
        ∧ s.raiseIrq = { s with irqPending := true })
      ∨ (s.flag .i = false ∧ s.raiseIrq = s.irqEntry) := by
  unfold State.raiseIrq
  cases h : s.flag .i
  · exact .inr (.inr ⟨rfl, by simp⟩)
  · cases h' : s.cfg.irqLevelSensitive
    · exact .inl ⟨rfl, rfl, by simp⟩
    · exact .inr (.inl ⟨rfl, rfl, by simp⟩)

/-- The mapper's update: nothing, or MMC3's counter clocked, with or without a request (R537). -/
theorem mapperUpdate_cases (s : State) :
    s.mapperUpdate = s
      ∨ ∃ r : Mmc3, s.mapper = .mmc3 r ∧ s.clocksCounter = true
        ∧ (s.mapperUpdate = { s with mapper := .mmc3 r.clock }
          ∨ s.mapperUpdate = State.raiseIrq { s with mapper := .mmc3 r.clock }) := by
  unfold State.mapperUpdate
  cases hm : s.mapper with
  | mmc3 r =>
    simp only []
    cases hc : s.clocksCounter
    · exact .inl (by simp)
    · refine .inr ⟨r, rfl, rfl, ?_⟩
      simp only [if_true]
      split
      · exact .inr rfl
      · exact .inl rfl
  | _ => exact .inl rfl

/-- What `mapperUpdate` keeps, and what it can cost. -/
structure UpdateKeeps (s t : State) : Prop where
  line : t.ppu.line = s.ppu.line
  frame : t.ppu.frame = s.ppu.frame
  ctrl : t.ppu.ctrl = s.ppu.ctrl
  cfg : t.cfg = s.cfg
  cart : t.cart = s.cart
  halted : t.halted = s.halted
  resetPending : t.resetPending = s.resetPending
  buttons : t.buttons0 = s.buttons0 ∧ t.buttons1 = s.buttons1
  cyc : t.cyc = s.cyc
  cost : ∃ k : Nat, k ≤ s.cfg.intEntryCycles ∧ t.ppu.budget = s.ppu.budget - k
    ∧ t.cyclesTotal = s.cyclesTotal + k

theorem raiseIrq_keeps (s : State) : UpdateKeeps s s.raiseIrq := by
  rcases raiseIrq_cases s with ⟨-, -, h⟩ | ⟨-, -, h⟩ | ⟨-, h⟩ <;> rw [h]
  · exact ⟨rfl, rfl, rfl, rfl, rfl, rfl, rfl, ⟨rfl, rfl⟩, rfl, 0, by omega, by omega, rfl⟩
  · exact ⟨rfl, rfl, rfl, rfl, rfl, rfl, rfl, ⟨rfl, rfl⟩, rfl, 0, by omega, by simp, rfl⟩
  · exact ⟨by simp, by simp, by simp, by simp, by simp, by simp, by simp, by simp, by simp,
      s.cfg.intEntryCycles, le_refl _, by simp, by simp⟩

theorem mapperUpdate_keeps (s : State) : UpdateKeeps s s.mapperUpdate := by
  rcases mapperUpdate_cases s with h | ⟨r, -, -, h | h⟩ <;> rw [h]
  · exact ⟨rfl, rfl, rfl, rfl, rfl, rfl, rfl, ⟨rfl, rfl⟩, rfl, 0, by omega, by omega, rfl⟩
  · exact ⟨rfl, rfl, rfl, rfl, rfl, rfl, rfl, ⟨rfl, rfl⟩, rfl, 0, by omega, by simp, rfl⟩
  · obtain ⟨h1, h2, h3, h4, h5, h6, h7, h8, h9, h10⟩ :=
      raiseIrq_keeps { s with mapper := .mmc3 r.clock }
    exact ⟨h1, h2, h3, h4, h5, h6, h7, h8, h9, h10⟩

/-- Outside lines 0 to 240 the mapper's update does nothing, unless MMC3_COUNT_IN_VBLANK (R537). -/
theorem mapperUpdate_outside (s : State) (h : s.ppu.line < 0 ∨ 240 < s.ppu.line)
    (hc : s.cfg.mmc3CountInVblank = false) : s.mapperUpdate = s := by
  rcases mapperUpdate_cases s with h' | ⟨r, -, h', -⟩
  · exact h'
  · have : ¬ (0 ≤ s.ppu.line ∧ s.ppu.line ≤ 240) := by omega
    simp [State.clocksCounter, hc, this] at h'

/-- The mapper's update leaves the vertical-blank flag. -/
theorem mapperUpdate_vblank (s : State) : s.mapperUpdate.ppu.vblank = s.ppu.vblank := by
  rcases mapperUpdate_cases s with h | ⟨r, -, -, h | h⟩ <;> rw [h]
  rcases raiseIrq_cases { s with mapper := .mmc3 r.clock } with ⟨-, -, h⟩ | ⟨-, -, h⟩ | ⟨-, h⟩ <;> rw [h]
  simp

/-! ### The whole boundary, by the line it comes from -/

theorem vblankEnd_yes {s : State} (h : s.ppu.line = 261) : s.vblankEndIfDue = s.endVblank := if_pos h
theorem vblankEnd_no {s : State} (h : s.ppu.line ≠ 261) : s.vblankEndIfDue = s := if_neg h
theorem render_yes {s : State} (h : 0 ≤ s.ppu.line) (h' : s.ppu.line ≤ 239) :
    s.renderIfVisible = s.renderLine := if_pos ⟨h, h'⟩
theorem render_no {s : State} (h : s.ppu.line < 0 ∨ 239 < s.ppu.line) : s.renderIfVisible = s :=
  if_neg (by omega)
theorem present_yes {s : State} (h : s.ppu.line = 240) :
    s.presentIfDue = { s with events := s.events ++ [.presentFrame] } := if_pos h
theorem present_no {s : State} (h : s.ppu.line ≠ 240) : s.presentIfDue = s := if_neg h
theorem vblankStart_yes {s : State} (h : s.ppu.line = 241) : s.vblankStartIfDue = s.startVblank :=
  if_pos h
theorem vblankStart_no {s : State} (h : s.ppu.line ≠ 241) : s.vblankStartIfDue = s := if_neg h

theorem advanceLine_line (s : State) : s.advanceLine.ppu.line = s.ppu.line + 1 := rfl
theorem endVblank_line (s : State) : s.endVblank.ppu.line = -1 := rfl

/-- A rendered line leaves the line counter. -/
theorem renderLine_line (s : State) : s.renderLine.ppu.line = s.ppu.line := by
  obtain ⟨_, _, h, -⟩ := renderLine_eq s.cfg.blackIndex s.ppu s.ppu.line
  unfold State.renderLine
  simp only [h]

/-- A boundary that neither renders nor begins or ends vertical blank. -/
theorem boundary_quiet {s : State} (h : s.ppu.line < -1 ∨ 241 ≤ s.ppu.line) (h' : s.ppu.line ≠ 260) :
    s.boundary = s.advanceLine.mapperUpdate := by
  have hl := advanceLine_line s
  have hu := (mapperUpdate_keeps s.advanceLine).line
  unfold State.boundary
  rw [vblankEnd_no (by omega), render_no (by omega), present_no (by omega), vblankStart_no (by omega)]

/-- The boundary that ends vertical blank (R555). -/
theorem boundary_end {s : State} (h : s.ppu.line = 260) :
    s.boundary = s.advanceLine.endVblank.mapperUpdate := by
  have hl := advanceLine_line s
  have hm := endVblank_line s.advanceLine
  have hu := (mapperUpdate_keeps s.advanceLine.endVblank).line
  unfold State.boundary
  rw [vblankEnd_yes (by omega), render_no (by omega), present_no (by omega),
    vblankStart_no (by omega)]

/-- The boundary that begins vertical blank (R554). -/
theorem boundary_start {s : State} (h : s.ppu.line = 240) :
    s.boundary = s.advanceLine.mapperUpdate.startVblank := by
  have hl := advanceLine_line s
  have hu := (mapperUpdate_keeps s.advanceLine).line
  unfold State.boundary
  rw [vblankEnd_no (by omega), render_no (by omega), present_no (by omega),
    vblankStart_yes (by omega)]

/-- The boundary onto line 240 (R556). -/
theorem boundary_present {s : State} (h : s.ppu.line = 239) :
    s.boundary = { s.advanceLine.mapperUpdate with
      events := s.advanceLine.mapperUpdate.events ++ [.presentFrame] } := by
  have hl := advanceLine_line s
  have hu := (mapperUpdate_keeps s.advanceLine).line
  unfold State.boundary
  rw [vblankEnd_no (by omega), render_no (by omega), present_yes (by omega)]
  exact vblankStart_no (by show s.advanceLine.mapperUpdate.ppu.line ≠ 241; omega)

/-- The boundary onto a visible line (R553, R451). -/
theorem boundary_visible {s : State} (h : -1 ≤ s.ppu.line) (h' : s.ppu.line ≤ 238) :
    s.boundary = s.advanceLine.mapperUpdate.renderLine := by
  have hl := advanceLine_line s
  have hu := (mapperUpdate_keeps s.advanceLine).line
  have hr := renderLine_line s.advanceLine.mapperUpdate
  unfold State.boundary
  rw [vblankEnd_no (by omega), render_yes (by omega) (by omega), present_no (by omega),
    vblankStart_no (by omega)]

/-- A rendered line changes v, the two sprite flags and the outputs. -/
theorem renderLine_state (s : State) :
    ∃ v hit ovf ev, s.renderLine
        = { s with
            ppu := { s.ppu with v := v, sprite0Hit := hit, spriteOverflow := ovf }
            events := s.events ++ ev } := by
  obtain ⟨hit, ovf, h, -⟩ := renderLine_eq s.cfg.blackIndex s.ppu s.ppu.line
  refine ⟨(s.ppu.renderLine s.cfg.blackIndex s.ppu.line).1.v, hit, ovf,
    pixelEvents s.ppu.line.toNat (s.ppu.renderLine s.cfg.blackIndex s.ppu.line).2 0, ?_⟩
  unfold State.renderLine
  simp only [h]

/-! ### Accumulation and the loop (R552) -/

theorem runLines_running (n : Nat) (s : State) (h : 0 < s.ppu.budget) : runLines n s = some s := by
  cases n <;> simp [runLines, h]

theorem runLines_step (n : Nat) (s : State) (h : s.ppu.budget ≤ 0) :
    runLines (n + 1) s = runLines n s.nextLine := by
  rw [runLines, if_neg (by omega)]

/-- What the loop leaves has budget left. -/
theorem runLines_budget {n : Nat} {s t : State} (h : runLines n s = some t) : 0 < t.ppu.budget := by
  induction n generalizing s with
  | zero =>
    unfold runLines at h
    split at h
    · obtain rfl := Option.some.inj h
      assumption
    · exact absurd h (by simp)
  | succ n ih =>
    unfold runLines at h
    split at h
    · obtain rfl := Option.some.inj h
      assumption
    · exact ih h

/-- Induction over the lines of the loop: a property that a new scanline keeps holds at the end. -/
theorem runLines_induction {P : State → Prop} (step : ∀ s, s.ppu.budget ≤ 0 → P s → P s.nextLine)
    {n : Nat} {s t : State} (h : runLines n s = some t) (hs : P s) : P t := by
  induction n generalizing s with
  | zero =>
    unfold runLines at h
    split at h
    · exact Option.some.inj h ▸ hs
    · exact absurd h (by simp)
  | succ n ih =>
    unfold runLines at h
    split at h
    · exact Option.some.inj h ▸ hs
    · exact ih h (step s (by omega) hs)

/-- Enough fuel: when every scanline pays at least one cycle of the debt, the loop ends. -/
theorem runLines_ends {P : State → Prop}
    (step : ∀ s, s.ppu.budget ≤ 0 → P s → P s.nextLine ∧ s.ppu.budget < s.nextLine.ppu.budget)
    (n : Nat) (s : State) (hn : -s.ppu.budget < n) (hs : P s) : ∃ t, runLines n s = some t := by
  induction n generalizing s with
  | zero => exact ⟨s, runLines_running 0 s (by omega)⟩
  | succ n ih =>
    by_cases h : 0 < s.ppu.budget
    · exact ⟨s, runLines_running _ s h⟩
    · obtain ⟨h1, h2⟩ := step s (by omega) hs
      rw [runLines_step n s (by omega)]
      exact ih _ (by omega) h1

/-! ### What a boundary keeps and costs -/

/-- What a boundary keeps; each entry it makes costs INT_ENTRY_CYCLES. -/
structure BoundaryKeeps (s t : State) : Prop where
  cfg : t.cfg = s.cfg
  cart : t.cart = s.cart
  halted : t.halted = s.halted
  resetPending : t.resetPending = s.resetPending
  buttons : t.buttons0 = s.buttons0 ∧ t.buttons1 = s.buttons1
  cyc : t.cyc = s.cyc
  line : (s.ppu.line ≠ 260 → t.ppu.line = s.ppu.line + 1 ∧ t.ppu.frame = s.ppu.frame)
    ∧ (s.ppu.line = 260 → t.ppu.line = -1 ∧ t.ppu.frame = s.ppu.frame + 1)
  cost : ∃ k : Nat, k ≤ 2 * s.cfg.intEntryCycles ∧ t.ppu.budget = s.ppu.budget - k
    ∧ t.cyclesTotal = s.cyclesTotal + k

theorem boundary_keeps (s : State) : BoundaryKeeps s s.boundary := by
  have hu := mapperUpdate_keeps s.advanceLine
  have hl := advanceLine_line s
  by_cases h1 : s.ppu.line = 260
  · rw [boundary_end h1]
    obtain ⟨a1, a2, -, a4, a5, a6, a7, a8, a9, k, a10, a11, a12⟩ :=
      mapperUpdate_keeps s.advanceLine.endVblank
    have b0 : s.advanceLine.endVblank.cfg = s.cfg := rfl
    have b1 : s.advanceLine.endVblank.ppu.frame = s.ppu.frame + 1 := rfl
    have b2 : s.advanceLine.endVblank.ppu.budget = s.ppu.budget := rfl
    have b3 : s.advanceLine.endVblank.cyclesTotal = s.cyclesTotal := rfl
    exact ⟨a4, a5, a6, a7, a8, a9, ⟨fun h => absurd h1 h, fun _ => ⟨a1, a2.trans b1⟩⟩, k,
      by rw [b0] at a10; omega, by omega, by omega⟩
  obtain ⟨a1, a2, a3, a4, a5, a6, a7, a8, a9, k, a10, a11, a12⟩ := hu
  have b0 : s.advanceLine.cfg = s.cfg := rfl
  have b1 : s.advanceLine.ppu.frame = s.ppu.frame := rfl
  have b2 : s.advanceLine.ppu.budget = s.ppu.budget := rfl
  have b3 : s.advanceLine.cyclesTotal = s.cyclesTotal := rfl
  rw [b0] at a10 a4
  rw [hl] at a1
  rw [b1] at a2
  rw [b2] at a11
  rw [b3] at a12
  by_cases h2 : s.ppu.line = 240
  · rw [boundary_start h2]
    unfold State.startVblank
    simp only []
    split
    · exact ⟨by simp [a4], by simp [a5], by simp [a6], by simp [a7], by simp [a8], by simp [a9],
        ⟨fun _ => by simp [a1, a2], fun h => absurd h h1⟩, k + s.cfg.intEntryCycles, by omega,
        by simp [a11, a4]; omega, by simp [a12, a4]; omega⟩
    · exact ⟨a4, a5, a6, a7, a8, a9, ⟨fun _ => ⟨a1, a2⟩, fun h => absurd h h1⟩, k, by omega, a11, a12⟩
  by_cases h3 : s.ppu.line = 239
  · rw [boundary_present h3]
    exact ⟨a4, a5, a6, a7, a8, a9, ⟨fun _ => ⟨a1, a2⟩, fun h => absurd h h1⟩, k, by omega, a11, a12⟩
  by_cases h4 : -1 ≤ s.ppu.line ∧ s.ppu.line ≤ 238
  · rw [boundary_visible h4.1 h4.2]
    obtain ⟨v, hit, ovf, ev, h⟩ := renderLine_state s.advanceLine.mapperUpdate
    rw [h]
    exact ⟨a4, a5, a6, a7, a8, a9, ⟨fun _ => ⟨a1, a2⟩, fun h => absurd h h1⟩, k, by omega, a11, a12⟩
  · rw [boundary_quiet (by omega) h1]
    exact ⟨a4, a5, a6, a7, a8, a9, ⟨fun _ => ⟨a1, a2⟩, fun h => absurd h h1⟩, k, by omega, a11, a12⟩

/-- The same of a new scanline: its budget, then the boundary. -/
theorem nextLine_keeps (s : State) :
    BoundaryKeeps { s with ppu := { s.ppu with budget := s.ppu.budget + s.cfg.cyclesPerScanline } }
      s.nextLine := boundary_keeps _

end Sys2Proof.Machine
end

