-- ==== Sys2Proof/Laws/Invariant.lean ====
section
/-! SUPPORT. What instructions, entries and scanline boundaries do to the memories, the palette, the
mapper, bit 5 of P and the pending IRQ. -/

namespace Sys2Proof.Machine

/-- The part of the invariant that the scanline timing does not touch. -/
structure State.Core (s : State) : Prop where
  memories : s.MemoriesOk
  mapper : s.MapperOk
  palette : s.PaletteOk
  bit5 : s.bit5Set
  pending : s.cfg.irqLevelSensitive = false → s.irqPending = false

/-- The core looks at the memories, the mapper, P, the cartridge, the parameters and the pending IRQ. -/
theorem State.Core.congr {s t : State} (h : s.Core) (hm : t.mem = s.mem) (hv : t.ppu.vram = s.ppu.vram)
    (ho : t.ppu.oam = s.ppu.oam) (hc : t.cart = s.cart) (hk : t.mapper = s.mapper) (hp : t.p = s.p)
    (hg : t.cfg = s.cfg) (hi : t.irqPending = s.irqPending) : t.Core := by
  obtain ⟨⟨h1, h2, h3, h4, h5, h6, h7, h8⟩, h9, h10, h11, h12⟩ := h
  refine ⟨⟨?_, ?_, ?_, ?_, ?_, ?_, ?_, ?_⟩, ?_, ?_, ?_, ?_⟩
  · rw [hm]; exact h1
  · rw [hm]; exact h2
  · rw [hv]; exact h3
  · rw [hv]; exact h4
  · rw [ho]; exact h5
  · rw [ho]; exact h6
  · rw [hc]; exact h7
  · rw [hc]; exact h8
  · unfold State.MapperOk; rw [hk, hc]; exact h9
  · intro a ha; rw [hv]; exact h10 a ha
  · unfold State.bit5Set; rw [hp]; exact h11
  · rw [hg, hi]; exact h12

theorem Acts.core {s t : State} (h : Acts s t) (hs : s.Core) : t.Core :=
  ⟨h.memoriesOk hs.memories, h.mapperOk hs.mapper, h.paletteOk hs.memories hs.palette, h.bit5 hs.bit5,
    fun hc => h.pending (hs.pending (by rw [← h.keeps.2.2.2.2.1]; exact hc))⟩

theorem core_accumulate {s : State} (h : s.Core) (k : Nat) : (s.accumulate k).Core :=
  h.congr rfl rfl rfl rfl rfl rfl rfl rfl

theorem core_nmiEntry {s : State} (h : s.Core) : s.nmiEntry.Core :=
  core_accumulate ((acts_takeVector s _ _ _).core h) _

theorem core_irqEntry {s : State} (h : s.Core) : s.irqEntry.Core := by
  have h' : State.Core { s with irqPending := false } := (Act.ack).one.core h
  exact core_accumulate ((acts_takeVector _ _ _ _).core h') _

theorem core_raiseIrq {s : State} (h : s.Core) : s.raiseIrq.Core := by
  rcases raiseIrq_cases s with ⟨-, -, e⟩ | ⟨-, hl, e⟩ | ⟨-, e⟩ <;> rw [e]
  · exact h
  · exact ⟨⟨h.1.1, h.1.2, h.1.3, h.1.4, h.1.5, h.1.6, h.1.7, h.1.8⟩, h.2, h.3, h.4,
      fun hf => absurd (hl.symm.trans hf) (by simp)⟩
  · exact core_irqEntry h

theorem core_takePendingIrq {s : State} (h : s.Core) : s.takePendingIrq.Core := by
  unfold State.takePendingIrq
  split
  · exact core_irqEntry h
  · exact h

theorem core_mapperUpdate {s : State} (h : s.Core) : s.mapperUpdate.Core := by
  rcases mapperUpdate_cases s with e | ⟨r, hr, -, e⟩
  · rw [e]; exact h
  · have h' : State.Core { s with mapper := .mmc3 r.clock } := by
      refine (Act.regs _ ?_).one.core h
      intro hm
      unfold State.MapperOk at *
      rw [hr] at hm
      exact hm
    rcases e with e | e <;> rw [e]
    · exact h'
    · exact core_raiseIrq h'

theorem core_renderLine {s : State} (h : s.Core) : s.renderLine.Core := by
  obtain ⟨v, hit, ovf, ev, e⟩ := renderLine_state s
  rw [e]
  exact h.congr rfl rfl rfl rfl rfl rfl rfl rfl

theorem core_boundary {s : State} (h : s.Core) : s.boundary.Core := by
  have h1 : s.advanceLine.vblankEndIfDue.Core := by
    unfold State.vblankEndIfDue
    split <;> exact h.congr rfl rfl rfl rfl rfl rfl rfl rfl
  have h2 : s.advanceLine.vblankEndIfDue.mapperUpdate.renderIfVisible.Core := by
    unfold State.renderIfVisible
    split
    · exact core_renderLine (core_mapperUpdate h1)
    · exact core_mapperUpdate h1
  have h3 : s.advanceLine.vblankEndIfDue.mapperUpdate.renderIfVisible.presentIfDue.Core := by
    unfold State.presentIfDue
    split
    · exact h2.congr rfl rfl rfl rfl rfl rfl rfl rfl
    · exact h2
  unfold State.boundary State.vblankStartIfDue
  split
  · have h4 := h3.congr (t := { (s.advanceLine.vblankEndIfDue.mapperUpdate.renderIfVisible.presentIfDue) with
      ppu := { (s.advanceLine.vblankEndIfDue.mapperUpdate.renderIfVisible.presentIfDue).ppu with
        vblank := true, cyclesSinceVblank := 0 } }) rfl rfl rfl rfl rfl rfl rfl rfl
    unfold State.startVblank
    simp only []
    split
    · exact core_nmiEntry h4
    · exact h4
  · exact h3

theorem core_nextLine {s : State} (h : s.Core) : s.nextLine.Core :=
  core_boundary (h.congr rfl rfl rfl rfl rfl rfl rfl rfl)

end Sys2Proof.Machine
end

