-- ==== Sys2Proof/Laws/Reset.lean ====
section
/-! SUPPORT. The RESET event (R612, R701) and the mapper's reset (R506), whole. -/

namespace Sys2Proof.Machine

theorem memRead16_resetVector (s : State) :
    s.memRead16 resetVector = (wordOf (s.mem.read 0xFFFD) (s.mem.read 0xFFFC), s) := by
  have h : resetVector.toNat = 0xFFFC := by decide
  rw [memRead16_vector s (v := resetVector) (by decide) (by decide), h]
  rfl

/-- The mapper's registers after its reset are those of `initialize()` (R506). -/
theorem mapperReset_mapper (s : State) (h : s.MapperOk) :
    s.mapperReset.mapper = initMapper s.cart.mapperId := by
  unfold State.MapperOk at h
  unfold State.mapperReset
  simp only []
  split <;> rename_i hm <;> rw [hm] at h <;> simp only [] at h ⊢
  · rw [h]
    simp [initMapper, hm]
  · rw [h]
    simp [initMapper]
  · rw [h]
    simp [initMapper]
  · rw [h.1]
    simp [initMapper]
  · rw [h]
    simp [initMapper]
  · have : initMapper s.cart.mapperId = .unsupported := by
      unfold initMapper
      split <;> first | rfl | omega
    rw [this]
    exact hm

/-- SRAM is enabled and writable after the mapper's reset (R506). -/
theorem mapperReset_sram (s : State) :
    s.mapperReset.sramEnabled = true ∧ s.mapperReset.sramReadonly = false := by
  unfold State.mapperReset
  simp only []
  split <;> simp

@[simp] theorem copyChr_mirroring (s : State) (d n b : Nat) :
    (s.copyChr d n b).ppu.mirroring = s.ppu.mirroring := by
  unfold State.copyChr
  split <;> rfl

@[simp] theorem mmc1Chr_mirroring (s : State) (r : Mmc1) :
    (s.mmc1Chr r).ppu.mirroring = s.ppu.mirroring := by
  unfold State.mmc1Chr
  split <;> simp

@[simp] theorem mmc3Chr_mirroring (s : State) (r : Mmc3) :
    (s.mmc3Chr r).ppu.mirroring = s.ppu.mirroring := by
  simp only [State.mmc3Chr, copyChr_mirroring]

@[simp] theorem fixedLayout_mirroring (s : State) :
    s.fixedLayout.ppu.mirroring = s.ppu.mirroring := by
  unfold State.fixedLayout
  rw [copyChr_mirroring]
  rfl

/-- The mirroring after the mapper's reset is the cartridge's seed (R503, R506). -/
theorem mapperReset_mirroring (s : State) :
    s.mapperReset.ppu.mirroring = seedMirroring s.cart := by
  unfold State.mapperReset
  simp only []
  split <;> simp

/-- The RESET event. -/
theorem resetEvent_eq (s : State) :
    s.resetEvent
      = (let t := State.mapperReset { s with
          a := s.cfg.resetA, x := s.cfg.resetX, y := s.cfg.resetY, sp := s.cfg.resetS
          p := s.cfg.resetP ||| 0x20, irqPending := false, resetPending := false }
        { t with pc := wordOf (t.mem.read 0xFFFD) (t.mem.read 0xFFFC) }) := by
  unfold State.resetEvent
  simp only [memRead16_resetVector]
  rfl

end Sys2Proof.Machine
end

