-- ==== Sys2Proof/Laws/MapperWrites.lean ====
section
/-! SUPPORT. Writes at or above 0x8000, mapper by mapper (spec/46_mappers.md). -/

namespace Sys2Proof.Machine

/-- A write at or above 0x8000 under MMC1 (R522, R526). -/
theorem mmc1_write (s : State) (r : Mmc1) (hm : s.mapper = .mmc1 r) {a : Word} (ha : 0x8000 ≤ a.toNat) (d : Byte) :
   s.memWrite a d = if (r.shiftIn s.cfg.mmc1ResetSetsPrgMode a d).2 then
     (((({ s with mapper := .mmc1 (r.shiftIn s.cfg.mmc1ResetSetsPrgMode a d).1 } : State).forceMirroring (mmc1Mirroring (r.shiftIn s.cfg.mmc1ResetSetsPrgMode a d).1.reg[0])).mmc1Prg (r.shiftIn s.cfg.mmc1ResetSetsPrgMode a d).1).mmc1Chr (r.shiftIn s.cfg.mmc1ResetSetsPrgMode a d).1)
     else { s with mapper := .mmc1 (r.shiftIn s.cfg.mmc1ResetSetsPrgMode a d).1 } := by
  rw [memWrite_rom s ha]
  unfold State.intercept Mapper.checkAddress
  rw [hm]
  have : ¬ (a.toNat < 0x8000) := by omega
  simp only [if_neg this]
  rfl

/-- A bit shifted in, not the fifth (R522). -/
theorem shiftIn_open (r : Mmc1) (g : Bool) (n : Word) (d : Byte) (h7 : d.getLsbD 7 = false) (hc : r.shiftCount + 1 ≠ 5) :
   r.shiftIn g n d = ({ r with shiftAcc := r.shiftAcc ||| ((BitVec.ofBool (d.getLsbD 0)).setWidth 5 <<< r.shiftCount), shiftCount := r.shiftCount + 1 }, false) := by
  unfold Mmc1.shiftIn
  rw [h7, if_neg (by simp)]
  simp only [if_neg hc]

/-- The fifth bit commits to the register of the address's window (R522). -/
theorem shiftIn_fifth (r : Mmc1) (g : Bool) (n : Word) (d : Byte) (h7 : d.getLsbD 7 = false)
    (hc : r.shiftCount = 4) :
    r.shiftIn g n d
      = ({ shiftAcc := 0, shiftCount := 0
           reg := r.reg.set (n.extractLsb' 13 2).toFin
             (r.shiftAcc ||| ((BitVec.ofBool (d.getLsbD 0)).setWidth 5 <<< 4)) }, true) := by
  unfold Mmc1.shiftIn
  rw [h7, if_neg (by simp)]
  simp only [hc, if_true]

/-- A write that shifts a bit in copies nothing (R522). -/
theorem mmc1_write_open (s : State) (r : Mmc1) (hm : s.mapper = .mmc1 r) {a : Word}
    (ha : 0x8000 ≤ a.toNat) (d : Byte) (h7 : d.getLsbD 7 = false) (hc : r.shiftCount + 1 ≠ 5) :
    s.memWrite a d = { s with mapper := .mmc1 { r with
      shiftAcc := r.shiftAcc ||| ((BitVec.ofBool (d.getLsbD 0)).setWidth 5 <<< r.shiftCount)
      shiftCount := r.shiftCount + 1 } } := by
  rw [mmc1_write s r hm ha, shiftIn_open r _ _ _ h7 hc, if_neg Bool.false_ne_true]

/-- The lower four bits that MMC1's shift register collects. -/
def shiftedBits (d0 d1 d2 d3 : Byte) : BitVec 5 :=
  0#5 ||| ((BitVec.ofBool (d0.getLsbD 0)).setWidth 5 <<< 0)
    ||| ((BitVec.ofBool (d1.getLsbD 0)).setWidth 5 <<< 1)
    ||| ((BitVec.ofBool (d2.getLsbD 0)).setWidth 5 <<< 2)
    ||| ((BitVec.ofBool (d3.getLsbD 0)).setWidth 5 <<< 3)

/-- The value of the five bits (R522, R527). -/
theorem shiftedBits_toNat (d0 d1 d2 d3 d4 : Byte) :
    (shiftedBits d0 d1 d2 d3 ||| ((BitVec.ofBool (d4.getLsbD 0)).setWidth 5 <<< 4)).toNat
      = (d0.getLsbD 0).toNat + 2 * (d1.getLsbD 0).toNat + 4 * (d2.getLsbD 0).toNat
        + 8 * (d3.getLsbD 0).toNat + 16 * (d4.getLsbD 0).toNat := by
  unfold shiftedBits
  generalize d0.getLsbD 0 = b0
  generalize d1.getLsbD 0 = b1
  generalize d2.getLsbD 0 = b2
  generalize d3.getLsbD 0 = b3
  generalize d4.getLsbD 0 = b4
  revert b0 b1 b2 b3 b4
  decide

/-- Four writes from an empty shift register (R522). -/
theorem mmc1_after4 (s : State) (r : Mmc1) (hm : s.mapper = .mmc1 r) (h0 : r.shiftCount = 0)
    (hz : r.shiftAcc = 0) (a0 a1 a2 a3 : Word) (k0 : 0x8000 ≤ a0.toNat) (k1 : 0x8000 ≤ a1.toNat)
    (k2 : 0x8000 ≤ a2.toNat) (k3 : 0x8000 ≤ a3.toNat) (d0 d1 d2 d3 : Byte)
    (e0 : d0.getLsbD 7 = false) (e1 : d1.getLsbD 7 = false) (e2 : d2.getLsbD 7 = false)
    (e3 : d3.getLsbD 7 = false) :
    (((s.memWrite a0 d0).memWrite a1 d1).memWrite a2 d2).memWrite a3 d3
      = { s with mapper := .mmc1 { r with shiftCount := 4, shiftAcc := shiftedBits d0 d1 d2 d3 } } := by
  rw [mmc1_write_open s r hm k0 d0 e0 (by omega)]
  rw [mmc1_write_open _ _ rfl k1 d1 e1 (by simp only []; omega)]
  rw [mmc1_write_open _ _ rfl k2 d2 e2 (by simp only []; omega)]
  rw [mmc1_write_open _ _ rfl k3 d3 e3 (by simp only []; omega)]
  simp only [h0, hz]
  rfl

/-- `n & 0xE001` keeps the 8 KiB window and the lowest bit (R530). -/
theorem mmc3Key_toNat (n : Word) : (n &&& 0xE001).toNat = n.toNat / 8192 * 8192 + n.toNat % 2 := by
  have hn := n.isLt
  have hw : n &&& 0xE001 = n.extractLsb' 13 3 ++ 0#12 ++ n.extractLsb' 0 1 := by
    apply BitVec.eq_of_getLsbD_eq
    intro i hi
    simp only [BitVec.getLsbD_and, BitVec.getLsbD_append, BitVec.getLsbD_extractLsb']
    interval_cases i <;> simp
  rw [hw]
  have h1 : (n.extractLsb' 0 1).toNat = n.toNat % 2 := by simp
  have h2 : (n.extractLsb' 13 3).toNat = n.toNat / 8192 := by
    simp only [BitVec.extractLsb'_toNat, Nat.shiftRight_eq_div_pow]
    omega
  rw [BitVec.toNat_append, BitVec.toNat_append, h1, h2]
  have h3 : n.toNat % 2 < 2 ^ 1 := by omega
  have h4 : (0#12).toNat = 0 := rfl
  rw [← Nat.shiftLeft_add_eq_or_of_lt h3, h4, Nat.or_zero, Nat.shiftLeft_eq, Nat.shiftLeft_eq]
  omega

/-- The MMC3 register by the address (R530). -/
theorem mmc3Reg_eq (n : Word) (h : 0xA000 ≤ n.toNat) : mmc3Reg n =
   if n.toNat < 0xC000 then (if n.toNat % 2 = 0 then .mirroring else .sram)
   else if n.toNat < 0xE000 then (if n.toNat % 2 = 0 then .irqLatch else .irqReload)
   else (if n.toNat % 2 = 0 then .irqDisable else .irqEnable) := by
  have hn := n.isLt
  unfold mmc3Reg
  rw [mmc3Key_toNat]
  have c : n.toNat / 8192 = 5 ∨ n.toNat / 8192 = 6 ∨ n.toNat / 8192 = 7 := by omega
  have c2 : n.toNat % 2 = 0 ∨ n.toNat % 2 = 1 := by omega
  rcases c with c | c | c <;> rcases c2 with c2 | c2 <;> rw [c, c2]
  · rw [if_pos (by omega)]; rfl
  · rw [if_pos (by omega)]; rfl
  · rw [if_neg (by omega), if_pos (by omega)]; rfl
  · rw [if_neg (by omega), if_pos (by omega)]; rfl
  · rw [if_neg (by omega), if_neg (by omega)]; rfl
  · rw [if_neg (by omega), if_neg (by omega)]; rfl

/-- A write at or above 0x8000 under MMC3 (R531). -/
theorem mmc3_write (s : State) (r : Mmc3) (hm : s.mapper = .mmc3 r) {a : Word} (ha : 0x8000 ≤ a.toNat)
    (d : Byte) : s.memWrite a d = s.mmc3Write r a d := by
  rw [memWrite_rom s ha]
  unfold State.intercept Mapper.checkAddress
  rw [hm]
  have : ¬ (a.toNat < 0x8000) := by omega
  have h2 : ({ s with mapper := .mmc3 r } : State) = s := by rw [← hm]
  simp only [if_neg this, if_true, h2]
  unfold State.switchBanks
  rw [hm]

/-- A write at or above 0x8000 under UNROM (R514, R515). -/
theorem unrom_write (s : State) (l : Byte) (hm : s.mapper = .unrom l) {a : Word} (ha : 0x8000 ≤ a.toNat)
    (d : Byte) :
    s.memWrite a d = ({ s with mapper := .unrom d } : State).copyPrg 0x8000 16384 d.toNat := by
  rw [memWrite_rom s ha]
  unfold State.intercept Mapper.checkAddress
  rw [hm]
  have : ¬ (a.toNat < 0x8000) := by omega
  simp only [if_neg this]
  rfl

/-- A write at or above 0x8000 under CNROM (R518, R519). -/
theorem cnrom_write (s : State) (l : Byte) (hm : s.mapper = .cnrom l) {a : Word} (ha : 0x8000 ≤ a.toNat)
    (d : Byte) :
    s.memWrite a d = ({ s with mapper := .cnrom d } : State).copyChr 0x0000 8192 d.toNat := by
  rw [memWrite_rom s ha]
  unfold State.intercept Mapper.checkAddress
  rw [hm]
  have : ¬ (a.toNat < 0x8000) := by omega
  simp only [if_neg this]
  rfl

/-- What a PRG copy leaves at every address (R504). -/
theorem copyPrg_read (s : State) (dst size b n : Nat) :
    (s.copyPrg dst size b).mem.read n
      = if dst ≤ n ∧ n < dst + size then
          s.cart.prg.read (n - dst + b % s.cart.prgBanks size * size)
        else s.mem.read n :=
  read_copy _ _ _ _ _ _

/-- What a CHR copy leaves at every address of a cartridge with CHR (R505). -/
theorem copyChr_read (s : State) (dst size b n : Nat) (h : s.cart.chrCount ≠ 0) :
    (s.copyChr dst size b).ppu.vram.read n
      = if dst ≤ n ∧ n < dst + size then
          s.cart.chr.read (n - dst + b % s.cart.chrBanks size * size)
        else s.ppu.vram.read n := by
  unfold State.copyChr
  rw [if_neg h]
  exact read_copy _ _ _ _ _ _

/-- A CHR copy changes only video memory (R504, R505). -/
theorem copyChr_frame (s : State) (dst size b : Nat) :
    s.copyChr dst size b
      = { s with ppu := { s.ppu with vram := (s.copyChr dst size b).ppu.vram } } := by
  unfold State.copyChr
  split <;> rfl

/-- Only video memory changed. -/
structure VramOnly (s t : State) : Prop where
  eq : t = { s with ppu := { s.ppu with vram := t.ppu.vram } }

theorem VramOnly.copyChr {s t : State} (h : VramOnly s t) (dst size b : Nat) :
    VramOnly s (t.copyChr dst size b) := by
  constructor
  have h' := copyChr_frame t dst size b
  generalize t.copyChr dst size b = u at *
  rw [h', h.eq]

/-- MMC3's CHR layout changes only video memory (R534). -/
theorem mmc3Chr_frame (s : State) (r : Mmc3) :
    s.mmc3Chr r = { s with ppu := { s.ppu with vram := (s.mmc3Chr r).ppu.vram } } := by
  have h : VramOnly s (s.mmc3Chr r) :=
    ((((((((VramOnly.mk rfl).copyChr _ _ _).copyChr _ _ _).copyChr _ _ _).copyChr _ _ _).copyChr
      _ _ _).copyChr _ _ _).copyChr _ _ _).copyChr _ _ _
  exact h.eq

/-- MMC3's PRG layout changes only main memory (R533). -/
theorem mmc3Prg_frame (s : State) (r : Mmc3) : s.mmc3Prg r = { s with mem := (s.mmc3Prg r).mem } := by
  unfold State.mmc3Prg
  dsimp only
  split <;> rfl

/-- MMC3's layout changes only main memory and video memory (R533, R534). -/
theorem mmc3Layout_frame (s : State) (r : Mmc3) :
    (s.mmc3Prg r).mmc3Chr r
      = { s with
          mem := ((s.mmc3Prg r).mmc3Chr r).mem
          ppu := { s.ppu with vram := ((s.mmc3Prg r).mmc3Chr r).ppu.vram } } := by
  have h := mmc3Chr_frame (s.mmc3Prg r) r
  have h' := mmc3Prg_frame s r
  generalize (s.mmc3Prg r).mmc3Chr r = t at *
  generalize s.mmc3Prg r = u at *
  rw [h, h']

/-- MMC3's register of an address below 0xA000 (R530, R531). -/
theorem mmc3Reg_low (a : Word) (ha : 0x8000 ≤ a.toNat) (hlt : a.toNat < 0xA000) :
    mmc3Reg a = if a.toNat % 2 = 0 then .bankSelect else .bankData := by
  have hn := a.isLt
  unfold mmc3Reg
  rw [mmc3Key_toNat]
  have c : a.toNat / 8192 = 4 := by omega
  have c2 : a.toNat % 2 = 0 ∨ a.toNat % 2 = 1 := by omega
  rcases c2 with c2 | c2 <;> rw [c, c2]
  · rw [if_pos rfl]; rfl
  · rw [if_neg (by decide)]; rfl

/-- MMC3's layout writes only the bank windows (R533, R534). -/
theorem mmc3_banksOnly (s : State) (r : Mmc3) : BanksOnly s ((s.mmc3Prg r).mmc3Chr r) :=
  ((BanksOnly.refl s).mmc3Prg r).mmc3Chr r

/-- The PRG bank of every window under MMC3 (R533). -/
theorem mmc3Prg_windows (s : State) (r : Mmc3) (k i : Nat) (hk : k < 4) (hi : i < 8192) :
   (s.mmc3Prg r).mem.read (0x8000 + k * 8192 + i) = s.cart.prg.read ((if k = 1 then r.bankReg[7].toNat
          else if k = 3 then s.cart.prgCount * 2 - 1
          else if k = (if r.bankSelect.getLsbD 6 then 2 else 0) then r.bankReg[6].toNat
          else s.cart.prgCount * 2 - 2) % (s.cart.prgCount * 2) * 8192 + i) := by
  have hb : s.cart.prgBanks 8192 = s.cart.prgCount * 2 := by unfold Cartridge.prgBanks; omega
  have hl : s.cart.lastPrg 8192 = s.cart.prgCount * 2 - 1 := by unfold Cartridge.lastPrg; rw [hb]
  have hl2 : s.cart.prgCount * 2 - 1 - 1 = s.cart.prgCount * 2 - 2 := by omega
  unfold State.mmc3Prg
  simp only [hl, hl2]
  have hk' : k = 0 ∨ k = 1 ∨ k = 2 ∨ k = 3 := by omega
  cases hb6 : r.bankSelect.getLsbD 6 <;> simp only [Bool.false_eq_true, if_false, if_true]
  all_goals
    rcases hk' with h | h | h | h <;> subst h <;>
    simp only [copyPrg_read, copyPrg_cart, hb]
  · rw [if_neg (by omega), if_neg (by omega), if_neg (by omega), if_pos (by omega)]; exact congrArg s.cart.prg.read (by simp; omega)
  · rw [if_neg (by omega), if_neg (by omega), if_pos (by omega)]; exact congrArg s.cart.prg.read (by simp; omega)
  · rw [if_neg (by omega), if_pos (by omega)]; exact congrArg s.cart.prg.read (by simp; omega)
  · rw [if_pos (by omega)]; exact congrArg s.cart.prg.read (by simp; omega)
  · rw [if_neg (by omega), if_neg (by omega), if_neg (by omega), if_pos (by omega)]; exact congrArg s.cart.prg.read (by simp; omega)
  · rw [if_neg (by omega), if_neg (by omega), if_pos (by omega)]; exact congrArg s.cart.prg.read (by simp; omega)
  · rw [if_neg (by omega), if_pos (by omega)]; exact congrArg s.cart.prg.read (by simp; omega)
  · rw [if_pos (by omega)]; exact congrArg s.cart.prg.read (by simp; omega)

/-- The CHR bank of every window under MMC3 (R534). -/
theorem mmc3Chr_windows (s : State) (r : Mmc3) (k : Fin 8) (i : Nat) (hi : i < 1024) (hc : s.cart.chrCount ≠ 0) :
   (s.mmc3Chr r).ppu.vram.read ((k.val + if r.bankSelect.getLsbD 7 then 4 else 0) % 8 * 1024 + i)
     = s.cart.chr.read ((if k = 0 then r.bankReg[0].toNat / 2 * 2
          else if k = 1 then r.bankReg[0].toNat / 2 * 2 + 1
          else if k = 2 then r.bankReg[1].toNat / 2 * 2
          else if k = 3 then r.bankReg[1].toNat / 2 * 2 + 1
          else r.bankReg[k.val - 2].toNat) % (s.cart.chrCount * 8) * 1024 + i) := by
  have hb : s.cart.chrBanks 1024 = s.cart.chrCount * 8 := by unfold Cartridge.chrBanks; omega
  have hev : ∀ b : Byte, (b &&& 0xFE).toNat = b.toNat / 2 * 2 := by decide
  have hod : ∀ b : Byte, (b ||| 1).toNat = b.toNat / 2 * 2 + 1 := by decide
  have cr : ∀ (u : State) (d b n : Nat), u.cart = s.cart → (u.copyChr d 1024 b).ppu.vram.read n = if d ≤ n ∧ n < d + 1024 then s.cart.chr.read (n - d + b % (s.cart.chrCount * 8) * 1024) else u.ppu.vram.read n := by
    intro u d b n hu
    rw [copyChr_read u d 1024 b n (by rw [hu]; exact hc), hu, hb]
  unfold State.mmc3Chr
  simp only [hev, hod]
  have hk' : k = 0 ∨ k = 1 ∨ k = 2 ∨ k = 3 ∨ k = 4 ∨ k = 5 ∨ k = 6 ∨ k = 7 := by revert k; decide
  cases hb7 : r.bankSelect.getLsbD 7 <;> simp only [Bool.false_eq_true, if_false, if_true]
  all_goals
    simp only [show (0 ^^^ 0 : Nat) = 0 from rfl, show (0 ^^^ 4096 : Nat) = 4096 from rfl,
      show (1024 ^^^ 0 : Nat) = 1024 from rfl, show (1024 ^^^ 4096 : Nat) = 5120 from rfl,
      show (2048 ^^^ 0 : Nat) = 2048 from rfl, show (2048 ^^^ 4096 : Nat) = 6144 from rfl,
      show (3072 ^^^ 0 : Nat) = 3072 from rfl, show (3072 ^^^ 4096 : Nat) = 7168 from rfl,
      show (4096 ^^^ 0 : Nat) = 4096 from rfl, show (4096 ^^^ 4096 : Nat) = 0 from rfl,
      show (5120 ^^^ 0 : Nat) = 5120 from rfl, show (5120 ^^^ 4096 : Nat) = 1024 from rfl,
      show (6144 ^^^ 0 : Nat) = 6144 from rfl, show (6144 ^^^ 4096 : Nat) = 2048 from rfl,
      show (7168 ^^^ 0 : Nat) = 7168 from rfl, show (7168 ^^^ 4096 : Nat) = 3072 from rfl]
    rcases hk' with h | h | h | h | h | h | h | h <;> subst h <;> simp only [show (((0 : Fin 8)) : Nat) = 0 from rfl,
      show (((1 : Fin 8)) : Nat) = 1 from rfl, show (((2 : Fin 8)) : Nat) = 2 from rfl,
      show (((3 : Fin 8)) : Nat) = 3 from rfl, show (((4 : Fin 8)) : Nat) = 4 from rfl,
      show (((5 : Fin 8)) : Nat) = 5 from rfl, show (((6 : Fin 8)) : Nat) = 6 from rfl,
      show (((7 : Fin 8)) : Nat) = 7 from rfl] <;>
    (repeat (rw [cr _ _ _ _ (by simp)]; first | rw [if_pos (by omega)] | rw [if_neg (by omega)])) <;>
    exact congrArg s.cart.chr.read (by simp; omega)

/-- The two 16 KiB windows after their copies (R504, R505). -/
theorem prgPair_windows (s : State) (lower upper i : Nat) (hi : i < 16384) :
    let t := (s.copyPrg 0x8000 16384 lower).copyPrg 0xC000 16384 upper
    t.mem.read (0x8000 + i) = s.cart.prg.read (lower % s.cart.prgCount * 16384 + i)
      ∧ t.mem.read (0xC000 + i) = s.cart.prg.read (upper % s.cart.prgCount * 16384 + i) := by
  have hb : s.cart.prgBanks 16384 = s.cart.prgCount := by unfold Cartridge.prgBanks; omega
  dsimp only
  constructor
  · rw [copyPrg_read, if_neg (by omega), copyPrg_read, if_pos (by omega), hb]
    exact congrArg s.cart.prg.read (by omega)
  · rw [copyPrg_read, if_pos (by omega), copyPrg_cart, hb]
    exact congrArg s.cart.prg.read (by omega)

/-- MMC1's PRG layout is a pair of 16 KiB copies (R524). -/
theorem mmc1Prg_eq (s : State) (r : Mmc1) :
    let mode := r.reg[0].toNat / 4 % 4
    let b := r.reg[3].toNat % 16
    s.mmc1Prg r
      = (s.copyPrg 0x8000 16384
          (if mode = 2 then 0 else if mode = 3 then b else b / 2 * 2)).copyPrg 0xC000 16384
        (if mode = 2 then b else if mode = 3 then s.cart.prgCount - 1 else b / 2 * 2 + 1) := by
  have hm : ∀ x : BitVec 5, ((x >>> 2) &&& 3).toNat = x.toNat / 4 % 4 := by decide
  have hb : ∀ x : BitVec 5, (x &&& 0x0F).toNat = x.toNat % 16 := by decide
  have he : ∀ x : BitVec 5, (x &&& 0x0E).toNat = x.toNat % 16 / 2 * 2 := by decide
  have ho : ∀ x : BitVec 5, ((x &&& 0x0E) ||| 1).toNat = x.toNat % 16 / 2 * 2 + 1 := by decide
  unfold State.mmc1Prg
  dsimp only
  rw [hm, hb, he, ho]
  have h4 : r.reg[0].toNat / 4 % 4 < 4 := Nat.mod_lt _ (by omega)
  generalize r.reg[0].toNat / 4 % 4 = mode at *
  interval_cases mode <;> rfl

/-- The PRG windows under MMC1 (R524). -/
theorem mmc1Prg_windows (s : State) (r : Mmc1) (i : Nat) (hi : i < 16384) :
    let mode := r.reg[0].toNat / 4 % 4
    let b := r.reg[3].toNat % 16
    (s.mmc1Prg r).mem.read (0x8000 + i)
        = s.cart.prg.read
          ((if mode = 2 then 0 else if mode = 3 then b else b / 2 * 2) % s.cart.prgCount * 16384 + i)
      ∧ (s.mmc1Prg r).mem.read (0xC000 + i)
        = s.cart.prg.read
          ((if mode = 2 then b else if mode = 3 then s.cart.prgCount - 1 else b / 2 * 2 + 1)
            % s.cart.prgCount * 16384 + i) := by
  dsimp only
  rw [mmc1Prg_eq]
  exact prgPair_windows s _ _ i hi

/-- MMC1's PRG layout changes only main memory (R524). -/
theorem mmc1Prg_frame (s : State) (r : Mmc1) : s.mmc1Prg r = { s with mem := (s.mmc1Prg r).mem } := by
  rw [mmc1Prg_eq]
  rfl

/-- MMC1's CHR layout changes only video memory (R525). -/
theorem mmc1Chr_frame (s : State) (r : Mmc1) :
    s.mmc1Chr r = { s with ppu := { s.ppu with vram := (s.mmc1Chr r).ppu.vram } } := by
  have h : VramOnly s (s.mmc1Chr r) := by
    unfold State.mmc1Chr
    split
    · exact ((VramOnly.mk rfl).copyChr _ _ _).copyChr _ _ _
    · exact (VramOnly.mk rfl).copyChr _ _ _
  exact h.eq

/-- The pattern tables under MMC1 (R525). -/
theorem mmc1Chr_windows (s : State) (r : Mmc1) (hc : s.cart.chrCount ≠ 0) :
    (r.reg[0].getLsbD 4 = false → ∀ i, i < 8192 →
      (s.mmc1Chr r).ppu.vram.read i
        = s.cart.chr.read (r.reg[1].toNat / 2 % s.cart.chrCount * 8192 + i))
    ∧ (r.reg[0].getLsbD 4 = true → ∀ i, i < 4096 →
      (s.mmc1Chr r).ppu.vram.read i
          = s.cart.chr.read (r.reg[1].toNat % (s.cart.chrCount * 2) * 4096 + i)
        ∧ (s.mmc1Chr r).ppu.vram.read (0x1000 + i)
          = s.cart.chr.read (r.reg[2].toNat % (s.cart.chrCount * 2) * 4096 + i)) := by
  have h8 : s.cart.chrBanks 8192 = s.cart.chrCount := by unfold Cartridge.chrBanks; omega
  have h4 : s.cart.chrBanks 4096 = s.cart.chrCount * 2 := by unfold Cartridge.chrBanks; omega
  constructor
  · intro hm i hi
    have hs : (r.reg[1] >>> 1).toNat = r.reg[1].toNat / 2 := by
      rw [BitVec.toNat_ushiftRight, Nat.shiftRight_eq_div_pow]
    unfold State.mmc1Chr
    rw [hm, if_neg Bool.false_ne_true, copyChr_read _ _ _ _ _ hc, if_pos (by omega), h8, hs]
    exact congrArg s.cart.chr.read (by omega)
  · intro hm i hi
    have hc' : (s.copyChr 0x0000 4096 r.reg[1].toNat).cart.chrCount ≠ 0 := by rw [copyChr_cart]; exact hc
    unfold State.mmc1Chr
    rw [hm, if_pos rfl]
    constructor
    · rw [copyChr_read _ _ _ _ _ hc', if_neg (by omega), copyChr_read _ _ _ _ _ hc,
        if_pos (by omega), h4]
      exact congrArg s.cart.chr.read (by omega)
    · rw [copyChr_read _ _ _ _ _ hc', if_pos (by omega), copyChr_cart, h4]
      exact congrArg s.cart.chr.read (by omega)

/-- The mirroring a four-screen cartridge keeps (R483, R503). -/
theorem forceMirroring_eq (s : State) (m : Mirroring) :
    s.forceMirroring m
      = { s with ppu := { s.ppu with mirroring := if s.cart.fourScreen then s.ppu.mirroring else m } } := by
  unfold State.forceMirroring
  split <;> rfl

/-- MMC1's `switch_banks()` (R523 to R526). -/
theorem mmc1_layout (s : State) (r : Mmc1) :
    Mmc1Layout s
      (((State.forceMirroring { s with mapper := .mmc1 r } (mmc1Mirroring r.reg[0])).mmc1Prg r).mmc1Chr r)
      r := by
  rw [forceMirroring_eq]
  generalize hu : ({ s with
      mapper := .mmc1 r
      ppu := { s.ppu with
        mirroring := if s.cart.fourScreen then s.ppu.mirroring else mmc1Mirroring r.reg[0] } } : State) = u
  have hec : u.cart = s.cart := by rw [← hu]
  have hb := ((BanksOnly.refl u).mmc1Prg r).mmc1Chr r
  have hc := mmc1Chr_frame (u.mmc1Prg r) r
  have hp := mmc1Prg_frame u r
  have hw := mmc1Chr_windows (u.mmc1Prg r) r
  have hpr := mmc1Prg_windows u r
  rw [mmc1Prg_cart, hec] at hw
  dsimp only at hpr
  rw [hec, ← mmc1Chr_mem (u.mmc1Prg r) r] at hpr
  generalize (u.mmc1Prg r).mmc1Chr r = t at *
  generalize u.mmc1Prg r = v at *
  refine ⟨?_, ?_, ?_, hpr, ?_, fun h => (hw h).1, fun h => (hw h).2⟩
  · rw [hc, hp, ← hu]
  · have hm : ∀ x : BitVec 5, (x &&& 3).toNat = x.toNat % 4 := by decide
    have h4 : r.reg[0].toNat % 4 < 4 := Nat.mod_lt _ (by omega)
    rw [hc, hp, ← hu]
    dsimp only
    unfold mmc1Mirroring
    rw [hm] <;> (generalize r.reg[0].toNat % 4 = k at *; interval_cases k <;> rfl)
  · intro n hn
    rw [hb.mem n hn, ← hu]
  · rintro n (hn | hn)
    · rw [hb.vram n hn, ← hu]
    · rw [hb.chrRam (hec ▸ hn), ← hu]

/-- The register of an address's window (R522). -/
theorem mmc1Window (n : Word) : (n.extractLsb' 13 2).toFin.val = n.toNat / 8192 % 4 := by
  show (n.extractLsb' 13 2).toNat = _
  simp [BitVec.extractLsb'_toNat, Nat.shiftRight_eq_div_pow]

/-- A write that MMC1 claims: its layout by the registers after it (R522, R526). -/
theorem mmc1_write_layout (s : State) (r : Mmc1) (hm : s.mapper = .mmc1 r) {a : Word}
    (ha : 0x8000 ≤ a.toNat) (d : Byte) {q : Mmc1}
    (hq : r.shiftIn s.cfg.mmc1ResetSetsPrgMode a d = (q, true)) : Mmc1Layout s (s.memWrite a d) q := by
  rw [mmc1_write s r hm ha, hq, if_pos rfl]
  exact mmc1_layout s q

/-- A write with bit 7 set clears the shift register and, by the parameter, sets PRG mode 3 (R522, D27). -/
theorem mmc1_write_reset (s : State) (r : Mmc1) (hm : s.mapper = .mmc1 r) {a : Word}
    (ha : 0x8000 ≤ a.toNat) (d : Byte) (h7 : d.getLsbD 7 = true) :
    (s.cfg.mmc1ResetSetsPrgMode = false →
      s.memWrite a d = { s with mapper := .mmc1 { r with shiftAcc := 0, shiftCount := 0 } })
    ∧ (s.cfg.mmc1ResetSetsPrgMode = true →
      Mmc1Layout s (s.memWrite a d)
        { shiftAcc := 0, shiftCount := 0, reg := r.reg.set 0 (r.reg[0] ||| 0x0C) }) := by
  constructor
  · intro hg
    have hx : r.shiftIn false a d = ({ r with shiftAcc := 0, shiftCount := 0 }, false) := by
      unfold Mmc1.shiftIn
      rw [h7]
      rfl
    rw [mmc1_write s r hm ha, hg, hx, if_neg Bool.false_ne_true]
  · intro hg
    refine mmc1_write_layout s r hm ha d ?_
    unfold Mmc1.shiftIn
    rw [h7, hg]
    rfl

end Sys2Proof.Machine
end

