-- ==== Sys2Proof/Laws/Ports.lean ====
section
/-! SUPPORT. The device registers on the bus, and sprite DMA (spec/44_bus_device_registers.md). -/

namespace Sys2Proof.Machine

/-- What no bus write changes. -/
theorem memWrite_keeps (s : State) (a : Word) (v : Byte) : WriteKeeps s (s.memWrite a v) := by
  simp [WriteKeeps]

/-- The PPU registers and their mirrors (R81, R82). -/
theorem region_of_ppu {a : Word} (h1 : 0x2000 ≤ a.toNat) (h2 : a.toNat < 0x4000) : region (norm a) = .ppu := by
  rw [region_norm, if_neg (by omega), if_pos h2]

/-- The register number survives the fold (R81). -/
theorem norm_mod8 {a : Word} (h1 : 0x2000 ≤ a.toNat) (h2 : a.toNat < 0x4000) : (norm a).toNat % 8 = a.toNat % 8 := by
  rw [norm_toNat, if_neg (by omega), if_pos h2]; omega

/-- A bus read of a PPU register (R84). -/
theorem memRead_ppu (s : State) {a : Word} (h1 : 0x2000 ≤ a.toNat) (h2 : a.toNat < 0x4000) :
   s.memRead a = ((s.ppu.readReg s.cfg (ppuReg (norm a))).1, { s with ppu := (s.ppu.readReg s.cfg (ppuReg (norm a))).2 }) := by
  unfold State.memRead
  simp only [region_of_ppu h1 h2]

/-- A bus write of a PPU register (R85). -/
theorem memWrite_ppu (s : State) {a : Word} (h1 : 0x2000 ≤ a.toNat) (h2 : a.toNat < 0x4000) (d : Byte) :
   s.memWrite a d = { s with ppu := s.ppu.writeReg (ppuReg (norm a)) d } := by
  rw [memWrite_primary s (by rw [norm_toNat, if_neg (by omega), if_pos h2]; omega)]
  unfold State.primaryWrite
  simp only [region_of_ppu h1 h2]

/-- The register by the address (R82). -/
theorem ppuReg_eq {a : Word} (h1 : 0x2000 ≤ a.toNat) (h2 : a.toNat < 0x4000) :
   ppuReg (norm a) = match a.toNat % 8 with | 0 => .control | 1 => .mask | 2 => .status | 3 => .oamAddress | 4 => .oamData | 5 => .scroll | 6 => .address | _ => .data := by
  unfold ppuReg
  rw [norm_mod8 h1 h2] <;> rfl

/-- The nametable field written by 0x2000 (R401). -/
theorem control_bits (t : Scroll) (d : Byte) : (t &&& 0x73FF#15) ||| ((d &&& 0x03).setWidth 15 <<< 10) = t.extractLsb' 12 3 ++ d.extractLsb' 0 2 ++ t.extractLsb' 0 10 := by
  apply BitVec.eq_of_getLsbD_eq
  intro i hi
  simp only [BitVec.getLsbD_or, BitVec.getLsbD_and, BitVec.getLsbD_append, BitVec.getLsbD_extractLsb', BitVec.getLsbD_setWidth, BitVec.getLsbD_shiftLeft]
  interval_cases i <;> simp

/-- Coarse X written by 0x2005 (R407). -/
theorem scroll_first_bits (t : Scroll) (d : Byte) : (t &&& 0x7FE0#15) ||| (d >>> 3).setWidth 15 = t.extractLsb' 5 10 ++ d.extractLsb' 3 5 := by
  apply BitVec.eq_of_getLsbD_eq
  intro i hi
  simp only [BitVec.getLsbD_or, BitVec.getLsbD_and, BitVec.getLsbD_append, BitVec.getLsbD_extractLsb', BitVec.getLsbD_setWidth, BitVec.getLsbD_ushiftRight]
  interval_cases i <;> simp

/-- Coarse Y and fine Y written by 0x2005 (R408). -/
theorem scroll_second_bits (t : Scroll) (d : Byte) : (t &&& 0x0C1F#15) ||| ((d &&& 0x07).setWidth 15 <<< 12)
        ||| ((d >>> 3).setWidth 15 <<< 5) = d.extractLsb' 0 3 ++ t.extractLsb' 10 2 ++ d.extractLsb' 3 5
          ++ t.extractLsb' 0 5 := by
  apply BitVec.eq_of_getLsbD_eq
  intro i hi
  simp only [BitVec.getLsbD_or, BitVec.getLsbD_and, BitVec.getLsbD_append, BitVec.getLsbD_extractLsb', BitVec.getLsbD_setWidth, BitVec.getLsbD_shiftLeft, BitVec.getLsbD_ushiftRight]
  interval_cases i <;> simp

/-- The upper byte written by 0x2006 (R409). -/
theorem address_first_bits (t : Scroll) (d : Byte) : (t &&& 0x00FF#15) ||| ((d &&& 0x3F).setWidth 15 <<< 8) = 0#1 ++ d.extractLsb' 0 6 ++ t.extractLsb' 0 8 := by
  apply BitVec.eq_of_getLsbD_eq
  intro i hi
  simp only [BitVec.getLsbD_or, BitVec.getLsbD_and, BitVec.getLsbD_append, BitVec.getLsbD_extractLsb', BitVec.getLsbD_setWidth, BitVec.getLsbD_shiftLeft]
  interval_cases i <;> simp

/-- The lower byte written by 0x2006 (R410). -/
theorem address_second_bits (t : Scroll) (d : Byte) : (t &&& 0x7F00#15) ||| d.setWidth 15 = t.extractLsb' 8 7 ++ d := by
  apply BitVec.eq_of_getLsbD_eq
  intro i hi
  simp only [BitVec.getLsbD_or, BitVec.getLsbD_and, BitVec.getLsbD_append, BitVec.getLsbD_extractLsb', BitVec.getLsbD_setWidth]
  interval_cases i <;> simp

/-- The sprite DMA loop from plain addresses: each byte of sprite memory, and nothing else (R416). -/
theorem dmaLoop_plain (k : Nat) (i : Byte) (w : Word) (s : State) (hw : s.ppu.oam.wf) (hk : k ≤ 256)
   (hp : ∀ j, j < k → plainAddr (w + BitVec.ofNat 16 j) = true) :
   (∀ n, n < 256 → (dmaLoop k i w s).ppu.oam.read n
      = if (n + 512 - s.ppu.oamAddr.toNat - i.toNat) % 256 < k then s.byteAt (w + BitVec.ofNat 16 ((n + 512 - s.ppu.oamAddr.toNat - i.toNat) % 256)) else s.ppu.oam.read n)
   ∧ dmaLoop k i w s = { s with ppu := { s.ppu with oam := (dmaLoop k i w s).ppu.oam } } := by
  induction k generalizing i w s with
  | zero => exact ⟨fun n hn => by rw [if_neg (by omega)]; rfl, rfl⟩
  | succ k ih =>
    have h0 : plainAddr w = true := by simpa using hp 0 (by omega)
    have hu : dmaLoop (k+1) i w s = dmaLoop k (i+1) (w+1) (s.putOam i (s.byteAt w)) := by
      show dmaLoop k (i+1) (w+1) ((s.memRead w).2.putOam i (s.memRead w).1) = _
      rw [memRead_plain s h0]
    have hp' : ∀ j, j < k → plainAddr (w + 1 + BitVec.ofNat 16 j) = true := by
      intro j hj
      have := hp (j+1) (by omega)
      rwa [BitVec.ofNat_add, BitVec.add_comm (BitVec.ofNat 16 j), ← BitVec.add_assoc] at this
    obtain ⟨h1, h2⟩ := ih (i+1) (w+1) (s.putOam i (s.byteAt w)) (wf_write hw _ _) (by omega) hp'
    rw [hu]
    refine ⟨?_, ?_⟩
    · intro n hn
      rw [h1 n hn]
      have ho := s.ppu.oamAddr.isLt
      have hi := i.isLt
      have e1 : (s.putOam i (s.byteAt w)).ppu.oamAddr = s.ppu.oamAddr := rfl
      have e2 : (s.putOam i (s.byteAt w)).ppu.oam.read n = if (s.ppu.oamAddr + i).toNat = n then s.byteAt w else s.ppu.oam.read n := read_write hw _ _ _
      have e3 : ∀ a, (s.putOam i (s.byteAt w)).byteAt a = s.byteAt a := fun a => rfl
      have e4 : (i + 1).toNat = (i.toNat + 1) % 256 := by simp
      have e5 : (s.ppu.oamAddr + i).toNat = (s.ppu.oamAddr.toNat + i.toNat) % 256 := by simp
      rw [e1, e2, e3, e4, e5]
      generalize hr : (n + 512 - s.ppu.oamAddr.toNat - i.toNat) % 256 = r
      by_cases hr0 : r = 0
      · have a1 : (n + 512 - s.ppu.oamAddr.toNat - (i.toNat + 1) % 256) % 256 = 255 := by omega
        rw [a1, if_neg (by omega), if_pos (by omega), if_pos (by omega), hr0]
        simp
      · have a1 : (n + 512 - s.ppu.oamAddr.toNat - (i.toNat + 1) % 256) % 256 = r - 1 := by omega
        have a2 : w + 1 + BitVec.ofNat 16 (r - 1) = w + BitVec.ofNat 16 r := by
          have : r = (r - 1) + 1 := by omega
          rw [this, BitVec.ofNat_add, BitVec.add_comm (BitVec.ofNat 16 _), ← BitVec.add_assoc]
          simp
        rw [a1, a2, if_neg (show ¬ (s.ppu.oamAddr.toNat + i.toNat) % 256 = n by omega)]
        by_cases hrk : r < k + 1
        · rw [if_pos hrk, if_pos (by omega)]
        · rw [if_neg hrk, if_neg (by omega)]
    · rw [h2]; rfl

/-- Addresses outside the register windows are plain. -/
theorem plainAddr_of (a : Word) (h : a.toNat < 0x2000 ∨ 0x4018 ≤ a.toNat) : plainAddr a = true := by
  rcases h with h | h
  · exact plainAddr_of_ram h
  · exact plainAddr_of_storage h

/-- A bus write at 0x4014 (R416). -/
theorem memWrite_dma (s : State) (d : Byte) : s.memWrite 0x4014 d = s.spriteDma d := by
  rw [memWrite_primary s (by decide)]
  unfold State.primaryWrite
  have : region (norm 0x4014) = .dma := by decide
  rw [this]

/-- A read of a write-only PPU register changes nothing (R93). -/
theorem memRead_writeOnly (s : State) {a : Word} (h1 : 0x2000 ≤ a.toNat) (h2 : a.toNat < 0x4000)
    (h : a.toNat % 8 ≠ 2 ∧ a.toNat % 8 ≠ 4 ∧ a.toNat % 8 ≠ 7) : s.memRead a = (s.cfg.openBusValue, s) := by
  have hk : a.toNat % 8 < 8 := Nat.mod_lt _ (by omega)
  rw [memRead_ppu s h1 h2, ppuReg_eq h1 h2]
  generalize a.toNat % 8 = k at *
  interval_cases k <;> first | rfl | omega

/-- A read of an audio register or of 0x4014 (R426). -/
theorem memRead_apu (s : State) {a : Word} (h1 : 0x4000 ≤ a.toNat) (h2 : a.toNat ≤ 0x4015) :
    s.memRead a = (s.cfg.apuRead.read a.toNat, s) := by
  have hn : (norm a).toNat = a.toNat := by rw [norm_toNat, if_neg (by omega), if_neg (by omega)]
  have hr : region (norm a) = .audio ∨ region (norm a) = .dma := by
    unfold region
    rw [hn]
    repeat' split
    all_goals first | exact .inl rfl | exact .inr rfl | omega
  unfold State.memRead
  rcases hr with hr | hr <;> simp only [hr, hn]

/-- A write of an audio register emits its event (R425). -/
theorem memWrite_apu (s : State) {a : Word} (v : Byte) (h1 : 0x4000 ≤ a.toNat)
    (h2 : a.toNat ≤ 0x4013 ∨ a.toNat = 0x4015 ∨ a.toNat = 0x4017) :
    s.memWrite a v = { s with events := s.events ++ [.apuWrite a v] } := by
  have hn : norm a = a := by
    apply BitVec.eq_of_toNat_eq
    rw [norm_toNat, if_neg (by omega), if_neg (by omega)]
  have hr : region a = .audio ∨ region a = .pad1 := by
    unfold region
    repeat' split
    all_goals first | exact .inl rfl | exact .inr rfl | omega
  rw [memWrite_primary s (by rw [hn]; omega)]
  unfold State.primaryWrite
  rw [hn]
  rcases hr with hr | hr <;> rw [hr]

/-- A read of controller port 0 (R421). -/
theorem memRead_pad0 (s : State) :
    s.memRead 0x4016 = (bitByte (s.pad0.bit s.cfg.padTail0 0), { s with pad0 := s.pad0.advance }) := by
  have h : region (norm 0x4016) = .pad0 := by decide
  unfold State.memRead
  simp only [h]

/-- A read of controller port 1 (R421). -/
theorem memRead_pad1 (s : State) :
    s.memRead 0x4017 = (bitByte (s.pad1.bit s.cfg.padTail1 1), { s with pad1 := s.pad1.advance }) := by
  have h : region (norm 0x4017) = .pad1 := by decide
  unfold State.memRead
  simp only [h]

/-- A status read clears the vertical-blank flag and the toggle outside the exempt window (R405). -/
theorem memRead_status (s : State) {a : Word} (h1 : 0x2000 ≤ a.toNat) (h2 : a.toNat < 0x4000)
    (h : a.toNat % 8 = 2) :
    (s.memRead a).2 = { s with ppu := if exemptWindow s.cfg s.ppu then s.ppu else { s.ppu with vblank := false, w := false } } := by
  rw [memRead_ppu s h1 h2, ppuReg_eq h1 h2, h]
  rfl

/-- A read of the sprite memory port changes nothing (R406). -/
theorem memRead_oamData (s : State) {a : Word} (h1 : 0x2000 ≤ a.toNat) (h2 : a.toNat < 0x4000)
    (h : a.toNat % 8 = 4) : s.memRead a = (s.ppu.oam.read s.ppu.oamAddr.toNat, s) := by
  rw [memRead_ppu s h1 h2, ppuReg_eq h1 h2, h]
  rfl

/-- A read of the video memory port moves `v` and fills the buffer (R412, R413). -/
theorem memRead_data (s : State) {a : Word} (h1 : 0x2000 ≤ a.toNat) (h2 : a.toNat < 0x4000)
    (h : a.toNat % 8 = 7) : ∃ rb, (s.memRead a).2
      = { s with ppu := { s.ppu with v := s.ppu.v + s.ppu.increment, readBuffer := rb } } := by
  rw [memRead_ppu s h1 h2, ppuReg_eq h1 h2, h]
  show ∃ rb, ({ s with ppu := s.ppu.readData.2 } : State) = _
  unfold Ppu.readData
  dsimp only
  by_cases h : s.ppu.dataAddress.toNat < 0x3F00
  · rw [if_pos h]
    exact ⟨_, rfl⟩
  · rw [if_neg h]
    exact ⟨_, rfl⟩

/-! ### The sprite DMA burst, read by read -/

/-- The state after `i` reads of a burst from page `d` (R416). -/
def dmaBurst (s : State) (d : Byte) : Nat → State
  | 0 => s
  | i + 1 =>
    let q := (dmaBurst s d i).memRead (BitVec.ofNat 16 (d.toNat * 256 + i))
    q.2.putOam (BitVec.ofNat 8 i) q.1

/-- The loop from its `i`-th read on. -/
theorem dmaLoop_burst (s : State) (d : Byte) (k i : Nat) :
    dmaLoop k (BitVec.ofNat 8 i) (BitVec.ofNat 16 (d.toNat * 256 + i)) (dmaBurst s d i)
      = dmaBurst s d (i + k) := by
  induction k generalizing i with
  | zero => rfl
  | succ k ih =>
    rw [show i + (k + 1) = i + 1 + k by omega, ← ih (i + 1)]
    show dmaLoop k (BitVec.ofNat 8 i + 1) (BitVec.ofNat 16 (d.toNat * 256 + i) + 1) _ = _
    have h8 : BitVec.ofNat 8 (i + 1) = BitVec.ofNat 8 i + 1 := BitVec.ofNat_add i 1
    have h16 : BitVec.ofNat 16 (d.toNat * 256 + (i + 1)) = BitVec.ofNat 16 (d.toNat * 256 + i) + 1 := by
      rw [← Nat.add_assoc]
      exact BitVec.ofNat_add _ 1
    rw [h8, h16]
    rfl

/-- A write at 0x4014 is the burst of 256 reads, and its cost (R416). -/
theorem memWrite_dma_burst (s : State) (d : Byte) :
    s.memWrite 0x4014 d = { dmaBurst s d 256 with cyc := s.cyc + 512 } := by
  have hw : wordOf d 0 = BitVec.ofNat 16 (d.toNat * 256 + 0) := by
    apply BitVec.eq_of_toNat_eq
    have := d.isLt
    rw [wordOf_toNat]
    simp
    omega
  have hl := dmaLoop_burst s d 256 0
  rw [← hw] at hl
  have hc : (dmaBurst s d 256).cyc = s.cyc := by
    rw [← Nat.zero_add 256, ← hl]
    exact dmaLoop_cyc _ _ _ _
  rw [memWrite_dma]
  unfold State.spriteDma dmaCost
  dsimp only
  rw [show dmaLoop 256 0 (wordOf d 0) s = dmaBurst s d 256 from hl, hc]

/-- A burst keeps `oam_addr`. -/
theorem dmaBurst_oamAddr (s : State) (d : Byte) (i : Nat) : (dmaBurst s d i).ppu.oamAddr = s.ppu.oamAddr := by
  induction i with
  | zero => rfl
  | succ i ih =>
    obtain ⟨_, _, _, _, _, _, h⟩ := memRead_frame (dmaBurst s d i) (BitVec.ofNat 16 (d.toNat * 256 + i))
    unfold dmaBurst State.putOam
    dsimp only
    rw [h]
    exact ih

/-- A burst from the PPU registers: every eighth read is of 0x2007 and every eighth of 0x2002 (R87). -/
theorem dmaBurst_ppu (s : State) (d : Byte) (h1 : 0x20 ≤ d.toNat) (h2 : d.toNat < 0x40) (i : Nat) (hi : i ≤ 256) :
    let t := dmaBurst s d i
    t.ppu.v = s.ppu.v + BitVec.ofNat 15 (i / 8) * s.ppu.increment
      ∧ t.ppu.ctrl = s.ppu.ctrl ∧ t.ppu.line = s.ppu.line ∧ t.ppu.budget = s.ppu.budget
      ∧ t.cfg = s.cfg ∧ t.pad0 = s.pad0 ∧ t.pad1 = s.pad1
      ∧ (3 ≤ i → exemptWindow s.cfg s.ppu = false → t.ppu.vblank = false ∧ t.ppu.w = false) := by
  induction i with
  | zero => simp [dmaBurst]
  | succ i ih =>
    have ha : (BitVec.ofNat 16 (d.toNat * 256 + i)).toNat = d.toNat * 256 + i := by
      rw [BitVec.toNat_ofNat]
      omega
    have hm : (BitVec.ofNat 16 (d.toNat * 256 + i)).toNat % 8 = i % 8 := by omega
    have l1 : 0x2000 ≤ (BitVec.ofNat 16 (d.toNat * 256 + i)).toNat := by omega
    have l2 : (BitVec.ofNat 16 (d.toNat * 256 + i)).toNat < 0x4000 := by omega
    obtain ⟨e1, e2, e3, e4, e5, e6, e7, e8⟩ := ih (by omega)
    have hx : exemptWindow (dmaBurst s d i).cfg (dmaBurst s d i).ppu = exemptWindow s.cfg s.ppu := by
      unfold exemptWindow
      rw [e3, e4, e5]
    dsimp only [dmaBurst, State.putOam]
    generalize dmaBurst s d i = t at *
    by_cases c7 : i % 8 = 7
    · obtain ⟨rb, hr⟩ := memRead_data t l1 l2 (by omega)
      rw [hr]
      dsimp only
      have hinc : t.ppu.increment = s.ppu.increment := by unfold Ppu.increment; rw [e2]
      refine ⟨?_, e2, e3, e4, e5, e6, e7, fun _ hw => e8 (by omega) hw⟩
      rw [e1, hinc, show (i + 1) / 8 = i / 8 + 1 by omega, BitVec.ofNat_add, BitVec.add_mul, BitVec.add_assoc]
      congr 2
      exact (BitVec.one_mul _).symm
    · have hdiv : (i + 1) / 8 = i / 8 := by omega
      rw [hdiv]
      by_cases c2 : i % 8 = 2
      · rw [memRead_status t l1 l2 (by omega), hx]
        dsimp only
        cases hw : exemptWindow s.cfg s.ppu
        · exact ⟨e1, e2, e3, e4, e5, e6, e7, fun _ _ => ⟨rfl, rfl⟩⟩
        · exact ⟨e1, e2, e3, e4, e5, e6, e7, fun _ h => absurd h (by simp)⟩
      · have hs : (t.memRead (BitVec.ofNat 16 (d.toNat * 256 + i))).2 = t := by
          by_cases c4 : i % 8 = 4
          · rw [memRead_oamData t l1 l2 (by omega)]
          · rw [memRead_writeOnly t l1 l2 (by omega)]
        rw [hs]
        exact ⟨e1, e2, e3, e4, e5, e6, e7, fun h hw => e8 (by omega) hw⟩

/-- A burst from page 0x40 reads each controller once (R87). -/
theorem dmaBurst_pads (s : State) (i : Nat) (hi : i ≤ 256) :
    dmaBurst s 0x40 i = { s with
      ppu := { s.ppu with oam := (dmaBurst s 0x40 i).ppu.oam }
      pad0 := { s.pad0 with count := s.pad0.count + if 23 ≤ i then 1 else 0 }
      pad1 := { s.pad1 with count := s.pad1.count + if 24 ≤ i then 1 else 0 } } := by
  induction i with
  | zero => rfl
  | succ i ih =>
    have hd : (0x40 : Byte).toNat * 256 + i = 0x4000 + i := rfl
    have ha : (BitVec.ofNat 16 (0x4000 + i)).toNat = 0x4000 + i := by
      rw [BitVec.toNat_ofNat]
      omega
    have ih := ih (by omega)
    dsimp only [dmaBurst, State.putOam]
    rw [hd]
    generalize dmaBurst s 0x40 i = t at *
    by_cases c0 : i = 22
    · subst c0
      rw [show BitVec.ofNat 16 (0x4000 + 22) = (0x4016 : Word) from rfl, memRead_pad0]
      dsimp only [Pad.advance]
      rw [ih]
      rfl
    · by_cases c1 : i = 23
      · subst c1
        rw [show BitVec.ofNat 16 (0x4000 + 23) = (0x4017 : Word) from rfl, memRead_pad1]
        dsimp only [Pad.advance]
        rw [ih]
        rfl
      · have hs : (t.memRead (BitVec.ofNat 16 (0x4000 + i))).2 = t := by
          by_cases c : i ≤ 21
          · rw [memRead_apu t (by omega) (by omega)]
          · rw [memRead_plain t (plainAddr_of _ (by omega))]
        have k0 : (if 23 ≤ i + 1 then 1 else 0) = if 23 ≤ i then 1 else 0 := by
          split <;> split <;> first | rfl | omega
        have k1 : (if 24 ≤ i + 1 then 1 else 0) = if 24 ≤ i then 1 else 0 := by
          split <;> split <;> first | rfl | omega
        rw [hs, k0, k1, ih]

end Sys2Proof.Machine
end

