-- ==== Sys2Proof/Laws/Render.lean ====
section
/-! SUPPORT. The colours of a rendered line, layer by layer, its flags, and the scroll counters (spec/45_ppu_render.md
R455 to R470). -/

namespace Sys2Proof.Machine

/-- A sprite draws each column at most once. -/
theorem nodup_pixels (p : Ppu) (line : Int) (i : Nat) : ((p.spritePixels line i).map (·.1)).Nodup := by
  unfold Ppu.spritePixels
  rw [List.map_filterMap]
  apply List.Nodup.filterMap _ List.nodup_range
  intro c d x hc hd
  simp only [Option.map_eq_some_iff, Option.mem_def] at hc hd
  obtain ⟨⟨a1, a2⟩, h1, h2⟩ := hc
  obtain ⟨⟨b1, b2⟩, h3, h4⟩ := hd
  unfold Ppu.spritePixel at h1 h3
  simp only [] at h1 h3
  rw [Option.ite_none_right_eq_some] at h1 h3
  have e1 := congrArg Prod.fst (Option.some.inj h1.2)
  have e3 := congrArg Prod.fst (Option.some.inj h3.2)
  simp only [] at e1 e3 h2 h4
  omega

/-- One more sprite behind the others. -/
theorem spriteAt_snoc (p : Ppu) (line : Int) (is : List Nat) (i y : Nat) :
    p.spriteAt line (is ++ [i]) y
      = (p.spriteAt line is y).or
          (((p.spritePixels line i).find? (fun q => q.1 == y)).map (·.2)) := by
  unfold Ppu.spriteAt
  rw [List.findSome?_append, List.findSome?_singleton]

/-- The colour of a column. -/
def colourAt (cols : List Column) (x : Nat) : Option Colour := cols[x]?.map (·.colour)

/-- The colours after a change of one column. -/
theorem modify_colour (cols : List Column) (x y : Nat) (f : Column → Column) (k : Colour) (hf : ∀ c, (f c).colour = k) :
   colourAt (cols.modify x f) y = if x = y then (colourAt cols y).map (fun _ => k) else colourAt cols y := by
  unfold colourAt
  rw [List.getElem?_modify]
  cases cols[y]? with
  | none => split <;> rfl
  | some c => split <;> simp [hf]

/-- A "behind" sprite sets the columns of its pixels (R461). -/
theorem behindPixels_colour (i : Nat) (ps : List (Nat × Colour)) (hn : (ps.map (·.1)).Nodup) (cols : List Column) (y : Nat) :
   colourAt (drawBehindPixels i ps cols) y = match (ps.find? (fun q => q.1 == y)) with
     | some q => (colourAt cols y).map (fun _ => q.2)
     | none => colourAt cols y := by
  induction ps generalizing cols with
  | nil => rfl
  | cons q ps ih =>
    obtain ⟨x, k⟩ := q
    rw [List.map_cons, List.nodup_cons] at hn
    unfold drawBehindPixels
    rw [ih hn.2, modify_colour _ _ _ _ k (fun _ => rfl)]
    by_cases h : x = y
    · subst h
      have : ps.find? (fun q => q.1 == x) = none := by
        rw [List.find?_eq_none]
        intro q hq he
        exact hn.1 (List.mem_map.mpr ⟨q, hq, by simpa using he⟩)
      simp [this]
    · simp [h]

/-- An "in front" sprite sets the columns of its pixels (R469). -/
theorem frontPixels_colour (i : Nat) (ps : List (Nat × Colour)) (hn : (ps.map (·.1)).Nodup) (q0 : List Column × Bool) (y : Nat) :
   colourAt (drawFrontPixels i ps q0).1 y = match (ps.find? (fun q => q.1 == y)) with
     | some q => (colourAt q0.1 y).map (fun _ => q.2)
     | none => colourAt q0.1 y := by
  induction ps generalizing q0 with
  | nil => rfl
  | cons q ps ih =>
    obtain ⟨x, k⟩ := q
    obtain ⟨cols, hit⟩ := q0
    rw [List.map_cons, List.nodup_cons] at hn
    unfold drawFrontPixels
    rw [ih hn.2]
    simp only []
    rw [modify_colour _ _ _ _ k (fun _ => rfl)]
    by_cases h : x = y
    · subst h
      have : ps.find? (fun q => q.1 == x) = none := by
        rw [List.find?_eq_none]
        intro q hq he
        exact hn.1 (List.mem_map.mpr ⟨q, hq, by simpa using he⟩)
      simp [this]
    · simp [h]

/-- Step 4: the frontmost of the drawn sprites decides (R461). -/
theorem behind_colour (p : Ppu) (line : Int) (is : List Nat) (cols : List Column) (y : Nat) :
   colourAt (p.drawBehind line is cols) y = (colourAt cols y).map (fun c => (p.spriteAt line is.reverse y).getD c) := by
  induction is generalizing cols with
  | nil => simp [Ppu.drawBehind, Ppu.spriteAt]
  | cons i is ih =>
    unfold Ppu.drawBehind
    rw [ih, behindPixels_colour _ _ (nodup_pixels _ _ _)]
    rw [List.reverse_cons, spriteAt_snoc]
    generalize (p.spritePixels line i).find? (fun q => q.1 == y) = o
    generalize p.spriteAt line is.reverse y = u
    cases o <;> cases u <;> simp [Function.comp_def]

/-- Step 7: the frontmost of the drawn sprites decides (R469). -/
theorem front_colour (p : Ppu) (line : Int) (is : List Nat) (q0 : List Column × Bool) (y : Nat) :
   colourAt (p.drawFront line is q0).1 y = (colourAt q0.1 y).map (fun c => (p.spriteAt line is.reverse y).getD c) := by
  induction is generalizing q0 with
  | nil => simp [Ppu.drawFront, Ppu.spriteAt]
  | cons i is ih =>
    unfold Ppu.drawFront
    rw [ih, frontPixels_colour _ _ (nodup_pixels _ _ _)]
    rw [List.reverse_cons, spriteAt_snoc]
    generalize (p.spritePixels line i).find? (fun q => q.1 == y) = o
    generalize p.spriteAt line is.reverse y = u
    cases o <;> cases u <;> simp [Function.comp_def]

/-- The background pixel that step 5 draws `j` columns after column `x0`, where it stands at scroll position `vv`
and fine X `px` (R462, R465). -/
def Ppu.walkPixel (p : Ppu) (x0 : Nat) (vv : Scroll) (px : BitVec 3) (j : Nat) : Option Colour :=
  if 8 ≤ x0 + j ∨ p.mask.getLsbD 1 = true then
    p.bgPixel (incX^[(px.toNat + j) / 8] vv) (BitVec.ofNat 3 (px.toNat + j))
  else none

theorem walkPixel_zero (p : Ppu) (x0 : Nat) (vv : Scroll) (px : BitVec 3) :
    p.walkPixel x0 vv px 0 = if 8 ≤ x0 ∨ p.mask.getLsbD 1 = true then p.bgPixel vv px else none := by
  have hpx := px.isLt
  unfold Ppu.walkPixel
  rw [Nat.add_zero, Nat.add_zero, Nat.div_eq_of_lt hpx, BitVec.ofNat_toNat, BitVec.setWidth_eq]
  rfl

/-- One column on: fine X steps, and the scroll position at its wrap (R465). -/
theorem walkPixel_succ (p : Ppu) (x0 : Nat) (vv : Scroll) (px : BitVec 3) (j : Nat) :
    p.walkPixel x0 vv px (j + 1)
      = p.walkPixel (x0 + 1) (if px = 7 then incX vv else vv) (px + 1) j := by
  have hpx := px.isLt
  unfold Ppu.walkPixel
  rw [show x0 + 1 + j = x0 + (j + 1) by omega]
  by_cases h7 : px = 7
  · subst h7
    have h0 : ((7 : BitVec 3) + 1).toNat = 0 := by decide
    have h1 : (7 : BitVec 3).toNat = 7 := by decide
    have e1 : (7 + (j + 1)) / 8 = j / 8 + 1 := by omega
    have e2 : BitVec.ofNat 3 (7 + (j + 1)) = BitVec.ofNat 3 j := by
      apply BitVec.eq_of_toNat_eq
      simp
      omega
    rw [if_pos rfl, h0, h1, Nat.zero_add, e1, e2, Function.iterate_succ_apply]
  · have hlt : px.toNat < 7 := by
      have : px.toNat ≠ 7 := fun h => h7 (BitVec.eq_of_toNat_eq h)
      omega
    have e1 : (px + 1).toNat = px.toNat + 1 := by rw [BitVec.toNat_add]; simp; omega
    rw [if_neg h7, e1, show px.toNat + 1 + j = px.toNat + (j + 1) by omega]

/-- Step 5 at its first column. -/
theorem walk_cons (p : Ppu) (c : Column) (cs : List Column) (x0 : Nat) (vv : Scroll) (px : BitVec 3) :
    let rest := p.bgWalk cs (x0 + 1) (if px = 7 then incX vv else vv) (px + 1)
    p.bgWalk (c :: cs) x0 vv px
      = match p.walkPixel x0 vv px 0 with
        | some k => ({ c with colour := k, bgop := true } :: rest.1, (c.s0 && decide (x0 ≠ 255)) || rest.2)
        | none => (c :: rest.1, rest.2) := by
  rw [walkPixel_zero]
  dsimp only [Ppu.bgWalk]
  cases p.bgPixel vv px <;> by_cases h : 8 ≤ x0 ∨ p.mask.getLsbD 1 = true <;> simp only [h, if_true, if_false]

/-- Step 5 column by column: what it draws, and marks as an opaque background (R462, R465). -/
theorem walk_column (p : Ppu) (cols : List Column) (x0 : Nat) (vv : Scroll) (px : BitVec 3) (j : Nat) :
    (p.bgWalk cols x0 vv px).1[j]?
      = cols[j]?.map (fun c => match p.walkPixel x0 vv px j with
        | some k => { c with colour := k, bgop := true }
        | none => c) := by
  induction cols generalizing x0 vv px j with
  | nil => rfl
  | cons c cs ih =>
    have hw := walk_cons p c cs x0 vv px
    dsimp only at hw
    rw [hw]
    cases j with
    | zero => cases p.walkPixel x0 vv px 0 <;> rfl
    | succ j =>
      rw [walkPixel_succ]
      cases p.walkPixel x0 vv px 0 <;> exact ih _ _ _ _

/-- Step 5: the background over what stands in the row (R462, R465). -/
theorem walk_colour (p : Ppu) (cols : List Column) (x0 : Nat) (vv : Scroll) (px : BitVec 3) (j : Nat) :
    colourAt (p.bgWalk cols x0 vv px).1 j
      = (colourAt cols j).map (fun c => (p.walkPixel x0 vv px j).getD c) := by
  unfold colourAt
  rw [walk_column, Option.map_map, Option.map_map]
  congr 1
  funext c
  simp only [Function.comp_apply]
  cases p.walkPixel x0 vv px j <;> rfl

/-- Step 5 sets the sprite-0 flag exactly where a marked column, not the last, is drawn opaque (R463). -/
theorem walk_hit (p : Ppu) (cols : List Column) (x0 : Nat) (vv : Scroll) (px : BitVec 3) :
    (p.bgWalk cols x0 vv px).2 = true
      ↔ ∃ j, (cols[j]?.map (·.s0)).getD false = true ∧ (p.walkPixel x0 vv px j).isSome = true
        ∧ x0 + j ≠ 255 := by
  induction cols generalizing x0 vv px with
  | nil => simp [Ppu.bgWalk]
  | cons c cs ih =>
    have hw := walk_cons p c cs x0 vv px
    dsimp only at hw
    rw [hw]
    have hsplit : (∃ j, ((c :: cs)[j]?.map (·.s0)).getD false = true ∧ (p.walkPixel x0 vv px j).isSome = true
          ∧ x0 + j ≠ 255)
        ↔ (c.s0 = true ∧ (p.walkPixel x0 vv px 0).isSome = true ∧ x0 ≠ 255)
          ∨ (p.bgWalk cs (x0 + 1) (if px = 7 then incX vv else vv) (px + 1)).2 = true := by
      rw [ih]
      constructor
      · rintro ⟨j, h1, h2, h3⟩
        cases j with
        | zero => exact .inl ⟨h1, h2, h3⟩
        | succ j => exact .inr ⟨j, h1, by rw [← walkPixel_succ]; exact h2, by omega⟩
      · rintro (⟨h1, h2, h3⟩ | ⟨j, h1, h2, h3⟩)
        · exact ⟨0, h1, h2, h3⟩
        · exact ⟨j + 1, h1, by rw [walkPixel_succ]; exact h2, by omega⟩
    rw [hsplit]
    cases p.walkPixel x0 vv px 0 <;> simp

/-! ### Sprite 0 (R463, R470) -/

/-- A sprite draws a column. -/
theorem spriteAt_isSome (p : Ppu) (line : Int) (i x : Nat) :
    (p.spriteAt line [i] x).isSome = true ↔ x ∈ (p.spritePixels line i).map (·.1) := by
  unfold Ppu.spriteAt
  rw [List.findSome?_singleton, Option.isSome_map, List.find?_isSome]
  simp

/-- A sprite draws no column beyond the row. -/
theorem pixels_lt (p : Ppu) (line : Int) (i x : Nat) (h : x ∈ (p.spritePixels line i).map (·.1)) :
    x < 256 := by
  obtain ⟨q, hq, rfl⟩ := List.mem_map.mp h
  obtain ⟨c, -, hc⟩ := List.mem_filterMap.mp hq
  unfold Ppu.spritePixel at hc
  dsimp only at hc
  rw [Option.ite_none_right_eq_some] at hc
  rw [← Option.some.inj hc.2]
  have := hc.1.2.1
  dsimp only
  omega

/-- A "behind" sprite 0 marks its columns, the others none (R461). -/
theorem behindPixels_s0 (i : Nat) (ps : List (Nat × Colour)) (cols : List Column) (y : Nat) :
    (drawBehindPixels i ps cols)[y]?.map (·.s0)
      = cols[y]?.map (fun c => c.s0 || decide (i = 0 ∧ y ∈ ps.map (·.1))) := by
  induction ps generalizing cols with
  | nil => simp [drawBehindPixels]
  | cons q ps ih =>
    obtain ⟨x, k⟩ := q
    unfold drawBehindPixels
    rw [ih, List.getElem?_modify]
    cases cols[y]? with
    | none => rfl
    | some c =>
      by_cases hx : x = y
      · by_cases hi : i = 0 <;> simp [hx, hi]
      · have : ¬ (y = x) := fun e => hx e.symm
        simp [hx, this]

/-- The columns that step 4 marks (R461). -/
theorem behind_s0 (p : Ppu) (line : Int) (is : List Nat) (cols : List Column) (y : Nat) :
    (p.drawBehind line is cols)[y]?.map (·.s0)
      = cols[y]?.map (fun c => c.s0 || decide (0 ∈ is ∧ y ∈ (p.spritePixels line 0).map (·.1))) := by
  induction is generalizing cols with
  | nil => simp [Ppu.drawBehind]
  | cons i is ih =>
    have h := behindPixels_s0 i (p.spritePixels line i) cols y
    unfold Ppu.drawBehind
    rw [ih]
    generalize drawBehindPixels i (p.spritePixels line i) cols = cols' at *
    cases hc : cols[y]? <;> cases hc' : cols'[y]? <;> rw [hc, hc'] at h <;> simp at h ⊢
    rw [h]
    by_cases hi : i = 0
    · subst hi
      simp
      tauto
    · have : ¬ (0 = i) := fun e => hi e.symm
      simp [hi, this]

/-- Step 7's pixels move no background mark, and sprite 0 sets the flag over one (R470). -/
theorem frontPixels_hit (i : Nat) (ps : List (Nat × Colour)) (q : List Column × Bool) :
    (∀ y : Nat, (drawFrontPixels i ps q).1[y]?.map Column.bgop = q.1[y]?.map Column.bgop)
      ∧ ((drawFrontPixels i ps q).2 = true
        ↔ q.2 = true ∨ i = 0 ∧ ∃ y ∈ ps.map (·.1), (q.1[y]?.map Column.bgop).getD false = true ∧ y ≠ 255) := by
  induction ps generalizing q with
  | nil => simp [drawFrontPixels]
  | cons r ps ih =>
    obtain ⟨x, k⟩ := r
    obtain ⟨cols, hit⟩ := q
    unfold drawFrontPixels
    dsimp only
    obtain ⟨h1, h2⟩ := ih (cols.modify x (fun c => { c with colour := k }),
      hit || (decide (i = 0) && (cols[x]?.map Column.bgop).getD false && decide (x ≠ 255)))
    have hm : ∀ y : Nat, (cols.modify x (fun c => { c with colour := k }))[y]?.map Column.bgop
        = cols[y]?.map Column.bgop := by
      intro y
      rw [List.getElem?_modify]
      cases cols[y]? with
      | none => rfl
      | some c => by_cases hx : x = y <;> simp [hx]
    refine ⟨fun y => (h1 y).trans (hm y), h2.trans ?_⟩
    simp only [hm, List.map_cons, List.mem_cons, exists_eq_or_imp, Bool.or_eq_true, Bool.and_eq_true,
      decide_eq_true_eq]
    tauto

/-- Step 7 sets the sprite-0 flag exactly where sprite 0, in front, draws over an opaque background (R470). -/
theorem front_hit (p : Ppu) (line : Int) (is : List Nat) (q : List Column × Bool) :
    (p.drawFront line is q).2 = true
      ↔ q.2 = true ∨ 0 ∈ is ∧ ∃ y ∈ (p.spritePixels line 0).map (·.1),
        (q.1[y]?.map Column.bgop).getD false = true ∧ y ≠ 255 := by
  induction is generalizing q with
  | nil => simp [Ppu.drawFront]
  | cons i is ih =>
    obtain ⟨h1, h2⟩ := frontPixels_hit i (p.spritePixels line i) q
    unfold Ppu.drawFront
    rw [ih, h2]
    simp only [h1, List.mem_cons]
    by_cases hi : i = 0
    · subst hi
      simp
      tauto
    · have : ¬ (0 = i) := fun e => hi e.symm
      simp [hi, this]

/-- The covering sprites, by their OAM bytes (R455). -/
theorem covering_eq (p : Ppu) (line : Int) : (p.reload line).covering line =
   if (p.mask.getLsbD 3 || p.mask.getLsbD 4) = true then (List.range 64).filter (fun i => decide
              ((p.oam.read (4 * i)).toNat + 1 ≤ line
                ∧ line < (p.oam.read (4 * i)).toNat + 1
                  + (if p.ctrl.getLsbD 5 then 16 else 8))) else [] := by
  have e1 : (p.reload line).mask = p.mask := by rw [reload_eq]
  have e2 : (p.reload line).oam = p.oam := by rw [reload_eq]
  have e3 : (p.reload line).ctrl = p.ctrl := by rw [reload_eq]
  unfold Ppu.covering Ppu.rendering
  rw [e1]
  split
  · apply List.filter_congr
    intro i _
    unfold Ppu.covers Ppu.spriteRow Ppu.sprite Ppu.sprHeight
    rw [e2, e3, decide_eq_decide, Nat.add_zero]
    split <;> (constructor <;> (intro h; constructor <;> omega))
  · rfl

/-- With sprites off, a sprite draws nothing (R460). -/
theorem pixels_off (p : Ppu) (line : Int) (i : Nat) (h : p.mask.getLsbD 4 = false) :
    p.spritePixels line i = [] := by
  unfold Ppu.spritePixels
  apply List.filterMap_eq_nil_iff.mpr
  intro c _
  unfold Ppu.spritePixel
  simp only [h]
  rw [if_neg]
  simp

/-- Step 7 sets no hit over columns without an opaque background, or with sprites off (R470). -/
theorem front_nohit (p : Ppu) (line : Int) (is : List Nat) (q : List Column × Bool)
    (h : (∀ c ∈ q.1, c.bgop = false) ∨ p.mask.getLsbD 4 = false) : (p.drawFront line is q).2 = q.2 := by
  rw [Bool.eq_iff_iff, front_hit]
  refine ⟨?_, .inl⟩
  rintro (hq | ⟨-, y, hy, hb, -⟩)
  · exact hq
  · rcases h with h | h
    · cases hc : q.1[y]? with
      | none => rw [hc] at hb; cases hb
      | some c => rw [hc] at hb; exact absurd hb (by simp [h c (List.mem_of_getElem? hc)])
    · rw [pixels_off p line 0 h] at hy
      cases hy

/-- Step 5 sets no hit over columns without a behind sprite 0 (R463). -/
theorem walk_nohit (p : Ppu) (cols : List Column) (x vv px) (h : ∀ c ∈ cols, c.s0 = false) :
    (p.bgWalk cols x vv px).2 = false := by
  rw [← Bool.not_eq_true, walk_hit]
  rintro ⟨j, hj, -⟩
  cases hc : cols[j]? with
  | none => rw [hc] at hj; cases hj
  | some c => rw [hc] at hj; exact absurd hj (by simp [h c (List.mem_of_getElem? hc)])

/-- With sprites off, step 4 draws nothing (R460). -/
theorem behind_off (p : Ppu) (line : Int) (is : List Nat) (cols : List Column)
    (h : p.mask.getLsbD 4 = false) : p.drawBehind line is cols = cols := by
  induction is generalizing cols with
  | nil => rfl
  | cons i is ih => unfold Ppu.drawBehind; rw [pixels_off p line i h, ih]; rfl

/-- Step 4 marks no column as background (R461). -/
theorem behind_bgop (p : Ppu) (line : Int) (is : List Nat) (cols : List Column) (h : ∀ c ∈ cols, c.bgop = false) : ∀ c ∈ p.drawBehind line is cols, c.bgop = false := by
  have hpx : ∀ i (ps : List (Nat × Colour)) (cols : List Column), (∀ c ∈ cols, c.bgop = false) → ∀ c ∈ drawBehindPixels i ps cols, c.bgop = false := by
    intro i ps
    induction ps with
    | nil => intro q h; exact h
    | cons r ps ih =>
      intro cols h
      obtain ⟨x, k⟩ := r
      unfold drawBehindPixels
      apply ih
      intro c hc
      obtain ⟨j, hj⟩ := List.mem_iff_getElem?.mp hc
      simp only [List.getElem?_modify] at hj
      obtain ⟨d, hd, he⟩ := Option.map_eq_some_iff.mp hj
      have hb := h d (List.mem_of_getElem? hd)
      rw [← he]; split <;> simpa using hb
  induction is generalizing cols with
  | nil => exact h
  | cons i is ih => unfold Ppu.drawBehind; exact ih _ (hpx _ _ _ h)

/-- The coarse X field. -/
theorem coarseX_toNat (v : Scroll) : (v &&& 0x001F).toNat = v.toNat % 32 := by
  rw [BitVec.toNat_and]
  exact Nat.and_two_pow_sub_one_eq_mod _ 5

/-- Coarse X is 31. -/
theorem coarseX_eq_31 (v : Scroll) : (v &&& 0x001F = 31) ↔ v.toNat % 32 = 31 := by
  rw [← coarseX_toNat]
  constructor
  · intro h; rw [h]; rfl
  · intro h; exact BitVec.eq_of_toNat_eq h

/-- The fine Y field in place. -/
theorem fineY_and (v : Scroll) : (v &&& 0x7000) = BitVec.ofNat 15 (v.toNat / 4096 * 4096) := by
  apply BitVec.eq_of_getLsbD_eq
  intro j hj
  rw [BitVec.getLsbD_and, BitVec.getLsbD_ofNat, show v.toNat / 4096 * 4096 = 2^12 * (v.toNat >>> 12) by rw [Nat.shiftRight_eq_div_pow]; omega]
  rw [Nat.testBit_two_pow_mul, Nat.testBit_shiftRight]
  show (v.getLsbD j && Nat.testBit 28672 j) = _
  unfold BitVec.getLsbD
  have : ∀ j, j < 15 → Nat.testBit 28672 j = decide (12 ≤ j) := by decide
  rw [this j hj]
  interval_cases j <;> simp

/-- Fine Y is 7. -/
theorem fineY_ne_7 (v : Scroll) : (v &&& 0x7000 ≠ 0x7000) ↔ v.toNat / 4096 ≠ 7 := by
  have hv := v.isLt
  rw [fineY_and]
  constructor
  · intro h e; apply h; rw [e]; rfl
  · intro h e
    have := congrArg BitVec.toNat e
    simp at this
    omega

/-- The coarse Y field. -/
theorem coarseY_toNat (v : Scroll) : ((v &&& 0x0FFF) >>> 5 &&& 0x1F#15).toNat = v.toNat / 32 % 32 := by
  have : ((v &&& 0x0FFF) >>> 5 &&& 0x1F#15).toNat = (((v &&& 0x0FFF) >>> 5).toNat) % 32 := by
    rw [BitVec.toNat_and]; exact Nat.and_two_pow_sub_one_eq_mod _ 5
  rw [this, BitVec.toNat_ushiftRight, BitVec.toNat_and, Nat.shiftRight_eq_div_pow]
  rw [show BitVec.toNat (4095 : Scroll) = 2^12 - 1 from rfl, Nat.and_two_pow_sub_one_eq_mod]
  omega

/-- Coarse Y has a value. -/
theorem coarseY_eq (v k : Scroll) :
    ((v &&& 0x0FFF) >>> 5 &&& 0x1F#15 = k) ↔ v.toNat / 32 % 32 = k.toNat := by
  rw [← coarseY_toNat]
  exact ⟨fun h => by rw [h], fun h => BitVec.eq_of_toNat_eq h⟩

/-- A bit of the scroll word by its number. -/
theorem scroll_bit (v : Scroll) (j : Nat) : v.getLsbD j = decide (v.toNat / 2^j % 2 = 1) := by
  rw [BitVec.getLsbD, Nat.testBit_eq_decide_div_mod_eq]

end Sys2Proof.Machine
end

