-- ==== Sys2Proof/Laws/RenderBytes.lean ====
section
/-! SUPPORT. What the renderer fetches, by the bytes of sprite memory and of video memory (R460, R462,
R479). -/

namespace Sys2Proof.Machine

/-! ### Reads of video memory -/

/-- An address below 0x4000 is itself. -/
theorem vaddr_toNat {n : Nat} (h : n < 0x4000) : (vaddr n).toNat = n := by
  unfold vaddr; rw [BitVec.toNat_ofNat, Nat.mod_eq_of_lt h]

/-- A read of a pattern table is no fold (R479, R480). -/
theorem vramRead_pattern (p : Ppu) {n : Nat} (h : n < 0x2000) : p.vramRead (vaddr n) = p.vram.read n := by
  unfold Ppu.vramRead vnorm
  simp only [vaddr_toNat (show n < 0x4000 by omega)]
  rw [if_neg (by omega), if_neg (by omega)]

/-- A read of a palette entry that is no alias (R479, R480). -/
theorem colourAt_palette (p : Ppu) {n : Nat} (h : n < 0x20) (h4 : n % 4 ≠ 0) :
    p.colourAt (vaddr (0x3F00 + n)) = (p.vram.read (0x3F00 + n)).setWidth 6 := by
  unfold Ppu.colourAt Ppu.vramRead vnorm palettePage
  simp only [vaddr_toNat (show 0x3F00 + n < 0x4000 by omega)]
  rw [if_pos (by omega), if_neg (by omega), show (0x3F00 + n) % 0x20 = n by omega]

/-- A pixel's pattern bits are 0 to 3. -/
theorem patternBits_lt (lo hi : Byte) (bit : Nat) : patternBits lo hi bit < 4 := by
  unfold patternBits
  cases hi.getLsbD bit <;> cases lo.getLsbD bit <;> decide

/-- Find in a list of drawn pixels, each at its own column. -/
theorem find_columns {α : Type} (f : Nat → Option (Nat × α)) (left x n : Nat)
    (hf : ∀ c q, f c = some q → q.1 = left + c) :
    ((List.range n).filterMap f).find? (fun q => q.1 == x)
      = if left ≤ x ∧ x < left + n then f (x - left) else none := by
  induction n with
  | zero => simp
  | succ n ih =>
    rw [List.range_succ, List.filterMap_append, List.find?_append, ih]
    by_cases h : left ≤ x ∧ x < left + n
    · rw [if_pos h, if_pos (by omega)]
      cases hx : f (x - left) with
      | some q => rfl
      | none =>
        cases hn : f n with
        | none => simp [hn]
        | some q => have := hf _ _ hn; simp [hn, this]; omega
    · rw [if_neg h, Option.none_or]
      cases hn : f n with
      | none =>
        by_cases hx : x = left + n
        · rw [if_pos (by omega), show x - left = n by omega, hn]; simp [hn]
        · rw [if_neg (by omega)]; simp [hn]
      | some q =>
        have := hf _ _ hn
        by_cases hx : x = left + n
        · rw [if_pos (by omega), show x - left = n by omega, hn]; simp [hn, this, hx]
        · rw [if_neg (by omega)]; simp [hn, this]; omega


/-! ### A background pixel (R462) -/

/-- The nametable byte's address (R462). -/
theorem tileAddr_eq (v : Scroll) : (0x2000#14 ||| (v &&& 0x0FFF#15).setWidth 14)
    = BitVec.ofNat 14 (0x2000 + v.toNat / 1024 % 4 * 0x400 + v.toNat / 32 % 32 * 32 + v.toNat % 32) := by
  have h : (v &&& 0x0FFF#15).toNat = v.toNat % 4096 := by
    rw [BitVec.toNat_and]; exact Nat.and_two_pow_sub_one_eq_mod _ 12
  apply BitVec.eq_of_toNat_eq
  rw [BitVec.toNat_or, BitVec.toNat_setWidth, h, BitVec.toNat_ofNat, BitVec.toNat_ofNat]
  rw [show 0x2000 % 2^14 = 2^13 * 1 from rfl, ← Nat.two_pow_add_eq_or_of_lt (by omega)]
  omega

/-- The nametable, coarse Y and coarse X fields that the attribute fetch takes from `v` (R462). -/
theorem attrFields (v : Scroll) :
    v &&& 0x0C00#15 = BitVec.ofNat 15 (v.toNat / 1024 % 4 * 1024)
      ∧ (v >>> 4) &&& 0x38#15 = BitVec.ofNat 15 (v.toNat / 128 % 8 * 8)
      ∧ (v >>> 2) &&& 0x07#15 = BitVec.ofNat 15 (v.toNat / 4 % 8)
      ∧ (v >>> 4) &&& 4#15 = BitVec.ofNat 15 (v.toNat / 64 % 2 * 4)
      ∧ v &&& 2#15 = BitVec.ofNat 15 (v.toNat / 2 % 2 * 2) := by
  refine ⟨?_, ?_, ?_, ?_, ?_⟩ <;> apply BitVec.eq_of_getLsbD_eq <;> intro j hj <;>
    simp only [BitVec.getLsbD_and, BitVec.getLsbD_ushiftRight, BitVec.getLsbD_ofNat, scroll_bit v,
      Nat.testBit_eq_decide_div_mod_eq] <;>
    interval_cases j <;> rw [Bool.eq_iff_iff] <;> simp <;> omega

/-- The attribute byte's address (R462). -/
theorem attrAddr_eq (v : Scroll) : (0x23C0#14 ||| (v &&& 0x0C00#15).setWidth 14 ||| ((v >>> 4) &&& 0x38#15).setWidth 14
      ||| ((v >>> 2) &&& 0x07#15).setWidth 14)
    = BitVec.ofNat 14 (0x2000 + v.toNat / 1024 % 4 * 0x400 + 0x3C0 + v.toNat / 32 % 32 / 4 * 8 + v.toNat % 32 / 4) := by
  obtain ⟨h1, h2, h3, -, -⟩ := attrFields v
  have fields : ∀ n < 4, ∀ y < 8, ∀ x < 8,
      (0x23C0#14 ||| (BitVec.ofNat 15 (n * 1024)).setWidth 14 ||| (BitVec.ofNat 15 (y * 8)).setWidth 14
        ||| (BitVec.ofNat 15 x).setWidth 14) = BitVec.ofNat 14 (0x2000 + n * 0x400 + 0x3C0 + y * 8 + x) := by
    decide
  rw [h1, h2, h3, fields _ (Nat.mod_lt _ (by decide)) _ (Nat.mod_lt _ (by decide)) _ (Nat.mod_lt _ (by decide)),
    show v.toNat / 32 % 32 / 4 = v.toNat / 128 % 8 by omega, show v.toNat % 32 / 4 = v.toNat / 4 % 8 by omega]

/-- The attribute byte's shift (R462). -/
theorem attrShift_eq (v : Scroll) : (((v >>> 4) &&& 4#15) ||| (v &&& 2#15)).toNat
    = v.toNat / 32 % 32 / 2 % 2 * 4 + v.toNat % 32 / 2 % 2 * 2 := by
  obtain ⟨-, -, -, h4, h5⟩ := attrFields v
  have fields : ∀ y < 2, ∀ x < 2, (BitVec.ofNat 15 (y * 4) ||| BitVec.ofNat 15 (x * 2)).toNat = y * 4 + x * 2 := by
    decide
  rw [h4, h5, fields _ (Nat.mod_lt _ (by decide)) _ (Nat.mod_lt _ (by decide)),
    show v.toNat / 32 % 32 / 2 % 2 = v.toNat / 64 % 2 by omega, show v.toNat % 32 / 2 % 2 = v.toNat / 2 % 2 by omega]

/-- Fine Y (R462). -/
theorem fineY_toNat (v : Scroll) : ((v >>> 12) &&& 7#15).toNat = v.toNat / 4096 := by
  have hv := v.isLt
  rw [BitVec.toNat_and, BitVec.toNat_ushiftRight, Nat.shiftRight_eq_div_pow]
  rw [show BitVec.toNat 7#15 = 2^3 - 1 from rfl, Nat.and_two_pow_sub_one_eq_mod]
  omega

/-- A background pixel by the bytes of video memory (R462). -/
theorem bgPixel_eq (p : Ppu) (v : Scroll) (px : BitVec 3) :
    let cx := v.toNat % 32
    let cy := v.toNat / 32 % 32
    let table := 0x2000 + v.toNat / 1024 % 4 * 0x400
    let tile := (p.vramRead (BitVec.ofNat 14 (table + cy * 32 + cx))).toNat
    let attr := (p.vramRead (BitVec.ofNat 14 (table + 0x3C0 + cy / 4 * 8 + cx / 4))).toNat
    let pal := attr / 2 ^ (cy / 2 % 2 * 4 + cx / 2 % 2 * 2) % 4
    let row := p.bgBase + tile * 16 + v.toNat / 4096
    let q := patternBits (p.vram.read row) (p.vram.read (row + 8)) (7 - px.toNat)
    p.bgPixel v px = if q = 0 then none else some ((p.vram.read (0x3F00 + pal * 4 + q)).setWidth 6) := by
  have hv := v.isLt
  dsimp only
  unfold Ppu.bgPixel
  dsimp only
  rw [tileAddr_eq, attrAddr_eq, attrShift_eq, fineY_toNat]
  generalize p.vramRead (BitVec.ofNat 14 (0x2000 + v.toNat / 1024 % 4 * 0x400 + v.toNat / 32 % 32 * 32 + v.toNat % 32)) = tile
  generalize p.vramRead (BitVec.ofNat 14 _) = attr
  generalize v.toNat / 32 % 32 / 2 % 2 * 4 + v.toNat % 32 / 2 % 2 * 2 = sh
  have ht := tile.isLt
  have hb : p.bgBase + tile.toNat * 16 + v.toNat / 4096 + 8 < 0x2000 := by
    unfold Ppu.bgBase; split <;> omega
  rw [vramRead_pattern p (by omega), vramRead_pattern p hb]
  have e5 : (attr >>> sh &&& 3#8).toNat = attr.toNat / 2 ^ sh % 4 := by
    rw [BitVec.toNat_and, BitVec.toNat_ushiftRight, Nat.shiftRight_eq_div_pow]
    exact Nat.and_two_pow_sub_one_eq_mod _ 2
  rw [e5]
  have hq := patternBits_lt (p.vram.read (p.bgBase + tile.toNat * 16 + v.toNat / 4096))
    (p.vram.read (p.bgBase + tile.toNat * 16 + v.toNat / 4096 + 8)) (7 - px.toNat)
  generalize patternBits _ _ _ = q at *
  have hpal : attr.toNat / 2 ^ sh % 4 < 4 := Nat.mod_lt _ (by decide)
  generalize attr.toNat / 2 ^ sh % 4 = pal at *
  by_cases h0 : q = 0
  · rw [if_neg (by omega), if_pos h0]
  · rw [if_pos h0, if_neg h0, Nat.add_assoc, colourAt_palette p (by omega) (by omega)]

/-! ### A sprite's pixels (R460) -/

/-- The pattern row of a sprite lies in the pattern tables. -/
theorem patternAddr_lt (p : Ppu) (line : Int) (i : Nat)
    (h : p.spriteRow line i < p.sprHeight) : p.patternAddr line i + 8 < 0x2000 := by
  have ht := (p.sprite i 1).isLt
  have hs : p.sprHeight = 8 ∨ p.sprHeight = 16 := by unfold Ppu.sprHeight; split <;> simp
  have hr : p.patternRow line i < p.sprHeight := by unfold Ppu.patternRow; dsimp only; split <;> omega
  have hb : p.sprBase ≤ 0x1000 := by unfold Ppu.sprBase; split <;> omega
  unfold Ppu.patternAddr
  dsimp only
  split
  · omega
  · split <;> omega

/-- What a covering sprite draws at a column, by the bytes of video memory (R460). -/
theorem spritePixels_find (p : Ppu) (line : Int) (i x : Nat) (h : p.spriteRow line i < p.sprHeight) :
    let left := (p.sprite i 3).toNat
    let bit := if (p.sprite i 2).getLsbD 6 then x - left else 7 - (x - left)
    let row := p.patternAddr line i
    let q := patternBits (p.vram.read row) (p.vram.read (row + 8)) bit
    ((p.spritePixels line i).find? (fun k => k.1 == x)).map (·.2)
      = if left ≤ x ∧ x < left + 8 ∧ x ≤ 255 ∧ q ≠ 0 ∧ p.mask.getLsbD 4 = true
          ∧ (8 ≤ x ∨ p.mask.getLsbD 2 = true) then
        some ((p.vram.read (0x3F10 + (p.sprite i 2).toNat % 4 * 4 + q)).setWidth 6)
      else none := by
  have hrow := patternAddr_lt p line i h
  dsimp only
  unfold Ppu.spritePixels
  rw [find_columns _ (p.sprite i 3).toNat x 8 (fun c q hc => by
    unfold Ppu.spritePixel at hc
    dsimp only at hc
    rw [Option.ite_none_right_eq_some] at hc
    rw [← Option.some.inj hc.2])]
  by_cases hx : (p.sprite i 3).toNat ≤ x ∧ x < (p.sprite i 3).toNat + 8
  · rw [if_pos hx]
    unfold Ppu.spritePixel
    dsimp only
    rw [vramRead_pattern p (by omega), vramRead_pattern p hrow, show (p.sprite i 3).toNat + (x - (p.sprite i 3).toNat) = x by omega]
    have hq := patternBits_lt (p.vram.read (p.patternAddr line i)) (p.vram.read (p.patternAddr line i + 8))
      (if (p.sprite i 2).getLsbD 6 then x - (p.sprite i 3).toNat else 7 - (x - (p.sprite i 3).toNat))
    generalize patternBits _ _ _ = q at *
    have hcol : q ≠ 0 → p.colourAt (vaddr (0x3F10 + (p.sprite i 2).toNat % 4 * 4 + q))
        = (p.vram.read (0x3F10 + (p.sprite i 2).toNat % 4 * 4 + q)).setWidth 6 := by
      intro h0
      have := colourAt_palette p (n := 0x10 + (p.sprite i 2).toNat % 4 * 4 + q) (by omega) (by omega)
      rwa [show 0x3F00 + (0x10 + (p.sprite i 2).toNat % 4 * 4 + q) = 0x3F10 + (p.sprite i 2).toNat % 4 * 4 + q by omega] at this
    split
    · rename_i hc
      rw [if_pos ⟨hx.1, hx.2, hc.2.1, hc.1, hc.2.2.1, hc.2.2.2⟩, ← hcol hc.1]; rfl
    · rename_i hc
      rw [if_neg (fun hn => hc ⟨hn.2.2.2.1, hn.2.2.1, hn.2.2.2.2.1, hn.2.2.2.2.2⟩)]; rfl
  · rw [if_neg hx, if_neg (fun hn => hx ⟨hn.1, hn.2.1⟩)]; rfl

end Sys2Proof.Machine
end

