-- ==== Sys2Proof/Laws/ResetStep.lean ====
section
/-! SUPPORT. The mapper's reset and the step that takes the RESET event, whole: the frame, and the bank
windows of every variant (R506, R511, R516, R520, R526, R538, R551, R612). -/

namespace Sys2Proof.Machine

/-- The mapper's reset (R506): the SRAM switches, the variant's registers, the mirroring and the bank windows,
and nothing else. -/
theorem mapperReset_eq (s : State) (h : s.MapperOk) :
    s.mapperReset = { s with
      mem := s.mapperReset.mem
      sramEnabled := true, sramReadonly := false, mapper := initMapper s.cart.mapperId
      ppu := { s.ppu with vram := s.mapperReset.ppu.vram, mirroring := seedMirroring s.cart } } := by
  have hp := (banks_mapperReset s).ppu
  have hm := mapperReset_mapper s h
  have hs := mapperReset_sram s
  rw [mapperReset_mirroring] at hp
  dsimp only at hp
  obtain ⟨vr, hv⟩ : ∃ vr, vr = s.mapperReset.ppu.vram := ⟨_, rfl⟩
  rw [← hv] at hp ⊢
  rw [State.mk.injEq]
  simp [hm, hs, hp]

/-! MMC1's registers after its reset (R63). -/

@[simp] theorem initMmc1_reg0 : initMmc1.reg[0].toNat = 12 := rfl
@[simp] theorem initMmc1_reg1 : initMmc1.reg[1].toNat = 0 := rfl
@[simp] theorem initMmc1_reg3 : initMmc1.reg[3].toNat = 0 := rfl

/-- MMC3's CHR bank of 1 KiB window `k` after its reset is `k` (R64, R534). -/
theorem initMmc3_chrBank (k : Fin 8) :
    (if k = 0 then initMmc3.bankReg[0].toNat / 2 * 2
      else if k = 1 then initMmc3.bankReg[0].toNat / 2 * 2 + 1
      else if k = 2 then initMmc3.bankReg[1].toNat / 2 * 2
      else if k = 3 then initMmc3.bankReg[1].toNat / 2 * 2 + 1
      else initMmc3.bankReg[k.val - 2].toNat) = k.val := by
  revert k
  decide

/-- The bank windows after the mapper's reset, of every variant (R511, R516, R520, R526, R538). -/
theorem mapperReset_windows (s : State) (h : s.MapperOk) (hid : s.cart.mapperId ≤ 4) :
    (0 < s.cart.prgCount → ∀ i, i < 16384 →
      s.mapperReset.mem.read (0x8000 + i) = s.cart.prg.read i
        ∧ s.mapperReset.mem.read (0xC000 + i)
          = s.cart.prg.read ((s.cart.prgCount - 1) * 16384 + i))
    ∧ (s.cart.chrCount ≠ 0 → ∀ i, i < 8192 → s.mapperReset.ppu.vram.read i = s.cart.chr.read i) := by
  have fixed : ∀ u : State, u.cart = s.cart →
      (0 < s.cart.prgCount → ∀ i, i < 16384 →
        u.fixedLayout.mem.read (0x8000 + i) = s.cart.prg.read i
          ∧ u.fixedLayout.mem.read (0xC000 + i) = s.cart.prg.read ((s.cart.prgCount - 1) * 16384 + i))
      ∧ (s.cart.chrCount ≠ 0 → ∀ i, i < 8192 → u.fixedLayout.ppu.vram.read i = s.cart.chr.read i) := by
    intro u hu
    unfold State.fixedLayout
    constructor
    · intro hp i hi
      have := prgPair_windows u 0 (u.cart.prgCount - 1) i hi
      dsimp only at this
      rw [hu, Nat.zero_mod, Nat.zero_mul, Nat.zero_add, Nat.mod_eq_of_lt (by omega)] at this
      rw [copyChr_mem, hu]
      exact this
    · intro hc i hi
      rw [copyChr_read _ _ _ _ _ (by simpa [hu] using hc), if_pos (by omega)]
      simp [hu]
  unfold State.MapperOk at h
  unfold State.mapperReset
  dsimp only
  split <;> rename_i hm <;> rw [hm] at h <;> dsimp only at h
  · exact fixed _ rfl
  · exact fixed _ rfl
  · exact fixed _ rfl
  · constructor
    · intro hp i hi
      rw [mmc1Chr_mem]
      have := mmc1Prg_windows { s with
        sramEnabled := true, sramReadonly := false, mapper := .mmc1 initMmc1
        ppu := { s.ppu with mirroring := seedMirroring s.cart } } initMmc1 i hi
      simp only [initMmc1_reg0, initMmc1_reg3] at this
      simp only [Nat.reduceDiv, Nat.reduceMod, Nat.reduceEqDiff, if_true, if_false, Nat.zero_mod,
        Nat.zero_mul, Nat.zero_add] at this
      rwa [Nat.mod_eq_of_lt (by omega)] at this
    · intro hc i hi
      have := (mmc1Chr_windows (State.mmc1Prg { s with
        sramEnabled := true, sramReadonly := false, mapper := .mmc1 initMmc1
        ppu := { s.ppu with mirroring := seedMirroring s.cart } } initMmc1) initMmc1 (by simpa using hc)).1 rfl i hi
      simpa [initMmc1_reg1] using this
  · constructor
    · intro hp i hi
      rw [mmc3Chr_mem]
      have key := fun k j => mmc3Prg_windows { s with
          sramEnabled := true, sramReadonly := false, mapper := .mmc3 initMmc3
          ppu := { s.ppu with mirroring := seedMirroring s.cart } } initMmc3 k j
      dsimp only at key
      generalize State.mmc3Prg _ initMmc3 = t at *
      have b0 : initMmc3.bankSelect.getLsbD 6 = false := rfl
      have b6 : initMmc3.bankReg[6].toNat = 0 := rfl
      have b7 : initMmc3.bankReg[7].toNat = 1 := rfl
      simp only [b0, b6, b7, Bool.false_eq_true, if_false] at key
      rcases Nat.lt_or_ge i 8192 with h8 | h8
      · have k0 := key 0 i (by omega) h8
        have k2 := key 2 i (by omega) h8
        simp only [Nat.reduceEqDiff, if_false, if_true] at k0 k2
        rw [Nat.mod_eq_of_lt (by omega)] at k0 k2
        exact ⟨k0.trans (congrArg _ (by omega)), k2.trans (congrArg _ (by omega))⟩
      · obtain ⟨j, rfl⟩ : ∃ j, i = 8192 + j := ⟨i - 8192, by omega⟩
        have k1 := key 1 j (by omega) (by omega)
        have k3 := key 3 j (by omega) (by omega)
        simp only [Nat.reduceEqDiff, if_false, if_true] at k1 k3
        rw [Nat.mod_eq_of_lt (by omega)] at k1 k3
        rw [show 0x8000 + 1 * 8192 + j = 0x8000 + (8192 + j) by omega] at k1
        rw [show 0x8000 + 3 * 8192 + j = 0xC000 + (8192 + j) by omega] at k3
        exact ⟨k1.trans (congrArg _ (by omega)), k3.trans (congrArg _ (by omega))⟩
    · intro hc i hi
      have key := fun k j hj => mmc3Chr_windows (State.mmc3Prg { s with
          sramEnabled := true, sramReadonly := false, mapper := .mmc3 initMmc3
          ppu := { s.ppu with mirroring := seedMirroring s.cart } } initMmc3) initMmc3 k j hj
          (by simpa using hc)
      rw [mmc3Prg_cart] at key
      dsimp only at key
      generalize State.mmc3Chr _ initMmc3 = t at *
      have b7 : initMmc3.bankSelect.getLsbD 7 = false := rfl
      have e := key ⟨i / 1024, by omega⟩ (i % 1024) (by omega)
      rw [initMmc3_chrBank, b7] at e
      dsimp only at e
      rw [Nat.mod_eq_of_lt (a := i / 1024) (by omega)] at e
      have hi' : (i / 1024 + if false = true then 4 else 0) % 8 * 1024 + i % 1024 = i := by
        simp only [Bool.false_eq_true, if_false]
        omega
      rw [hi'] at e
      rw [e, Nat.div_add_mod']
  · omega

/-- A free step in the scanline's budget ends at once (R552). -/
theorem settle_free {s : State} (h : s.cyc = 0) (hb : 0 < s.ppu.budget) : s.settle = some s := by
  have e : s.accumulate 0 = s := by simp [State.accumulate]
  have e' : ({ s with cyc := 0 } : State) = s := by rw [← h]
  unfold State.settle
  rw [h]
  dsimp only
  rw [e, e']
  exact runLines_running _ _ hb

theorem mapperReset_budget (s : State) : s.mapperReset.ppu.budget = s.ppu.budget := by
  rw [(banks_mapperReset s).ppu]

theorem resetEvent_budget (s : State) : s.resetEvent.ppu.budget = s.ppu.budget := by
  rw [resetEvent_eq]
  exact mapperReset_budget _

theorem resetEvent_cyc (s : State) : s.resetEvent.cyc = s.cyc := by
  rw [resetEvent_eq]
  exact mapperReset_cyc _

theorem resetEvent_halted (s : State) : s.resetEvent.halted = s.halted := by
  rw [resetEvent_eq]
  exact mapperReset_halted _

/-- The step that takes the RESET event (R551, R612). -/
theorem step_resetEvent {s : State} (h1 : s.halted = .running) (h2 : s.resetPending = true)
    (h3 : 0 < s.ppu.budget) : step s = .next s.beginStep.resetEvent := by
  rw [step_reset h1 h2]
  exact endStep_running ((resetEvent_halted _).trans h1)
    (settle_free (resetEvent_cyc _) (by rw [resetEvent_budget]; exact h3))
end Sys2Proof.Machine
end

