-- ==== Sys2Proof/Laws/ScanlineLoop.lean ====
section
/-! SUPPORT. The accumulation loop (R552): whenever it ends, it ends within the model's bound, whatever the
parameters, at the first scanline that leaves budget (log entry 16). -/

namespace Sys2Proof.Machine

/-- The line number after a boundary (R553, R555). -/
def lineAfter (l : Int) : Int := if l = 260 then -1 else l + 1

/-- How many boundaries a line stands before the one that begins vertical blank; 0 where none comes. -/
def linesToVblank (l : Int) : Int := if l ≤ 240 then 240 - l else if l ≤ 260 then 502 - l else 0

/-- What the new scanlines of one step do to the budget `b`, the line `l` and the interrupt flag `f`: each
adds `c`, one NMI entry a frame costs `e` when `nmi`, and an IRQ entry, made with I clear, costs `e` too. -/
structure LoopTrace (b l : Nat → Int) (f : Nat → Bool) (c e : Int) (nmi : Bool) (k : Nat) : Prop where
  cNonneg : 0 ≤ c
  eNonneg : 0 ≤ e
  owed : ∀ j, j < k → b j ≤ 0
  line : ∀ j, j < k → l (j + 1) = lineAfter (l j)
  masked : ∀ j, j < k → f j = true → f (j + 1) = true
    ∧ (l j = 240 ∧ nmi = true ∧ b (j + 1) = b j + c - e
      ∨ (l j ≠ 240 ∨ nmi = false) ∧ b (j + 1) = b j + c)
  unmasked : ∀ j, j < k → f j = false →
    l j = 240 ∧ nmi = true ∧ f (j + 1) = true ∧ (b (j + 1) = b j + c - e ∨ b (j + 1) = b j + c - e - e)
      ∨ (l j ≠ 240 ∨ nmi = false) ∧ (b (j + 1) = b j + c ∨ f (j + 1) = true ∧ b (j + 1) = b j + c - e)

namespace LoopTrace

variable {b l : Nat → Int} {f : Nat → Bool} {c e : Int} {nmi : Bool} {k : Nat}

/-- The lines run through the frame, 262 to a frame. -/
theorem line_eq (h : LoopTrace b l f c e nmi k) (i j : Nat) (hj : i + j ≤ k) :
    (261 ≤ l i → 261 ≤ l (i + j))
      ∧ (l i ≤ 260 → l i + j < -1 → l (i + j) = l i + j)
      ∧ (l i ≤ 260 → -1 ≤ l i + j → l (i + j) = (l i + 1 + j) % 262 - 1) := by
  induction j with
  | zero => simp; omega
  | succ j ih =>
    obtain ⟨h1, h2, h3⟩ := ih (by omega)
    have hl := h.line (i + j) (by omega)
    rw [← Nat.add_assoc i j 1, hl]
    unfold lineAfter
    push_cast
    refine ⟨fun h => ?_, fun h h' => ?_, fun h h' => ?_⟩
    · have := h1 h; split <;> omega
    · have := h2 h (by omega); split <;> omega
    · by_cases h4 : l i + j < -1
      · have := h2 h h4; split <;> omega
      · have := h3 h (by omega); split <;> omega

/-- A whole number of frames on, vertical blank is no farther. -/
theorem linesToVblank_frames (h : LoopTrace b l f c e nmi k) (i n : Nat) (hn : i + 262 * n ≤ k) :
    linesToVblank (l (i + 262 * n)) ≤ linesToVblank (l i) := by
  obtain ⟨h1, h2, h3⟩ := h.line_eq i (262 * n) hn
  push_cast at h2 h3
  unfold linesToVblank
  by_cases ha : 261 ≤ l i
  · have := h1 ha; repeat' split
    all_goals omega
  by_cases hb : l i + 262 * n < -1
  · have := h2 (by omega) hb; repeat' split
    all_goals omega
  · have := h3 (by omega) (by omega)
    repeat' split
    all_goals omega

/-- One line on, vertical blank is one line nearer, or a frame away again. -/
theorem linesToVblank_step (h : LoopTrace b l f c e nmi k) (j : Nat) (hj : j < k) :
    l j = 240 ∧ linesToVblank (l j) = 0 ∧ linesToVblank (l (j + 1)) = 261
      ∨ l j ≠ 240 ∧ linesToVblank (l j) - 1 ≤ linesToVblank (l (j + 1))
        ∧ (l j ≤ 260 → linesToVblank (l (j + 1)) = linesToVblank (l j) - 1) := by
  rw [h.line j hj]
  unfold linesToVblank lineAfter
  by_cases h1 : l j = 240
  · left; simp [h1]
  · right; refine ⟨h1, ?_, fun _ => ?_⟩ <;> repeat' split
    all_goals omega

/-- The least the budget can be, the one IRQ entry that may still come taken off beforehand: the NMI entry
of a frame is spread over its 262 lines. -/
theorem budget_ge (h : LoopTrace b l f c e nmi k) (j : Nat) (hj : j ≤ k) :
    262 * b 0 - 262 * e + e * linesToVblank (l 0) + j * (262 * c - e)
      ≤ 262 * (b j - if f j then 0 else e) + e * linesToVblank (l j) := by
  have he := h.eNonneg
  induction j with
  | zero => split <;> simp <;> omega
  | succ j ih =>
    have ih := ih (by omega)
    have hm := h.masked j (by omega)
    have hu := h.unmasked j (by omega)
    have hd := h.linesToVblank_step j (by omega)
    have key : 262 * (b j - if f j then 0 else e) + e * linesToVblank (l j) + (262 * c - e)
        ≤ 262 * (b (j + 1) - if f (j + 1) then 0 else e) + e * linesToVblank (l (j + 1)) := by
      have hprod : l j = 240 ∧ e * linesToVblank (l j) = 0 ∧ e * linesToVblank (l (j + 1)) = 261 * e
          ∨ l j ≠ 240 ∧ e * linesToVblank (l j) - e ≤ e * linesToVblank (l (j + 1)) := by
        rcases hd with ⟨h1, h2, h3⟩ | ⟨h1, h2, -⟩
        · exact .inl ⟨h1, by rw [h2]; omega, by rw [h3]; omega⟩
        · have := Int.mul_le_mul_of_nonneg_left h2 he
          rw [Int.mul_sub] at this
          exact .inr ⟨h1, by omega⟩
      clear hd ih
      generalize e * linesToVblank (l j) = d at hprod ⊢
      generalize e * linesToVblank (l (j + 1)) = d' at hprod ⊢
      cases hf : f j
      · rcases hu hf with ⟨h0, -, h2, h3⟩ | ⟨-, h2 | ⟨h2, h3⟩⟩
        · simp only [h2, if_true, Bool.false_eq_true, if_false]; omega
        · simp only [Bool.false_eq_true, if_false]; split <;> omega
        · simp only [h2, if_true, Bool.false_eq_true, if_false]; omega
      · obtain ⟨h1, h2⟩ := hm hf
        simp only [h1, if_true]
        omega
    push_cast
    linarith

/-- Once I is set the loop loses in every frame what the frame's NMI entry costs beyond its lines. -/
theorem budget_frame (h : LoopTrace b l f c e nmi k) (i j : Nat) (hj : i + j ≤ k) (hf : f i = true) (h240 : l i ≤ 260)
    (hnmi : nmi = true) :
    f (i + j) = true ∧ l (i + j) ≤ 260 ∧ 262 * b (i + j) + e * linesToVblank (l (i + j))
      = 262 * b i + e * linesToVblank (l i) + j * (262 * c - e) := by
  induction j with
  | zero => simp; exact ⟨hf, h240⟩
  | succ j ih =>
    obtain ⟨h1, h2, h3⟩ := ih (by omega)
    obtain ⟨m1, m2⟩ := h.masked (i + j) (by omega) h1
    have hl := h.line (i + j) (by omega)
    have hd := h.linesToVblank_step (i + j) (by omega)
    rw [← Nat.add_assoc i j 1]
    refine ⟨m1, by rw [hl]; unfold lineAfter; split <;> omega, ?_⟩
    have key : 262 * b (i + j + 1) + e * linesToVblank (l (i + j + 1))
        = 262 * b (i + j) + e * linesToVblank (l (i + j)) + (262 * c - e) := by
      rcases hd with ⟨d1, d2, d3⟩ | ⟨d1, -, d3⟩
      · rw [d2, d3]
        simp [d1, hnmi] at m2
        omega
      · rw [d3 h2, Int.mul_sub]
        simp [d1, hnmi] at m2
        omega
    push_cast
    linarith

/-- With no NMI entry made, the budget grows by `c` a line, but for one IRQ entry. -/
theorem budget_quiet (h : LoopTrace b l f c e nmi k) (j : Nat) (hj : j ≤ k) (hq : ∀ i, i < j → l i ≠ 240 ∨ nmi = false) :
    b 0 - e + j * c ≤ b j - if f j then 0 else e := by
  have he := h.eNonneg
  induction j with
  | zero => simp; split <;> omega
  | succ j ih =>
    have ih := ih (by omega) (fun i hi => hq i (by omega))
    have hm := h.masked j (by omega)
    have hu := h.unmasked j (by omega)
    have hq := hq j (by omega)
    have key : (b j - if f j then 0 else e) + c ≤ b (j + 1) - if f (j + 1) then 0 else e := by
      clear ih
      cases hf : f j
      · rcases hu hf with ⟨h1, h0, -⟩ | ⟨-, h2 | ⟨h2, h3⟩⟩
        · exact absurd hq (by simp [h0, h1])
        · simp only [Bool.false_eq_true, if_false]; split <;> omega
        · simp only [h2, if_true, Bool.false_eq_true, if_false]; omega
      · obtain ⟨h1, ⟨h2, h3, -⟩ | ⟨-, h2⟩⟩ := hm hf
        · exact absurd hq (by simp [h2, h3])
        · simp only [h1, if_true]; omega
    push_cast
    linarith

/-- A scanline adds at most `c`. -/
theorem budget_le (h : LoopTrace b l f c e nmi k) (j : Nat) (hj : j < k) : b (j + 1) ≤ b j + c := by
  have he := h.eNonneg
  cases hf : f j
  · have := h.unmasked j hj hf; omega
  · have := (h.masked j hj hf).2; omega

/-- A loop that ends does so within the model's bound: where a frame's lines pay for its NMI entry, after as
many frames as the debt has cycles; where they do not, in the frame of the first NMI entry or not at all. -/
theorem ends_within (h : LoopTrace b l f c e nmi k) (hk : 0 < b k) : (k : Int) ≤ 262 * (max (-b 0) 0 + e + 2) := by
  have he := h.eNonneg
  have hc := h.cNonneg
  by_contra hlt
  have h0 := h.owed 0 (by omega)
  obtain ⟨m, rfl⟩ : ∃ m, k = m + 1 := ⟨k - 1, by omega⟩
  have hm := h.owed m (by omega)
  have hle := h.budget_le m (by omega)
  have quiet : ∀ j, j ≤ m → (∀ i, i < j → l i ≠ 240 ∨ nmi = false) → (j : Int) ≤ e - b 0 := by
    intro j hj hq
    have h1 := h.budget_quiet j (by omega) hq
    have h2 := h.owed j (by omega)
    have h3 : (j : Int) * 1 ≤ j * c := Int.mul_le_mul_of_nonneg_left (by omega) (by omega)
    split at h1 <;> omega
  by_cases hpay : e < 262 * c
  · obtain ⟨n, hn⟩ := Int.eq_ofNat_of_zero_le (show 0 ≤ e - b 0 + 1 by omega)
    have hj : 0 + 262 * n ≤ m + 1 := by omega
    have h1 := h.budget_ge (262 * n) (by omega)
    have h2 := Int.mul_le_mul_of_nonneg_left (h.linesToVblank_frames 0 n hj) he
    have h3 := h.owed (262 * n) (by omega)
    have h4 : ((262 * n : Nat) : Int) * 1 ≤ (262 * n : Nat) * (262 * c - e) :=
      Int.mul_le_mul_of_nonneg_left (by omega) (by omega)
    rw [Nat.zero_add] at h2
    split at h1 <;> omega
  · by_cases hex : ∃ i, i < m ∧ l i = 240 ∧ nmi = true
    · obtain ⟨⟨h1, h2, h3⟩, hmin⟩ := Nat.find_spec hex, fun i hi => Nat.find_min hex (m := i) hi
      generalize Nat.find hex = i at h1 h2 h3 hmin
      have hi : (i : Int) ≤ e - b 0 := quiet i (by omega) (fun j hj => by
        by_contra hcon
        exact hmin j hj ⟨by omega, by simpa using hcon⟩)
      have hf : f (i + 1) = true := by
        cases hf : f i
        · rcases h.unmasked i (by omega) hf with ⟨-, -, h4, -⟩ | ⟨h4, -⟩
          · exact h4
          · exact absurd h4 (by simp [h2, h3])
        · exact (h.masked i (by omega) hf).1
      obtain ⟨j, hj⟩ : ∃ j, m + 1 = i + 1 + j + 262 := ⟨m - i - 262, by omega⟩
      have hl : l (i + 1) = 241 := by rw [h.line i (by omega), h2]; rfl
      obtain ⟨hf', hl', -⟩ := h.budget_frame (i + 1) j (by omega) hf (by omega) h3
      obtain ⟨-, -, h4⟩ := h.budget_frame (i + 1 + j) 262 (by omega) hf' hl' h3
      have h5 := (h.line_eq (i + 1) j (by omega)).2.2 (by omega) (by omega)
      have h6 := (h.line_eq (i + 1 + j) 262 (by omega)).2.2 hl' (by omega)
      have h7 : l (i + 1 + j + 262) = l (i + 1 + j) := by push_cast at h6; omega
      have h8 := h.owed (i + 1 + j) (by omega)
      rw [h7, ← hj] at h4
      push_cast at h4
      omega
    · have := quiet m (by omega) (fun i hi => by
        by_contra hcon
        exact hex ⟨i, hi, by simpa using hcon⟩)
      omega

end LoopTrace

/-! ### The loop's lines are such a trace -/

/-- The mapper's update costs nothing, or one IRQ entry, which is made with I clear and sets it. -/
theorem mapperUpdate_entry (s : State) :
    (s.mapperUpdate.flag .i = s.flag .i ∧ s.mapperUpdate.ppu.budget = s.ppu.budget)
      ∨ s.flag .i = false ∧ s.mapperUpdate.flag .i = true
        ∧ s.mapperUpdate.ppu.budget = s.ppu.budget - s.cfg.intEntryCycles := by
  rcases mapperUpdate_cases s with h | ⟨r, -, -, h | h⟩ <;> rw [h]
  · exact .inl ⟨rfl, rfl⟩
  · exact .inl ⟨rfl, rfl⟩
  · rcases raiseIrq_cases { s with mapper := .mmc3 r.clock } with ⟨-, -, h⟩ | ⟨-, -, h⟩ | ⟨h0, h⟩ <;> rw [h]
    · exact .inl ⟨rfl, rfl⟩
    · exact .inl ⟨rfl, rfl⟩
    · exact .inr ⟨h0, irqEntry_flag_i _, by simp⟩

/-- A boundary costs what its entries cost: the mapper's IRQ entry, and the NMI entry at vertical blank. -/
theorem boundary_entry (s : State) :
    s.boundary.ppu.ctrl = s.ppu.ctrl ∧ s.boundary.ppu.line = lineAfter s.ppu.line
      ∧ ∃ u : State, (u.flag .i = s.flag .i ∧ u.ppu.budget = s.ppu.budget
          ∨ s.flag .i = false ∧ u.flag .i = true ∧ u.ppu.budget = s.ppu.budget - s.cfg.intEntryCycles)
        ∧ (s.ppu.line = 240 ∧ s.ppu.ctrl.getLsbD 7 = true ∧ s.boundary.flag .i = true
            ∧ s.boundary.ppu.budget = u.ppu.budget - s.cfg.intEntryCycles
          ∨ (s.ppu.line ≠ 240 ∨ s.ppu.ctrl.getLsbD 7 = false) ∧ s.boundary.flag .i = u.flag .i
            ∧ s.boundary.ppu.budget = u.ppu.budget) := by
  have hu := mapperUpdate_keeps s.advanceLine
  have he := mapperUpdate_entry s.advanceLine
  have hk := boundary_keeps s
  refine ⟨?_, ?_, ?_⟩
  · by_cases h1 : s.ppu.line = 260
    · rw [boundary_end h1]; exact (mapperUpdate_keeps _).ctrl
    by_cases h2 : s.ppu.line = 240
    · rw [boundary_start h2]
      unfold State.startVblank
      simp only []
      split
      · simp only [nmiEntry_ppu]; exact hu.ctrl
      · exact hu.ctrl
    by_cases h3 : s.ppu.line = 239
    · rw [boundary_present h3]; exact hu.ctrl
    by_cases h4 : -1 ≤ s.ppu.line ∧ s.ppu.line ≤ 238
    · rw [boundary_visible h4.1 h4.2]
      obtain ⟨v, hit, ovf, ev, h⟩ := renderLine_state s.advanceLine.mapperUpdate
      rw [h]; exact hu.ctrl
    · rw [boundary_quiet (by omega) h1]; exact hu.ctrl
  · unfold lineAfter
    split
    · exact (hk.line.2 ‹_›).1
    · exact (hk.line.1 ‹_›).1
  · by_cases h1 : s.ppu.line = 260
    · rw [boundary_end h1]
      exact ⟨_, mapperUpdate_entry s.advanceLine.endVblank, .inr ⟨.inl (by omega), rfl, rfl⟩⟩
    refine ⟨s.advanceLine.mapperUpdate, he, ?_⟩
    by_cases h2 : s.ppu.line = 240
    · rw [boundary_start h2]
      unfold State.startVblank
      simp only []
      split
      · rename_i h
        refine .inl ⟨h2, ?_, nmiEntry_flag_i _, by simp [hu.cfg]⟩
        rw [hu.ctrl] at h; exact h
      · rename_i h
        refine .inr ⟨.inr ?_, rfl, rfl⟩
        rw [hu.ctrl] at h; exact Bool.not_eq_true _ ▸ h
    refine .inr ⟨.inl h2, ?_⟩
    by_cases h3 : s.ppu.line = 239
    · rw [boundary_present h3]; exact ⟨rfl, rfl⟩
    by_cases h4 : -1 ≤ s.ppu.line ∧ s.ppu.line ≤ 238
    · rw [boundary_visible h4.1 h4.2]
      obtain ⟨v, hit, ovf, ev, h⟩ := renderLine_state s.advanceLine.mapperUpdate
      rw [h]; exact ⟨rfl, rfl⟩
    · rw [boundary_quiet (by omega) h1]; exact ⟨rfl, rfl⟩

/-- The same of a new scanline, its budget added first. -/
theorem nextLine_entry (s : State) :
    s.nextLine.ppu.ctrl = s.ppu.ctrl ∧ s.nextLine.ppu.line = lineAfter s.ppu.line
      ∧ ∃ (f : Bool) (b : Int), (f = s.flag .i ∧ b = s.ppu.budget + s.cfg.cyclesPerScanline
          ∨ s.flag .i = false ∧ f = true
            ∧ b = s.ppu.budget + s.cfg.cyclesPerScanline - s.cfg.intEntryCycles)
        ∧ (s.ppu.line = 240 ∧ s.ppu.ctrl.getLsbD 7 = true ∧ s.nextLine.flag .i = true
            ∧ s.nextLine.ppu.budget = b - s.cfg.intEntryCycles
          ∨ (s.ppu.line ≠ 240 ∨ s.ppu.ctrl.getLsbD 7 = false) ∧ s.nextLine.flag .i = f
            ∧ s.nextLine.ppu.budget = b) := by
  obtain ⟨h1, h2, u, h3, h4⟩ := boundary_entry { s with ppu := { s.ppu with
    budget := s.ppu.budget + s.cfg.cyclesPerScanline } }
  exact ⟨h1, h2, u.flag .i, u.ppu.budget, h3, h4⟩

/-- The lines begun one after the other from `line 0` are a trace of the loop. -/
theorem loopTrace {line : Nat → State} {k : Nat}
    (h : ∀ j, j < k → (line j).ppu.budget ≤ 0 ∧ line (j + 1) = (line j).nextLine) :
    LoopTrace (fun j => (line j).ppu.budget) (fun j => (line j).ppu.line) (fun j => (line j).flag .i)
      (line 0).cfg.cyclesPerScanline (line 0).cfg.intEntryCycles ((line 0).ppu.ctrl.getLsbD 7) k := by
  have hconst : ∀ j, j ≤ k → (line j).cfg = (line 0).cfg ∧ (line j).ppu.ctrl = (line 0).ppu.ctrl := by
    intro j hj
    induction j with
    | zero => exact ⟨rfl, rfl⟩
    | succ j ih =>
      obtain ⟨h1, h2⟩ := ih (by omega)
      rw [(h j (by omega)).2]
      exact ⟨(nextLine_keeps _).cfg.trans h1, (nextLine_entry _).1.trans h2⟩
  refine ⟨Int.natCast_nonneg _, Int.natCast_nonneg _, fun j hj => (h j hj).1, ?_, ?_, ?_⟩ <;> intro j hj <;>
    obtain ⟨h1, h2⟩ := hconst j (by omega) <;>
    obtain ⟨-, s2, f, b, s3, s4⟩ := nextLine_entry (line j) <;>
    simp only [(h j hj).2, ← h1, ← h2]
  · exact s2
  · intro hf
    rw [hf] at s3
    rcases s3 with ⟨s3, s5⟩ | ⟨s3, -⟩
    · rcases s4 with ⟨a1, a2, a3, a4⟩ | ⟨a1, a2, a3⟩
      · exact ⟨a3, .inl ⟨a1, a2, by omega⟩⟩
      · exact ⟨a2.trans s3, .inr ⟨a1, by omega⟩⟩
    · cases s3
  · intro hf
    rcases s4 with ⟨a1, a2, a3, a4⟩ | ⟨a1, a2, a3⟩
    · exact .inl ⟨a1, a2, a3, by omega⟩
    · refine .inr ⟨a1, ?_⟩
      rcases s3 with ⟨-, s3⟩ | ⟨-, s3, s5⟩
      · exact .inl (by omega)
      · exact .inr ⟨a2.trans s3, by omega⟩

/-- The loop, run far enough, stops at the first line that leaves budget. -/
theorem runLines_lines {line : Nat → State} {k : Nat}
    (h : ∀ j, j < k → (line j).ppu.budget ≤ 0 ∧ line (j + 1) = (line j).nextLine) (hk : 0 < (line k).ppu.budget)
    (n : Nat) (hn : k ≤ n) : runLines n (line 0) = some (line k) := by
  induction k generalizing line n with
  | zero => exact runLines_running n _ hk
  | succ k ih =>
    obtain ⟨h1, h2⟩ := h 0 (by omega)
    obtain ⟨n, rfl⟩ : ∃ m, n = m + 1 := ⟨n - 1, by omega⟩
    rw [runLines_step n _ h1, ← h2]
    exact ih (line := fun j => line (j + 1)) (fun j hj => h (j + 1) (by omega)) hk n (by omega)

/-- R552: the end of a step stops at the first line that leaves budget, however many it begins. -/
theorem settle_lines {t : State} {line : Nat → State} {k : Nat} (h0 : line 0 = { t.accumulate t.cyc with cyc := 0 })
    (h : ∀ j, j < k → (line j).ppu.budget ≤ 0 ∧ line (j + 1) = (line j).nextLine)
    (hk : 0 < (line k).ppu.budget) : t.settle = some (line k) := by
  have hb := (loopTrace h).ends_within hk
  unfold State.settle
  dsimp only
  rw [← h0]
  refine runLines_lines h hk _ ?_
  have e1 : (t.accumulate t.cyc).ppu.budget = (line 0).ppu.budget := by rw [h0]
  have e2 : (t.accumulate t.cyc).cfg = (line 0).cfg := by rw [h0]
  unfold lineFuel
  rw [e1, e2]
  omega

end Sys2Proof.Machine
end

