-- ==== Sys2Proof/Laws/Steps.lean ====
section
/-! SUPPORT. Fetching an encoded instruction, and the whole step: what it keeps, and that it ends. -/

namespace Sys2Proof.Machine

/-- Every well-formed instruction has its opcode. -/
theorem hasOpcode_all (i : Instr) : Sys2Proof.Laws.HasOpcode.Statement i := by
  cases i
  all_goals first
   | exact Sys2Proof.Laws.HasOpcode.lda _ | exact Sys2Proof.Laws.HasOpcode.ldx _ | exact Sys2Proof.Laws.HasOpcode.ldy _ | exact Sys2Proof.Laws.HasOpcode.sta _
   | exact Sys2Proof.Laws.HasOpcode.stx _ | exact Sys2Proof.Laws.HasOpcode.sty _ | exact Sys2Proof.Laws.HasOpcode.tax | exact Sys2Proof.Laws.HasOpcode.tay
   | exact Sys2Proof.Laws.HasOpcode.txa | exact Sys2Proof.Laws.HasOpcode.tya | exact Sys2Proof.Laws.HasOpcode.tsx| exact Sys2Proof.Laws.HasOpcode.txs
   | exact Sys2Proof.Laws.HasOpcode.pha | exact Sys2Proof.Laws.HasOpcode.php| exact Sys2Proof.Laws.HasOpcode.pla| exact Sys2Proof.Laws.HasOpcode.plp
   | exact Sys2Proof.Laws.HasOpcode.adc _ | exact Sys2Proof.Laws.HasOpcode.sbc _| exact Sys2Proof.Laws.HasOpcode.and _| exact Sys2Proof.Laws.HasOpcode.ora _
   | exact Sys2Proof.Laws.HasOpcode.eor _ | exact Sys2Proof.Laws.HasOpcode.cmp _| exact Sys2Proof.Laws.HasOpcode.cpx _| exact Sys2Proof.Laws.HasOpcode.cpy _
   | exact Sys2Proof.Laws.HasOpcode.bit _ | exact Sys2Proof.Laws.HasOpcode.inc _| exact Sys2Proof.Laws.HasOpcode.dec _
   | exact Sys2Proof.Laws.HasOpcode.inx | exact Sys2Proof.Laws.HasOpcode.iny | exact Sys2Proof.Laws.HasOpcode.dex | exact Sys2Proof.Laws.HasOpcode.dey
   | exact Sys2Proof.Laws.HasOpcode.asl _ | exact Sys2Proof.Laws.HasOpcode.lsr _| exact Sys2Proof.Laws.HasOpcode.rol _| exact Sys2Proof.Laws.HasOpcode.ror _
   | exact Sys2Proof.Laws.HasOpcode.jmp _ | exact Sys2Proof.Laws.HasOpcode.jsr _ | exact Sys2Proof.Laws.HasOpcode.rts | exact Sys2Proof.Laws.HasOpcode.rti | exact Sys2Proof.Laws.HasOpcode.brk
   | exact Sys2Proof.Laws.HasOpcode.bcc _ | exact Sys2Proof.Laws.HasOpcode.bcs _ | exact Sys2Proof.Laws.HasOpcode.beq _ | exact Sys2Proof.Laws.HasOpcode.bne _
   | exact Sys2Proof.Laws.HasOpcode.bmi _ | exact Sys2Proof.Laws.HasOpcode.bpl _ | exact Sys2Proof.Laws.HasOpcode.bvc _ | exact Sys2Proof.Laws.HasOpcode.bvs _
   | exact Sys2Proof.Laws.HasOpcode.clc | exact Sys2Proof.Laws.HasOpcode.sec | exact Sys2Proof.Laws.HasOpcode.cli | exact Sys2Proof.Laws.HasOpcode.sei | exact Sys2Proof.Laws.HasOpcode.clv
   | exact Sys2Proof.Laws.HasOpcode.cld | exact Sys2Proof.Laws.HasOpcode.sed | exact Sys2Proof.Laws.HasOpcode.nop
   | exact Sys2Proof.Laws.HasOpcode.slo _ | exact Sys2Proof.Laws.HasOpcode.rla _ | exact Sys2Proof.Laws.HasOpcode.sre _ | exact Sys2Proof.Laws.HasOpcode.rra _
   | exact Sys2Proof.Laws.HasOpcode.dcp _ | exact Sys2Proof.Laws.HasOpcode.isc _ | exact Sys2Proof.Laws.HasOpcode.sax _ | exact Sys2Proof.Laws.HasOpcode.lax _
   | exact Sys2Proof.Laws.HasOpcode.anc _ _ | exact Sys2Proof.Laws.HasOpcode.alr _ | exact Sys2Proof.Laws.HasOpcode.arr _ | exact Sys2Proof.Laws.HasOpcode.axs _
   | exact Sys2Proof.Laws.HasOpcode.sbcAlt _ | exact Sys2Proof.Laws.HasOpcode.nopAlt _ | exact Sys2Proof.Laws.HasOpcode.dop _ _ | exact Sys2Proof.Laws.HasOpcode.top _ _ | exact Sys2Proof.Laws.HasOpcode.unimpl _

/-- An opcode has at most two operand bytes (R130). -/
theorem operandBytes_cases (u) (op : Byte) : operandBytes u op = 0 ∨ operandBytes u op = 1 ∨ operandBytes u op = 2 := by
  unfold operandBytes
  split
  · rename_i d _; cases d.mode <;> simp [Mode.operandBytes]
  · simp

/-- An instruction is one to three bytes long (R130). -/
theorem bytesAfter_cases (op : Byte) : bytesAfter true op = 0 ∨ bytesAfter true op = 1 ∨ bytesAfter true op = 2 := by
  revert op
  decide +kernel

/-- BRK apart, the bytes after the opcode are those the fetch reads (R132). -/
theorem bytesAfter_eq (u : Bool) (op : Byte) (h : op ≠ 0x00) : bytesAfter u op = operandBytes u op := by
  revert u op
  decide +kernel

/-- Decoding an opcode with the bytes after it. -/
theorem decode_cons (op : Byte) (l rest : List Byte) (h : l.length = bytesAfter true op) :
    decode (op :: (l ++ rest)) = .ok (instrOf true op (l.getD 0 0) (l.getD 1 0), rest) := by
  rcases bytesAfter_cases op with h' | h' | h'
  · rw [h'] at h
    obtain rfl := List.length_eq_zero_iff.mp h
    simp [decode, decodeWith, h']
  · rw [h'] at h
    obtain ⟨a, rfl⟩ := List.length_eq_one_iff.mp h
    simp [decode, decodeWith, h']
  · rw [h'] at h
    obtain ⟨a, b, rfl⟩ := List.length_eq_two.mp h
    simp [decode, decodeWith, h']

/-- Only BRK has the opcode 0x00. -/
theorem opcodeOf_zero {i : Instr} (hw : i.wellFormed = true) (h : opcodeOf i = some 0x00) : i = .brk := by
  obtain ⟨op, h1, h2, -⟩ := hasOpcode_all i hw
  rw [h1] at h
  rw [← h2, Option.some.inj h]
  rfl

/-- Decoding gives an encoded instruction back, and what follows it (R130, R132). -/
theorem decode_encode (i : Instr) (rest : List Byte) (hw : i.wellFormed = true) :
    decode (encode i ++ rest) = .ok (i, rest) := by
  obtain ⟨op, h1, h2, h3⟩ := hasOpcode_all i hw
  unfold encode skippedBytesOf
  rw [h1]
  by_cases hb : i = .brk
  · subst hb
    obtain rfl : op = 0x00 := (Option.some.inj h1).symm
    exact decode_cons 0x00 [0x00] rest rfl
  · rw [if_neg hb, List.append_nil]
    have h0 : op ≠ 0x00 := fun h => hb (opcodeOf_zero hw (h ▸ h1))
    have := decode_cons op (operandBytesOf i) rest (by rw [h3, bytesAfter_eq _ _ h0])
    rwa [h2] at this

/-- BRK has two bytes, of which the fetch reads one (R132). -/
theorem bytesAfter_zero (u : Bool) : bytesAfter u 0x00 = 1 ∧ operandBytes u 0x00 = 0 := by cases u <;> exact ⟨rfl, rfl⟩

/-- The opcode 0x00 is BRK. -/
theorem instrOf_brk (u : Bool) (b1 b2 : Byte) : instrOf u 0x00 b1 b2 = .brk := by cases u <;> rfl

/-- No other opcode is BRK. -/
theorem instrOf_ne_brk {u : Bool} {op b1 b2 : Byte} (h : op ≠ 0x00) : instrOf u op b1 b2 ≠ .brk := by
  have : ∀ n, n < 256 → n ≠ 0 → ∀ u b1 b2, instrOf u (BitVec.ofNat 8 n) b1 b2 ≠ .brk := by
    intro n hn h0 u b1 b2
    interval_cases n <;> first | omega | (cases u <;> exact Instr.noConfusion)
  have hop : op = BitVec.ofNat 8 op.toNat := by simp
  rw [hop]
  exact this _ op.isLt (fun h' => h (by rw [hop, h']; rfl)) u b1 b2

/-- A fetch, from plain memory or from a device, gives what the bytes decode to that the bus reads one by one,
after just the reads made (R86, R150). -/
theorem fetch_decode (s : State) {i : Instr} {rest : List Byte} :
    let r0 := s.memRead s.pc
    let r1 := r0.2.memRead (s.pc + 1)
    let r2 := r1.2.memRead (s.pc + 2)
    decodeWith s.cfg.undocumentedEnabled [r0.1, r1.1, r2.1] = .ok (i, rest) →
    s.fetch = (i, if rest.length = 2 ∨ i = .brk then r0.2 else if rest.length = 1 then r1.2 else r2.2) := by
  dsimp only
  intro h
  unfold State.fetch
  generalize s.cfg.undocumentedEnabled = u at *
  dsimp only
  generalize s.memRead s.pc = q0 at *
  generalize q0.2.memRead (s.pc + 1) = q1 at *
  generalize q1.2.memRead (s.pc + 2) = q2 at *
  by_cases h0 : q0.1 = 0x00
  · rw [h0] at h ⊢
    obtain ⟨e1, e2⟩ := bytesAfter_zero u
    simp only [decodeWith, e1, instrOf_brk] at h
    simp only [e2, instrOf_brk]
    cases h
    simp
  · have hb : ∀ b1 b2, instrOf u q0.1 b1 b2 ≠ .brk := fun _ _ => instrOf_ne_brk h0
    have he := bytesAfter_eq u _ h0
    rcases operandBytes_cases u q0.1 with e | e | e <;>
      (simp only [decodeWith, he, e] at h ⊢; cases h; simp [hb])

/-- What is built for an opcode byte is well-formed and has that opcode (R131, R151). -/
theorem instrOf_wellFormed : ∀ n, n < 256 → ∀ b1 b2 : Byte,
   (instrOf true (BitVec.ofNat 8 n) b1 b2).wellFormed = true ∧ opcodeOf (instrOf true (BitVec.ofNat 8 n) b1 b2) = some (BitVec.ofNat 8 n) := by
  intro n hn b1 b2
  interval_cases n <;> exact ⟨rfl, rfl⟩

/-- What is built for an opcode byte has the operand bytes it was built from (R130). -/
theorem instrOf_operandBytes : ∀ n, n < 256 → ∀ b1 b2 : Byte,
   operandBytesOf (instrOf true (BitVec.ofNat 8 n) b1 b2) = [b1,b2].take (operandBytes true (BitVec.ofNat 8 n)) := by
  intro n hn b1 b2
  interval_cases n <;> first | exact rfl | (show [loByte (wordOf b2 b1), hiByte (wordOf b2 b1)] = [b1,b2]; rw [loByte_wordOf, hiByte_wordOf])

/-- Opcodes without semantics: the unimplemented ones, and the undocumented ones when they are disabled (R370,
R350). -/
theorem instrOf_unimpl {u : Bool} {op b1 b2 : Byte}
    (h : op ∈ unimplementedOpcodes ∨ (u = false ∧ ∃ d, describe op = some d ∧ d.documented = false)) :
    operandBytes u op = 0 ∧ instrOf u op b1 b2 = .unimpl op := by
  have hd : descriptor u op = none := by
    rcases h with hop | ⟨rfl, d, hd, hn⟩
    · revert u op
      decide +kernel
    · simp [descriptor, hd, hn]
  simp [operandBytes, instrOf, hd]

/-- The bytes that a fetch reads of an instruction are fetched as that instruction. -/
theorem fetch_encode (s : State) (i : Instr) (hu : s.cfg.undocumentedEnabled = true) (hw : i.wellFormed = true)
   (hb : s.holdsBytes s.pc (fetchedBytes i)) : s.fetch = (i, s) := by
  obtain ⟨op, h1, h2, h3⟩ := hasOpcode_all i hw
  simp only [fetchedBytes, h1] at hb
  obtain ⟨p0, q0, hb⟩ := hb
  generalize hl : operandBytesOf i = l at *
  have := operandBytes_cases true op
  have hpc : s.pc + 1 + 1 = s.pc + 2 := by bv_omega
  rcases l with _ | ⟨b1, _ | ⟨b2, _ | ⟨b3, l⟩⟩⟩
  · rw [fetch_eq (n := 0) (b1 := 0) (b2 := 0) (by rw [hu]; exact h3.symm) ⟨p0, q0⟩ (by omega) (by omega), hu]
    simpa using h2
  · rw [fetch_eq (n := 1) (b1 := b1) (b2 := 0) (by rw [hu]; exact h3.symm) ⟨p0, q0⟩ (fun _ => ⟨hb.1, hb.2.1⟩) (by omega), hu]
    simpa using h2
  · rw [fetch_eq (n := 2) (b1 := b1) (b2 := b2) (by rw [hu]; exact h3.symm) ⟨p0, q0⟩ (fun _ => ⟨hb.1, hb.2.1⟩) (fun _ => by rw [← hpc]; exact ⟨hb.2.2.1, hb.2.2.2.1⟩), hu]
    simpa using h2
  · simp at h3; omega

/-- The start of a step moves no byte. -/
theorem holds_beginStep (s : State) (pc : Word) (l : List Byte) (h : s.holdsBytes pc l) : s.beginStep.holdsBytes pc l := by
  induction l generalizing pc with
  | nil => trivial
  | cons b l ih => exact ⟨h.1, h.2.1, ih _ h.2.2⟩

/-- The fetch keeps the parameters and the halt. -/
theorem fetch_keeps (s : State) : s.fetch.2.cfg = s.cfg ∧ s.fetch.2.halted = s.halted := by
  have := (acts_fetch s).keeps
  exact ⟨this.2.2.2.2.1, this.2.2.2.2.2.2.1⟩

/-- When the entries of a scanline cost less than a scanline, the loop ends. -/
theorem endStep_answers (s : State) (h : 2 * s.cfg.intEntryCycles < s.cfg.cyclesPerScanline) :
    ∃ t, s.endStep = .next t ∧ (t.halted = .running → 0 < t.ppu.budget) := by
  unfold State.endStep
  cases hh : s.halted
  case running =>
    simp only []
    have := runLines_ends (P := fun t => t.cfg = s.cfg) (fun t ht hc => by
      obtain ⟨k1, -, -, -, -, -, -, k, k2, k3, -⟩ := nextLine_keeps t
      refine ⟨k1.trans hc, ?_⟩
      simp only [hc] at k2 k3
      omega) (lineFuel (s.accumulate s.cyc)) { s.accumulate s.cyc with cyc := 0 } (by
        show -(s.ppu.budget - (s.cyc:Int)) < _
        unfold lineFuel
        show _ < ((262 * ((-(s.ppu.budget - (s.cyc:Int))).toNat + _ + 2) : Nat) : Int)
        omega) rfl
    obtain ⟨t, ht⟩ := this
    unfold State.settle
    simp only [ht]
    exact ⟨t, rfl, fun _ => runLines_budget ht⟩
  all_goals exact ⟨s, rfl, fun h => absurd h (by simp [hh])⟩

/-- A pending IRQ entry keeps the parameters and the halt. -/
theorem takePendingIrq_keeps (s : State) : s.takePendingIrq.cfg = s.cfg ∧ s.takePendingIrq.halted = s.halted := by
  unfold State.takePendingIrq; split <;> simp

/-- How a step that answers a next state ended. -/
theorem endStep_next {s t : State} (h : s.endStep = .next t) :
    (s.halted = .running ∧ s.settle = some t) ∨ (s.halted ≠ .running ∧ t = s) := by
  unfold State.endStep at h
  cases hh : s.halted <;> rw [hh] at h <;> simp only [] at h
  · left
    refine ⟨rfl, ?_⟩
    cases hs : s.settle <;> rw [hs] at h <;> simp at h
    rw [h]
  · right; exact ⟨by simp, (by simpa using h.symm)⟩
  · right; exact ⟨by simp, (by simpa using h.symm)⟩

/-- The scanline timing, but for the budget left at rest. -/
def State.TimeCore (s : State) : Prop := (-1 ≤ s.ppu.line ∧ s.ppu.line ≤ 260) ∧ s.ppu.budget ≤ s.cfg.cyclesPerScanline ∧
  (s.cyclesTotal : Int) = (s.ppu.frame * 262 + s.ppu.line + 1) * s.cfg.cyclesPerScanline
      + (s.cfg.cyclesPerScanline - s.ppu.budget)

/-- A new scanline keeps the timing. -/
theorem time_nextLine {s : State} (hb : s.ppu.budget ≤ 0) (h : State.TimeCore s) : State.TimeCore s.nextLine := by
  obtain ⟨⟨h1, h2⟩, h3, h4⟩ := h
  obtain ⟨c, -, -, -, -, -, ⟨l1, l2⟩, k, hk, b, ct⟩ := nextLine_keeps s
  simp only [] at c l1 l2 hk b ct
  unfold State.TimeCore
  rw [c, b, ct]
  push_cast
  by_cases hl : s.ppu.line = 260
  · obtain ⟨e1, e2⟩ := l2 hl
    rw [e1, e2]
    refine ⟨by omega, by omega, ?_⟩
    rw [h4, hl]; push_cast; ring
  · obtain ⟨e1, e2⟩ := l1 hl
    rw [e1, e2]
    refine ⟨by omega, by omega, ?_⟩
    rw [h4]; ring

/-- An instruction keeps the timing. -/
theorem time_acts {s t : State} (h : Acts s t) (ht : State.TimeCore s) : State.TimeCore t := by
  obtain ⟨h1, h2, h3, h4, h5, h6, h7, h8, h9, h10, h11⟩ := h.keeps
  unfold State.TimeCore
  rw [h1, h5, h8, h9, h10]; exact ht

/-- An IRQ entry keeps the timing. -/
theorem time_irqEntry {s : State} (ht : State.TimeCore s) : State.TimeCore s.irqEntry := by
  have h := time_acts (acts_takeVector { s with irqPending := false } s.pc false irqVector) ht
  have hc := (acts_takeVector { s with irqPending := false } s.pc false irqVector).keeps.2.2.2.2.1
  unfold State.irqEntry
  generalize State.takeVector { s with irqPending := false } s.pc false irqVector = u at *
  obtain ⟨h1, h3, h4⟩ := h
  refine ⟨h1, ?_, ?_⟩
  · simp only [State.accumulate]; omega
  · simp only [State.accumulate]; push_cast; rw [h4]; ring

/-- What a pending IRQ entry keeps. -/
theorem takePendingIrq_props (s : State) : s.takePendingIrq.cyc = s.cyc ∧ s.takePendingIrq.cart = s.cart ∧ s.takePendingIrq.cfg = s.cfg ∧ s.takePendingIrq.buttons0 = s.buttons0 ∧ s.takePendingIrq.buttons1 = s.buttons1 ∧ s.takePendingIrq.resetPending = s.resetPending ∧ (State.TimeCore s → State.TimeCore s.takePendingIrq) ∧ s.takePendingIrq.halted = s.halted := by
  unfold State.takePendingIrq
  split
  · refine ⟨by simp, by simp, by simp, by simp, by simp, by simp, time_irqEntry, by simp⟩
  · exact ⟨rfl, rfl, rfl, rfl, rfl, rfl, id, rfl⟩

/-- The loop keeps the configuration. -/
theorem settle_cfg {s t : State} (h : s.settle = some t) :
   t.cart = s.cart ∧ t.cfg = s.cfg ∧ t.buttons0 = s.buttons0 ∧ t.buttons1 = s.buttons1 ∧ t.resetPending = s.resetPending := by
  rw [settle_eq] at h
  refine runLines_induction (P := fun u => u.cart = s.cart ∧ u.cfg = s.cfg ∧ u.buttons0 = s.buttons0 ∧ u.buttons1 = s.buttons1 ∧ u.resetPending = s.resetPending) ?_ h ⟨rfl, rfl, rfl, rfl, rfl⟩
  intro u hu ⟨a4, a5, a6, a7, a8⟩
  have k := nextLine_keeps u
  exact ⟨k.cart.trans a4, k.cfg.trans a5, k.buttons.1.trans a6, k.buttons.2.trans a7, k.resetPending.trans a8⟩

/-- The loop keeps the core and the timing. -/
theorem settle_inv {s t : State} (hc : s.Core) (ht : State.TimeCore s) (h : s.settle = some t) : t.Core ∧ State.TimeCore t ∧ t.cyc = 0 ∧ 0 < t.ppu.budget ∧
   t.cart = s.cart ∧ t.cfg = s.cfg ∧ t.buttons0 = s.buttons0 ∧ t.buttons1 = s.buttons1 ∧ t.resetPending = s.resetPending := by
  rw [settle_eq] at h
  have hb := runLines_budget h
  have := runLines_induction (P := fun u => u.Core ∧ State.TimeCore u ∧ u.cyc = 0 ∧ u.cart = s.cart ∧ u.cfg = s.cfg ∧ u.buttons0 = s.buttons0 ∧ u.buttons1 = s.buttons1 ∧ u.resetPending = s.resetPending) ?_ h ?_
  · exact ⟨this.1, this.2.1, this.2.2.1, hb, this.2.2.2⟩
  · intro u hu ⟨a1, a2, a3, a4, a5, a6, a7, a8⟩
    have k := nextLine_keeps u
    exact ⟨core_nextLine a1, time_nextLine hu a2, k.cyc.trans a3, k.cart.trans a4, k.cfg.trans a5, k.buttons.1.trans a6, k.buttons.2.trans a7, k.resetPending.trans a8⟩
  · refine ⟨hc.congr rfl rfl rfl rfl rfl rfl rfl rfl, ?_, rfl, rfl, rfl, rfl, rfl, rfl⟩
    obtain ⟨h1, h3, h4⟩ := ht
    refine ⟨h1, ?_, ?_⟩
    · simp only []; omega
    · simp only []; push_cast; rw [h4]; ring

/-- The fetch costs nothing. -/
theorem fetch_cyc (s : State) : s.fetch.2.cyc = s.cyc := by
  unfold State.fetch
  simp only []
  split <;> simp

/-- The state a step has before its loop. -/
theorem step_before {s t : State} (h : step s = .next t) : ∃ u : State, u.endStep = .next t ∧
   (u.cart = s.cart ∧ u.cfg = s.cfg ∧ u.buttons0 = s.buttons0 ∧ u.buttons1 = s.buttons1 ∧ u.resetPending = false)
   ∧ (s.Core → u.Core) ∧ (State.TimeCore s → State.TimeCore u) ∧ (u.halted ≠ .running → u.cyc = 0) := by
  cases hh : s.halted with
  | unsupportedCartridge m => rw [step_unsupported hh] at h; simp at h
  | unimplementedOpcode o p => rw [step_unimplemented hh] at h; simp at h
  | running =>
  cases hr : s.resetPending
  · rw [step_instruction hh hr] at h
    have h0 : s.Core → s.beginStep.Core := fun h => h.congr rfl rfl rfl rfl rfl rfl rfl rfl
    have t0 : State.TimeCore s → State.TimeCore s.beginStep := fun h => h
    have hc0 : s.beginStep.cyc = 0 := rfl
    have f0 : s.beginStep.cart = s.cart ∧ s.beginStep.cfg = s.cfg ∧ s.beginStep.buttons0 = s.buttons0 ∧ s.beginStep.buttons1 = s.buttons1 ∧ s.beginStep.resetPending = false := ⟨rfl, rfl, rfl, rfl, hr⟩
    have f0h : s.beginStep.halted = .running := hh
    generalize s.beginStep = b at *
    have h1 : s.Core → b.takePendingIrq.Core := fun h => core_takePendingIrq (h0 h)
    obtain ⟨p1, p2, p3, p4, p5, p6, p7, p8⟩ := takePendingIrq_props b
    generalize b.takePendingIrq = c at *
    have ha := acts_fetch c
    have h2 := fetch_cyc c
    unfold runFetched at h
    generalize c.fetch = q at *
    have k := ha.keeps
    by_cases hi : ∃ op, q.1 = .unimpl op
    · obtain ⟨op, hi⟩ := hi
      rw [hi] at h
      refine ⟨_, h, ⟨?_, ?_, ?_, ?_, ?_⟩, ?_, ?_, ?_⟩
      · exact k.2.2.2.1.trans (p2.trans f0.1)
      · exact k.2.2.2.2.1.trans (p3.trans f0.2.1)
      · exact k.2.1.trans (p4.trans f0.2.2.1)
      · exact k.2.2.1.trans (p5.trans f0.2.2.2.1)
      · exact k.2.2.2.2.2.1.trans (p6.trans f0.2.2.2.2)
      · intro hs; exact (ha.core (h1 hs)).congr rfl rfl rfl rfl rfl rfl rfl rfl
      · intro hs
        have hx : State.TimeCore q.2 := time_acts ha (p7 (t0 hs))
        exact hx
      · intro _; show q.2.cyc = 0; rw [h2, p1, hc0]
    · obtain ⟨u, hu, hb⟩ := acts_exec q.1 q.2 (fun op he => hi ⟨op, he⟩)
      rw [hu] at h
      have k2 := (ha.trans hb).keeps
      refine ⟨u, h, ⟨?_, ?_, ?_, ?_, ?_⟩, ?_, ?_, ?_⟩
      · exact k2.2.2.2.1.trans (p2.trans f0.1)
      · exact k2.2.2.2.2.1.trans (p3.trans f0.2.1)
      · exact k2.2.1.trans (p4.trans f0.2.2.1)
      · exact k2.2.2.1.trans (p5.trans f0.2.2.2.1)
      · exact k2.2.2.2.2.2.1.trans (p6.trans f0.2.2.2.2)
      · intro hs; exact (ha.trans hb).core (h1 hs)
      · intro hs; exact time_acts (ha.trans hb) (p7 (t0 hs))
      · intro hn
        exact absurd (k2.2.2.2.2.2.2.1.trans (p8.trans f0h)) hn
  · rw [step_reset hh hr] at h
    have ha := acts_resetEvent s.beginStep
    have k := ha.keeps
    refine ⟨_, h, ⟨k.2.2.2.1, k.2.2.2.2.1, k.2.1, k.2.2.1, k.2.2.2.2.2.1⟩, ?_, ?_, ?_⟩
    · intro hs; exact ha.core (hs.congr rfl rfl rfl rfl rfl rfl rfl rfl)
    · intro hs; exact time_acts ha hs
    · intro hn; exact absurd (k.2.2.2.2.2.2.1.trans hh) hn

end Sys2Proof.Machine
end

