-- ==== Sys2Proof/Tests/Slice0.lean ====
section
/-! SUPPORT. The model's own tests: ill-formed terms, words written out from the spec's encodings, one step
each with the results of spec/95_test_vectors.md (its ids in the names), and for each statement with
hypotheses a witness that meets them. -/

namespace Sys2Proof.Tests

open Sys2Proof.Machine

/-! ## Helpers -/

/-- A machine after RESET, its PC at `pc`, `code` placed there, these bytes in main memory. -/
def vec (pc : Word) (code : List Byte) (mem : Memory) : State :=
  State.placeBytes { State.reset with resetPending := false, pc := pc, mem := mem } pc code

/-- The CPU's registers after one step, the cycles it cost, and the bytes at the given addresses. -/
def after (s : State) (at_ : List Nat) :
    Option (List Nat × List Byte) :=
  match step s with
  | .next t => some ([t.a.toNat, t.x.toNat, t.y.toNat, t.sp.toNat, t.p.toNat, t.pc.toNat,
      t.cyclesTotal], at_.map t.mem.read)
  | .fault _ | .refused _ => none

/-- A view of the state after one step. -/
def seen {α : Type} (o : Host.Outcome State Fault Refusal) (f : State → α) : Option α :=
  match o with
  | .next t => some (f t)
  | .fault _ | .refused _ => none

/-- Bytes in an order that keeps the canonical form. -/
def put (m : Memory) (cells : List (Nat × Byte)) : Memory :=
  cells.foldl (fun m c => m.write c.1 c.2) m

/-! ## WellFormed: an ill-formed term for each check -/

/-- R251 to R256, R201: no zero-page,Y form. -/
theorem test_illformed_reads :
    Instr.wellFormed (.lda (.mem (.zpy 0x10))) = false
      ∧ Instr.wellFormed (.adc (.mem (.zpy 0x10))) = false
      ∧ Instr.wellFormed (.sbc (.mem (.zpy 0x10))) = false
      ∧ Instr.wellFormed (.and (.mem (.zpy 0x10))) = false
      ∧ Instr.wellFormed (.ora (.mem (.zpy 0x10))) = false
      ∧ Instr.wellFormed (.eor (.mem (.zpy 0x10))) = false
      ∧ Instr.wellFormed (.cmp (.mem (.zpy 0x10))) = false := by
  decide

/-- R202 to R206, R257 to R259. -/
theorem test_illformed_other_reads :
    Instr.wellFormed (.ldx (.mem (.abx 0x1234))) = false
      ∧ Instr.wellFormed (.ldy (.mem (.aby 0x1234))) = false
      ∧ Instr.wellFormed (.sta (.zpy 0x10)) = false
      ∧ Instr.wellFormed (.stx (.aby 0x1234)) = false
      ∧ Instr.wellFormed (.sty (.abx 0x1234)) = false
      ∧ Instr.wellFormed (.cpx (.mem (.zpx 0x10))) = false
      ∧ Instr.wellFormed (.cpy (.mem (.abx 0x1234))) = false
      ∧ Instr.wellFormed (.bit (.abx 0x1234)) = false := by
  decide

/-- R260, R261, R266 to R269. -/
theorem test_illformed_steps_shifts :
    Instr.wellFormed (.inc (.aby 0x1234)) = false
      ∧ Instr.wellFormed (.dec (.izx 0x10)) = false
      ∧ Instr.wellFormed (.asl (.mem (.aby 0x1234))) = false
      ∧ Instr.wellFormed (.lsr (.mem (.izy 0x10))) = false
      ∧ Instr.wellFormed (.rol (.mem (.zpy 0x10))) = false
      ∧ Instr.wellFormed (.ror (.mem (.izx 0x10))) = false := by
  decide

/-- R351 to R358. -/
theorem test_illformed_undocumented_memory :
    Instr.wellFormed (.slo (.zpy 0x10)) = false
      ∧ Instr.wellFormed (.rla (.zpy 0x10)) = false
      ∧ Instr.wellFormed (.sre (.zpy 0x10)) = false
      ∧ Instr.wellFormed (.rra (.zpy 0x10)) = false
      ∧ Instr.wellFormed (.dcp (.zpy 0x10)) = false
      ∧ Instr.wellFormed (.isc (.zpy 0x10)) = false
      ∧ Instr.wellFormed (.sax (.zpx 0x10)) = false
      ∧ Instr.wellFormed (.lax (.abx 0x1234)) = false := by
  decide

/-- R359, R364 to R366, R370: an opcode byte of another row. -/
theorem test_illformed_opcodes :
    Instr.wellFormed (.anc 0x4B 0x10) = false
      ∧ Instr.wellFormed (.nopAlt 0xEA) = false
      ∧ Instr.wellFormed (.dop 0x80 (.mem (.zp 0x10))) = false
      ∧ Instr.wellFormed (.dop 0x04 (.mem (.abs 0x1234))) = false
      ∧ Instr.wellFormed (.top 0x0C (.abx 0x1234)) = false
      ∧ Instr.wellFormed (.unimpl 0xEA) = false := by
  decide

/-! ## Decode: a word for every constructor, written out from the rules' encodings -/

/-- R201 to R206. -/
theorem test_decode_loads_stores :
    decode [0xA9, 0x80] = .ok (.lda (.imm 0x80), [])
      ∧ decode [0xB1, 0x10] = .ok (.lda (.mem (.izy 0x10)), [])
      ∧ decode [0xB6, 0xF0] = .ok (.ldx (.mem (.zpy 0xF0)), [])
      ∧ decode [0xBC, 0xFF, 0x12] = .ok (.ldy (.mem (.abx 0x12FF)), [])
      ∧ decode [0x81, 0x20] = .ok (.sta (.izx 0x20), [])
      ∧ decode [0x99, 0x34, 0x12] = .ok (.sta (.aby 0x1234), [])
      ∧ decode [0x96, 0xF0] = .ok (.stx (.zpy 0xF0), [])
      ∧ decode [0x8C, 0x00, 0x02] = .ok (.sty (.abs 0x0200), []) := by
  decide

/-- R207 to R216. -/
theorem test_decode_transfers_stack :
    decode [0xAA] = .ok (.tax, [])
      ∧ decode [0xA8] = .ok (.tay, [])
      ∧ decode [0x8A] = .ok (.txa, [])
      ∧ decode [0x98] = .ok (.tya, [])
      ∧ decode [0xBA] = .ok (.tsx, [])
      ∧ decode [0x9A] = .ok (.txs, [])
      ∧ decode [0x48] = .ok (.pha, [])
      ∧ decode [0x08] = .ok (.php, [])
      ∧ decode [0x68] = .ok (.pla, [])
      ∧ decode [0x28] = .ok (.plp, []) := by
  decide

/-- R251 to R259. -/
theorem test_decode_arithmetic :
    decode [0x69, 0x10] = .ok (.adc (.imm 0x10), [])
      ∧ decode [0xF9, 0x34, 0x12] = .ok (.sbc (.mem (.aby 0x1234)), [])
      ∧ decode [0x35, 0x10] = .ok (.and (.mem (.zpx 0x10)), [])
      ∧ decode [0x0D, 0x34, 0x12] = .ok (.ora (.mem (.abs 0x1234)), [])
      ∧ decode [0x41, 0x10] = .ok (.eor (.mem (.izx 0x10)), [])
      ∧ decode [0xD1, 0x10] = .ok (.cmp (.mem (.izy 0x10)), [])
      ∧ decode [0xE4, 0x10] = .ok (.cpx (.mem (.zp 0x10)), [])
      ∧ decode [0xCC, 0x34, 0x12] = .ok (.cpy (.mem (.abs 0x1234)), [])
      ∧ decode [0x2C, 0x02, 0x20] = .ok (.bit (.abs 0x2002), []) := by
  decide

/-- R260 to R269. -/
theorem test_decode_steps_shifts :
    decode [0xFE, 0xF0, 0x02] = .ok (.inc (.abx 0x02F0), [])
      ∧ decode [0xD6, 0x10] = .ok (.dec (.zpx 0x10), [])
      ∧ decode [0xE8] = .ok (.inx, [])
      ∧ decode [0xC8] = .ok (.iny, [])
      ∧ decode [0xCA] = .ok (.dex, [])
      ∧ decode [0x88] = .ok (.dey, [])
      ∧ decode [0x0A] = .ok (.asl .acc, [])
      ∧ decode [0x5E, 0x00, 0x02] = .ok (.lsr (.mem (.abx 0x0200)), [])
      ∧ decode [0x26, 0x10] = .ok (.rol (.mem (.zp 0x10)), [])
      ∧ decode [0x6E, 0x34, 0x12] = .ok (.ror (.mem (.abs 0x1234)), []) := by
  decide

/-- R301 to R305. -/
theorem test_decode_control :
    decode [0x4C, 0x00, 0xC0] = .ok (.jmp (.abs 0xC000), [])
      ∧ decode [0x6C, 0xFF, 0x02] = .ok (.jmp (.ind 0x02FF), [])
      ∧ decode [0x20, 0x00, 0x90] = .ok (.jsr 0x9000, [])
      ∧ decode [0x60] = .ok (.rts, [])
      ∧ decode [0x40] = .ok (.rti, [])
      ∧ decode [0x00, 0xEA] = .ok (.brk, []) := by
  decide

/-- R307 to R314. -/
theorem test_decode_branches :
    decode [0x90, 0x05] = .ok (.bcc 0x05, [])
      ∧ decode [0xB0, 0xFC] = .ok (.bcs 0xFC, [])
      ∧ decode [0xF0, 0x7F] = .ok (.beq 0x7F, [])
      ∧ decode [0xD0, 0x80] = .ok (.bne 0x80, [])
      ∧ decode [0x30, 0xFE] = .ok (.bmi 0xFE, [])
      ∧ decode [0x10, 0xFD] = .ok (.bpl 0xFD, [])
      ∧ decode [0x50, 0x10] = .ok (.bvc 0x10, [])
      ∧ decode [0x70, 0x10] = .ok (.bvs 0x10, []) := by
  decide

/-- R315 to R322. -/
theorem test_decode_flags_nop :
    decode [0x18] = .ok (.clc, [])
      ∧ decode [0x38] = .ok (.sec, [])
      ∧ decode [0x58] = .ok (.cli, [])
      ∧ decode [0x78] = .ok (.sei, [])
      ∧ decode [0xB8] = .ok (.clv, [])
      ∧ decode [0xD8] = .ok (.cld, [])
      ∧ decode [0xF8] = .ok (.sed, [])
      ∧ decode [0xEA] = .ok (.nop, []) := by
  decide

/-- R351 to R358. -/
theorem test_decode_undocumented_memory :
    decode [0x13, 0x10] = .ok (.slo (.izy 0x10), [])
      ∧ decode [0x3B, 0x34, 0x12] = .ok (.rla (.aby 0x1234), [])
      ∧ decode [0x4F, 0x00, 0x02] = .ok (.sre (.abs 0x0200), [])
      ∧ decode [0x67, 0x10] = .ok (.rra (.zp 0x10), [])
      ∧ decode [0x83, 0x20] = .ok (.sax (.izx 0x20), [])
      ∧ decode [0xBF, 0xFF, 0x02] = .ok (.lax (.aby 0x02FF), [])
      ∧ decode [0xDF, 0x34, 0x12] = .ok (.dcp (.abx 0x1234), [])
      ∧ decode [0xF3, 0x10] = .ok (.isc (.izy 0x10), []) := by
  decide

/-- R359 to R363. -/
theorem test_decode_undocumented_immediate :
    decode [0x0B, 0x80] = .ok (.anc 0x0B 0x80, [])
      ∧ decode [0x2B, 0x7F] = .ok (.anc 0x2B 0x7F, [])
      ∧ decode [0x4B, 0x03] = .ok (.alr 0x03, [])
      ∧ decode [0x6B, 0xFF] = .ok (.arr 0xFF, [])
      ∧ decode [0xCB, 0x01] = .ok (.axs 0x01, [])
      ∧ decode [0xEB, 0x01] = .ok (.sbcAlt 0x01, []) := by
  decide

/-- R364 to R370. -/
theorem test_decode_undocumented_nops :
    decode [0x1A] = .ok (.nopAlt 0x1A, [])
      ∧ decode [0x80, 0x55] = .ok (.dop 0x80 (.imm 0x55), [])
      ∧ decode [0xF4, 0x10] = .ok (.dop 0xF4 (.mem (.zpx 0x10)), [])
      ∧ decode [0x0C, 0x02, 0x20] = .ok (.top 0x0C (.abs 0x2002), [])
      ∧ decode [0x9C] = .ok (.unimpl 0x9C, []) := by
  decide

/-- The bytes that are missing are named (R130); BRK's second byte is one of its two (R132). -/
theorem test_decode_rejects :
    decode [] = .error .noOpcode ∧ decode [0xAD, 0x34] = .error (.truncated 0xAD)
      ∧ decode [0xA9] = .error (.truncated 0xA9) ∧ decode [0x00] = .error (.truncated 0x00) := by
  decide

/-- R131: every opcode byte has one row; the decoder and the table's bit numbering agree. -/
theorem test_decodeTableWord :
    decodeTableWord 24 0x02FF6C = some (.jmp (.ind 0x02FF))
      ∧ decodeTableWord 8 0xEA = some .nop ∧ decodeTableWord 8 0x00 = some .brk
      ∧ decodeTableWord 16 0x80A9 = some (.lda (.imm 0x80)) := by
  decide

/-! ## One step each (spec/95_test_vectors.md sections 2.1 to 2.4) -/

/-- LS1, LDA #$00. -/
theorem test_ls1_lda :
    after { vec 0x8000 [0xA9, 0x00] [] with a := 0x55 }
      [] = some ([0x00, 0x00, 0x00, 0xFD, 0x26, 0x8002, 2], []) := by
  decide

/-- LS9, LDA ($FE,X). -/
theorem test_ls9_lda :
    after { vec 0x8000 [0xA1, 0xFE] [(0x0000, 0x02), (0x00FF, 0x34), (0x0100, 0x07), (0x0234, 0x99)] with x := 0x01 }
      [] = some ([0x99, 0x01, 0x00, 0xFD, 0xA4, 0x8002, 6], []) := by
  decide

/-- LS14, LDX $F0,Y. -/
theorem test_ls14_ldx :
    after { vec 0x8000 [0xB6, 0xF0] [] with y := 0x11 }
      [] = some ([0x00, 0x00, 0x11, 0xFD, 0x26, 0x8002, 4], []) := by
  decide

/-- LS16, LDY $12FF,X. -/
theorem test_ls16_ldy :
    after { vec 0x8000 [0xBC, 0xFF, 0x12] [(0x0300, 0x80)] with x := 0x01 }
      [] = some ([0x00, 0x01, 0x80, 0xFD, 0xA4, 0x8003, 5], []) := by
  decide

/-- LS17, STA $0800. -/
theorem test_ls17_sta :
    after { vec 0x8000 [0x8D, 0x00, 0x08] [] with a := 0xAB }
      [0x0000] = some ([0xAB, 0x00, 0x00, 0xFD, 0x24, 0x8003, 4], [0xAB]) := by
  decide

/-- LS25, STX $F0,Y. -/
theorem test_ls25_stx :
    after { vec 0x8000 [0x96, 0xF0] [] with x := 0x55, y := 0x20 }
      [0x0010] = some ([0x00, 0x55, 0x20, 0xFD, 0x24, 0x8002, 4], [0x55]) := by
  decide

/-- LS26, STY $0200. -/
theorem test_ls26_sty :
    after { vec 0x8000 [0x8C, 0x00, 0x02] [] with y := 0x07 }
      [0x0200] = some ([0x00, 0x00, 0x07, 0xFD, 0x24, 0x8003, 4], [0x07]) := by
  decide

/-- LS27, TAX. -/
theorem test_ls27_tax :
    after { vec 0x8000 [0xAA] [] with a := 0x00, x := 0x11 }
      [] = some ([0x00, 0x00, 0x00, 0xFD, 0x26, 0x8001, 2], []) := by
  decide

/-- LS28, TAY. -/
theorem test_ls28_tay :
    after { vec 0x8000 [0xA8] [] with a := 0xFF }
      [] = some ([0xFF, 0x00, 0xFF, 0xFD, 0xA4, 0x8001, 2], []) := by
  decide

/-- LS29, TXA. -/
theorem test_ls29_txa :
    after { vec 0x8000 [0x8A] [] with x := 0x42 }
      [] = some ([0x42, 0x42, 0x00, 0xFD, 0x24, 0x8001, 2], []) := by
  decide

/-- LS30, TYA. -/
theorem test_ls30_tya :
    after { vec 0x8000 [0x98] [] with y := 0x80 }
      [] = some ([0x80, 0x00, 0x80, 0xFD, 0xA4, 0x8001, 2], []) := by
  decide

/-- LS31, TSX. -/
theorem test_ls31_tsx :
    after { vec 0x8000 [0xBA] [] with sp := 0xFD }
      [] = some ([0x00, 0xFD, 0x00, 0xFD, 0xA4, 0x8001, 2], []) := by
  decide

/-- LS32, TXS. -/
theorem test_ls32_txs :
    after { vec 0x8000 [0x9A] [] with x := 0x00, p := 0xA4 }
      [] = some ([0x00, 0x00, 0x00, 0x00, 0xA4, 0x8001, 2], []) := by
  decide

/-- LS34, PHA. -/
theorem test_ls34_pha :
    after { vec 0x8000 [0x48] [] with a := 0x3D, sp := 0x00 }
      [0x0100] = some ([0x3D, 0x00, 0x00, 0xFF, 0x24, 0x8001, 3], [0x3D]) := by
  decide

/-- LS35, PLA. -/
theorem test_ls35_pla :
    after { vec 0x8000 [0x68] [] with sp := 0xFF }
      [] = some ([0x00, 0x00, 0x00, 0x00, 0x26, 0x8001, 4], []) := by
  decide

/-- LS37, PHP. -/
theorem test_ls37_php :
    after { vec 0x8000 [0x08] [] with p := 0xE5 }
      [0x01FD] = some ([0x00, 0x00, 0x00, 0xFC, 0xE5, 0x8001, 3], [0xF5]) := by
  decide

/-- LS38, PLP. -/
theorem test_ls38_plp :
    after { vec 0x8000 [0x28] [(0x01FD, 0xC3)] with sp := 0xFC }
      [] = some ([0x00, 0x00, 0x00, 0xFD, 0xE3, 0x8001, 4], []) := by
  decide

/-- AL2, ADC #$01. -/
theorem test_al2_adc :
    after { vec 0x8000 [0x69, 0x01] [] with a := 0x7F }
      [] = some ([0x80, 0x00, 0x00, 0xFD, 0xE4, 0x8002, 2], []) := by
  decide

/-- AL4, ADC #$80. -/
theorem test_al4_adc :
    after { vec 0x8000 [0x69, 0x80] [] with a := 0x80 }
      [] = some ([0x00, 0x00, 0x00, 0xFD, 0x67, 0x8002, 2], []) := by
  decide

/-- AL10, SBC #$01. -/
theorem test_al10_sbc :
    after { vec 0x8000 [0xE9, 0x01] [] with a := 0x00, p := 0x25 }
      [] = some ([0xFF, 0x00, 0x00, 0xFD, 0xA4, 0x8002, 2], []) := by
  decide

/-- AL11, SBC #$01. -/
theorem test_al11_sbc :
    after { vec 0x8000 [0xE9, 0x01] [] with a := 0x80, p := 0x25 }
      [] = some ([0x7F, 0x00, 0x00, 0xFD, 0x65, 0x8002, 2], []) := by
  decide

/-- AL17, AND $10. -/
theorem test_al17_and :
    after { vec 0x8000 [0x25, 0x10] [(0x0010, 0x80)] with a := 0xFF }
      [] = some ([0x80, 0x00, 0x00, 0xFD, 0xA4, 0x8002, 3], []) := by
  decide

/-- AL18, ORA #$80. -/
theorem test_al18_ora :
    after { vec 0x8000 [0x09, 0x80] [] with a := 0x01 }
      [] = some ([0x81, 0x00, 0x00, 0xFD, 0xA4, 0x8002, 2], []) := by
  decide

/-- AL21, EOR #$0F. -/
theorem test_al21_eor :
    after { vec 0x8000 [0x49, 0x0F] [] with a := 0xF0 }
      [] = some ([0xFF, 0x00, 0x00, 0xFD, 0xA4, 0x8002, 2], []) := by
  decide

/-- AL26, CMP #$00. -/
theorem test_al26_cmp :
    after { vec 0x8000 [0xC9, 0x00] [] with a := 0x80, p := 0x64 }
      [] = some ([0x80, 0x00, 0x00, 0xFD, 0xE5, 0x8002, 2], []) := by
  decide

/-- AL27, CPX #$10. -/
theorem test_al27_cpx :
    after { vec 0x8000 [0xE0, 0x10] [] with x := 0x0F }
      [] = some ([0x00, 0x0F, 0x00, 0xFD, 0xA4, 0x8002, 2], []) := by
  decide

/-- AL28, CPY #$00. -/
theorem test_al28_cpy :
    after { vec 0x8000 [0xC0, 0x00] [] with y := 0x00 }
      [] = some ([0x00, 0x00, 0x00, 0xFD, 0x27, 0x8002, 2], []) := by
  decide

/-- AL30, BIT $10. -/
theorem test_al30_bit :
    after { vec 0x8000 [0x24, 0x10] [(0x0010, 0x3F)] with a := 0xFF, p := 0xE4 }
      [] = some ([0xFF, 0x00, 0x00, 0xFD, 0x24, 0x8002, 3], []) := by
  decide

/-- AL32, INC $10. -/
theorem test_al32_inc :
    after (vec 0x8000 [0xE6, 0x10] [(0x0010, 0xFF)])
      [0x0010] = some ([0x00, 0x00, 0x00, 0xFD, 0x26, 0x8002, 5], [0x00]) := by
  decide

/-- AL36, DEC $10,X. -/
theorem test_al36_dec :
    after { vec 0x8000 [0xD6, 0x10] [(0x0011, 0x01)] with x := 0x01 }
      [0x0011] = some ([0x00, 0x01, 0x00, 0xFD, 0x26, 0x8002, 6], [0x00]) := by
  decide

/-- AL37, INX. -/
theorem test_al37_inx :
    after { vec 0x8000 [0xE8] [] with x := 0xFF }
      [] = some ([0x00, 0x00, 0x00, 0xFD, 0x26, 0x8001, 2], []) := by
  decide

/-- AL38, INY. -/
theorem test_al38_iny :
    after { vec 0x8000 [0xC8] [] with y := 0x7F }
      [] = some ([0x00, 0x00, 0x80, 0xFD, 0xA4, 0x8001, 2], []) := by
  decide

/-- AL39, DEX. -/
theorem test_al39_dex :
    after { vec 0x8000 [0xCA] [] with x := 0x00 }
      [] = some ([0x00, 0xFF, 0x00, 0xFD, 0xA4, 0x8001, 2], []) := by
  decide

/-- AL40, DEY. -/
theorem test_al40_dey :
    after { vec 0x8000 [0x88] [] with y := 0x01 }
      [] = some ([0x00, 0x00, 0x00, 0xFD, 0x26, 0x8001, 2], []) := by
  decide

/-- AL41, ASL A. -/
theorem test_al41_asl :
    after { vec 0x8000 [0x0A] [] with a := 0x81 }
      [] = some ([0x02, 0x00, 0x00, 0xFD, 0x25, 0x8001, 2], []) := by
  decide

/-- AL46, LSR $0200,X. -/
theorem test_al46_lsr :
    after { vec 0x8000 [0x5E, 0x00, 0x02] [(0x0201, 0xFE)] with x := 0x01 }
      [0x0201] = some ([0x00, 0x01, 0x00, 0xFD, 0x24, 0x8003, 7], [0x7F]) := by
  decide

/-- AL49, ROL $10. -/
theorem test_al49_rol :
    after { vec 0x8000 [0x26, 0x10] [(0x0010, 0xFF)] with p := 0x25 }
      [] = some ([0x00, 0x00, 0x00, 0xFD, 0xA5, 0x8002, 5], []) := by
  decide

/-- AL51, ROR $10. -/
theorem test_al51_ror :
    after { vec 0x8000 [0x66, 0x10] [(0x0010, 0x02)] with p := 0x25 }
      [0x0010] = some ([0x00, 0x00, 0x00, 0xFD, 0xA4, 0x8002, 5], [0x81]) := by
  decide

/-- CF3, JMP ($02FF). -/
theorem test_cf3_jmp :
    after (vec 0x8000 [0x6C, 0xFF, 0x02] [(0x0200, 0x50), (0x02FF, 0x80), (0x0300, 0x40)])
      [] = some ([0x00, 0x00, 0x00, 0xFD, 0x24, 0x5080, 5], []) := by
  decide

/-- CF5, JSR $9000. -/
theorem test_cf5_jsr :
    after { vec 0x8000 [0x20, 0x00, 0x90] [] with sp := 0x00 }
      [0x0100, 0x01FF] = some ([0x00, 0x00, 0x00, 0xFE, 0x24, 0x9000, 6], [0x80, 0x02]) := by
  decide

/-- CF7, RTS. -/
theorem test_cf7_rts :
    after { vec 0x8000 [0x60] [(0x01FC, 0xFF), (0x01FD, 0xFF)] with sp := 0xFB }
      [] = some ([0x00, 0x00, 0x00, 0xFD, 0x24, 0x0000, 6], []) := by
  decide

/-- CF9, RTI. -/
theorem test_cf9_rti :
    after { vec 0x8000 [0x40] [(0x01FB, 0xDF), (0x01FD, 0x80)] with sp := 0xFA }
      [] = some ([0x00, 0x00, 0x00, 0xFD, 0xFF, 0x8000, 6], []) := by
  decide

/-- CF10, BRK. -/
theorem test_cf10_brk :
    after { vec 0x8010 [0x00, 0xEA] [(0xFFFF, 0xA0)] with p := 0x24 }
      [0x01FB, 0x01FC, 0x01FD] = some ([0x00, 0x00, 0x00, 0xFA, 0x34, 0xA000, 7], [0x34, 0x12, 0x80]) := by
  decide

/-- CF12, BCC +5. -/
theorem test_cf12_bcc :
    after { vec 0x8000 [0x90, 0x05] [] with p := 0x24 }
      [] = some ([0x00, 0x00, 0x00, 0xFD, 0x24, 0x8007, 3], []) := by
  decide

/-- CF14, BCS -4. -/
theorem test_cf14_bcs :
    after { vec 0x8010 [0xB0, 0xFC] [] with p := 0x25 }
      [] = some ([0x00, 0x00, 0x00, 0xFD, 0x25, 0x800E, 3], []) := by
  decide

/-- CF15, BEQ +127. -/
theorem test_cf15_beq :
    after { vec 0x80F0 [0xF0, 0x7F] [] with p := 0x26 }
      [] = some ([0x00, 0x00, 0x00, 0xFD, 0x26, 0x8171, 4], []) := by
  decide

/-- CF16, BNE -128. -/
theorem test_cf16_bne :
    after { vec 0x8010 [0xD0, 0x80] [] with p := 0x24 }
      [] = some ([0x00, 0x00, 0x00, 0xFD, 0x24, 0x7F92, 4], []) := by
  decide

/-- CF18, BPL -3. -/
theorem test_cf18_bpl :
    after { vec 0x80FE [0x10, 0xFD] [] with p := 0x24 }
      [] = some ([0x00, 0x00, 0x00, 0xFD, 0x24, 0x80FD, 4], []) := by
  decide

/-- CF19, BMI +0. -/
theorem test_cf19_bmi :
    after { vec 0x8000 [0x30, 0x00] [] with p := 0xA4 }
      [] = some ([0x00, 0x00, 0x00, 0xFD, 0xA4, 0x8002, 3], []) := by
  decide

/-- CF21, BVC +16. -/
theorem test_cf21_bvc :
    after { vec 0x8000 [0x50, 0x10] [] with p := 0x64 }
      [] = some ([0x00, 0x00, 0x00, 0xFD, 0x64, 0x8002, 2], []) := by
  decide

/-- CF22, BVS +16. -/
theorem test_cf22_bvs :
    after { vec 0x8000 [0x70, 0x10] [] with p := 0x64 }
      [] = some ([0x00, 0x00, 0x00, 0xFD, 0x64, 0x8012, 3], []) := by
  decide

/-- CF23, CLC. -/
theorem test_cf23_clc :
    after { vec 0x8000 [0x18] [] with p := 0xE7 }
      [] = some ([0x00, 0x00, 0x00, 0xFD, 0xE6, 0x8001, 2], []) := by
  decide

/-- CF24, SEC. -/
theorem test_cf24_sec :
    after { vec 0x8000 [0x38] [] with p := 0x24 }
      [] = some ([0x00, 0x00, 0x00, 0xFD, 0x25, 0x8001, 2], []) := by
  decide

/-- CF25, CLI. -/
theorem test_cf25_cli :
    after { vec 0x8000 [0x58] [] with p := 0x24 }
      [] = some ([0x00, 0x00, 0x00, 0xFD, 0x20, 0x8001, 2], []) := by
  decide

/-- CF26, SEI. -/
theorem test_cf26_sei :
    after { vec 0x8000 [0x78] [] with p := 0x20 }
      [] = some ([0x00, 0x00, 0x00, 0xFD, 0x24, 0x8001, 2], []) := by
  decide

/-- CF27, CLV. -/
theorem test_cf27_clv :
    after { vec 0x8000 [0xB8] [] with p := 0x64 }
      [] = some ([0x00, 0x00, 0x00, 0xFD, 0x24, 0x8001, 2], []) := by
  decide

/-- CF28, CLD. -/
theorem test_cf28_cld :
    after { vec 0x8000 [0xD8] [] with p := 0x2C }
      [] = some ([0x00, 0x00, 0x00, 0xFD, 0x24, 0x8001, 2], []) := by
  decide

/-- CF29, SED. -/
theorem test_cf29_sed :
    after { vec 0x8000 [0xF8] [] with p := 0x24 }
      [] = some ([0x00, 0x00, 0x00, 0xFD, 0x2C, 0x8001, 2], []) := by
  decide

/-- CF30, NOP. -/
theorem test_cf30_nop :
    after { vec 0x8000 [0xEA] [] with a := 0x12, p := 0xE7 }
      [] = some ([0x12, 0x00, 0x00, 0xFD, 0xE7, 0x8001, 2], []) := by
  decide

/-- UD2, SLO ($10),Y. -/
theorem test_ud2_slo :
    after { vec 0x8000 [0x13, 0x10] [(0x0010, 0x01), (0x0011, 0x02), (0x0300, 0x40)] with a := 0x00, y := 0xFF }
      [0x0300] = some ([0x80, 0x00, 0xFF, 0xFD, 0xA4, 0x8002, 8], [0x80]) := by
  decide

/-- UD3, RLA $10. -/
theorem test_ud3_rla :
    after { vec 0x8000 [0x27, 0x10] [(0x0010, 0x40)] with a := 0xFF, p := 0x25 }
      [0x0010] = some ([0x81, 0x00, 0x00, 0xFD, 0xA4, 0x8002, 5], [0x81]) := by
  decide

/-- UD4, SRE $0200. -/
theorem test_ud4_sre :
    after { vec 0x8000 [0x4F, 0x00, 0x02] [(0x0200, 0x03)] with a := 0xFF }
      [0x0200] = some ([0xFE, 0x00, 0x00, 0xFD, 0xA5, 0x8003, 6], [0x01]) := by
  decide

/-- UD6, RRA $10. -/
theorem test_ud6_rra :
    after { vec 0x8000 [0x67, 0x10] [(0x0010, 0x03)] with a := 0x7F }
      [0x0010] = some ([0x81, 0x00, 0x00, 0xFD, 0xE4, 0x8002, 5], [0x01]) := by
  decide

/-- UD8, SAX ($20,X). -/
theorem test_ud8_sax :
    after { vec 0x8000 [0x83, 0x20] [(0x0025, 0x03)] with a := 0xFF, x := 0x04 }
      [0x0300] = some ([0xFF, 0x04, 0x00, 0xFD, 0x24, 0x8002, 6], [0x04]) := by
  decide

/-- UD10, LAX $02FF,Y. -/
theorem test_ud10_lax :
    after { vec 0x8000 [0xBF, 0xFF, 0x02] [] with y := 0x01 }
      [] = some ([0x00, 0x00, 0x01, 0xFD, 0x26, 0x8003, 5], []) := by
  decide

/-- UD12, DCP $10. -/
theorem test_ud12_dcp :
    after { vec 0x8000 [0xC7, 0x10] [(0x0010, 0x41)] with a := 0x40 }
      [0x0010] = some ([0x40, 0x00, 0x00, 0xFD, 0x27, 0x8002, 5], [0x40]) := by
  decide

/-- UD15, ISC $10. -/
theorem test_ud15_isc :
    after { vec 0x8000 [0xE7, 0x10] [(0x0010, 0xFF)] with a := 0x00, p := 0x25 }
      [0x0010] = some ([0x00, 0x00, 0x00, 0xFD, 0x27, 0x8002, 5], [0x00]) := by
  decide

/-- UD17, ANC #$7F. -/
theorem test_ud17_anc :
    after { vec 0x8000 [0x2B, 0x7F] [] with a := 0xFF, p := 0x25 }
      [] = some ([0x7F, 0x00, 0x00, 0xFD, 0x24, 0x8002, 2], []) := by
  decide

/-- UD18, ALR #$03. -/
theorem test_ud18_alr :
    after { vec 0x8000 [0x4B, 0x03] [] with a := 0xFF }
      [] = some ([0x01, 0x00, 0x00, 0xFD, 0x25, 0x8002, 2], []) := by
  decide

/-- UD20, ARR #$FF. -/
theorem test_ud20_arr :
    after { vec 0x8000 [0x6B, 0xFF] [] with a := 0x80 }
      [] = some ([0x40, 0x00, 0x00, 0xFD, 0x65, 0x8002, 2], []) := by
  decide

/-- UD22, AXS #$10. -/
theorem test_ud22_axs :
    after { vec 0x8000 [0xCB, 0x10] [] with a := 0xFF, x := 0x0F, p := 0x25 }
      [] = some ([0xFF, 0xFF, 0x00, 0xFD, 0xA4, 0x8002, 2], []) := by
  decide

/-- UD23, .byte $EB,$01. -/
theorem test_ud23_sbcAlt :
    after { vec 0x8000 [0xEB, 0x01] [] with a := 0x10, p := 0x25 }
      [] = some ([0x0F, 0x00, 0x00, 0xFD, 0x25, 0x8002, 2], []) := by
  decide

/-- UD24, .byte $1A. -/
theorem test_ud24_nopAlt :
    after { vec 0x8000 [0x1A] [] with p := 0xE7 }
      [] = some ([0x00, 0x00, 0x00, 0xFD, 0xE7, 0x8001, 2], []) := by
  decide

/-- UD26, .byte $04,$10. -/
theorem test_ud26_dop :
    after (vec 0x8000 [0x04, 0x10] [])
      [] = some ([0x00, 0x00, 0x00, 0xFD, 0x24, 0x8002, 3], []) := by
  decide

/-- UD28, .byte $1C,$FF,$02. -/
theorem test_ud28_top :
    after { vec 0x8000 [0x1C, 0xFF, 0x02] [] with x := 0x01 }
      [] = some ([0x00, 0x01, 0x00, 0xFD, 0x24, 0x8003, 5], []) := by
  decide

/-- UD29: an opcode without semantics halts the machine and changes nothing. -/
theorem test_ud29_unimpl :
    seen (step (vec 0x8000 [0x02] [])) (fun t => (t.halted, t.pc, t.sp, t.cyclesTotal))
      = some (.unimplementedOpcode 0x02 0x8000, 0x8000, 0xFD, 0) := by
  decide

/-! ## Devices, mappers, renderer, scheduler (sections 2.5 to 2.9) -/

/-- BD4: a status read clears the vertical-blank flag and the toggle. -/
theorem test_bd4_status :
    let s := { State.reset with
      ppu := { State.reset.ppu with vblank := true, sprite0Hit := true, w := true } }
    ((s.memRead 0x2002).1, (s.memRead 0x2002).2.ppu.vblank, (s.memRead 0x2002).2.ppu.w)
      = (0xC0, false, false) := by
  decide

/-- BD3: scroll and address writes share the toggle. -/
theorem test_bd3_scroll :
    let s := (State.reset.memWrite 0x2005 0x7D).memWrite 0x2005 0x5E
    let t := (s.memWrite 0x2006 0x3D).memWrite 0x2006 0xF0
    (s.ppu.t, s.ppu.fineX, t.ppu.v, t.ppu.w) = (0x616F, 5, 0x3DF0, false) := by
  decide

/-- BD7: v wraps at 0x7FFF. -/
theorem test_bd7_wrap :
    let s := { State.reset with ppu := { State.reset.ppu with v := 0x7FFF } }
    ((s.memWrite 0x2007 0x01).ppu.v, (s.memWrite 0x2007 0x01).ppu.vram.read 0x3F1F) = (0, 0x01) := by
  decide

/-- BD8: the sprite memory port. -/
theorem test_bd8_oam :
    let s := ((State.reset.memWrite 0x2003 0xFE).memWrite 0x2004 0x11).memWrite 0x2004 0x22
    (s.ppu.oamAddr, s.ppu.oam.read 0xFE, s.ppu.oam.read 0xFF) = (0x00, 0x11, 0x22) := by
  decide

/-- BD10: the strobe and the first and fourth reads. -/
theorem test_bd10_pad :
    let s := { State.reset with buttons0 := 0x09 }.memWrite 0x4016 0x01
    let r := fun t : State => (t.memRead 0x4016).2
    ((s.memRead 0x4016).1, ((r s).memRead 0x4016).1, ((r (r (r s))).memRead 0x4016).1)
      = (0x01, 0x00, 0x01) := by
  decide

/-- R7, R421: a tail that is listed, of any form: two bits, then 0 for ever. -/
theorem test_pad_tail :
    let pad := fun k : Nat => { latch := 0x00, count := k : Pad }
    ([8, 9, 10, 1000].map (fun k => (pad k).bit (.listed [true, false] false) 0))
      = [true, false, false, false] := by
  decide

/-- R51, D10: VRAM_INIT's palette bytes keep six bits; the bytes below stay. -/
theorem test_vram_init_masked :
    let s := State.powerOn Params.default Cartridge.blank [] [(0x2000, 0xFF), (0x3F01, 0xFF)] []
    (s.ppu.vram.read 0x2000, s.ppu.vram.read 0x3F01) = (0xFF, 0x3F) := by
  decide

/-- RV10: the coarse-Y step at 29 and at 31 (R466). -/
theorem test_rv10_vertical :
    [0x0000#15, 0x7000#15, 0x73A0#15, 0x7BA0#15, 0x73E0#15, 0x73C0#15].map advanceY
      = [0x1000#15, 0x0020#15, 0x0800#15, 0x0000#15, 0x0000#15, 0x03E0#15] := by
  decide

/-- RV4: sprite 0 behind an opaque background pixel: background wins, the hit is set. The tile has one
opaque row of pixels here. -/
theorem test_rv4_behind :
    let vram : Memory := [(0x0015, 0xFF), (0x0020, 0xF0), (0x2004, 0x01), (0x3F00, 0x0F),
      (0x3F01, 0x30), (0x3F11, 0x27)]
    let p := { State.reset.ppu with
      mask := 0x1E, v := 0x5000, vram := vram
      oam := [(0, 0x04), (1, 0x02), (2, 0x20), (3, 0x26)] }
    let q := p.renderLine 0x0F 5
    (q.1.sprite0Hit, q.1.v, ((q.2.drop 37).take 6).map (·.colour))
      = (true, 0x6000, [0x30, 0x30, 0x30, 0x27, 0x27, 0x0F]) := by
  decide

/-- A cartridge whose 8 KiB units of PRG and 1 KiB units of CHR are marked. -/
def marked (mapperId : Nat) : Cartridge :=
  { Cartridge.blank with
    mapperId := mapperId, prgCount := 2, chrCount := 1
    prg := (List.range 4).map (fun k => (8192 * k, BitVec.ofNat 8 (0xB0 + k)))
    chr := (List.range 8).map (fun k => (1024 * k, BitVec.ofNat 8 (0xC0 + k))) }

/-- A machine with that cartridge before its first step. -/
def bootOf (mapperId : Nat) : State := State.powerOn Params.default (marked mapperId) [] [] []

/-- MP2: NROM with two PRG banks and one CHR bank, after the first step. -/
theorem test_mp2_nrom :
    seen (step (bootOf 0)) (fun t =>
      ([0x8000, 0xA000, 0xC000, 0xE000].map t.mem.read, [0x0400, 0x1C00].map t.ppu.vram.read))
      = some ([0xB0, 0xB1, 0xB2, 0xB3], [0xC1, 0xC7]) := by
  decide

/-- MP6: an MMC3 bank register, with two banks of PRG. -/
theorem test_mp6_mmc3 :
    seen (step (bootOf 4)) (fun t =>
      let u := (t.memWrite 0x8000 0x06).memWrite 0x8001 0x05
      [0x8000, 0xA000, 0xC000, 0xE000].map u.mem.read) = some [0xB1, 0xB1, 0xB2, 0xB3] := by
  decide

/-- SC1: a step within its budget. -/
theorem test_sc1_budget :
    seen (step (vec 0x8000 [0x4C, 0x00, 0x80] []))
      (fun t => (t.cyclesTotal, t.ppu.budget, t.ppu.line, t.ppu.frame)) = some (3, 111, -1, 0) := by
  decide

/-- The boundary that begins vertical blank, with the NMI entry of IN1. -/
theorem test_in1_nmi :
    let s := { State.reset with
      pc := 0x8123, p := 0xB1, mem := [(0xFFFB, 0x90)]
      ppu := { State.reset.ppu with line := 240, ctrl := 0x80 } }
    let t := s.boundary
    ([0x01FD, 0x01FC, 0x01FB].map t.mem.read, t.sp, t.p, t.pc, t.cyclesTotal, t.ppu.vblank)
      = ([0x81, 0x23, 0xA1], 0xFA, 0xA5, 0x9000, 7, true) := by
  decide

/-- IN2: an accepted IRQ. -/
theorem test_in2_irq :
    let s := { State.reset with pc := 0xC010, sp := 0xF0, p := 0x20, mem := [(0xFFFF, 0xA0)] }
    let t := s.raiseIrq
    ([0x01F0, 0x01EF, 0x01EE].map t.mem.read, t.sp, t.p, t.pc)
      = ([0xC0, 0x10, 0x20], 0xED, 0x24, 0xA000) := by
  decide

/-- P.I = 1 and the vectors: the RESET step (R612). -/
theorem test_reset_step :
    seen (step State.reset) (fun t => (t.a, t.sp, t.p, t.pc, t.cyclesTotal, t.resetPending))
      = some (0x00, 0xFD, 0x24, 0x0000, 0, false) := by
  decide

/-- Log entry 7: a placed instruction is the first after reset. -/
theorem test_withFetchWord :
    seen (step (State.reset.withFetchWord 16 0x80A9)) (fun t => (t.a, t.p, t.pc))
      = some (0x80, 0xA4, 0x0002) := by
  decide

/-! ## Witnesses: states and operands that meet the hypotheses of the statements -/

/-- LDA #$80 at 0x8000, from a running machine. -/
def sample : State := vec 0x8000 [0xA9, 0x80] []

/-- One instruction of every constructor that has semantics. -/
def everyConstructor : List Instr :=
  [.lda (.imm 0x80), .lda (.mem (.izy 0x10)), .ldx (.mem (.zpy 0xF0)), .ldy (.mem (.abx 0x12FF)),
    .sta (.izx 0x20), .sta (.aby 0x1234), .stx (.zpy 0xF0), .sty (.abs 0x0200), .tax, .tay, .txa,
    .tya, .tsx, .txs, .pha, .php, .pla, .plp, .adc (.imm 0x10), .sbc (.mem (.aby 0x1234)),
    .and (.mem (.zpx 0x10)), .ora (.mem (.abs 0x1234)), .eor (.mem (.izx 0x10)),
    .cmp (.mem (.izy 0x10)), .cpx (.mem (.zp 0x10)), .cpy (.mem (.abs 0x1234)), .bit (.abs 0x2002),
    .inc (.abx 0x02F0), .dec (.zpx 0x10), .inx, .iny, .dex, .dey, .asl .acc,
    .lsr (.mem (.abx 0x0200)), .rol (.mem (.zp 0x10)), .ror (.mem (.abs 0x1234)),
    .jmp (.abs 0xC000), .jmp (.ind 0x02FF), .jsr 0x9000, .rts, .rti, .brk, .bcc 0x05, .bcs 0xFC,
    .beq 0x7F, .bne 0x80, .bmi 0xFE, .bpl 0xFD, .bvc 0x10, .bvs 0x10, .clc, .sec, .cli, .sei, .clv,
    .cld, .sed, .nop, .slo (.izy 0x10), .rla (.aby 0x1234), .sre (.abs 0x0200), .rra (.zp 0x10),
    .sax (.izx 0x20), .lax (.aby 0x02FF), .dcp (.abx 0x1234), .isc (.izy 0x10), .anc 0x0B 0x80,
    .anc 0x2B 0x7F, .alr 0x03, .arr 0xFF, .axs 0x01, .sbcAlt 0x01, .nopAlt 0x1A,
    .dop 0x80 (.imm 0x55), .dop 0xF4 (.mem (.zpx 0x10)), .top 0x0C (.abs 0x2002)]

theorem witness_DecodeInvertsEncode : ∀ i ∈ everyConstructor, i.wellFormed = true := by decide

theorem witness_EncodeInvertsDecode :
    decode [0xA9, 0x80, 0xEA] = .ok (.lda (.imm 0x80), [0xEA])
      ∧ decode [0x00, 0xEA, 0x58] = .ok (.brk, [0x58]) := by decide

theorem witness_EveryInstructionCompletesAtItsTableCost :
    (∀ i ∈ everyConstructor, i.wellFormed = true) ∧ ∀ op, (Instr.unimpl op) ∉ everyConstructor :=
  ⟨witness_DecodeInvertsEncode, fun op => by simp [everyConstructor]⟩

theorem witness_StepRunsTheDecodedInstruction :
    sample.halted = .running ∧ sample.resetPending = false ∧ sample.noPendingIrq
      ∧ sample.cfg.undocumentedEnabled = true ∧ (Instr.lda (.imm 0x80)).wellFormed = true
      ∧ sample.holdsBytes sample.pc (fetchedBytes (.lda (.imm 0x80))) :=
  ⟨by decide, by decide, .inl (by decide), by decide, by decide, by decide, by decide, by decide,
    by decide, trivial⟩

/-- A machine about to run an instruction at line 245, with `budget` cycles of it left. -/
def late (budget : Int) : State :=
  { sample with a := 0x02, ppu := { sample.ppu with budget := budget, line := 245 } }

/-- The lines begun one after the other from the end of an instruction. -/
def linesFrom (t : State) (j : Nat) : State := State.nextLine^[j] { t.accumulate t.cyc with cyc := 0 }

theorem linesFrom_begins (t : State) (k : Nat) (h : ∀ j, j < k → (linesFrom t j).ppu.budget ≤ 0)
    (hk : 0 < (linesFrom t k).ppu.budget) : t.BeginsLines k (linesFrom t) :=
  ⟨rfl, fun j hj => ⟨h j hj, Function.iterate_succ_apply' State.nextLine j _⟩, hk⟩

/-- `i`, run with `budget` cycles left, begins `k` lines. -/
def BeginsAfter (i : Instr) (budget : Int) (k : Nat) : Prop :=
  ∃ t, exec i { late budget with cyc := 0, events := [] } = .next t ∧ t.halted = .running
    ∧ ((t.cyc : Int) < t.ppu.budget ↔ k = 0) ∧ t.BeginsLines k (linesFrom t)

/-- The clauses on the budget: LDA stays in the line at 3 left and begins one at 2; the store to 0x4014, of
516 cycles (R711 (g)), begins four at 65 left and five at 1. -/
theorem witness_StepRunsTheDecodedInstruction_lines :
    BeginsAfter (.lda (.imm 0x80)) 3 0 ∧ BeginsAfter (.lda (.imm 0x80)) 2 1
      ∧ BeginsAfter (.sta (.abs 0x4014)) 65 4 ∧ BeginsAfter (.sta (.abs 0x4014)) 1 5 :=
  ⟨⟨_, rfl, rfl, by decide, linesFrom_begins _ _ (by decide) (by decide)⟩,
    ⟨_, rfl, rfl, by decide, linesFrom_begins _ _ (by decide) (by decide)⟩,
    ⟨_, rfl, by decide +kernel, by decide +kernel,
      linesFrom_begins _ _ (by decide +kernel) (by decide +kernel)⟩,
    ⟨_, rfl, by decide +kernel, by decide +kernel,
      linesFrom_begins _ _ (by decide +kernel) (by decide +kernel)⟩⟩

/-- A machine whose PC stands on the PPU's status register, which reads as `status`. -/
def atStatus (vblank : Bool) : State :=
  { sample with pc := 0x2002, ppu := { sample.ppu with vblank := vblank } }

/-- A fetch from a device register: the status 0x80 is an opcode of two bytes, 0x00 is BRK. -/
theorem witness_StepRunsTheDecodedInstruction_device :
    (∀ vblank : Bool, (atStatus vblank).halted = .running ∧ (atStatus vblank).resetPending = false
        ∧ (atStatus vblank).cfg.irqLevelSensitive = false)
      ∧ (let bytes := fun s : State =>
          let r0 := State.memRead { s with cyc := 0, events := [] } s.pc
          let r1 := r0.2.memRead (s.pc + 1)
          let r2 := r1.2.memRead (s.pc + 2)
          [r0.1, r1.1, r2.1];
        decodeWith true (bytes (atStatus true)) = .ok (.dop 0x80 (.imm 0x00), [0x00])
          ∧ decodeWith true (bytes (atStatus false)) = .ok (.brk, [0x00])
          ∧ decodeWith false (bytes sample) = .ok (.lda (.imm 0x80), [0x00])) := by
  decide

theorem witness_StepAlwaysAnswersANextState :
    sample.halted = .running ∧ 2 * sample.cfg.intEntryCycles < sample.cfg.cyclesPerScanline := by
  decide

theorem witness_UnimplementedOpcodeHaltsTheMachine :
    (let s := vec 0x8000 [0x02] [];
      (0x02 : Byte) ∈ unimplementedOpcodes ∧ s.halted = .running ∧ s.resetPending = false
        ∧ (s.cfg.irqLevelSensitive = false) ∧ plainAddr s.pc = true ∧ s.byteAt s.pc = 0x02)
    ∧ { sample with halted := .unimplementedOpcode 0x02 0x8000 }.halted
      = .unimplementedOpcode 0x02 0x8000
    ∧ (State.powerOn Params.default { Cartridge.blank with mapperId := 5 } [] [] []).halted
      = .unsupportedCartridge 5 := by
  decide

/-- An undocumented opcode with UNDOCUMENTED_ENABLED false, in memory and read from a device register. -/
theorem witness_UnimplementedOpcodeHaltsTheMachine_disabled :
    let off := fun s : State => { s with cfg := { s.cfg with undocumentedEnabled := false } }
    let s := off (vec 0x8000 [0x04, 0x10] [])
    let t := off (atStatus true)
    (s.halted = .running ∧ s.resetPending = false ∧ s.cfg.undocumentedEnabled = false
        ∧ (s.memRead s.pc).1 = 0x04 ∧ (describe 0x04).map (·.documented) = some false)
      ∧ (t.halted = .running ∧ t.resetPending = false ∧ t.cfg.undocumentedEnabled = false
        ∧ (t.memRead t.pc).1 = 0x80 ∧ (describe 0x80).map (·.documented) = some false) := by
  decide

/-- A remembered IRQ entered at the step's start, before an opcode without semantics at the vector 0x0000. -/
theorem witness_UnimplementedOpcodeHaltsTheMachine_irq :
    let s := { vec 0x8000 [0xEA] [(0x0000, 0x02)] with
      p := 0x20, irqPending := true, cfg := { Params.default with irqLevelSensitive := true } }
    let u := State.takePendingIrq { s with cyc := 0, events := [] }
    s.halted = .running ∧ s.resetPending = false ∧ ¬ s.noPendingIrq ∧ u.pc = 0x0000
      ∧ u.cyclesTotal = s.cyclesTotal + s.cfg.intEntryCycles
      ∧ (u.memRead u.pc).1 ∈ unimplementedOpcodes := by
  exact ⟨rfl, rfl, by unfold State.noPendingIrq; decide, by decide, by decide, by decide⟩

/-- Without CHR, and each of the five mapper ids with two banks of PRG and one of CHR. -/
theorem witness_ResetStepReinitialises :
    (State.reset.halted = .running ∧ State.reset.resetPending = true ∧ 0 < State.reset.ppu.budget
        ∧ State.reset.MapperOk ∧ State.reset.cart.chrCount = 0)
      ∧ (∀ m, m ≤ 4 → (bootOf m).halted = .running ∧ (bootOf m).resetPending = true
        ∧ 0 < (bootOf m).ppu.budget ∧ (bootOf m).cart.mapperId ≤ 4 ∧ 0 < (bootOf m).cart.prgCount
        ∧ (bootOf m).cart.chrCount ≠ 0)
      ∧ ((bootOf 0).MapperOk ∧ (bootOf 1).MapperOk ∧ (bootOf 2).MapperOk ∧ (bootOf 3).MapperOk
        ∧ (bootOf 4).MapperOk) :=
  ⟨⟨rfl, rfl, by decide, rfl, rfl⟩, by decide, rfl, ⟨rfl, Nat.zero_le 4⟩, rfl, rfl, rfl⟩

theorem witness_NromBootsFromItsVector :
    let c := { Cartridge.blank with prg := [(0x3FFC, 0x34), (0x3FFD, 0x92)] }
    0 < Params.default.cyclesPerScanline ∧ c.prgCount = 1 ∧ c.chrCount = 0 ∧ c.mapperId = 0 := by
  decide

/-- The canonical memories that NmiEntrySavesAndVectors, BrkTakesTheTrap, RtiReturnsFromAnEntry,
StackInstructions, StackRoundTrip, SubroutineCallAndReturn, RamMirrorsAgree and others assume: of an empty
machine, and one that lists bytes. -/
theorem witness_canonical_memories :
    sample.mem.wf ∧ sample.ppu.vram.wf ∧ sample.ppu.oam.wf
      ∧ Memory.wf [(0x0010, 0x01), (0x01FF, 0x80)] := by
  decide

theorem witness_IrqRequestIsMaskedByI :
    (sample.flag .i = true ∧ sample.cfg.irqLevelSensitive = false)
      ∧ (let s := { sample with cfg := { sample.cfg with irqLevelSensitive := true } };
        s.flag .i = true ∧ s.cfg.irqLevelSensitive = true)
      ∧ { sample with p := 0x20 }.flag .i = false
      ∧ (let s := { sample with
          p := 0x20, irqPending := true, cfg := { sample.cfg with irqLevelSensitive := true } };
        s.halted = .running ∧ s.resetPending = false ∧ s.cfg.irqLevelSensitive = true
          ∧ s.irqPending = true ∧ s.flag .i = false) := by
  decide

/-- VblankStartRaisesNmi, VblankEndRestartsTheFrame and VisibleLineEmitsItsPixels: lines 240, 260, -1, 238,
239, and the ends 241 and 259 of the range that stays in vertical blank. -/
theorem witness_boundary_lines :
    (let s := { sample with ppu := { sample.ppu with line := 240, ctrl := 0x80 } };
      s.ppu.line = 240 ∧ s.cfg.mmc3CountInVblank = false
        ∧ (State.mapperUpdate { s with ppu := { s.ppu with line := 241 } }).ppu.ctrl.getLsbD 7 = true)
    ∧ { sample with ppu := { sample.ppu with line := 260 } }.ppu.line = 260
    ∧ (-1 ≤ sample.ppu.line ∧ sample.ppu.line ≤ 238)
    ∧ (let p := { sample.ppu with line := 238 };
      -1 ≤ p.line ∧ p.line ≤ 238)
    ∧ { sample with ppu := { sample.ppu with line := 239 } }.ppu.line = 239
    ∧ (∀ l ∈ [(241 : Int), 259], 241 ≤ l ∧ l ≤ 259) ∧ sample.cfg.mmc3CountInVblank = false := by
  decide

theorem witness_LayersThatAreOffShowNothing :
    (sample.ppu.mask.getLsbD 3 = false ∧ sample.ppu.mask.getLsbD 4 = false)
      ∧ (let p := { sample.ppu with mask := 0x10 };
        p.mask.getLsbD 3 = false ∨ p.mask.getLsbD 4 = false)
      ∧ (let p := { sample.ppu with mask := 0x08 };
        p.mask.getLsbD 3 = false ∨ p.mask.getLsbD 4 = false) := by
  decide

/-- The first and the last column, the last one at which sprite 0 can hit, and for both sprite heights the first and the last line that a
sprite with Y 9 covers. -/
theorem witness_PixelPriority :
    ((0 : Nat) < 256 ∧ (255 : Nat) < 256 ∧ (254 : Nat) < 255)
      ∧ ∀ c ∈ [((0x00 : Byte), (17 : Int)), (0x20, 25)],
        let p := { sample.ppu with ctrl := c.1, oam := [(0, 9)] }
        ∀ line ∈ [(10 : Int), c.2], (p.oam.read (4 * 0)).toNat + 1 ≤ line
          ∧ line < (p.oam.read (4 * 0)).toNat + 1 + (if p.ctrl.getLsbD 5 then 16 else 8) := by
  decide

theorem witness_ScrollCountersWrap :
    (0x001E : Scroll).toNat % 32 ≠ 31 ∧ (0x001F : Scroll).toNat % 32 = 31
      ∧ (0x6FFF : Scroll).toNat / 4096 ≠ 7
      ∧ ((0x73C0 : Scroll).toNat / 4096 = 7 ∧ (0x73C0 : Scroll).toNat / 32 % 32 ≠ 29
        ∧ (0x73C0 : Scroll).toNat / 32 % 32 ≠ 31)
      ∧ ((0x73A0 : Scroll).toNat / 4096 = 7 ∧ (0x73A0 : Scroll).toNat / 32 % 32 = 29)
      ∧ ((0x73E0 : Scroll).toNat / 4096 = 7 ∧ (0x73E0 : Scroll).toNat / 32 % 32 = 31) := by
  decide

theorem witness_OperandReadFrame :
    plainAddr (sample.resolve (.abs 0x1FFF)).ea = true
      ∧ plainAddr (sample.resolve (.abs 0x4018)).ea = true
      ∧ plainAddr (sample.resolve (.abs 0x2000)).ea = false
      ∧ (0x2000 ≤ (0x2000 : Word).toNat ∧ (0x3FFE : Word).toNat < 0x4000)
      ∧ ([0x2000, 0x2001, 0x2003, 0x2005, 0x3FFE].map (fun a : Word => a.toNat % 8)) = [0, 1, 3, 5, 6]
      ∧ (0x4000 ≤ (0x4000 : Word).toNat ∧ (0x4015 : Word).toNat ≤ 0x4015) := by
  decide

/-- StoresWriteTheirByte, and the last clause of IncDecMemory and of ShiftsOfMemory. -/
theorem witness_StoresWriteTheirByte :
    sample.storesByte (sample.resolve (.abs 0x1FFF)).ea = true
      ∧ sample.storesByte (sample.resolve (.abs 0x7FFF)).ea = true
      ∧ (norm (sample.resolve (.abs 0x7FFF)).ea).toNat < 0x8000
      ∧ 0x8000 ≤ (norm (sample.resolve (.abs 0x8000)).ea).toNat := by
  decide

theorem witness_JumpTargets :
    let s := vec 0x8000 [0x6C, 0xFF, 0x02] [(0x0200, 0x50), (0x02FF, 0x80)]
    s.mem.read 0x02FF = 0x80 ∧ s.mem.read 0x0200 = 0x50 := by
  decide

theorem witness_NoOperations :
    (Instr.dop 0x80 (.imm 0x55)).wellFormed = true
      ∧ (Instr.dop 0xF4 (.mem (.zpx 0x10))).wellFormed = true
      ∧ (Instr.top 0xFC (.abx 0x12FF)).wellFormed = true := by
  decide

/-- An address at each end of each range of the statement, and both settings of the SRAM switches. -/
theorem witness_BusWritesMainMemory :
    (0x1FFF : Word).toNat < 0x2000
      ∧ (0x4018 ≤ (0x4018 : Word).toNat ∧ (0x5FFF : Word).toNat < 0x6000)
      ∧ (0x6000 ≤ (0x6000 : Word).toNat ∧ (0x7FFF : Word).toNat < 0x8000
        ∧ sample.sramEnabled = true ∧ sample.sramReadonly = false)
      ∧ (0x2000 ≤ (0x2000 : Word).toNat ∧ (0x4017 : Word).toNat < 0x4018)
      ∧ (0x4000 ≤ (0x4000 : Word).toNat ∧ (0x4013 : Word).toNat ≤ 0x4013
        ∧ (0x4015 : Word).toNat = 0x4015 ∧ (0x4017 : Word).toNat = 0x4017)
      ∧ { sample with sramReadonly := true }.sramReadonly = true
      ∧ 0x8000 ≤ (0x8000 : Word).toNat ∧ sample.mapper = .nrom := by
  decide

/-- Both ends of the register range, and both sides of the exempt window. -/
theorem witness_StatusReadClearsVblank :
    (0x2000 ≤ (0x2002 : Word).toNat ∧ (0x2002 : Word).toNat % 8 = 2)
      ∧ ((0x3FFA : Word).toNat < 0x4000 ∧ (0x3FFA : Word).toNat % 8 = 2)
      ∧ sample.ppu.line ≠ 260
      ∧ (let s := { sample with
          cfg := { sample.cfg with exemptBudgets := [3] }
          ppu := { sample.ppu with line := 260, budget := 3 } };
        s.ppu.line = 260 ∧ s.cfg.exemptBudgets.contains s.ppu.budget = true) := by
  decide

/-- A register number for each clause, with both values of the toggle. -/
theorem witness_ScrollAndAddressWrites :
    ([0x2000, 0x3FF9, 0x2002, 0x3FFD, 0x2006].map (fun a : Word => a.toNat % 8)) = [0, 1, 2, 5, 6]
      ∧ sample.ppu.w = false ∧ { sample.ppu with w := true }.w = true := by
  decide

theorem witness_DataPorts :
    ([0x2003, 0x2004, 0x3FFF].map (fun a : Word => a.toNat % 8)) = [3, 4, 7]
      ∧ sample.ppu.vram.wf
      ∧ (0x3EFF : Scroll).toNat % 0x4000 < 0x3F00 ∧ 0x3F00 ≤ (0x7F00 : Scroll).toNat % 0x4000 := by
  decide

theorem witness_PaletteAndNametableFolds :
    sample.ppu.vram.wf ∧ (0x1FFF : VAddr).toNat < 0x2000
      ∧ (0x2000 ≤ (0x2000 : VAddr).toNat ∧ (0x3EFF : VAddr).toNat < 0x3F00)
      ∧ 0x3F00 ≤ (0x3F00 : VAddr).toNat := by
  decide

theorem witness_SpriteDmaCopiesAPage :
    (let s := { sample with a := 0x10 };
      s.ppu.oam.wf ∧ s.ppu.oamAddr = 0 ∧ s.a = 0x10)
      ∧ (0x1F : Byte).toNat < 0x20 ∧ 0x41 ≤ (0x41 : Byte).toNat
      ∧ (0x20 ≤ (0x20 : Byte).toNat ∧ (0x3F : Byte).toNat < 0x40)
      ∧ sample.ppu.line ≠ 260
      ∧ (let p := { sample.ppu with line := 260 };
        p.line = 260 ∧ sample.cfg.exemptBudgets.contains p.budget = false) := by
  decide

theorem witness_Mmc1FiveWritesCommit :
    let s := { bootOf 1 with resetPending := false }
    s.mapper = .mmc1 initMmc1 ∧ initMmc1.shiftCount = 0 ∧ initMmc1.shiftAcc = 0
      ∧ (0x7F : Byte).getLsbD 7 = false ∧ (0x80 : Byte).getLsbD 7 = true
      ∧ s.cart.fourScreen = false ∧ 0 < s.cart.prgCount ∧ s.cart.chrCount ≠ 0
      ∧ s.cfg.mmc1ResetSetsPrgMode = false ∧ 0x8000 ≤ (0x8000 : Word).toNat := by
  decide

/-- The first and the last address of each register's window, both values of the parameter, of the CHR mode
and of the cartridge's four-screen bit, and every PRG mode. -/
theorem witness_Mmc1FiveWritesCommit_windows :
    ([0x8000, 0x9FFF, 0xA000, 0xBFFF, 0xC000, 0xDFFF, 0xE000, 0xFFFF].map
        (fun a : Word => (decide (0x8000 ≤ a.toNat), a.toNat / 8192 % 4)))
        = [(true, 0), (true, 0), (true, 1), (true, 1), (true, 2), (true, 2), (true, 3), (true, 3)]
      ∧ (let s := bootOf 1;
        { s with cfg := { s.cfg with mmc1ResetSetsPrgMode := true } }.cfg.mmc1ResetSetsPrgMode = true)
      ∧ ([0x00#5, 0x04#5, 0x08#5, 0x1C#5].map (fun r => (r.toNat / 4 % 4, r.getLsbD 4)))
        = [(0, false), (1, false), (2, false), (3, true)]
      ∧ { marked 1 with fourScreen := true }.fourScreen = true := by
  decide

theorem witness_LatchMappersSwitchBanks :
    (bootOf 2).mapper = .unrom 0x00 ∧ (bootOf 3).mapper = .cnrom 0x00
      ∧ (bootOf 3).cart.chrCount ≠ 0 ∧ 0x8000 ≤ (0x8000 : Word).toNat
      ∧ 0x8000 ≤ (0xFFFF : Word).toNat := by
  decide

/-- The first and the last address, of both parities, the last window and byte of both layouts. -/
theorem witness_Mmc3BanksFollowTheirRegisters :
    (bootOf 4).mapper = .mmc3 initMmc3 ∧ (bootOf 4).cart.chrCount ≠ 0
      ∧ { marked 4 with chrCount := 0 }.chrCount = 0
      ∧ (0x8000 ≤ (0x8000 : Word).toNat ∧ (0x8000 : Word).toNat % 2 = 0)
      ∧ ((0x9FFF : Word).toNat < 0xA000 ∧ (0x9FFF : Word).toNat % 2 = 1)
      ∧ (3 < 4 ∧ 8191 < 8192 ∧ 1023 < 1024) := by
  decide

/-- The first and the last address of each clause, and both kinds of cartridge. -/
theorem witness_Mmc3RegisterWrites :
    (bootOf 4).mapper = .mmc3 initMmc3 ∧ (bootOf 4).cart.fourScreen = false
      ∧ { marked 4 with fourScreen := true }.fourScreen = true
      ∧ (0xA000 ≤ (0xA000 : Word).toNat ∧ (0xBFFF : Word).toNat < 0xC000
        ∧ (0xBFFE : Word).toNat % 2 = 0 ∧ (0xBFFF : Word).toNat % 2 = 1)
      ∧ (0xC000 ≤ (0xC000 : Word).toNat ∧ (0xDFFF : Word).toNat < 0xE000
        ∧ (0xDFFE : Word).toNat % 2 = 0 ∧ (0xDFFF : Word).toNat % 2 = 1)
      ∧ (0xE000 ≤ (0xE000 : Word).toNat ∧ (0xFFFE : Word).toNat % 2 = 0
        ∧ (0xFFFF : Word).toNat % 2 = 1) := by
  decide

theorem witness_Mmc3CountsScanlines :
    (bootOf 4).mapper = .mmc3 initMmc3
      ∧ (let p := { (bootOf 4).ppu with mask := 0x08, line := 240 };
        p.mask.getLsbD 3 = true ∧ 0 ≤ p.line ∧ p.line ≤ 240)
      ∧ (bootOf 4).ppu.mask.getLsbD 3 = false ∧ (bootOf 0).mapper = .nrom := by
  decide

/-- EveryStepKeepsTheInvariant and NoStepWritesConfiguration: a state with the invariant whose step answers
a next state. -/
theorem witness_EveryStepKeepsTheInvariant :
    State.reset.Invariant ∧ (seen (step State.reset) (·.resetPending)) = some false :=
  ⟨⟨⟨by decide, by decide, by decide, by decide, by decide, by decide, by decide, by decide⟩,
    ⟨by decide, by decide, by decide, by decide⟩, rfl,
    fun _ _ => show (0x00 : Byte).toNat < 64 by decide, by unfold State.bit5Set; decide, rfl,
    fun _ => rfl⟩, by decide⟩

theorem witness_InvariantHoldsAtPowerOn :
    0 < Params.default.cyclesPerScanline ∧ Memory.wf [(0x0010, 0x01)]
      ∧ Memory.wf [(0x3F00, 0x3F)] ∧ Memory.inside [(0x3F00, 0x3F)] 0x4000
      ∧ (marked 4).prg.wf ∧ (marked 4).chr.wf ∧ ((0x3F : Byte).toNat < 64) := by
  decide

end Sys2Proof.Tests
end

section
/-! PROOFS. The statements of 20_memory.md: the mirrors of the internal RAM (R88) and sprite DMA from every
page (R87, R416, R417). -/

namespace Sys2Proof.Machine

/-! ### The internal RAM and its mirrors -/

/-- The fold of the internal RAM keeps the address modulo 0x800 (R81). -/
theorem norm_toNat_of_ram {a : Word} (h : a.toNat < 0x2000) : (norm a).toNat = a.toNat % 0x800 := by
  rw [norm_toNat, if_pos h]

/-- A bus read of the internal RAM: the byte at the address modulo 0x800 (R81, R84). -/
theorem memRead_ram (s : State) {a : Word} (h : a.toNat < 0x2000) :
    s.memRead a = (s.mem.read (a.toNat % 0x800), s) := by
  rw [memRead_plain s (plainAddr_of_ram h), State.byteAt, norm_toNat_of_ram h]

/-- A byte written to the internal RAM is read back through every mirror (R81, R88). -/
theorem memRead_memWrite_mirror {s : State} (hw : s.mem.wf) {a b : Word} (v : Byte)
    (ha : a.toNat < 0x2000) (hb : b.toNat < 0x2000) (hab : b.toNat % 0x800 = a.toNat % 0x800) :
    ((s.memWrite a v).memRead b).1 = v := by
  rw [memRead_ram _ hb, memWrite_ram s ha]
  dsimp only [State.store]
  rw [norm_toNat_of_ram ha, read_write hw, if_pos hab.symm]

/-- Settles O45: 0x0800, 0x1000 and 0x1800 are 0x0000 modulo 0x800. -/
theorem ramMirrorsAgree : Obligations.RamMirrorsAgree := by
  intro s v hw
  have mirror : ∀ b : Word, b.toNat < 0x2000 → b.toNat % 0x800 = 0 →
      ((s.memWrite 0x0000 v).memRead b).1 = v :=
    fun b hb h0 => memRead_memWrite_mirror hw v (by decide) hb h0
  exact ⟨mirror 0x0800 (by decide) (by decide), mirror 0x0000 (by decide) (by decide),
    mirror 0x1000 (by decide) (by decide), mirror 0x1800 (by decide) (by decide)⟩

/-! ### Sprite DMA -/

/-- The source address of the `i`-th read of a burst from page `d` (R416). -/
theorem dmaSource_toNat (d : Byte) {i : Nat} (hi : i < 256) :
    (BitVec.ofNat 16 (d.toNat * 256 + i)).toNat = d.toNat * 256 + i := by
  have := d.isLt
  rw [BitVec.toNat_ofNat]
  omega

/-- The page's first address, advanced `i` times. -/
theorem wordOf_zero_add (d : Byte) (i : Nat) :
    wordOf d 0 + BitVec.ofNat 16 i = BitVec.ofNat 16 (d.toNat * 256 + i) := by
  have hd : wordOf d 0 = BitVec.ofNat 16 (d.toNat * 256) := by
    apply BitVec.eq_of_toNat_eq
    rw [wordOf_toNat]
    simpa [Nat.mul_comm] using (dmaSource_toNat d (i := 0) (by omega)).symm
  rw [hd, BitVec.ofNat_add]

/-- One read of a burst and the byte it stores (R416). -/
theorem dmaBurst_succ (s : State) (d : Byte) (i : Nat) :
    dmaBurst s d (i + 1)
      = (let r := (dmaBurst s d i).memRead (BitVec.ofNat 16 (d.toNat * 256 + i))
        { r.2 with ppu := { r.2.ppu with
          oam := r.2.ppu.oam.write ((s.ppu.oamAddr.toNat + i) % 256) r.1 } }) := by
  have hn : (s.ppu.oamAddr + BitVec.ofNat 8 i).toNat = (s.ppu.oamAddr.toNat + i) % 256 := by simp
  dsimp only [dmaBurst, State.putOam]
  rw [memRead_ppu_oamAddr, dmaBurst_oamAddr, hn]

/-- A store to 0x4014 keeps `oam_addr`. -/
theorem memWrite_dma_oamAddr (s : State) (d : Byte) :
    (s.memWrite 0x4014 d).ppu.oamAddr = s.ppu.oamAddr := by
  rw [memWrite_dma_burst]
  exact dmaBurst_oamAddr s d 256

/-- From a page of PPU registers, a burst moves `v` by 32 increments, clears the vertical-blank flag and the
toggle outside the exempt window, and reads no controller (R87). -/
theorem memWrite_dma_ppu (s : State) {d : Byte} (h1 : 0x20 ≤ d.toNat) (h2 : d.toNat < 0x40) :
    let t := s.memWrite 0x4014 d
    t.ppu.v = s.ppu.v + 32 * s.ppu.increment
      ∧ (exemptWindow s.cfg s.ppu = false → t.ppu.vblank = false ∧ t.ppu.w = false)
      ∧ t.pad0 = s.pad0 ∧ t.pad1 = s.pad1 := by
  have h := dmaBurst_ppu s d h1 h2 256 le_rfl
  rw [memWrite_dma_burst]
  generalize dmaBurst s d 256 = t at h ⊢
  obtain ⟨hv, -, -, -, -, hp0, hp1, hflags⟩ := h
  exact ⟨hv, hflags (by omega), hp0, hp1⟩

/-- 32 increments of `v`, as numbers (R412). -/
theorem add_increments_toNat (p : Ppu) :
    (p.v + 32 * p.increment).toNat
      = (p.v.toNat + 32 * (if p.ctrl.getLsbD 2 then 32 else 1)) % 0x8000 := by
  unfold Ppu.increment
  split <;> simp [BitVec.toNat_add]

/-- Outside line 260, and at a budget that is not listed, the exempt window does not hold (R405). -/
theorem exemptWindow_eq_false {cfg : Params} {p : Ppu}
    (h : p.line ≠ 260 ∨ cfg.exemptBudgets.contains p.budget = false) :
    exemptWindow cfg p = false := by
  unfold exemptWindow
  rw [Bool.and_eq_false_iff, decide_eq_false_iff_not]
  exact h

/-- From page 0x40 a burst reads each controller once and changes nothing else but sprite memory (R87). -/
theorem memWrite_dma_pads (s : State) :
    s.memWrite 0x4014 0x40 = { s with
      cyc := s.cyc + 512
      ppu := { s.ppu with oam := (s.memWrite 0x4014 0x40).ppu.oam }
      pad0 := { s.pad0 with count := s.pad0.count + 1 }
      pad1 := { s.pad1 with count := s.pad1.count + 1 } } := by
  have h := dmaBurst_pads s 256 le_rfl
  rw [memWrite_dma_burst]
  generalize dmaBurst s 0x40 256 = t at h ⊢
  rw [h]
  rfl

/-- Every address of a page outside the register windows is plain. -/
theorem plainAddr_of_page {d : Byte} (hd : d.toNat < 0x20 ∨ 0x41 ≤ d.toNat) {i : Nat} (hi : i < 256) :
    plainAddr (wordOf d 0 + BitVec.ofNat 16 i) = true := by
  apply plainAddr_of
  rw [wordOf_zero_add, dmaSource_toNat d hi]
  omega

/-- From a plain page, the `i`-th byte of the page stands in sprite memory `i` bytes after `oam_addr`
(R416). -/
theorem memWrite_dma_read (s : State) {d : Byte} (hw : s.ppu.oam.wf)
    (hd : d.toNat < 0x20 ∨ 0x41 ≤ d.toNat) {i : Nat} (hi : i < 256) :
    (s.memWrite 0x4014 d).ppu.oam.read ((s.ppu.oamAddr.toNat + i) % 256)
      = s.byteAt (BitVec.ofNat 16 (d.toNat * 256 + i)) := by
  obtain ⟨hread, -⟩ := dmaLoop_plain 256 0 (wordOf d 0) s hw le_rfl (fun _ => plainAddr_of_page hd)
  have ho := s.ppu.oamAddr.isLt
  have hoff : ((s.ppu.oamAddr.toNat + i) % 256 + 512 - s.ppu.oamAddr.toNat - (0 : Byte).toNat) % 256
      = i := by
    rw [show (0 : Byte).toNat = 0 from rfl]
    omega
  have hn := hread ((s.ppu.oamAddr.toNat + i) % 256) (Nat.mod_lt _ (by omega))
  rw [hoff, if_pos hi, wordOf_zero_add] at hn
  rw [memWrite_dma]
  unfold State.spriteDma
  generalize dmaLoop 256 0 (wordOf d 0) s = t at hn ⊢
  exact hn

/-- From a plain page a burst changes sprite memory and the cost only (R416). -/
theorem memWrite_dma_plain (s : State) {d : Byte} (hw : s.ppu.oam.wf)
    (hd : d.toNat < 0x20 ∨ 0x41 ≤ d.toNat) :
    s.memWrite 0x4014 d = { s with
      cyc := s.cyc + 512
      ppu := { s.ppu with oam := (s.memWrite 0x4014 d).ppu.oam } } := by
  obtain ⟨-, hframe⟩ := dmaLoop_plain 256 0 (wordOf d 0) s hw le_rfl (fun _ => plainAddr_of_page hd)
  rw [memWrite_dma]
  unfold State.spriteDma dmaCost
  generalize dmaLoop 256 0 (wordOf d 0) s = t at hframe ⊢
  rw [hframe]

/-- STA absolute is one bus write of A, at cost 4 (R204). -/
theorem exec_sta_abs (s : State) (w : Word) :
    exec (.sta (.abs w)) s = .next ((s.memWrite w s.a).finish 3 4) := rfl

/-- The bytes that a burst from page 0x10 reads are the first 256 of the internal RAM (R81, R417). -/
theorem byteAt_page_0x10 (s : State) {i : Nat} (hi : i < 256) :
    s.byteAt (BitVec.ofNat 16 ((0x10 : Byte).toNat * 256 + i)) = s.mem.read i := by
  have ha := dmaSource_toNat 0x10 hi
  rw [show (0x10 : Byte).toNat = 16 from rfl] at ha ⊢
  rw [State.byteAt, norm_toNat_of_ram (by omega), ha, show (16 * 256 + i) % 0x800 = i by omega]

/-- STA 0x4014 with A = 0x10 and `oam_addr` = 0 copies the first 256 bytes of the internal RAM and costs
516 (R417). -/
theorem exec_sta_dma_page_0x10 (s : State) (hw : s.ppu.oam.wf) (ho : s.ppu.oamAddr = 0)
    (ha : s.a = 0x10) :
    ∃ t, exec (.sta (.abs 0x4014)) s = .next t
      ∧ (∀ i, i < 256 → t.ppu.oam.read i = s.mem.read i)
      ∧ t.cyc = s.cyc + 516 := by
  refine ⟨_, exec_sta_abs s 0x4014, fun i hi => ?_, ?_⟩
  · have hr := memWrite_dma_read s (d := 0x10) hw (.inl (by decide)) hi
    rw [ho, show ((0 : Byte).toNat + i) % 256 = i by simp; omega, byteAt_page_0x10 s hi] at hr
    rw [finish_ppu, ha, hr]
  · rw [finish_cyc, memWrite_cyc, if_pos (by decide)]

/-- Settles O51: `dmaBurst s d` is the sequence of states; the pages of the PPU registers, of the controllers
and the plain ones have a lemma each. -/
theorem spriteDmaCopiesAPage : Obligations.SpriteDmaCopiesAPage := by
  refine ⟨fun s d => ?_, fun s d h1 h2 => ?_, memWrite_dma_pads, fun s d hw hd => ?_,
    exec_sta_dma_page_0x10⟩
  · exact ⟨dmaBurst s d, rfl, fun i _ => dmaBurst_succ s d i, memWrite_dma_burst s d,
      memWrite_dma_oamAddr s d⟩
  · obtain ⟨hv, hflags, hp0, hp1⟩ := memWrite_dma_ppu s h1 h2
    exact ⟨(congrArg BitVec.toNat hv).trans (add_increments_toNat s.ppu),
      fun h => hflags (exemptWindow_eq_false h), hp0, hp1⟩
  · have hcyc := memWrite_cyc s 0x4014 d
    rw [if_pos (by decide)] at hcyc
    exact ⟨fun i hi => memWrite_dma_read s hw hd hi, hcyc, memWrite_dma_plain s hw hd⟩

end Sys2Proof.Machine
end

section
/-! PROOFS. The statements of 46_mappers.md: NROM's boot (R512), the boundary that ends vertical blank and
the mapper's update there (R553, R555, R537), and MMC1's serial register (R522 to R527). -/

namespace Sys2Proof.Machine

/-! ### NROM after the first step -/

/-- The mapper at power-on is the variant the cartridge selects (R501, R506). -/
theorem powerOn_mapperOk (cfg : Params) (c : Cartridge) (ram vram oam : Memory) :
    (State.powerOn cfg c ram vram oam).MapperOk := by
  unfold State.MapperOk State.powerOn
  dsimp only
  generalize c.mapperId = i
  match i with
  | 0 | 2 | 3 | 4 => rfl
  | 1 => exact ⟨rfl, Nat.zero_le 4⟩
  | k + 5 => exact show 4 < k + 5 by omega

/-- The first step of a machine with a supported cartridge is the RESET event (R551, R612). -/
theorem step_powerOn {cfg : Params} {c : Cartridge} (ram vram oam : Memory)
    (hb : 0 < cfg.cyclesPerScanline) (hid : c.mapperId ≤ 4) :
    step (State.powerOn cfg c ram vram oam)
      = .next (State.powerOn cfg c ram vram oam).beginStep.resetEvent :=
  step_resetEvent (if_pos hid) rfl (Int.natCast_pos.mpr hb)

/-- After the RESET event the PRG windows show the first bank and the last one (R511, R516, R520, R526,
R538). -/
theorem resetEvent_prg {s : State} (h : s.MapperOk) (hid : s.cart.mapperId ≤ 4)
    (hp : 0 < s.cart.prgCount) {i : Nat} (hi : i < 16384) :
    s.resetEvent.mem.read (0x8000 + i) = s.cart.prg.read i
      ∧ s.resetEvent.mem.read (0xC000 + i)
        = s.cart.prg.read ((s.cart.prgCount - 1) * 16384 + i) := by
  rw [resetEvent_eq]
  refine (mapperReset_windows _ ?_ ?_).1 ?_ i hi
  · exact h
  · exact hid
  · exact hp

/-- Without CHR the RESET event leaves video memory (R505). -/
theorem resetEvent_vram {s : State} (hc : s.cart.chrCount = 0) :
    s.resetEvent.ppu.vram = s.ppu.vram := by
  rw [resetEvent_eq]
  exact (banks_mapperReset _).chrRam hc

/-- PC after the RESET event is the vector as the new windows show it (R612). -/
theorem resetEvent_pc_toNat (s : State) :
    s.resetEvent.pc.toNat
      = (s.resetEvent.mem.read 0xFFFC).toNat + 256 * (s.resetEvent.mem.read 0xFFFD).toNat := by
  rw [resetEvent_eq]
  dsimp only
  rw [wordOf_toNat]

/-- Settles O9: the RESET event copies the one bank to both windows, so that the vector comes from the
bank's last bytes. -/
theorem nromBootsFromItsVector : Obligations.NromBootsFromItsVector := by
  intro cfg c ram vram oam hb hp hc hid
  have hstep := step_powerOn (c := c) ram vram oam hb (by omega)
  have hok : (State.powerOn cfg c ram vram oam).beginStep.MapperOk := powerOn_mapperOk ..
  have hcart : (State.powerOn cfg c ram vram oam).beginStep.cart = c := rfl
  have hvram : (State.powerOn cfg c ram vram oam).beginStep.ppu.vram = maskPalette vram := rfl
  generalize (State.powerOn cfg c ram vram oam).beginStep = s at hstep hok hcart hvram
  subst hcart
  have windows : ∀ i, i < 16384 → s.resetEvent.mem.read (0x8000 + i) = s.cart.prg.read i
      ∧ s.resetEvent.mem.read (0xC000 + i) = s.cart.prg.read i := fun i hi => by
    simpa [hp] using resetEvent_prg hok (by omega) (by omega) hi
  refine ⟨_, hstep, windows, fun n hn => ?_, ?_⟩
  · rw [resetEvent_vram hc, hvram, read_maskPalette_below vram (by omega)]
  · rw [resetEvent_pc_toNat, (windows 0x3FFC (by omega)).2, (windows 0x3FFD (by omega)).2]

/-! ### The end of vertical blank -/

/-- Settles O15: the end of vertical blank puts the line at -1 before the mapper's update, and by default
the update clocks nothing outside lines 0 to 240. -/
theorem vblankEndRestartsTheFrame : Obligations.VblankEndRestartsTheFrame := by
  intro s u hline hu
  have hb : s.boundary = u.mapperUpdate := by rw [boundary_end hline, hu]; rfl
  have hl : u.ppu.line = -1 := by rw [hu]
  refine ⟨hb, ?_, fun hc => ?_⟩
  · rw [hb, (mapperUpdate_keeps u).line, hl]
  · rw [hb, mapperUpdate_outside u (.inl (by omega)) (by rw [hu]; exact hc)]

/-! ### MMC1's serial register -/

/-- MMC1 after a commit of `x` to the register of the address's window (R522). -/
def Mmc1.commit (r : Mmc1) (a : Word) (x : BitVec 5) : Mmc1 :=
  { shiftAcc := 0, shiftCount := 0, reg := r.reg.set (a.extractLsb' 13 2).toFin x }

/-- A commit sets the register of the address's window, and no other (R522). -/
theorem commit_reg (r : Mmc1) (a : Word) (x : BitVec 5) (j : Fin 4) :
    (r.commit a x).reg[j] = if j.val = a.toNat / 8192 % 4 then x else r.reg[j] := by
  show (r.reg.set (a.extractLsb' 13 2).toFin x)[j.val] = _
  rw [Vector.getElem_set, mmc1Window]
  simp only [eq_comm]
  rfl

/-- The value that MMC1's shift register holds at its fifth bit (R522). -/
def fiveBits (d0 d1 d2 d3 d4 : Byte) : BitVec 5 :=
  shiftedBits d0 d1 d2 d3 ||| ((BitVec.ofBool (d4.getLsbD 0)).setWidth 5 <<< 4)

theorem fiveBits_toNat (d0 d1 d2 d3 d4 : Byte) :
    (fiveBits d0 d1 d2 d3 d4).toNat
      = (d0.getLsbD 0).toNat + 2 * (d1.getLsbD 0).toNat + 4 * (d2.getLsbD 0).toNat
        + 8 * (d3.getLsbD 0).toNat + 16 * (d4.getLsbD 0).toNat :=
  shiftedBits_toNat d0 d1 d2 d3 d4

/-- Five writes with bit 7 clear, from an empty shift register, commit their five bits (R522, R526). -/
theorem mmc1_fiveWrites (s : State) (r : Mmc1) (hm : s.mapper = .mmc1 r) (h0 : r.shiftCount = 0)
    (hz : r.shiftAcc = 0) {a0 a1 a2 a3 a4 : Word} (k0 : 0x8000 ≤ a0.toNat) (k1 : 0x8000 ≤ a1.toNat)
    (k2 : 0x8000 ≤ a2.toNat) (k3 : 0x8000 ≤ a3.toNat) (k4 : 0x8000 ≤ a4.toNat)
    {d0 d1 d2 d3 d4 : Byte} (e0 : d0.getLsbD 7 = false) (e1 : d1.getLsbD 7 = false)
    (e2 : d2.getLsbD 7 = false) (e3 : d3.getLsbD 7 = false) (e4 : d4.getLsbD 7 = false) :
    Mmc1Layout s
      (((((s.memWrite a0 d0).memWrite a1 d1).memWrite a2 d2).memWrite a3 d3).memWrite a4 d4)
      (r.commit a4 (fiveBits d0 d1 d2 d3 d4)) := by
  rw [mmc1_after4 s r hm h0 hz a0 a1 a2 a3 k0 k1 k2 k3 d0 d1 d2 d3 e0 e1 e2 e3]
  exact mmc1_write_layout
    { s with mapper := .mmc1 { r with shiftCount := 4, shiftAcc := shiftedBits d0 d1 d2 d3 } }
    _ rfl k4 d4 (shiftIn_fifth _ _ _ _ e4 rfl)

/-- The mapper's registers after `switch_banks()`. -/
theorem Mmc1Layout.mapper {s t : State} {r : Mmc1} (h : Mmc1Layout s t r) : t.mapper = .mmc1 r := by
  rw [h.1]

/-- `switch_banks()` leaves the parameters. -/
theorem Mmc1Layout.cfg {s t : State} {r : Mmc1} (h : Mmc1Layout s t r) : t.cfg = s.cfg := by
  rw [h.1]

/-- A shift register that is empty stays as it is when it is cleared. -/
theorem mmc1_cleared {r : Mmc1} (h0 : r.shiftCount = 0) (hz : r.shiftAcc = 0) :
    { r with shiftAcc := 0, shiftCount := 0 } = r := by
  rw [← h0, ← hz]

/-- A write with bit 7 set that finds the shift register empty changes nothing, unless
MMC1_RESET_SETS_PRG_MODE (R522, D27). -/
theorem mmc1_write_reset_empty (s : State) (r : Mmc1) (hm : s.mapper = .mmc1 r)
    (h0 : r.shiftCount = 0) (hz : r.shiftAcc = 0) (hg : s.cfg.mmc1ResetSetsPrgMode = false)
    {a : Word} (ha : 0x8000 ≤ a.toNat) (d : Byte) (h7 : d.getLsbD 7 = true) :
    s.memWrite a d = s := by
  rw [(mmc1_write_reset s r hm ha d h7).1 hg, mmc1_cleared h0 hz, ← hm]

/-- Three writes from an empty shift register copy nothing and leave the four registers (R522). -/
theorem mmc1_after3 (s : State) (r : Mmc1) (hm : s.mapper = .mmc1 r) (h0 : r.shiftCount = 0)
    {a : Word} (ha : 0x8000 ≤ a.toNat) {d0 d1 d2 : Byte} (e0 : d0.getLsbD 7 = false)
    (e1 : d1.getLsbD 7 = false) (e2 : d2.getLsbD 7 = false) :
    ∃ acc, ((s.memWrite a d0).memWrite a d1).memWrite a d2
      = { s with mapper := .mmc1 { r with shiftAcc := acc, shiftCount := 3 } } := by
  rw [mmc1_write_open s r hm ha d0 e0 (by omega),
    mmc1_write_open _ _ rfl ha d1 e1 (by dsimp only; omega),
    mmc1_write_open _ _ rfl ha d2 e2 (by dsimp only; omega)]
  dsimp only
  rw [h0]
  exact ⟨_, rfl⟩

/-- Three writes and one with bit 7 set leave the shift register empty, and all else as it was unless
MMC1_RESET_SETS_PRG_MODE (R527). -/
theorem mmc1_threeWritesThenReset (s : State) (r : Mmc1) (hm : s.mapper = .mmc1 r)
    (h0 : r.shiftCount = 0) (hz : r.shiftAcc = 0) {a : Word} (ha : 0x8000 ≤ a.toNat)
    {d0 d1 d2 d3 : Byte} (e0 : d0.getLsbD 7 = false) (e1 : d1.getLsbD 7 = false)
    (e2 : d2.getLsbD 7 = false) (e3 : d3.getLsbD 7 = true) :
    let t := (((s.memWrite a d0).memWrite a d1).memWrite a d2).memWrite a d3
    (s.cfg.mmc1ResetSetsPrgMode = false → t = s)
      ∧ (s.cfg.mmc1ResetSetsPrgMode = true → t.mapper
        = .mmc1 { shiftAcc := 0, shiftCount := 0, reg := r.reg.set 0 (r.reg[0] ||| 0x0C) }) := by
  obtain ⟨acc, h⟩ := mmc1_after3 s r hm h0 ha e0 e1 e2
  dsimp only
  rw [h]
  obtain ⟨hoff, hon⟩ := mmc1_write_reset
    { s with mapper := .mmc1 { r with shiftAcc := acc, shiftCount := 3 } } _ rfl ha d3 e3
  refine ⟨fun hg => ?_, fun hg => (hon hg).mapper⟩
  rw [hoff hg]
  dsimp only
  rw [mmc1_cleared h0 hz, ← hm]

/-- The registers after the rule's example from reset: the bits 0, 1, 1, 1, 0 in register 0 (R527). -/
theorem commit_initMmc1 :
    initMmc1.commit 0x8000 (fiveBits 0x00 0x01 0x01 0x01 0x00)
      = { shiftAcc := 0, shiftCount := 0, reg := #v[0x0E, 0, 0, 0] } := by
  decide

/-- What the registers of the rule's example lay out: vertical mirroring, PRG mode 3 with the first bank
below the last, 8 KiB CHR (R527). -/
theorem Mmc1Layout.vertical_mode3 {s t : State}
    (h : Mmc1Layout s t { shiftAcc := 0, shiftCount := 0, reg := #v[0x0E, 0, 0, 0] })
    (hf : s.cart.fourScreen = false) (hp : 0 < s.cart.prgCount) :
    t.ppu.mirroring = .vertical
      ∧ (∀ i, i < 16384 → t.mem.read (0x8000 + i) = s.cart.prg.read i
        ∧ t.mem.read (0xC000 + i) = s.cart.prg.read ((s.cart.prgCount - 1) * 16384 + i))
      ∧ (∀ i, i < 8192 → s.cart.chrCount ≠ 0 → t.ppu.vram.read i = s.cart.chr.read i) := by
  obtain ⟨-, hmir, -, hprg, -, hchr, -⟩ := h
  refine ⟨?_, fun i hi => ?_, fun i hi hc => ?_⟩
  · rw [hmir, hf]
    rfl
  · simpa [Nat.mod_eq_of_lt (show s.cart.prgCount - 1 < s.cart.prgCount by omega)] using hprg i hi
  · simpa using hchr hc rfl i hi

/-- Settles O53: a fifth write lays out the committed registers; the example, the three writes before a
reset, and the reset itself have a lemma each. -/
theorem mmc1FiveWritesCommit : Obligations.Mmc1FiveWritesCommit := by
  have k : 0x8000 ≤ (0x8000 : Word).toNat := by decide
  refine ⟨?_, ?_, ?_, ?_, fun s r a d hm ha h7 => mmc1_write_reset s r hm ha d h7⟩
  · intro s r d0 d1 d2 d3 d4 hm h0 hz e0 e1 e2 e3 e4 s4
    have hs4 : s4 = _ := mmc1_after4 s r hm h0 hz _ _ _ _ k k k k d0 d1 d2 d3 e0 e1 e2 e3
    have reg := commit_reg r 0x8000 (fiveBits d0 d1 d2 d3 d4)
    exact ⟨_, (mmc1_fiveWrites s r hm h0 hz k k k k k e0 e1 e2 e3 e4).mapper,
      (congrArg BitVec.toNat (reg 0)).trans (fiveBits_toNat d0 d1 d2 d3 d4),
      reg 1, reg 2, reg 3, rfl, rfl, by rw [hs4], by rw [hs4]⟩
  · intro s n hm hf hg hp hn s5
    have h : Mmc1Layout s s5 _ :=
      commit_initMmc1 ▸ mmc1_fiveWrites s initMmc1 hm rfl rfl k k k k k rfl rfl rfl rfl rfl
    obtain ⟨hmir, hprg, hchr⟩ := h.vertical_mode3 hf hp
    exact ⟨h.mapper, hmir, hprg, hchr,
      mmc1_write_reset_empty s5 _ h.mapper rfl rfl (h.cfg ▸ hg) hn 0x80 rfl⟩
  · intro s r d0 d1 d2 d3 hm h0 hz e0 e1 e2 e3 t
    obtain ⟨hoff, hon⟩ := mmc1_threeWritesThenReset s r hm h0 hz k e0 e1 e2 e3
    refine ⟨?_, hoff⟩
    cases hg : s.cfg.mmc1ResetSetsPrgMode
    · exact ⟨r, (congrArg State.mapper (hoff hg)).trans hm, h0, hz, rfl, rfl, rfl⟩
    · exact ⟨_, hon hg, rfl, rfl, by simp, by simp, by simp⟩
  · intro s r a0 a1 a2 a3 a4 d0 d1 d2 d3 d4 hm h0 hz e0 e1 e2 e3 e4 k0 k1 k2 k3 k4 s4
    have hs4 : s4 = _ := mmc1_after4 s r hm h0 hz a0 a1 a2 a3 k0 k1 k2 k3 d0 d1 d2 d3 e0 e1 e2 e3
    refine ⟨_, by rw [hs4], rfl, rfl, fun j => ⟨fun hj => ?_, fun hj => ?_⟩,
      mmc1_fiveWrites s r hm h0 hz k0 k1 k2 k3 k4 e0 e1 e2 e3 e4⟩
    · rw [commit_reg, if_pos hj, fiveBits_toNat]
    · rw [commit_reg, if_neg hj]

end Sys2Proof.Machine
end

section
/-! PROOFS. The statements of 30_encoding.md on the decoder and the encoder (R130 to R132, R151). -/

namespace Sys2Proof.Machine

/-! ### Decoding undoes encoding -/

/-- Settles O1: a well-formed instruction has its opcode, from which and from the operand bytes the table
builds it again. -/
theorem decodeInvertsEncode : Obligations.DecodeInvertsEncode :=
  decode_encode

/-- Settles O3: nine words are encodings, and BRK's skipped byte is any byte. -/
theorem decodeReadsWrittenWords : Obligations.DecodeReadsWrittenWords :=
  ⟨decode_encode (.lda (.imm 0x80)) [] rfl, decode_encode (.sta (.abx 0x1234)) [] rfl,
    decode_encode (.ror (.mem (.zp 0x10))) [] rfl, decode_encode (.jmp (.ind 0x02FF)) [] rfl,
    decode_encode (.jsr 0xC123) [] rfl, decode_encode (.bne 0xFD) [] rfl,
    decode_cons 0x00 [0xEA] [0x58] rfl, decode_encode (.isc (.izy 0x10)) [] rfl,
    decode_encode (.top 0x1C (.abx 0x12FF)) [] rfl, decode_encode (.unimpl 0x9C) [] rfl⟩

/-! ### Encoding undoes decoding -/

/-- What decodes is an opcode, the bytes that belong to it, and the rest (R132). -/
theorem decode_ok {bytes rest : List Byte} {i : Instr} (h : decode bytes = .ok (i, rest)) :
    ∃ op l, bytes = op :: (l ++ rest) ∧ l.length = bytesAfter true op
      ∧ i = instrOf true op (l.getD 0 0) (l.getD 1 0) := by
  cases bytes with
  | nil => cases h
  | cons op tl =>
    unfold decode at h
    rcases bytesAfter_cases op with hn | hn | hn
    · simp only [decodeWith, hn] at h
      cases h
      exact ⟨op, [], rfl, hn.symm, rfl⟩
    · match tl with
      | [] => simp [decodeWith, hn] at h
      | b1 :: _ =>
        simp only [decodeWith, hn] at h
        cases h
        exact ⟨op, [b1], rfl, hn.symm, rfl⟩
    · match tl with
      | [] | [_] => simp [decodeWith, hn] at h
      | b1 :: b2 :: _ =>
        simp only [decodeWith, hn] at h
        cases h
        exact ⟨op, [b1, b2], rfl, hn.symm, rfl⟩

/-- What the table builds for an opcode is well-formed and has that opcode and those operand bytes. -/
theorem instrOf_facts (op b1 b2 : Byte) :
    (instrOf true op b1 b2).wellFormed = true ∧ opcodeOf (instrOf true op b1 b2) = some op
      ∧ operandBytesOf (instrOf true op b1 b2) = [b1, b2].take (operandBytes true op) := by
  have hop : op = BitVec.ofNat 8 op.toNat := by simp
  rw [hop]
  obtain ⟨hw, ho⟩ := instrOf_wellFormed _ op.isLt b1 b2
  exact ⟨hw, ho, instrOf_operandBytes _ op.isLt b1 b2⟩

/-- At most two bytes are the first so many of their two defaults. -/
theorem take_getD_pair {l : List Byte} {n : Nat} (h : l.length = n) (hn : n ≤ 2) :
    [l.getD 0 0, l.getD 1 0].take n = l := by
  match l with
  | [] | [_] | [_, _] => subst h; rfl
  | _ :: _ :: _ :: _ => simp at h; omega

/-- Encoding what an opcode other than BRK's and its bytes build gives them back. -/
theorem encode_instrOf {op : Byte} (h0 : op ≠ 0x00) {l : List Byte} (hl : l.length = bytesAfter true op) :
    encode (instrOf true op (l.getD 0 0) (l.getD 1 0)) = op :: l := by
  obtain ⟨-, ho, hb⟩ := instrOf_facts op (l.getD 0 0) (l.getD 1 0)
  have hle : operandBytes true op ≤ 2 := by have := operandBytes_cases true op; omega
  rw [bytesAfter_eq _ _ h0] at hl
  unfold encode skippedBytesOf
  rw [ho, hb, if_neg (instrOf_ne_brk h0), List.append_nil, take_getD_pair hl hle]

/-- Settles O2: the opcode 0x00 is BRK with its skipped byte; of every other opcode the bytes after it are
the operand bytes. -/
theorem encodeInvertsDecode : Obligations.EncodeInvertsDecode := by
  intro bytes i rest h
  obtain ⟨op, l, rfl, hl, rfl⟩ := decode_ok h
  refine ⟨(instrOf_facts ..).1, fun hne => ?_, fun hbrk => ?_⟩
  · have h0 : op ≠ 0x00 := fun h0 => hne (h0 ▸ instrOf_brk true _ _)
    rw [encode_instrOf h0 hl]
    rfl
  · have h0 : op = 0x00 := by_contra fun h0 => instrOf_ne_brk h0 hbrk
    subst h0
    obtain ⟨pad, rfl⟩ := List.length_eq_one_iff.mp hl
    exact ⟨pad, rfl⟩

end Sys2Proof.Machine
end

section
/-! PROOFS. The statements on every instruction and every step: the cost of the opcode table (R146 to R148),
progress (R551, R552, R625), the invariant and the configuration, and an opcode without semantics (R370,
R601). -/

namespace Sys2Proof.Machine

/-! ### The cost of every instruction -/

/-- The rows of DOP: its mode's cost, without a rule (R365). -/
theorem describe_dop (m : Mode) : ∀ op ∈ dopOpcodes m,
    describe op = some ⟨.dop, m, m.size, readCost m false, .none, false⟩ := by
  cases m <;> decide

/-- The rows of TOP: its mode's cost, with the page rule when it is indexed (R366). -/
theorem describe_top (m : Mode) : ∀ op ∈ topOpcodes m,
    describe op
      = some ⟨.top, m, m.size, readCost m false, if m = .abx then .page else .none, false⟩ := by
  cases m <;> decide

theorem descrOf_dop {op : Byte} {o : Src} (h : (Instr.dop op o).wellFormed = true) :
    descrOf (.dop op o) = some ⟨.dop, o.mode, o.mode.size, readCost o.mode false, .none, false⟩ := by
  have hop : op ∈ dopOpcodes o.mode := List.contains_iff_mem.mp h
  simpa [descrOf, opcodeOf, hop] using describe_dop _ _ hop

theorem descrOf_top {op : Byte} {a : Addr} (h : (Instr.top op a).wellFormed = true) :
    descrOf (.top op a) = some ⟨.top, a.mode, a.mode.size, readCost a.mode false,
      if a.mode = .abx then .page else .none, false⟩ := by
  have hop : op ∈ topOpcodes a.mode := List.contains_iff_mem.mp h
  simpa [descrOf, opcodeOf, hop] using describe_top _ _ hop

/-- The cost of DOP by the table: no mode of it pays for a page crossed (R365). -/
theorem cost_dop (s : State) (op : Byte) (o : Src) (h : (Instr.dop op o).wellFormed = true) :
    readCost o.mode (s.readSrc o).crossed = tableCost (.dop op o) s := by
  have hd := descrOf_dop h
  rcases o with b | a
  · exact (tableCost_plain _ s _ hd rfl rfl).symm
  · rw [tableCost_read _ s a _ hd rfl rfl (.inr rfl)]
    cases a with
    | zp _ | zpx _ => rfl
    | zpy _ | abs _ | abx _ | aby _ | izx _ | izy _ => cases h

/-- The cost of TOP by the table (R366). -/
theorem cost_top (s : State) (op : Byte) (a : Addr) (h : (Instr.top op a).wellFormed = true) :
    readCost a.mode (s.resolve a).crossed = tableCost (.top op a) s := by
  rw [tableCost_read _ s a _ (descrOf_top h) rfl rfl (by dsimp only; split <;> simp)]
  cases a with
  | abs _ | abx _ => rfl
  | zp _ | zpx _ | zpy _ | aby _ | izx _ | izy _ => cases h

/-- The row of ANC. -/
theorem descrOf_anc {op b : Byte} (h : (Instr.anc op b).wellFormed = true) :
    descrOf (.anc op b) = some ⟨.anc, .imm, 2, 2, .none, false⟩ := by
  have hop : op ∈ ancOpcodes := List.contains_iff_mem.mp h
  have hrow : ∀ op ∈ ancOpcodes, describe op = some ⟨.anc, .imm, 2, 2, .none, false⟩ := by decide
  simpa [descrOf, opcodeOf, hop] using hrow op hop

/-- The row of an undocumented NOP. -/
theorem descrOf_nopAlt {op : Byte} (h : (Instr.nopAlt op).wellFormed = true) :
    descrOf (.nopAlt op) = some ⟨.nop, .imp, 1, 2, .none, false⟩ := by
  have hop : op ∈ nopAltOpcodes := List.contains_iff_mem.mp h
  have hrow : ∀ op ∈ nopAltOpcodes, describe op = some ⟨.nop, .imp, 1, 2, .none, false⟩ := by decide
  simpa [descrOf, opcodeOf, hop] using hrow op hop

/-- Taking an exception costs nothing by itself. -/
theorem takeVector_cyc (s : State) (ret : Word) (b : Bool) {v : Word} (h : 0x8000 ≤ v.toNat)
    (h' : v.toNat < 0xFFFF) : (s.takeVector ret b v).cyc = s.cyc := by
  rw [takeVector_eq s ret b h h']

/-- A well-formed instruction with semantics costs what the opcode table gives, case by case. -/
theorem exec_cost (i : Instr) (s : State) (hw : i.wellFormed = true) (h : ∀ op, i ≠ .unimpl op) :
    ∃ t, exec i s = .next t ∧ t.cyc = s.cyc + tableCost i s := by
  have plain : ∀ {t : State} {i : Instr} {d : Descriptor}, descrOf i = some d → operandOf i = none →
      d.rule = .none → exec i s = .next t → t.cyc = s.cyc + d.cycles →
      ∃ t, exec i s = .next t ∧ t.cyc = s.cyc + tableCost i s :=
    fun hd ha hr he hc => ⟨_, he, by rw [tableCost_plain _ s _ hd ha hr, hc]⟩
  have sum : ∀ {t : State} {n m : Nat}, t.cyc = s.cyc + n → n = m → t.cyc = s.cyc + m :=
    fun h1 h2 => h2 ▸ h1
  cases i
  case unimpl op => exact absurd rfl (h op)
  case lda o => exact ⟨_, rfl, sum (load_cyc s o _ fun _ _ => rfl) (cost_lda s o hw)⟩
  case ldx o => exact ⟨_, rfl, sum (load_cyc s o _ fun _ _ => rfl) (cost_ldx s o hw)⟩
  case ldy o => exact ⟨_, rfl, sum (load_cyc s o _ fun _ _ => rfl) (cost_ldy s o hw)⟩
  case sta a => exact ⟨_, rfl, sum (storeReg_cyc s a _) (cost_sta s a hw)⟩
  case stx a => exact ⟨_, rfl, sum (storeReg_cyc s a _) (cost_stx s a hw)⟩
  case sty a => exact ⟨_, rfl, sum (storeReg_cyc s a _) (cost_sty s a hw)⟩
  case sax a => exact ⟨_, rfl, sum (storeReg_cyc s a _) (cost_sax s a hw)⟩
  case and o => exact ⟨_, rfl, sum (logic_cyc s o _) (cost_and s o hw)⟩
  case ora o => exact ⟨_, rfl, sum (logic_cyc s o _) (cost_ora s o hw)⟩
  case eor o => exact ⟨_, rfl, sum (logic_cyc s o _) (cost_eor s o hw)⟩
  case cmp o => exact ⟨_, rfl, sum (compareReg_cyc s o _) (cost_cmp s o hw)⟩
  case cpx o => exact ⟨_, rfl, sum (compareReg_cyc s o _) (cost_cpx s o hw)⟩
  case cpy o => exact ⟨_, rfl, sum (compareReg_cyc s o _) (cost_cpy s o hw)⟩
  case adc o => exact ⟨_, rfl, sum (by simp [State.finish]) (cost_adc s o hw)⟩
  case sbc o => exact ⟨_, rfl, sum (by simp [State.finish]) (cost_sbc s o hw)⟩
  case bit a => exact ⟨_, rfl, sum (by simp [State.finish]) (cost_bit s a hw)⟩
  case lax a => exact ⟨_, rfl, sum (by simp [State.finish]) (cost_lax s a hw)⟩
  case dop op o => exact ⟨_, rfl, sum (by simp [State.finish]) (cost_dop s op o hw)⟩
  case top op a => exact ⟨_, rfl, sum (by simp [State.finish]) (cost_top s op a hw)⟩
  case inc a => exact ⟨_, rfl, sum (stepMemory_cyc s a _) (cost_inc s a hw)⟩
  case dec a => exact ⟨_, rfl, sum (stepMemory_cyc s a _) (cost_dec s a hw)⟩
  case asl o => exact ⟨_, rfl, cost_asl s o hw⟩
  case lsr o => exact ⟨_, rfl, cost_lsr s o hw⟩
  case rol o => exact ⟨_, rfl, cost_rol s o hw⟩
  case ror o => exact ⟨_, rfl, cost_ror s o hw⟩
  case slo a => exact ⟨_, rfl, sum (shiftThenLogic_cyc s _ a _) (cost_slo s a hw)⟩
  case rla a => exact ⟨_, rfl, sum (shiftThenLogic_cyc s _ a _) (cost_rla s a hw)⟩
  case sre a => exact ⟨_, rfl, sum (shiftThenLogic_cyc s _ a _) (cost_sre s a hw)⟩
  case rra a => exact ⟨_, rfl, sum (by simp [State.finish, memWrite_cyc]; omega) (cost_rra s a hw)⟩
  case dcp a => exact ⟨_, rfl, sum (by simp [State.finish, memWrite_cyc]; omega) (cost_dcp s a hw)⟩
  case isc a => exact ⟨_, rfl, sum (by simp [State.finish, memWrite_cyc]; omega) (cost_isc s a hw)⟩
  case anc op b => exact plain (descrOf_anc hw) rfl rfl rfl rfl
  case nopAlt op => exact plain (descrOf_nopAlt hw) rfl rfl rfl rfl
  case jmp t =>
    cases t with
    | abs w => exact plain rfl rfl rfl rfl rfl
    | ind w => exact plain rfl rfl rfl rfl (by simp [State.jumpTarget, State.transfer, jumpCost])
  case jsr w => exact plain rfl rfl rfl rfl (by simp [pushWord_eq, State.transfer])
  case rts => exact plain rfl rfl rfl rfl (by simp [pullWord_eq, State.transfer])
  case rti => exact plain rfl rfl rfl rfl (by simp [returnFromInterrupt_eq, State.transfer])
  case brk => exact plain rfl rfl rfl rfl (by
    rw [State.transfer, takeVector_cyc _ _ _ (by decide) (by decide)])
  case pha => exact plain rfl rfl rfl rfl (by simp [push_cyc, State.finish])
  case php => exact plain rfl rfl rfl rfl (by simp [push_cyc, State.finish])
  case pla => exact plain rfl rfl rfl rfl (by simp [pull_eq, State.finish])
  case plp => exact plain rfl rfl rfl rfl (by simp [pull_eq, State.finish])
  case bcc d => exact ⟨_, rfl, branch_cyc s _ _ _ d rfl rfl rfl rfl rfl⟩
  case bcs d => exact ⟨_, rfl, branch_cyc s _ _ _ d rfl rfl rfl rfl rfl⟩
  case beq d => exact ⟨_, rfl, branch_cyc s _ _ _ d rfl rfl rfl rfl rfl⟩
  case bne d => exact ⟨_, rfl, branch_cyc s _ _ _ d rfl rfl rfl rfl rfl⟩
  case bmi d => exact ⟨_, rfl, branch_cyc s _ _ _ d rfl rfl rfl rfl rfl⟩
  case bpl d => exact ⟨_, rfl, branch_cyc s _ _ _ d rfl rfl rfl rfl rfl⟩
  case bvc d => exact ⟨_, rfl, branch_cyc s _ _ _ d rfl rfl rfl rfl rfl⟩
  case bvs d => exact ⟨_, rfl, branch_cyc s _ _ _ d rfl rfl rfl rfl rfl⟩
  all_goals exact plain rfl rfl rfl rfl rfl

/-- Settles O4: the cost of each instruction is its row's, and no elementary change moves a counter of the
scheduler. -/
theorem everyInstructionCompletesAtItsTableCost :
    Obligations.EveryInstructionCompletesAtItsTableCost := by
  intro i s hw h
  obtain ⟨t, ht, hc⟩ := exec_cost i s hw h
  obtain ⟨t', ht', hacts⟩ := acts_exec i s h
  obtain rfl : t = t' := Host.Outcome.next.inj (ht.symm.trans ht')
  obtain ⟨htotal, -, -, -, -, hreset, hhalted, hline, hbudget, hframe, hsince⟩ := hacts.keeps
  exact ⟨t, ht, hc, htotal, hline, hbudget, hframe, hsince, hhalted, hreset⟩

/-! ### Progress, the invariant and the configuration -/

/-- An instruction answers a next state with the same parameters. -/
theorem exec_answers (i : Instr) (s : State) : ∃ t, exec i s = .next t ∧ t.cfg = s.cfg := by
  by_cases h : ∃ op, i = .unimpl op
  · obtain ⟨op, rfl⟩ := h
    exact ⟨_, rfl, rfl⟩
  · obtain ⟨t, ht, hacts⟩ := acts_exec i s (fun op he => h ⟨op, he⟩)
    exact ⟨t, ht, hacts.keeps.2.2.2.2.1⟩

/-- The instruction branch of a step answers a next state (R552). -/
theorem runFetched_answers (q : Instr × State)
    (h : 2 * q.2.cfg.intEntryCycles < q.2.cfg.cyclesPerScanline) :
    ∃ t, runFetched q = .next t ∧ (t.halted = .running → 0 < t.ppu.budget) := by
  obtain ⟨t, ht, hcfg⟩ := exec_answers q.1 q.2
  rw [← hcfg] at h
  unfold runFetched
  rw [ht]
  exact endStep_answers t h

/-- Settles O6: the reset event and every instruction answer a state with the same parameters, from which the
loop of R552 ends. -/
theorem stepAlwaysAnswersANextState : Obligations.StepAlwaysAnswersANextState := by
  intro s hrun h
  cases hr : s.resetPending
  · rw [step_instruction hrun hr]
    refine runFetched_answers _ ?_
    rw [(fetch_keeps _).1, (takePendingIrq_keeps _).1]
    exact h
  · rw [step_reset hrun hr]
    refine endStep_answers _ ?_
    obtain ⟨-, -, -, -, hcfg, -⟩ := (acts_resetEvent s.beginStep).keeps
    rw [hcfg]
    exact h

theorem State.Invariant.core {s : State} (h : s.Invariant) : s.Core :=
  ⟨h.memories, h.mapper, h.palette, h.bit5, h.pending⟩

theorem State.Invariant.time {s : State} (h : s.Invariant) : s.TimeCore :=
  ⟨h.timing.line, h.timing.budgetLe, h.timing.cycles⟩

/-- The invariant from its parts. -/
theorem State.Invariant.of_core {s : State} (hc : s.Core) (ht : s.TimeCore)
    (hb : s.halted = .running → 0 < s.ppu.budget) (hcyc : s.cyc = 0) : s.Invariant := by
  obtain ⟨hline, hle, hcycles⟩ := ht
  exact ⟨hc.memories, ⟨hline, hb, hle, hcycles⟩, hc.mapper, hc.palette, hc.bit5, hcyc, hc.pending⟩

/-- Settles O59: what a step does before its loop keeps the core and the timing, and so does the loop, which
ends with budget left; a step that halts the machine makes no loop and charges nothing. -/
theorem everyStepKeepsTheInvariant : Obligations.EveryStepKeepsTheInvariant := by
  intro s t hs h
  obtain ⟨u, hu, -, hcore, htime, hcyc⟩ := step_before h
  rcases endStep_next hu with ⟨-, hset⟩ | ⟨hhalt, rfl⟩
  · obtain ⟨hc, ht, h0, hb, -⟩ := settle_inv (hcore hs.core) (htime hs.time) hset
    exact .of_core hc ht (fun _ => hb) h0
  · exact .of_core (hcore hs.core) (htime hs.time) (fun hr => absurd hr hhalt) (hcyc hhalt)

/-- Settles O60: neither what a step does before its loop nor the loop writes the configuration. -/
theorem noStepWritesConfiguration : Obligations.NoStepWritesConfiguration := by
  intro s t h
  obtain ⟨u, hu, ⟨h1, h2, h3, h4, h5⟩, -⟩ := step_before h
  rcases endStep_next hu with ⟨-, hset⟩ | ⟨-, rfl⟩
  · obtain ⟨e1, e2, e3, e4, e5⟩ := settle_cfg hset
    exact ⟨e1.trans h1, e2.trans h2, e3.trans h3, e4.trans h4, e5.trans h5⟩
  · exact ⟨h1, h2, h3, h4, h5⟩

/-! ### Power-on -/

/-- Main memory at power-on lies inside its array, wherever RAM_INIT lists bytes (R30). -/
theorem inside_powerOnMem (ram : Memory) : (powerOnMem ram).inside 0x10000 := by
  intro c hc
  have := of_decide_eq_true (List.mem_filter.mp hc).2
  omega

/-- The invariant at power-on (R75). -/
theorem powerOn_invariant {cfg : Params} {c : Cartridge} {ram vram oam : Memory}
    (hpos : 0 < cfg.cyclesPerScanline) (hram : ram.wf) (hvram : vram.wf) (hin : vram.inside 0x4000)
    (hoam : oam.wf) (hoin : oam.inside 0x100) (hprg : c.prg.wf) (hchr : c.chr.wf) :
    (State.powerOn cfg c ram vram oam).Invariant where
  memories := ⟨wf_filter hram _, inside_powerOnMem ram, wf_maskPalette hvram, inside_maskPalette hin,
    hoam, hoin, hprg, hchr⟩
  timing := ⟨by simp [State.powerOn, initPpu], fun _ => by simpa [State.powerOn, initPpu] using hpos,
    le_refl _, by simp [State.powerOn, initPpu]⟩
  mapper := powerOn_mapperOk ..
  palette := fun _ ha => read_maskPalette_lt vram ha
  bit5 := forceBit5_bit5 _
  cyc := rfl
  pending := fun _ => rfl

/-- Settles O58: nothing is listed outside the arrays, the palette is masked, bit 5 is forced and no cycle is
spent; reset is the case with nothing listed at all. -/
theorem invariantHoldsAtPowerOn : Obligations.InvariantHoldsAtPowerOn :=
  ⟨powerOn_invariant (by decide) wf_nil wf_nil (by simp) wf_nil (by simp) wf_nil wf_nil,
    fun _ _ _ _ _ hpos hram hvram hin hoam hoin hprg hchr =>
      powerOn_invariant hpos hram hvram hin hoam hoin hprg hchr⟩

/-! ### An opcode without semantics -/

/-- The fetch of an opcode without semantics makes one bus read (R150, R370). -/
theorem fetch_unimpl (s : State)
    (h : (s.memRead s.pc).1 ∈ unimplementedOpcodes
      ∨ (s.cfg.undocumentedEnabled = false
        ∧ ∃ d, describe (s.memRead s.pc).1 = some d ∧ d.documented = false)) :
    s.fetch = (.unimpl (s.memRead s.pc).1, (s.memRead s.pc).2) := by
  obtain ⟨hn, hi⟩ := instrOf_unimpl (b1 := 0) (b2 := 0) h
  unfold State.fetch
  simp only [hn, hi]

/-- A step that fetches an opcode without semantics halts the machine after the fetch (R601). -/
theorem step_unimpl {s : State} (hrun : s.halted = .running) (hr : s.resetPending = false) :
    let u := s.beginStep.takePendingIrq
    let r := u.memRead u.pc
    r.1 ∈ unimplementedOpcodes
        ∨ (s.cfg.undocumentedEnabled = false ∧ ∃ d, describe r.1 = some d ∧ d.documented = false) →
      step s = .next { r.2 with halted := .unimplementedOpcode r.1 u.pc } := by
  intro u r h
  have hcfg : u.cfg = s.cfg := (takePendingIrq_keeps _).1
  rw [step_instruction hrun hr, fetch_unimpl u (by rw [hcfg]; exact h)]
  refine (endStep_halted (s := { r.2 with halted := .unimplementedOpcode r.1 r.2.pc })
    (by simp)).trans ?_
  rw [show r.2.pc = u.pc from memRead_pc _ _]

/-- Settles O7: the fetch of such an opcode makes one read, and a halted machine ends its step at once; at a
plain address without a pending IRQ the read changes nothing. -/
theorem unimplementedOpcodeHaltsTheMachine : Obligations.UnimplementedOpcodeHaltsTheMachine := by
  refine ⟨fun _ _ => rfl, ?_, fun s hrun hr => step_unimpl hrun hr, fun s => ⟨fun op pc h =>
    step_unimplemented h, fun m h => step_unsupported h⟩⟩
  intro op s hop hrun hr hirq hplain hbyte
  have hread : s.beginStep.memRead s.beginStep.pc = (op, s.beginStep) :=
    (memRead_plain s.beginStep hplain).trans (congrArg (·, s.beginStep) hbyte)
  have hstep := step_unimpl hrun hr
  rw [takePendingIrq_none (s := s.beginStep) hirq] at hstep
  simp only [hread] at hstep
  exact hstep (.inl hop)

/-! ### A step runs what it fetches -/

/-- The loop of R552 stops at the first line that leaves budget. -/
theorem endStep_lines {t : State} {k : Nat} {line : Nat → State} (hrun : t.halted = .running)
    (h : t.BeginsLines k line) : t.endStep = .next (line k) :=
  endStep_running hrun (settle_lines h.1 h.2.1 h.2.2)

/-- A step without a pending IRQ runs what it fetches at PC (R150, R551). -/
theorem step_fetched {s u : State} {i : Instr} (hrun : s.halted = .running)
    (hr : s.resetPending = false) (hirq : s.noPendingIrq) (hf : s.beginStep.fetch = (i, u)) :
    step s = runFetched (i, u) := by
  rw [step_instruction hrun hr, takePendingIrq_none (s := s.beginStep) hirq, hf]

/-- After the instruction the step is the loop of R552. -/
theorem runFetched_next {i : Instr} {u t : State} (h : exec i u = .next t) :
    runFetched (i, u) = t.endStep := by
  unfold runFetched
  rw [h]

/-- Settles O5: the fetch gives the instruction that the bytes at PC encode, or decode to, and the loop stops
at the first line that leaves budget, which is the line it starts with when the budget pays for the
instruction. -/
theorem stepRunsTheDecodedInstruction : Obligations.StepRunsTheDecodedInstruction := by
  refine ⟨fun s i hrun hr hirq hu hw hb => ?_, fun s i rest hrun hr hirq => ?_⟩
  · have hstep : step s = runFetched (i, s.beginStep) :=
      step_fetched hrun hr hirq (fetch_encode _ _ hu hw (holds_beginStep _ _ _ hb))
    refine ⟨hstep, fun t ht hrunt => ?_⟩
    have hnext : step s = t.endStep := hstep.trans (runFetched_next ht)
    have hlines : ∀ k line, t.BeginsLines k line → step s = .next (line k) :=
      fun k line h => hnext.trans (endStep_lines hrunt h)
    refine ⟨fun hlt => hlines 0 (fun _ => _) ⟨rfl, by simp, ?_⟩, hlines⟩
    exact sub_pos.mpr hlt
  · intro r0 r1 r2 read hdec
    have hstep : step s = runFetched (i, read) :=
      step_fetched hrun hr hirq (fetch_decode s.beginStep hdec)
    exact ⟨hstep, fun t k line ht hrunt h =>
      (hstep.trans (runFetched_next ht)).trans (endStep_lines hrunt h)⟩

end Sys2Proof.Machine
end

section
/-! PROOFS. The statements of 60_exceptions.md: the reset step (R612), the entries of NMI and IRQ (R602, R610,
R611, R614), BRK's trap (R613) and the return from each (R615). -/

namespace Sys2Proof.Machine

/-! ### The reset step -/

/-- The reset event before the mapper's reset: the registers written, the requests dropped (R612). -/
def State.resetRegisters (s : State) : State :=
  { s with
    a := s.cfg.resetA, x := s.cfg.resetX, y := s.cfg.resetY, sp := s.cfg.resetS
    p := s.cfg.resetP ||| 0x20, irqPending := false, resetPending := false }

/-- The reset event is the registers, the mapper's reset and PC from its vector. -/
theorem resetEvent_registers (s : State) :
    s.resetEvent
      = { s.resetRegisters.mapperReset with
          pc := wordOf (s.resetRegisters.mapperReset.mem.read 0xFFFD)
            (s.resetRegisters.mapperReset.mem.read 0xFFFC) } :=
  resetEvent_eq s

/-- Settles O8: the reset event writes the registers, then the mapper's reset the switches, the mirroring and
the bank windows, in which only those windows' bytes change. -/
theorem resetStepReinitialises : Obligations.ResetStepReinitialises := by
  intro s hrun hr hb hm
  refine ⟨_, step_resetEvent hrun hr hb, ?_⟩
  rw [resetEvent_registers]
  have hum : s.beginStep.resetRegisters.MapperOk := hm
  have hbanks := banks_mapperReset s.beginStep.resetRegisters
  have hwin := mapperReset_windows s.beginStep.resetRegisters hum
  refine ⟨?_, hbanks.mem, hbanks.vram, hbanks.chrRam, fun hid => (hwin hid).1, fun hid => (hwin hid).2⟩
  have heq := mapperReset_eq s.beginStep.resetRegisters hum
  generalize s.beginStep.resetRegisters.mapperReset = t at *
  rw [heq]
  simp only [State.resetRegisters, State.beginStep, hrun]

/-! ### The entries of NMI and IRQ -/

/-- Settles O10: the entry of R602, then the entry's cost accumulated. -/
theorem nmiEntrySavesAndVectors : Obligations.NmiEntrySavesAndVectors :=
  fun s hw => ⟨nmiEntry_entry s hw, nmiEntry_cyclesTotal s, nmiEntry_ppu s⟩

/-- An IRQ requested with I clear is entered (R611). -/
theorem raiseIrq_enters {s : State} (h : s.flag .i = false) : s.raiseIrq = s.irqEntry := by
  unfold State.raiseIrq
  simp [h]

/-- An entry leaves no IRQ pending (R611). -/
theorem irqEntry_noPendingIrq (s : State) : s.irqEntry.noPendingIrq :=
  .inr (.inl (irqEntry_irqPending s))

/-- An IRQ entry does not look at the outputs and the cost that the start of a step forgets. -/
theorem beginStep_irqEntry (s : State) : s.irqEntry.beginStep = s.beginStep.irqEntry := by
  rw [irqEntry_eq, irqEntry_eq, takeVector_eq _ _ _ (v := irqVector) (by decide) (by decide),
    takeVector_eq _ _ _ (v := irqVector) (by decide) (by decide)]
  rfl

/-- Settles O11: the request by I and by IRQ_LEVEL_SENSITIVE; a remembered request, taken at the start of a
step, is the request made there. -/
theorem irqRequestIsMaskedByI : Obligations.IrqRequestIsMaskedByI := by
  refine ⟨fun s hi hl => by simp [State.raiseIrq, hi, hl], fun s hi hl => by simp [State.raiseIrq, hi, hl],
    fun s hw hi => ?_, fun s hrun hr hl hp hi => ?_⟩
  · rw [raiseIrq_enters hi]
    exact ⟨irqEntry_entry s hw, irqEntry_cyclesTotal s, irqEntry_ppu s⟩
  · rw [raiseIrq_enters hi, step_instruction hrun hr,
      step_instruction ((irqEntry_halted s).trans hrun) ((irqEntry_resetPending s).trans hr),
      takePendingIrq_some (s := s.beginStep) hl hp hi, beginStep_irqEntry,
      takePendingIrq_none (irqEntry_noPendingIrq _)]

/-! ### BRK and RTI -/

/-- An entry with another cost is an entry from a state with that cost. -/
theorem EntryFrom.cost {s t : State} {ret : Word} {b : Bool} {n : Nat} (h : EntryFrom s t ret b n) (c : Nat) :
    EntryFrom { s with cyc := c } { t with cyc := c } ret b n := by
  obtain ⟨hmem, ht⟩ := h
  exact ⟨hmem, by rw [ht]; rfl⟩

/-- BRK is the entry with the address past its skipped byte, B set, and a cost of 7. -/
theorem exec_brk (s : State) (hw : s.mem.wf) :
    ∃ t, exec .brk s = .next t ∧ EntryFrom s { t with cyc := s.cyc } (s.pc + 2) true 0xFFFE
      ∧ t.cyc = s.cyc + 7 := by
  have h := takeVector_entry s hw (s.pc + 2) true (v := irqVector) (by decide) (by decide)
  obtain ⟨-, -, -, hcyc, -⟩ :=
    takeVector_keeps s (s.pc + 2) true (v := irqVector) (by decide) (by decide)
  rw [irqVector_toNat] at h
  have hexec : exec .brk s = .next ((s.takeVector (s.pc + 2) true irqVector).transfer
    (s.takeVector (s.pc + 2) true irqVector).pc 7) := rfl
  generalize s.takeVector (s.pc + 2) true irqVector = t at h hcyc hexec
  exact ⟨_, hexec, h.cost s.cyc, by rw [State.transfer, hcyc]⟩

/-- Settles O12. -/
theorem brkTakesTheTrap : Obligations.BrkTakesTheTrap := exec_brk

/-- RTI after the entry of NMI or IRQ, whatever was accumulated since (R615). -/
theorem exec_rti_of_entry {s t : State} {ret : Word} {b : Bool} {n c : Nat} {p : Ppu} {d : Nat}
    (h : EntryFrom s { t with cyclesTotal := c, ppu := p, cyc := d } ret b n) :
    ∃ u, exec .rti t = .next u ∧ u.pc = ret ∧ u.sp = s.sp ∧ u.a = t.a ∧ u.x = t.x ∧ u.y = t.y
      ∧ u.p = packP (s.flag .n) (s.flag .v) b (s.flag .d) (s.flag .i) (s.flag .z) (s.flag .c) := by
  have hret := rti_of_entry h
  rw [execRti_eq] at hret
  obtain ⟨-, -, -, hsp, hp, hpc, -⟩ := State.mk.inj (Host.Outcome.next.inj hret)
  exact ⟨_, execRti_eq t, hpc, hsp, rfl, rfl, rfl, hp⟩

/-- Settles O13: RTI pulls what each of the three entries pushed. -/
theorem rtiReturnsFromAnEntry : Obligations.RtiReturnsFromAnEntry := by
  refine ⟨fun s => execRti_eq s, fun s hw => ?_, fun s hw => ?_, fun s hw => ?_⟩
  · obtain ⟨u, hu, hpc, hsp, -, -, -, hp⟩ := exec_rti_of_entry (nmiEntry_entry s hw)
    exact ⟨u, hu, hpc, hsp, hp⟩
  · obtain ⟨u, hu, hpc, hsp, -, -, -, hp⟩ := exec_rti_of_entry (irqEntry_entry s hw)
    exact ⟨u, hu, hpc, hsp, hp⟩
  · obtain ⟨t, ht, hentry, -⟩ := exec_brk s hw
    obtain ⟨u, hu, hpc, hsp, ha, hx, hy, hp⟩ := exec_rti_of_entry hentry
    have e := hentry.2
    obtain ⟨ea, ex, ey, -⟩ := State.mk.inj e
    exact ⟨t, u, ht, hu, hpc, hsp, ha.trans ea, hx.trans ex, hy.trans ey, hp⟩

end Sys2Proof.Machine
end

section
/-! PROOFS. The statements of 47_scheduler.md on the boundaries onto visible lines and into vertical blank
(R553, R554, R556, R557), and of 46_mappers.md on UNROM, CNROM and MMC3 (R514 to R519, R530 to R537). -/

namespace Sys2Proof.Machine

/-! ### Boundaries -/

/-- Settles O14: the boundary from line 240 is the line's advance, the mapper's update and the start of
vertical blank; the update does nothing after line 240. -/
theorem vblankStartRaisesNmi : Obligations.VblankStartRaisesNmi := by
  intro s u hline hu
  have hadv : s.advanceLine = { s with ppu := { s.ppu with line := 241 } } := by
    rw [State.advanceLine, hline]; rfl
  subst hu
  refine ⟨?_, fun hc => mapperUpdate_outside _ (.inr (show (240 : Int) < 241 by decide)) hc⟩
  rw [boundary_start hline, hadv]
  rfl

/-- The drawn line with the columns' colours (R451, R452). -/
theorem renderLine_pixels (s : State) :
    s.renderLine
      = { s with
          ppu := (s.ppu.renderLine s.cfg.blackIndex s.ppu.line).1
          events := s.events ++ (List.range 256).map (fun x => .drawPixel x s.ppu.line.toNat
            (((s.ppu.renderLine s.cfg.blackIndex s.ppu.line).2.map (·.colour)).getD x 0)) } := by
  unfold State.renderLine
  simp only [pixelEvents_eq, length_renderLine, Nat.zero_add]

/-- Settles O16: each boundary is the line's advance and the mapper's update, then the renderer's line, the
frame event or nothing. -/
theorem visibleLineEmitsItsPixels : Obligations.VisibleLineEmitsItsPixels := by
  intro s u hu
  have hadv : s.advanceLine.mapperUpdate = u := hu.symm
  have hline : u.ppu.line = s.ppu.line + 1 := hadv ▸ (mapperUpdate_keeps s.advanceLine).line
  refine ⟨fun h h' => ⟨hline, by rw [List.length_map, length_renderLine], ?_⟩, fun h => ?_,
    fun h h' => ?_⟩
  · rw [boundary_visible h h', hadv, renderLine_pixels, hline]
  · rw [boundary_present h, hadv]
  · rw [boundary_quiet (.inr h) (by omega), hadv]
    refine ⟨rfl, hadv ▸ mapperUpdate_vblank s.advanceLine, fun hc => ?_⟩
    rw [← hadv]
    exact mapperUpdate_outside s.advanceLine (.inr (by rw [advanceLine_line]; omega)) hc

/-! ### UNROM and CNROM -/

theorem prgBanks_16k (c : Cartridge) : c.prgBanks 16384 = c.prgCount := by
  unfold Cartridge.prgBanks; omega

theorem chrBanks_8k (c : Cartridge) : c.chrBanks 8192 = c.chrCount := by
  unfold Cartridge.chrBanks; omega

/-- Settles O54: the write is one copy into the lower PRG window, or into the pattern tables. -/
theorem latchMappersSwitchBanks : Obligations.LatchMappersSwitchBanks := by
  refine ⟨fun s l d a hm ha => ?_, fun s l d a hm ha => ?_⟩
  · rw [unrom_write s l hm ha]
    refine ⟨fun n => ?_, rfl⟩
    rw [copyPrg_read, prgBanks_16k, Nat.add_comm (n - 0x8000)]
  · rw [cnrom_write s l hm ha]
    refine ⟨fun n => ?_, copyChr_frame _ _ _ _⟩
    by_cases hc : s.cart.chrCount = 0
    · rw [if_neg (fun h => h.2 hc)]
      exact congrArg (Memory.read · n) ((banks_copyChr _ _ _ _ (by decide)).chrRam hc)
    · refine (copyChr_read { s with mapper := .cnrom d } _ _ _ n hc).trans ?_
      rw [chrBanks_8k, Nat.add_comm (n - 0)]
      simp [hc]

/-! ### MMC3 -/

/-- A write of MMC3's bank registers: the one register, then the layout (R531, R532). -/
theorem mmc3Write_bank (s : State) (r : Mmc3) (a : Word) (d : Byte) (ha : 0x8000 ≤ a.toNat)
    (hlt : a.toNat < 0xA000) :
    ∃ r' : Mmc3, s.mmc3Write r a d = (State.mmc3Prg { s with mapper := .mmc3 r' } r').mmc3Chr r'
      ∧ (a.toNat % 2 = 0 → r' = { r with bankSelect := d })
      ∧ (a.toNat % 2 = 1 → r' = { r with bankReg := r'.bankReg }
        ∧ ∀ j : Fin 8, r'.bankReg[j] = if j.val = r.bankSelect.toNat % 8 then d else r.bankReg[j]) := by
  unfold State.mmc3Write
  rw [mmc3Reg_low a ha hlt]
  rcases Nat.mod_two_eq_zero_or_one a.toNat with h | h
  · rw [if_pos h]
    exact ⟨_, rfl, fun _ => rfl, fun h' => by omega⟩
  · rw [if_neg (by omega)]
    refine ⟨_, rfl, fun h' => by omega, fun _ => ⟨rfl, fun j => ?_⟩⟩
    have hk : (r.bankSelect.extractLsb' 0 3).toNat = r.bankSelect.toNat % 8 := by simp
    simp only [Fin.getElem_fin, Vector.getElem_set, BitVec.val_toFin, hk, eq_comm]

/-- Settles O55: one register is written, then the layout copies the bank of every window. -/
theorem mmc3BanksFollowTheirRegisters : Obligations.Mmc3BanksFollowTheirRegisters := by
  intro s r a d hm ha hlt
  obtain ⟨r', hw, heven, hodd⟩ := mmc3Write_bank s r a d ha hlt
  rw [mmc3_write s r hm ha d, hw]
  set u : State := { s with mapper := .mmc3 r' } with hu
  have hbanks := mmc3_banksOnly u r'
  have hmem : ((u.mmc3Prg r').mmc3Chr r').mem = (u.mmc3Prg r').mem := by rw [mmc3Chr_frame]
  have hcart : (u.mmc3Prg r').cart = s.cart := by rw [mmc3Prg_frame]
  refine ⟨r', mmc3Layout_frame u r', heven, hodd, hbanks.mem, fun n hn => ?_, fun k i hk hi => ?_,
    fun k i hi hc => ?_⟩
  · rcases hn with hn | hc
    · exact hbanks.vram n hn
    · rw [hbanks.chrRam hc]
  · rw [hmem]
    exact mmc3Prg_windows u r' k i hk hi
  · have hwin := mmc3Chr_windows (u.mmc3Prg r') r' k i hi (by rw [hcart]; exact hc)
    rw [hcart] at hwin
    exact hwin

/-- Settles O56: the register by the range and the parity of the address. -/
theorem mmc3RegisterWrites : Obligations.Mmc3RegisterWrites := by
  intro s r a d hm ha
  rw [mmc3_write s r hm (by omega) d]
  unfold State.mmc3Write
  rw [mmc3Reg_eq a ha]
  refine ⟨fun h1 h2 h3 => ?_, fun h1 h2 h3 => ?_, fun h1 h2 => ?_, fun h1 h2 h3 => ?_,
    fun h1 h2 h3 => ?_, fun h1 h2 => ?_, fun h1 h2 => ?_⟩
  · simp only [if_pos h1, if_pos h2, State.forceMirroring, h3, Bool.false_eq_true, if_false]
  · simp only [if_pos h1, if_pos h2, State.forceMirroring, h3, if_true]
  · rw [if_pos h1, if_neg (by omega)]
  · rw [if_neg (by omega), if_pos h2, if_pos h3]
  · rw [if_neg (by omega), if_pos h2, if_neg (by omega)]
  · rw [if_neg (by omega), if_neg (by omega), if_pos h2]
  · rw [if_neg (by omega), if_neg (by omega), if_neg (by omega)]

/-- The clocked counter: the latch at zero or on request, else one less (R537). -/
theorem mmc3_clock_eq (r : Mmc3) :
    ∃ c : Byte, (c.toNat : Int) = (if r.irqCounter = 0 ∨ r.irqReload = true then (r.irqLatch.toNat : Int)
        else r.irqCounter.toNat - 1)
      ∧ r.clock = { r with irqCounter := c, irqReload := false } := by
  unfold Mmc3.clock
  split
  next h => exact ⟨r.irqLatch, rfl, rfl⟩
  next h =>
    obtain ⟨h0, hr⟩ := not_or.mp h
    have h1 : r.irqCounter.toNat ≠ 0 := fun e => h0 (BitVec.eq_of_toNat_eq e)
    refine ⟨r.irqCounter - 1, ?_, by rw [← Bool.eq_false_iff.mpr hr]⟩
    bv_omega

/-- Settles O57: the update is the clocked counter and its request, on the lines that clock it. -/
theorem mmc3CountsScanlines : Obligations.Mmc3CountsScanlines := by
  refine ⟨fun s r hm => ?_, fun s h => ?_⟩
  · have hclk : s.clocksCounter = true ↔ (s.ppu.mask.getLsbD 3 = true ∨ s.ppu.mask.getLsbD 4 = true)
        ∧ (s.cfg.mmc3CountInVblank = true ∨ 0 ≤ s.ppu.line ∧ s.ppu.line ≤ 240) := by
      simp [State.clocksCounter, Ppu.rendering]
    have hupd : s.mapperUpdate = if s.clocksCounter then
        if r.clock.irqCounter = 0 ∧ r.clock.irqEnabled then State.raiseIrq { s with mapper := .mmc3 r.clock }
        else { s with mapper := .mmc3 r.clock } else s := by
      unfold State.mapperUpdate
      rw [hm]
    refine ⟨fun hn => by rw [hupd, if_neg (fun h => hn (hclk.mp h))], fun hc => ?_⟩
    obtain ⟨c, hcount, hclock⟩ := mmc3_clock_eq r
    refine ⟨c, hcount, ?_⟩
    rw [hupd, if_pos (hclk.mpr hc), hclock]
  · unfold State.mapperUpdate
    cases hm : s.mapper
    case mmc3 r => exact absurd hm (h r)
    all_goals rfl

end Sys2Proof.Machine
end

section
/-! PROOFS. The statements of 45_ppu_render.md: what a rendered line changes (R451, R455, R456, R458, R466),
its colours and the sprite-0 hit (R457 to R471), the scroll counters (R465, R466) and the folds of video memory
(R479, R482). -/

namespace Sys2Proof.Machine

/-! ### The PPU after a line -/

/-- Settles O17. -/
theorem renderLineMovesTheScroll : Obligations.RenderLineMovesTheScroll := by
  intro p black line
  obtain ⟨hit, ovf, heq, hhit, hovf⟩ := renderLine_eq black p line
  exact ⟨hit, ovf, heq, hhit, hovf, length_renderLine black p line⟩

/-- Settles O18: the flag is set by a ninth of the covering sprites. -/
theorem spriteOverflowCountsNine : Obligations.SpriteOverflowCountsNine := by
  intro p black line
  have hflag : (p.renderLine black line).1.spriteOverflow
      = (p.spriteOverflow || decide (8 < ((p.reload line).covering line).length)) := by
    change ((p.reload line).spriteOverflow || _) = _
    rw [show (p.reload line).spriteOverflow = p.spriteOverflow by rw [reload_eq]]
    rfl
  rw [hflag, covering_eq, Bool.or_eq_true, decide_eq_true_eq]
  refine or_congr_right ?_
  by_cases hr : (p.mask.getLsbD 3 || p.mask.getLsbD 4) = true
  · rw [if_pos hr, Bool.or_eq_true] at *
    exact (and_iff_right hr).symm
  · rw [if_neg hr, Bool.or_eq_true] at *
    exact iff_of_false (by simp) (fun h => hr h.1)

/-! ### The layers of a line -/

theorem length_fill (p : Ppu) (black : Colour) : (p.fill black).length = 256 := List.length_replicate

theorem fill_getElem (p : Ppu) (black : Colour) {x : Nat} (h : x < 256) :
    (p.fill black)[x]? = some { colour := p.fillColour black, bgop := false, s0 := false } := by
  unfold Ppu.fill
  rw [List.getElem?_replicate, if_pos h]

theorem mem_fill {p : Ppu} {black : Colour} {c : Column} (h : c ∈ p.fill black) :
    c.bgop = false ∧ c.s0 = false := by
  obtain ⟨-, rfl⟩ := List.mem_replicate.mp h
  exact ⟨rfl, rfl⟩

/-- The background at a column is what step 5 draws there, if it is shown. -/
theorem backgroundAt_eq (p : Ppu) (x : Nat) :
    p.backgroundAt x = if p.mask.getLsbD 3 then p.walkPixel 0 p.v p.fineX x else none := by
  unfold Ppu.backgroundAt Ppu.walkPixel
  cases p.mask.getLsbD 3 <;> simp

/-- Step 5 draws the background over what stands in the row. -/
theorem background_colour (p : Ppu) (cols : List Column) (x : Nat) :
    colourAt (p.drawBackground cols).1 x
      = (colourAt cols x).map (fun c => (p.backgroundAt x).getD c) := by
  rw [backgroundAt_eq]
  unfold Ppu.drawBackground
  split
  · exact walk_colour p cols 0 p.v p.fineX x
  · simp

/-- Step 5 marks the columns where it draws. -/
theorem background_bgop (p : Ppu) (cols : List Column) (h : ∀ c ∈ cols, c.bgop = false) {x : Nat}
    (hx : x < cols.length) :
    ((p.drawBackground cols).1[x]?.map Column.bgop).getD false = (p.backgroundAt x).isSome := by
  have hc : cols[x]? = some cols[x] := List.getElem?_eq_getElem hx
  have hb : cols[x].bgop = false := h _ (List.getElem_mem hx)
  rw [backgroundAt_eq]
  unfold Ppu.drawBackground
  split
  · rw [walk_column, hc]
    cases p.walkPixel 0 p.v p.fineX x <;> simp [hb]
  · simp [hc, hb]

/-- Step 5 sets the sprite-0 flag where it draws over a column that step 4 marked. -/
theorem background_hit (p : Ppu) (cols : List Column) :
    (p.drawBackground cols).2 = true
      ↔ ∃ x, (cols[x]?.map (·.s0)).getD false = true ∧ (p.backgroundAt x).isSome = true ∧ x ≠ 255 := by
  simp only [backgroundAt_eq]
  unfold Ppu.drawBackground
  split
  · simpa only [Nat.zero_add] using walk_hit p cols 0 p.v p.fineX
  · simp

theorem renderLine_hit (black : Colour) (p : Ppu) (line : Int) :
    (p.renderLine black line).1.sprite0Hit
      = (p.sprite0Hit
        || ((p.reload line).drawFront line (((p.reload line).selected line).filter
            (fun i => !(p.reload line).isBehind i)).reverse
          ((p.reload line).drawBackground ((p.reload line).drawBehind line
            (((p.reload line).selected line).filter (p.reload line).isBehind).reverse
            ((p.reload line).fill black)))).2) := by
  change ((p.reload line).sprite0Hit || _) = _
  rw [show (p.reload line).sprite0Hit = p.sprite0Hit by rw [reload_eq]]

theorem mask_reload (p : Ppu) (line : Int) : (p.reload line).mask = p.mask := by rw [reload_eq]

/-- With a layer off sprite 0 never hits: nothing is drawn in front, or nothing is an opaque background
(R470). -/
theorem renderLine_hit_off (black : Colour) (p : Ppu) (line : Int)
    (h : p.mask.getLsbD 3 = false ∨ p.mask.getLsbD 4 = false) :
    (p.renderLine black line).1.sprite0Hit = p.sprite0Hit := by
  rw [renderLine_hit]
  rw [← mask_reload p line] at h
  generalize p.reload line = r at *
  rcases h with h | h
  · have hbg : ∀ cols, r.drawBackground cols = (cols, false) := fun cols => by
      rw [Ppu.drawBackground, h, if_neg Bool.false_ne_true]
    rw [hbg, front_nohit _ _ _ _ (.inl (behind_bgop _ _ _ _ fun c hc => (mem_fill hc).1)), Bool.or_false]
  · rw [front_nohit _ _ _ _ (.inr h), behind_off _ _ _ _ h]
    unfold Ppu.drawBackground
    split
    · rw [walk_nohit _ _ _ _ _ fun c hc => (mem_fill hc).2, Bool.or_false]
    · rw [Bool.or_false]

/-- Settles O19: with both layers off no sprite is selected, nothing is drawn over the fill, and v stays. -/
theorem layersThatAreOffShowNothing : Obligations.LayersThatAreOffShowNothing := by
  intro p black line
  refine ⟨fun h3 h4 => ?_, renderLine_hit_off black p line⟩
  have hr : p.rendering = false := by rw [Ppu.rendering, h3, h4]; rfl
  have hcov : p.covering line = [] := by rw [Ppu.covering, hr, if_neg Bool.false_ne_true]
  have hline : p.renderLine black line = (p, p.fill black) := by
    simp only [Ppu.renderLine, Ppu.reload, Ppu.selected, Ppu.overflows, Ppu.drawBackground,
      Ppu.drawBehind, Ppu.drawFront, hr, hcov, h3, List.take_nil, List.filter_nil, List.reverse_nil,
      List.length_nil, Nat.not_lt_zero, decide_false, Bool.or_false, Bool.false_eq_true, if_false]
  rw [hline, Ppu.fill, List.map_replicate, Ppu.fillColour, h3]
  exact ⟨rfl, rfl⟩

/-! ### Pixel priority -/

/-- The colour of a column of a rendered line, by priority (R461, R465, R469). -/
theorem renderLine_colour (black : Colour) (p : Ppu) (line : Int) {x : Nat} (hx : x < 256) :
    let r := p.reload line
    let sel := r.selected line
    ((p.renderLine black line).2.map (·.colour)).getD x 0
      = ((r.spriteAt line (sel.filter (fun i => !r.isBehind i)) x).or
          ((r.backgroundAt x).or (r.spriteAt line (sel.filter r.isBehind) x))).getD
        (r.fillColour black) := by
  intro r sel
  have hcol : colourAt (p.renderLine black line).2 x
      = some ((r.spriteAt line (sel.filter (fun i => !r.isBehind i)) x).getD
          ((r.backgroundAt x).getD ((r.spriteAt line (sel.filter r.isBehind) x).getD
            (r.fillColour black)))) := by
    change colourAt (r.drawFront line (sel.filter (fun i => !r.isBehind i)).reverse
      (r.drawBackground (r.drawBehind line (sel.filter r.isBehind).reverse (r.fill black)))).1 x = _
    rw [front_colour, background_colour, behind_colour, List.reverse_reverse, List.reverse_reverse,
      colourAt, fill_getElem r black hx]
    rfl
  rw [List.getD_eq_getElem?_getD, List.getElem?_map]
  change (colourAt (p.renderLine black line).2 x).getD 0 = _
  rw [hcol, Option.getD_some, Option.getD_or, Option.getD_or]

/-- The sprite-0 flag after a line: sprite 0, behind or in front, drawn where an opaque background is, but not
in the last column (R463, R470). -/
theorem renderLine_hit_iff (black : Colour) (p : Ppu) (line : Int) :
    let r := p.reload line
    (p.renderLine black line).1.sprite0Hit = true ↔ p.sprite0Hit = true
      ∨ ∃ x, x < 255 ∧ 0 ∈ r.selected line ∧ (r.spriteAt line [0] x).isSome = true
        ∧ (r.backgroundAt x).isSome = true := by
  intro r
  rw [renderLine_hit, Bool.or_eq_true]
  refine or_congr_right ?_
  change (r.drawFront line _ (r.drawBackground (r.drawBehind line _ (r.fill black)))).2 = true ↔ _
  set behind := (r.selected line).filter r.isBehind
  set cols := r.drawBehind line behind.reverse (r.fill black) with hcols
  have hlen : cols.length = 256 := by rw [hcols, length_drawBehind, length_fill]
  have hclear : ∀ c ∈ cols, c.bgop = false := behind_bgop _ _ _ _ fun c hc => (mem_fill hc).1
  have hs0 : ∀ x, (cols[x]?.map (·.s0)).getD false = true
      ↔ 0 ∈ behind ∧ x ∈ (r.spritePixels line 0).map (·.1) := by
    intro x
    rw [hcols, behind_s0]
    by_cases hx : x < 256
    · rw [fill_getElem r black hx]
      simp
    · have hnone : (r.fill black)[x]? = none := List.getElem?_eq_none (by rw [length_fill]; omega)
      rw [hnone]
      exact iff_of_false (by simp) (fun h => hx (pixels_lt r line 0 x h.2))
  rw [front_hit, background_hit]
  simp only [hs0, spriteAt_isSome, List.mem_reverse, List.mem_filter, behind]
  constructor
  · rintro (⟨x, ⟨⟨h0, -⟩, hpx⟩, hbg, hne⟩ | ⟨⟨h0, -⟩, x, hpx, hbg, hne⟩)
    · have := pixels_lt r line 0 x hpx
      exact ⟨x, by omega, h0, hpx, hbg⟩
    · have hlt := pixels_lt r line 0 x hpx
      rw [background_bgop r cols hclear (by omega)] at hbg
      exact ⟨x, by omega, h0, hpx, hbg⟩
  · rintro ⟨x, hx, h0, hpx, hbg⟩
    cases hb : r.isBehind 0
    · refine .inr ⟨⟨h0, by simp⟩, x, hpx, ?_, by omega⟩
      rw [background_bgop r cols hclear (by omega)]
      exact hbg
    · exact .inl ⟨x, ⟨⟨h0, rfl⟩, hpx⟩, hbg, by omega⟩

/-! ### The folds of video memory -/

/-- The fold of a pattern table is none (R479). -/
theorem vnorm_pattern (m : Mirroring) {a : VAddr} (h : a.toNat < 0x2000) : vnorm m a = a.toNat := by
  unfold vnorm
  simp only []
  rw [if_neg (by omega), if_neg (by omega)]

/-- The fold of a nametable is its offset in its physical table (R479). -/
theorem vnorm_nametable (m : Mirroring) {a : VAddr} (h : 0x2000 ≤ a.toNat) (h' : a.toNat < 0x3F00) :
    vnorm m a
      = 0x2000
        + (match m with
          | .horizontal => a.toNat / 0x800 % 2
          | .vertical => a.toNat / 0x400 % 2
          | .singleA => 0
          | .singleB => 1
          | .fourScreen => a.toNat / 0x400 % 4) * 0x400
        + a.toNat % 0x400 := by
  unfold vnorm
  simp only []
  rw [if_neg (by omega), if_pos h]
  cases m <;> simp only [physicalTable] <;> omega

/-- The fold of the palette is its 32 entries, four of which fold onto others (R479, R482). -/
theorem vnorm_palette (m : Mirroring) {a : VAddr} (h : 0x3F00 ≤ a.toNat) :
    vnorm m a = 0x3F00 + if a.toNat % 4 = 0 then a.toNat % 0x10 else a.toNat % 0x20 := by
  unfold vnorm palettePage
  simp only []
  rw [if_pos h]
  split <;> split <;> omega

/-- Settles O50: the listed addresses are cases of the fold of every address. -/
theorem paletteAndNametableFolds : Obligations.PaletteAndNametableFolds := by
  refine ⟨fun p v hw => ?_, ?_, rfl, rfl, rfl, rfl, rfl, rfl, rfl, rfl, rfl, fun m a =>
    ⟨vnorm_pattern m, vnorm_nametable m, vnorm_palette m⟩⟩
  · have h00 : vnorm p.mirroring 0x3F00 = 0x3F00 := vnorm_palette _ (by decide)
    have h10 : vnorm p.mirroring 0x3F10 = 0x3F00 := vnorm_palette _ (by decide)
    unfold Ppu.vramRead Ppu.vramWrite
    simp only [h00, h10]
    rw [read_write hw, if_pos rfl, if_pos (le_refl _)]
  · intro m
    refine ⟨vnorm_palette m (by decide), vnorm_palette m (by decide), vnorm_palette m (by decide),
      vnorm_palette m (by decide), vnorm_palette m (by decide), vnorm_palette m (by decide),
      vnorm_palette m (by decide), vnorm_palette m (by decide), vnorm_palette m (by decide), ?_, rfl⟩
    rw [vnorm_nametable m (by decide) (by decide), vnorm_nametable m (by decide) (by decide)]
    cases m <;> rfl

/-! ### The bytes behind a pixel -/

theorem patternBits_eq (lo hi : Byte) (bit : Nat) :
    patternBits lo hi bit = 2 * (hi.getLsbD bit).toNat + (lo.getLsbD bit).toNat := by
  rw [patternBits, Nat.mul_comm]

/-- The pattern row of a sprite, by its bytes: the vertical flip, and the two tiles of a tall sprite (R460). -/
theorem patternAddr_eq (p : Ppu) (line : Int) (i : Nat) :
    let tile := (p.oam.read (4 * i + 1)).toNat
    let height := if p.ctrl.getLsbD 5 then 16 else 8
    let r := (line - ((p.oam.read (4 * i)).toNat + 1)).toNat
    let r' := if (p.oam.read (4 * i + 2)).getLsbD 7 then height - 1 - r else r
    p.patternAddr line i
      = if p.ctrl.getLsbD 5 then
          tile % 2 * 0x1000 + tile / 2 * 32 + (if r' < 8 then r' else r' + 8)
        else (if p.ctrl.getLsbD 3 then 0x1000 else 0x0000) + tile * 16 + r' := by
  intro tile height r r'
  have hr : p.patternRow line i = r' := rfl
  have ht : (p.sprite i 1).toNat = tile := rfl
  unfold Ppu.patternAddr Ppu.sprHeight Ppu.sprBase
  simp only [hr, ht]
  cases p.ctrl.getLsbD 5
  · simp
  · simp
    split <;> split <;> omega

/-- The selected sprites by the bytes of sprite memory (R455). -/
theorem selected_eq (p : Ppu) (line : Int) :
    p.selected line
      = if p.mask.getLsbD 3 || p.mask.getLsbD 4 then
          ((List.range 64).filter (fun i => decide
            ((p.oam.read (4 * i)).toNat + 1 ≤ line
              ∧ line < (p.oam.read (4 * i)).toNat + 1
                + (if p.ctrl.getLsbD 5 then 16 else 8)))).take 8
        else [] := by
  have hcov : p.covering line = (p.reload line).covering line := by rw [reload_eq]; rfl
  rw [Ppu.selected, hcov, covering_eq]
  split <;> rfl

theorem fillColour_eq (p : Ppu) (black : Colour) :
    p.fillColour black = if p.mask.getLsbD 3 then (p.vram.read 0x3F00).setWidth 6 else black := by
  have h : vnorm p.mirroring 0x3F00 = 0x3F00 := vnorm_palette _ (by decide)
  rw [Ppu.fillColour, Ppu.colourAt, Ppu.vramRead, h]

/-- Settles O20: the colours and the hit layer by layer, and each layer by the bytes it is fetched from. -/
theorem pixelPriority : Obligations.PixelPriority := by
  refine ⟨fun p black line => ⟨fun x hx => renderLine_colour black p line hx, renderLine_hit_iff black p line⟩,
    fun p black line i => ⟨selected_eq p line, rfl, fillColour_eq p black, reload_eq p line⟩,
    fun p v px => ?_, fun p line i x => ?_⟩
  · have h := bgPixel_eq p v px
    simp only [patternBits_eq] at h
    exact h
  · intro y tile attr left h r r' row bit q hy hlt
    have hrow : p.spriteRow line i < p.sprHeight := by
      change line - (y + 1) < (h : Int)
      omega
    have hfind := spritePixels_find p line i x hrow
    simp only [patternBits_eq, patternAddr_eq p line i] at hfind
    exact hfind

/-! ### The scroll counters -/

/-- A word without its coarse Y field, and a coarse Y put in its place: their sum. -/
theorem toNat_putCoarseY (w c : Scroll) (hw : w.toNat < 4096) (hc : c.toNat < 32) :
    ((w &&& 0x7C1F#15) ||| (c <<< 5)).toNat = (w &&& 0x7C1F#15).toNat + 32 * c.toNat := by
  have hhigh : ∀ j, 5 ≤ j → c.getLsbD j = false := fun j hj =>
    Nat.testBit_lt_two_pow (hc.trans_le (Nat.pow_le_pow_right (by decide : 0 < 2) hj))
  have hdisj : (w &&& 0x7C1F#15) &&& (c <<< 5) = 0#15 := by
    apply BitVec.eq_of_getLsbD_eq
    intro j hj
    simp only [BitVec.getLsbD_and, BitVec.getLsbD_shiftLeft]
    rcases Nat.lt_or_ge j 10 with hlow | hlow
    · interval_cases j <;> simp
    · rw [hhigh (j - 5) (by omega), Bool.and_false, Bool.and_false,
        BitVec.getLsbD_zero]
  have hle : (w &&& 0x7C1F#15).toNat ≤ w.toNat := by
    rw [BitVec.toNat_and]; exact Nat.and_le_left
  rw [← BitVec.add_eq_or_of_and_eq_zero _ _ hdisj, BitVec.toNat_add, BitVec.toNat_shiftLeft,
    Nat.shiftLeft_eq]
  omega

/-- A word of 12 bits is itself with its own coarse Y. -/
theorem putCoarseY_self (v : Scroll) :
    let w := v &&& 0x0FFF
    (w &&& 0x7C1F#15) ||| ((w >>> 5 &&& 0x1F#15) <<< 5) = w := by
  apply BitVec.eq_of_getLsbD_eq
  intro j hj
  simp only [BitVec.getLsbD_or, BitVec.getLsbD_and, BitVec.getLsbD_shiftLeft, BitVec.getLsbD_ushiftRight]
  interval_cases j <;> simp

/-- Coarse Y steps to the next row of tiles (R466). -/
theorem coarseYStep_next {v : Scroll} (h29 : v.toNat / 32 % 32 ≠ 29) (h31 : v.toNat / 32 % 32 ≠ 31) :
    (coarseYStep v).toNat = v.toNat % 4096 + 32 := by
  have hcy := coarseY_toNat v
  have hw : (v &&& 0x0FFF).toNat = v.toNat % 4096 := by
    rw [BitVec.toNat_and]; exact Nat.and_two_pow_sub_one_eq_mod _ 12
  unfold coarseYStep
  simp only []
  rw [if_neg (fun h => h29 ((coarseY_eq v 29).mp h)), if_neg (fun h => h31 ((coarseY_eq v 31).mp h))]
  have hself := congrArg BitVec.toNat (putCoarseY_self v)
  generalize (v &&& 0x0FFF) >>> 5 &&& 0x1F#15 = c at *
  have hc1 : (c + 1).toNat = c.toNat + 1 := by rw [BitVec.toNat_add]; simp; omega
  rw [toNat_putCoarseY _ _ (by omega) (by omega)] at hself ⊢
  omega

/-- Settles O21: each branch of the counters is a carry into the field, or the field's wrap bit by bit. -/
theorem scrollCountersWrap : Obligations.ScrollCountersWrap := by
  intro v
  have hv := v.isLt
  have hfine : v.toNat / 4096 = 7 → advanceY v = coarseYStep v := fun h =>
    if_neg (fun h' => (fineY_ne_7 v).mp h' h)
  refine ⟨fun h => ?_, fun h j hj => ?_, fun h => ?_, fun h h29 h31 => ?_, fun h h29 j hj => ?_,
    fun h h31 j hj => ?_⟩
  · unfold incX
    rw [if_neg (fun h' => h ((coarseX_eq_31 v).mp h')), BitVec.toNat_add]
    simp
    omega
  · unfold incX
    rw [if_pos ((coarseX_eq_31 v).mpr h)]
    simp only [BitVec.getLsbD_xor, BitVec.getLsbD_and]
    interval_cases j <;> simp
  · unfold advanceY
    rw [if_pos ((fineY_ne_7 v).mpr h), BitVec.toNat_add]
    simp
    omega
  · rw [hfine h, coarseYStep_next h29 h31]
    omega
  · rw [hfine h]
    unfold coarseYStep
    simp only []
    rw [if_pos ((coarseY_eq v 29).mpr h29)]
    simp only [BitVec.getLsbD_xor, BitVec.getLsbD_and]
    interval_cases j <;> simp
  · rw [hfine h]
    unfold coarseYStep
    simp only []
    rw [if_neg (fun h' => by have := (coarseY_eq v 29).mp h'; rw [h31] at this; cases this),
      if_pos ((coarseY_eq v 31).mpr h31)]
    simp only [BitVec.getLsbD_and]
    interval_cases j <;> simp

end Sys2Proof.Machine
end

section
/-! PROOFS. The statements on operands (30_encoding.md R136 to R144, 20_memory.md R84, R87, R93) and those of
40_load_store_transfer.md: loads, stores, transfers and the stack (R200 to R216, R262 to R265). -/

namespace Sys2Proof.Machine

/-! ### Effective addresses and operand reads -/

/-- The zero-page pointer as a number: its second byte stays in the zero page (R143, R144). -/
theorem zeroPagePointer_toNat (s : State) (p : Byte) :
    (s.zeroPagePointer p).1.toNat
      = (s.mem.read p.toNat).toNat + 256 * (s.mem.read ((p.toNat + 1) % 256)).toNat := by
  rw [zeroPagePointer_eq, wordOf_toNat, BitVec.toNat_add]
  rfl

/-- An indexed address as a number, and when its page differs from its base's (R140, R141, R144). -/
theorem indexed_facts (s : State) (w : Word) (i : Byte) :
    (indexed s w i).ea.toNat = (w.toNat + i.toNat) % 65536
      ∧ ((indexed s w i).crossed = true ↔ w.toNat / 256 ≠ (w.toNat + i.toNat) % 65536 / 256) := by
  have hea : (w + zext16 i).toNat = (w.toNat + i.toNat) % 65536 := by
    rw [BitVec.toNat_add, zext16_toNat]
  refine ⟨hea, ?_⟩
  rw [indexed, pagesDiffer_eq, decide_eq_true_iff, hea]

/-- Settles O22: mode by mode; the pointers wrap in the zero page, and the high byte of (zp),Y's pointer is its
base's page. -/
theorem effectiveAddresses : Obligations.EffectiveAddresses := by
  intro s
  refine ⟨fun b => zext16_toNat b, fun b => ?_, fun b => ?_, fun _ => rfl,
    fun w => (indexed_facts s w s.x).1, fun w => (indexed_facts s w s.y).1, fun b => ?_, fun b => ?_,
    fun w => (indexed_facts s w s.x).2, fun w => (indexed_facts s w s.y).2, fun b => ?_, resolve_s s⟩
  · exact (zext16_toNat _).trans (BitVec.toNat_add b s.x)
  · exact (zext16_toNat _).trans (BitVec.toNat_add b s.y)
  · have h := zeroPagePointer_toNat s (b + s.x)
    rw [BitVec.toNat_add, Nat.mod_add_mod] at h
    exact h
  · have h := (indexed_facts (s.zeroPagePointer b).2 (s.zeroPagePointer b).1 s.y).1
    rw [zeroPagePointer_toNat] at h
    exact h
  · obtain ⟨hea, hcross⟩ := indexed_facts (s.zeroPagePointer b).2 (s.zeroPagePointer b).1 s.y
    have hpage : (s.zeroPagePointer b).1.toNat / 256 = (s.mem.read ((b.toNat + 1) % 256)).toNat := by
      have := (s.mem.read b.toNat).isLt
      rw [zeroPagePointer_toNat]
      omega
    rw [hpage, ← hea] at hcross
    exact hcross

/-- Settles O23: an operand read is no read or one bus read, whose frame is that of a device read. -/
theorem operandReadFrame : Obligations.OperandReadFrame := by
  intro s
  have hplain : ∀ a, plainAddr (s.resolve a).ea = true →
      s.readAddr a = { m := s.byteAt (s.resolve a).ea, ea := (s.resolve a).ea
                       crossed := (s.resolve a).crossed, s := s } := fun a h => by
    rw [readAddr_eq, memRead_plain s h]
  refine ⟨fun b => ⟨rfl, rfl⟩, fun a h => ?_, fun a => by rw [readAddr_eq], fun o => ?_,
    fun a h1 h2 h => memRead_writeOnly s h1 h2 (by omega), fun a h1 h2 => memRead_apu s h1 h2⟩
  · rw [readSrc_mem, hplain a h]
    exact ⟨rfl, rfl⟩
  · cases o with
    | imm b => exact ⟨s.ppu.vblank, s.ppu.w, s.ppu.v, s.ppu.readBuffer, s.pad0.count, s.pad1.count, rfl⟩
    | mem a =>
      rw [readSrc_mem, readAddr_eq]
      exact memRead_frame s _

/-! ### Loads and stores -/

/-- N and Z of a result look at nothing else of the state than P. -/
theorem nzP_congr {s t : State} (h : t.p = s.p) (r : Byte) : nzP t r = nzP s r := by
  simp only [nzP, State.flag, h]

/-- A load: the register, N and Z, PC and the cost (R201 to R203). -/
theorem load_eq (s : State) (o : Src) (put : State → Byte → State)
    (hp : ∀ t v, (put t v).p = t.p) (hpc : ∀ t v, (put t v).pc = t.pc)
    (hcyc : ∀ t v, (put t v).cyc = t.cyc) :
    s.load o put
      = { put (s.readSrc o).s (s.readSrc o).m with
          p := nzP s (s.readSrc o).m
          pc := s.pc + BitVec.ofNat 16 (modeSize o.mode)
          cyc := s.cyc + readCost o.mode (s.readSrc o).crossed } := by
  have hnz := nzP_congr ((hp (s.readSrc o).s (s.readSrc o).m).trans (readSrc_s_p s o)) (s.readSrc o).m
  simp only [State.load, setNZ_eq, State.withP, State.finish, hnz, hpc, hcyc, readSrc_s_pc, readSrc_s_cyc]

/-- Settles O24: LAX too is a load, of two registers. -/
theorem loadsWriteTheirRegister : Obligations.LoadsWriteTheirRegister := by
  refine ⟨fun s o => ⟨?_, ?_, ?_⟩, fun s a => ?_⟩
  · exact congrArg Host.Outcome.next (load_eq s o (fun t v => { t with a := v })
      (fun _ _ => rfl) (fun _ _ => rfl) (fun _ _ => rfl))
  · exact congrArg Host.Outcome.next (load_eq s o (fun t v => { t with x := v })
      (fun _ _ => rfl) (fun _ _ => rfl) (fun _ _ => rfl))
  · exact congrArg Host.Outcome.next (load_eq s o (fun t v => { t with y := v })
      (fun _ _ => rfl) (fun _ _ => rfl) (fun _ _ => rfl))
  · exact congrArg Host.Outcome.next (load_eq s (.mem a) (fun t v => { t with a := v, x := v })
      (fun _ _ => rfl) (fun _ _ => rfl) (fun _ _ => rfl))

/-- A store is one bus write at the effective address, PC and the cost (R204 to R206). -/
theorem storeReg_eq (s : State) (a : Addr) (v : Byte) :
    s.storeReg a v
      = { s.memWrite (s.resolve a).ea v with
          pc := s.pc + BitVec.ofNat 16 (modeSize a.mode)
          cyc := (s.memWrite (s.resolve a).ea v).cyc + writeCost a.mode } := by
  simp only [State.storeReg, State.finish, resolve_s, memWrite_pc]

/-- Settles O25: each store is that write, which below the ROM window changes at most its byte and from there
on nothing below. -/
theorem storesWriteTheirByte : Obligations.StoresWriteTheirByte := by
  refine ⟨fun s a => ⟨congrArg _ (storeReg_eq s a s.a), congrArg _ (storeReg_eq s a s.x),
    congrArg _ (storeReg_eq s a s.y), congrArg _ (storeReg_eq s a (s.a &&& s.x))⟩,
    fun s a v hw => ⟨memWrite_keeps s _ v, fun h => ?_, fun h n hn => memWrite_other s hw h v hn,
      fun h n hn => memWrite_below s h v hn⟩⟩
  rw [memWrite_store s h]
  exact (read_write hw _ _ _).trans (if_pos rfl)

/-! ### Registers -/

/-- A register write with N and Z, one byte long (R207 to R211, R262 to R265). -/
theorem setNZ_finish {s t : State} (h : t.p = s.p) (r : Byte) (size cost : Nat) :
    (t.setNZ r).finish size cost
      = { t with p := nzP s r, pc := t.pc + BitVec.ofNat 16 size, cyc := t.cyc + cost } := by
  rw [setNZ_eq, nzP_congr h]
  rfl

/-- Settles O26: TXS apart, each is a register write with N and Z. -/
theorem registerInstructions : Obligations.RegisterInstructions := by
  intro s
  have next : ∀ {t : State} (r : Byte), t.p = s.p →
      Host.Outcome.next ((t.setNZ r).finish 1 2)
        = (.next { t with p := nzP s r, pc := t.pc + 1, cyc := t.cyc + 2 } :
            Host.Outcome State Fault Refusal) :=
    fun r h => congrArg _ (setNZ_finish h r 1 2)
  exact ⟨next s.a rfl, next s.a rfl, next s.x rfl, next s.y rfl, next s.sp rfl, rfl,
    ⟨s.x + 1, BitVec.toNat_add _ _, next _ rfl⟩, ⟨s.y + 1, BitVec.toNat_add _ _, next _ rfl⟩,
    ⟨s.x - 1, by bv_omega, next _ rfl⟩, ⟨s.y - 1, by bv_omega, next _ rfl⟩⟩

/-! ### The stack -/

/-- A push, then PC and the cost (R213, R214). -/
theorem push_finish (s : State) (v : Byte) (hw : s.mem.wf) :
    let t := (s.push v).finish 1 3
    (∀ n, t.mem.read n = if n = stackSlot s.sp 0 then v else s.mem.read n)
      ∧ t = { s with mem := t.mem, sp := s.sp - 1, pc := s.pc + 1, cyc := s.cyc + 3 } := by
  rw [push_eq]
  refine ⟨fun n => ?_, rfl⟩
  change Memory.read (s.mem.write (0x100 + s.sp.toNat) v) n = _
  rw [read_write hw, stackSlot_zero]
  simp only [eq_comm]

/-- The byte a pull gives, by its address (R215, R216). -/
theorem pull_slot (s : State) : 0x100 + (s.sp + 1).toNat = 0x100 + (s.sp.toNat + 1) % 256 := by
  rw [BitVec.toNat_add]; rfl

theorem exec_pla (s : State) :
    exec .pla s = .next { s with
      a := s.mem.read (0x100 + (s.sp + 1).toNat), p := nzP s (s.mem.read (0x100 + (s.sp + 1).toNat))
      sp := s.sp + 1, pc := s.pc + 1, cyc := s.cyc + 4 } := by
  change execPla s = _
  unfold execPla
  rw [pull_eq]
  exact congrArg _ (setNZ_finish rfl _ 1 4)

theorem exec_plp (s : State) :
    exec .plp s = .next { s with
      p := s.mem.read (0x100 + (s.sp + 1).toNat) ||| 0x20
      sp := s.sp + 1, pc := s.pc + 1, cyc := s.cyc + 4 } := by
  change execPlp s = _
  unfold execPlp
  rw [pull_eq]
  rfl

/-- Settles O27: a push writes one slot of page 1, a pull reads one. -/
theorem stackInstructions : Obligations.StackInstructions := by
  intro s hw
  refine ⟨⟨_, rfl, push_finish s s.a hw⟩, ⟨_, rfl, push_finish s (s.p ||| 0x30) hw⟩, _, rfl, ?_⟩
  rw [← pull_slot]
  exact ⟨exec_pla s, exec_plp s⟩

/-- After a push the slot that a pull reads holds the byte, and S comes back (R23). -/
theorem pull_of_push {s t : State} {v : Byte}
    (hmem : ∀ n, t.mem.read n = if n = stackSlot s.sp 0 then v else s.mem.read n)
    (hsp : t.sp = s.sp - 1) : t.sp + 1 = s.sp ∧ t.mem.read (0x100 + (t.sp + 1).toNat) = v := by
  have h : t.sp + 1 = s.sp := by rw [hsp, BitVec.sub_add_cancel]
  rw [h, hmem, stackSlot_zero, if_pos rfl]
  exact ⟨rfl, rfl⟩

/-- The pushed status byte, bit 5 and B forced, is the flags with B set (R214, R216). -/
theorem pushedStatus_eq (s : State) :
    (s.p ||| 0x30) ||| 0x20
      = packP (s.flag .n) (s.flag .v) true (s.flag .d) (s.flag .i) (s.flag .z) (s.flag .c) := by
  have h : ((s.p ||| 0x30) ||| 0x20 : Byte) = forceBit5 (s.p ||| 0x30) := rfl
  rw [h, forceBit5_eq_packP]
  simp [flagOf, State.flag, Flag.bit]

/-- Settles O28: a pull after a push reads the slot the push wrote. -/
theorem stackRoundTrip : Obligations.StackRoundTrip := by
  intro s hw
  constructor
  · obtain ⟨hmem, ht⟩ := push_finish s s.a hw
    obtain ⟨hsp, hv⟩ := pull_of_push hmem (by rw [ht])
    exact ⟨_, _, rfl, exec_pla _, hv, hsp⟩
  · obtain ⟨hmem, ht⟩ := push_finish s (s.p ||| 0x30) hw
    obtain ⟨hsp, hv⟩ := pull_of_push hmem (by rw [ht])
    refine ⟨_, _, rfl, exec_plp _, hsp, ?_⟩
    rw [← pushedStatus_eq]
    exact congrArg (· ||| 0x20) hv

end Sys2Proof.Machine
end

section
/-! PROOFS. The statements of 41_arithmetic_logic.md: ADC, SBC, logic, compares, BIT, INC and DEC, shifts (R250
to R269, R363). -/

namespace Sys2Proof.Machine

/-! ### Addition and subtraction -/

/-- ADC, with the operand's read (R251). -/
theorem exec_adc (s : State) (o : Src) :
    exec (.adc o) s
      = .next (let q := s.readSrc o
        let u := addWithCarry s.a q.m (s.flag .c)
        { q.s with
          a := u.r, p := nvzcP s u.r u.v u.c
          pc := s.pc + BitVec.ofNat 16 (modeSize o.mode)
          cyc := s.cyc + readCost o.mode q.crossed }) := by
  change execAdc o s = _
  simp only [execAdc, addA_eq, State.finish, readSrc_s_a, readSrc_s_flag, nvzcP_readSrc, readSrc_s_pc,
    readSrc_s_cyc]

/-- SBC, with the operand's read (R252). -/
theorem exec_sbc (s : State) (o : Src) :
    exec (.sbc o) s
      = .next (let q := s.readSrc o
        let u := subWithCarry s.a q.m (s.flag .c)
        { q.s with
          a := u.r, p := nvzcP s u.r u.v u.c
          pc := s.pc + BitVec.ofNat 16 (modeSize o.mode)
          cyc := s.cyc + readCost o.mode q.crossed }) := by
  change execSbc o s = _
  simp only [execSbc, subA_eq, State.finish, readSrc_s_a, readSrc_s_flag, nvzcP_readSrc, readSrc_s_pc,
    readSrc_s_cyc]

/-- Settles O29. -/
theorem adcIsTheExactSum : Obligations.AdcIsTheExactSum :=
  fun s o => ⟨_, _, _, exec_adc s o, addWithCarry_exact _ _ _, addWithCarry_overflow _ _ _⟩

/-- Settles O30: the duplicate is SBC of the immediate byte, by definition. -/
theorem sbcIsTheExactDifference : Obligations.SbcIsTheExactDifference :=
  ⟨fun s o => ⟨_, _, _, exec_sbc s o, subWithCarry_exact _ _ _⟩, fun _ _ => rfl⟩

/-! ### Logic, compares and BIT -/

/-- A logic operation on A (R253 to R255). -/
theorem logic_eq (s : State) (o : Src) (f : Byte → Byte → Byte) :
    s.logic o f
      = (let q := s.readSrc o
        { q.s with
          a := f s.a q.m, p := nzP s (f s.a q.m)
          pc := s.pc + BitVec.ofNat 16 (modeSize o.mode)
          cyc := s.cyc + readCost o.mode q.crossed }) := by
  have h := setNZ_finish (t := { (s.readSrc o).s with a := f s.a (s.readSrc o).m }) (readSrc_s_p s o)
    (f s.a (s.readSrc o).m) (modeSize o.mode) (readCost o.mode (s.readSrc o).crossed)
  simp only [readSrc_s_pc, readSrc_s_cyc] at h
  simpa only [State.logic, readSrc_s_a, readSrc_s_pc, readSrc_s_cyc] using h

/-- Settles O31. -/
theorem logicOnA : Obligations.LogicOnA :=
  fun s o => ⟨congrArg _ (logic_eq s o (fun a m => a &&& m)), congrArg _ (logic_eq s o (fun a m => a ||| m)),
    congrArg _ (logic_eq s o (fun a m => a ^^^ m))⟩

/-- A compare of a register: N by bit 7 of the difference, Z by equality, C by order (R256). -/
theorem compareReg_eq (s : State) (o : Src) (reg : Byte) :
    s.compareReg o reg
      = (let q := s.readSrc o
        { q.s with
          p := packP (decide (128 ≤ (reg.toNat + 256 - q.m.toNat) % 256)) (s.flag .v) (s.flag .b)
            (s.flag .d) (s.flag .i) (decide (reg = q.m)) (decide (q.m.toNat ≤ reg.toNat))
          pc := s.pc + BitVec.ofNat 16 (modeSize o.mode)
          cyc := s.cyc + readCost o.mode q.crossed }) := by
  simp only [State.compareReg, compare_eq, State.withP, State.finish, readSrc_s_flag, readSrc_s_pc,
    readSrc_s_cyc, nzcP, sub_sign, sub_eq_zero_decide]

/-- Settles O32. -/
theorem comparesAreUnsigned : Obligations.ComparesAreUnsigned :=
  fun s o => ⟨congrArg _ (compareReg_eq s o s.a), congrArg _ (compareReg_eq s o s.x),
    congrArg _ (compareReg_eq s o s.y)⟩

/-- Settles O33: the three flag writes are one replacement of P. -/
theorem bitTestsMemory : Obligations.BitTestsMemory := by
  intro s a
  have hp : ((((s.readAddr a).s.setFlag .z (decide (s.a &&& (s.readAddr a).m = 0))).setFlag .n
        ((s.readAddr a).m.getLsbD 7)).setFlag .v ((s.readAddr a).m.getLsbD 6)).p
      = packP ((s.readAddr a).m.getLsbD 7) ((s.readAddr a).m.getLsbD 6) (s.flag .b) (s.flag .d)
        (s.flag .i) (decide (s.a &&& (s.readAddr a).m = 0)) (s.flag .c) := by
    rw [setFlag_p_eq]
    simp
  change execBit a s = _
  simp only [execBit, State.finish, readAddr_s_a, hp]
  simp

/-! ### Memory operands that are read and written -/

/-- Settles O34. -/
theorem incDecMemory : Obligations.IncDecMemory := by
  intro s a
  exact ⟨⟨(s.readAddr a).m + 1, BitVec.toNat_add _ _, congrArg Host.Outcome.next (stepMemory_eq s a 1)⟩,
    ⟨(s.readAddr a).m + 0xFF, BitVec.toNat_add _ _, congrArg Host.Outcome.next (stepMemory_eq s a 0xFF)⟩,
    fun hw hs r n => readAddr_write_read s a hw hs r n⟩

/-- The shift of a destination with its result and its carry as numbers (R266 to R269). -/
theorem exec_shift_acc {s : State} {i : Instr} {k : Shift} {c : Bool} (h : exec i s = .next (s.shift k .acc))
    (hc : (shiftResult k s.a (s.flag .c)).2 = c) :
    exec i s = .next { s with
      a := (shiftResult k s.a (s.flag .c)).1, p := nzcP s (shiftResult k s.a (s.flag .c)).1 c
      pc := s.pc + 1, cyc := s.cyc + 2 } := by
  rw [h, shift_acc_eq, ← hc]

theorem exec_shift_mem {s : State} {i : Instr} {k : Shift} {a : Addr} {c : Bool}
    (h : exec i s = .next (s.shift k (.mem a)))
    (hc : (shiftResult k (s.readAddr a).m (s.flag .c)).2 = c) :
    exec i s = .next (let r := (shiftResult k (s.readAddr a).m (s.flag .c)).1
      let w := (s.readAddr a).s.memWrite (s.resolve a).ea r
      { w with
        p := nzcP s r c
        pc := s.pc + BitVec.ofNat 16 (modeSize a.mode), cyc := w.cyc + rmwCost a.mode }) := by
  rw [h, shift_mem_eq, ← hc]

/-- Settles O35. -/
theorem shiftsOfA : Obligations.ShiftsOfA := by
  intro s
  obtain ⟨asl, aslC⟩ := shiftResult_asl s.a (s.flag .c)
  obtain ⟨lsr, lsrC⟩ := shiftResult_lsr s.a (s.flag .c)
  obtain ⟨rol, rolC⟩ := shiftResult_rol s.a (s.flag .c)
  obtain ⟨ror, rorC⟩ := shiftResult_ror s.a (s.flag .c)
  exact ⟨⟨_, asl, exec_shift_acc rfl aslC⟩, ⟨_, lsr, exec_shift_acc rfl lsrC⟩,
    ⟨_, rol, exec_shift_acc rfl rolC⟩, ⟨_, ror, exec_shift_acc rfl rorC⟩⟩

/-- Settles O36. -/
theorem shiftsOfMemory : Obligations.ShiftsOfMemory := by
  intro s a
  obtain ⟨asl, aslC⟩ := shiftResult_asl (s.readAddr a).m (s.flag .c)
  obtain ⟨lsr, lsrC⟩ := shiftResult_lsr (s.readAddr a).m (s.flag .c)
  obtain ⟨rol, rolC⟩ := shiftResult_rol (s.readAddr a).m (s.flag .c)
  obtain ⟨ror, rorC⟩ := shiftResult_ror (s.readAddr a).m (s.flag .c)
  exact ⟨⟨_, asl, exec_shift_mem rfl aslC⟩, ⟨_, lsr, exec_shift_mem rfl lsrC⟩,
    ⟨_, rol, exec_shift_mem rfl rolC⟩, ⟨_, ror, exec_shift_mem rfl rorC⟩,
    fun hw hs r _ n => readAddr_write_read s a hw hs r n⟩

end Sys2Proof.Machine
end

section
/-! PROOFS. The statements of 42_control_flow_flags.md: jumps, subroutines, branches, the flag instructions and
NOP (R300 to R322), with the undocumented NOPs (R364 to R366). -/

namespace Sys2Proof.Machine

/-! ### Jumps and subroutines -/

theorem exec_jmp_ind (s : State) (ptr : Word) :
    exec (.jmp (.ind ptr)) s
      = .next (let l := s.memRead ptr
        let h := l.2.memRead (BitVec.ofNat 16 (ptr.toNat / 256 * 256 + (ptr.toNat + 1) % 256))
        { h.2 with pc := wordOf h.1 l.1, cyc := s.cyc + 5 }) := by
  change execJmp (.ind ptr) s = _
  simp only [execJmp, State.jumpTarget, State.transfer, jumpCost, samePageNext_eq, memRead_cyc]

/-- Settles O37: the spec's example reads its pointer from 0x02FF and 0x0200, both in the internal RAM. -/
theorem jumpTargets : Obligations.JumpTargets := by
  refine ⟨fun _ _ => rfl, exec_jmp_ind, fun s hl hh => ?_⟩
  have low : s.memRead 0x02FF = (0x80, s) :=
    (memRead_ram s (by decide)).trans (congrArg (·, s) hl)
  have high : s.memRead 0x0200 = (0x50, s) :=
    (memRead_ram s (by decide)).trans (congrArg (·, s) hh)
  have h := exec_jmp_ind s 0x02FF
  rw [low] at h
  dsimp only at h
  rw [show BitVec.ofNat 16 ((0x02FF : Word).toNat / 256 * 256 + ((0x02FF : Word).toNat + 1) % 256)
    = 0x0200 from rfl, high] at h
  dsimp only at h
  rwa [show wordOf 0x50 0x80 = 0x5080 from rfl] at h

/-- JSR: the two pushed bytes and everything else (R300, R302). -/
theorem exec_jsr (s : State) (w : Word) (hw : s.mem.wf) :
    ∃ t, exec (.jsr w) s = .next t
      ∧ (∀ n, t.mem.read n = if n = stackSlot s.sp 0 then hiByte (s.pc + 2)
          else if n = stackSlot s.sp 1 then loByte (s.pc + 2) else s.mem.read n)
      ∧ t = { s with mem := t.mem, sp := s.sp - 2, pc := w, cyc := s.cyc + 6 } := by
  refine ⟨_, rfl, ?_⟩
  rw [pushWord_eq]
  refine ⟨fun n => ?_, rfl⟩
  have hne := stackSlot_ne s.sp (j := 0) (k := 1) (by decide)
  rw [← stackSlot_zero]
  change Memory.read ((s.mem.write (stackSlot s.sp 0) _).write (stackSlot s.sp 1) _) n = _
  rw [read_write (wf_write hw _ _), read_write hw]
  by_cases h0 : n = stackSlot s.sp 0
  · rw [if_pos h0, if_neg (by omega), if_pos h0.symm]
  · by_cases h1 : n = stackSlot s.sp 1
    · rw [if_neg h0, if_pos h1, if_pos h1.symm]
    · rw [if_neg h0, if_neg h1, if_neg (Ne.symm h1), if_neg (Ne.symm h0)]

theorem exec_rts (s : State) :
    exec .rts s = .next { s with
      pc := wordOf (s.mem.read (0x100 + (s.sp + 2).toNat)) (s.mem.read (0x100 + (s.sp + 1).toNat)) + 1
      sp := s.sp + 2
      cyc := s.cyc + 6 } := by
  change execRts s = _
  simp only [execRts, pullWord_eq, State.transfer]

/-- Settles O38: RTS reads the two slots that JSR wrote. -/
theorem subroutineCallAndReturn : Obligations.SubroutineCallAndReturn := by
  refine ⟨exec_jsr, exec_rts, fun s w hw => ?_⟩
  obtain ⟨t, ht, hmem, heq⟩ := exec_jsr s w hw
  have hsp : t.sp = s.sp - 2 := by rw [heq]
  have hne := stackSlot_ne s.sp (j := 0) (k := 1) (by decide)
  have slot0 : 0x100 + (t.sp + 2).toNat = stackSlot s.sp 0 := by
    rw [hsp, BitVec.sub_add_cancel, stackSlot_zero]
  have slot1 : 0x100 + (t.sp + 1).toNat = stackSlot s.sp 1 := by
    rw [hsp, stackSlot]
    congr 2
    bv_omega
  refine ⟨t, _, ht, exec_rts t, ?_, ?_⟩
  · dsimp only
    rw [slot0, slot1, hmem, hmem, if_pos rfl, if_neg hne.symm, if_pos rfl, wordOf_hi_lo, BitVec.add_assoc]
    rfl
  · dsimp only
    rw [hsp, BitVec.sub_add_cancel]

/-! ### Branches -/

/-- A branch by its condition (R148, R306). -/
theorem branch_eq (s : State) (c : Bool) (d : Byte) :
    s.branch c d
      = if c then
          { s with
            pc := branchTarget s.pc d
            cyc := s.cyc + 3
              + (if (s.pc + 2).toNat / 256 ≠ (branchTarget s.pc d).toNat / 256 then 1 else 0) }
        else { s with pc := s.pc + 2, cyc := s.cyc + 2 } := by
  simp only [State.branch, pagesDiffer_eq, pageCost, State.transfer, decide_eq_true_eq, Nat.add_assoc]

/-- Settles O39. -/
theorem branchesFollowTheirFlag : Obligations.BranchesFollowTheirFlag := by
  intro s d
  have next : ∀ c, Host.Outcome.next (s.branch c d) = (.next _ : Host.Outcome State Fault Refusal) :=
    fun c => congrArg Host.Outcome.next (branch_eq s c d)
  exact ⟨branchTarget s.pc d, branchTarget_toNat s.pc d, next _, next _, next _, next _, next _, next _,
    next _, next _⟩

/-! ### Flags and no operations -/

/-- Settles O40: one flag written through `setFlag`, which forces bit 5. -/
theorem flagInstructions : Obligations.FlagInstructions := by
  intro s
  have next : ∀ f v, Host.Outcome.next ((s.setFlag f v).finish 1 2)
      = (.next { s with p := (s.setFlag f v).p, pc := s.pc + 1, cyc := s.cyc + 2 } :
          Host.Outcome State Fault Refusal) := fun _ _ => rfl
  refine ⟨(next .c false).trans ?_, (next .c true).trans ?_, (next .i false).trans ?_,
    (next .i true).trans ?_, (next .v false).trans ?_, (next .d false).trans ?_,
    (next .d true).trans ?_⟩ <;> rw [setFlag_p_eq] <;> rfl

/-- DOP reads an immediate byte or the zero page: no side effect, and no page crossed (R365). -/
theorem readSrc_dop {op : Byte} {o : Src} (s : State) (h : (Instr.dop op o).wellFormed = true) :
    (s.readSrc o).s = s ∧ (s.readSrc o).crossed = false ∧ modeSize o.mode = 2 := by
  have hzp : ∀ b : Byte, (s.memRead (zext16 b)).2 = s := fun b => by
    rw [memRead_plain s (plainAddr_of_ram (zext16_ram b))]
  cases o with
  | imm b => exact ⟨rfl, rfl, rfl⟩
  | mem a =>
    cases a with
    | zp b => exact ⟨hzp b, rfl, rfl⟩
    | zpx b => exact ⟨hzp _, rfl, rfl⟩
    | zpy _ | abs _ | abx _ | aby _ | izx _ | izy _ => cases h

/-- TOP is three bytes long (R366). -/
theorem modeSize_top {op : Byte} {a : Addr} (h : (Instr.top op a).wellFormed = true) :
    modeSize a.mode = 3 := by
  cases a with
  | abs _ | abx _ => rfl
  | zp _ | zpx _ | zpy _ | aby _ | izx _ | izy _ => cases h

/-- Settles O41. -/
theorem noOperations : Obligations.NoOperations := by
  refine ⟨fun _ _ => ⟨rfl, rfl⟩, fun s op o h => ?_, fun s op a h => ?_⟩
  · obtain ⟨hs, hcross, hsize⟩ := readSrc_dop s h
    change execDop op o s = _
    simp only [execDop, hs, hcross, hsize]
    rfl
  · change execTop op a s = _
    simp only [execTop, readAddr_eq, modeSize_top h, State.finish, memRead_pc, memRead_cyc]
    rfl

end Sys2Proof.Machine
end

section
/-! PROOFS. The statements of 43_undocumented.md on the combined and the immediate instructions (R351 to R354,
R357 to R362). -/

namespace Sys2Proof.Machine

/-! ### Shifts combined with A -/

/-- A shift of memory combined with a logic operation, with its carry as a number (R351 to R353). -/
theorem exec_shiftThenLogic {s : State} {i : Instr} {k : Shift} {a : Addr} {f : Byte → Byte → Byte} {c : Bool}
    (h : exec i s = .next (s.shiftThenLogic k a f))
    (hc : (shiftResult k (s.readAddr a).m (s.flag .c)).2 = c) :
    exec i s = .next (let r := (shiftResult k (s.readAddr a).m (s.flag .c)).1
      let w := (s.readAddr a).s.memWrite (s.resolve a).ea r
      { w with
        a := f s.a r, p := nzcP s (f s.a r) c
        pc := s.pc + BitVec.ofNat 16 (modeSize a.mode), cyc := w.cyc + rmwCost a.mode }) := by
  rw [h, shiftThenLogic_eq, ← hc]

theorem nvzcP_setFlag_c (s : State) (c : Bool) (r : Byte) (v c' : Bool) :
    nvzcP (s.setFlag .c c) r v c' = nvzcP s r v c' := by
  simp [nvzcP]

/-- RRA: the rotated byte written, then added to A with the carry it left (R354). -/
theorem exec_rra (s : State) (a : Addr) {c : Bool}
    (hc : (shiftResult .ror (s.readAddr a).m (s.flag .c)).2 = c) :
    exec (.rra a) s
      = .next (let r := (shiftResult .ror (s.readAddr a).m (s.flag .c)).1
        let u := addWithCarry s.a r c
        let w := (s.readAddr a).s.memWrite (s.resolve a).ea r
        { w with
          a := u.r, p := nvzcP s u.r u.v u.c
          pc := s.pc + BitVec.ofNat 16 (modeSize a.mode), cyc := w.cyc + rmwCost a.mode }) := by
  change execRra a s = _
  simp only [execRra, readAddr_ea, readAddr_s_flag, hc, addA_eq, memWrite_a, setFlag_a, readAddr_s_a,
    memWrite_flag, setFlag_flag, if_true, nvzcP_memWrite, nvzcP_setFlag_c, nvzcP_readAddr, State.finish,
    memWrite_pc, setFlag_pc, readAddr_s_pc]
  rw [setFlag_readAddr]
  rfl

/-- The carry of a rotate right is the byte's lowest bit, as a number. -/
theorem decide_odd_toNat (m : Nat) : (decide (m % 2 = 1)).toNat = m % 2 := by
  rcases Nat.mod_two_eq_zero_or_one m with h | h <;> rw [h] <;> rfl

/-- Settles O42: each is the shift of memory, and RRA's addition takes the carry the rotate left. -/
theorem undocumentedShifts : Obligations.UndocumentedShifts := by
  intro s a
  obtain ⟨asl, aslC⟩ := shiftResult_asl (s.readAddr a).m (s.flag .c)
  obtain ⟨lsr, lsrC⟩ := shiftResult_lsr (s.readAddr a).m (s.flag .c)
  obtain ⟨rol, rolC⟩ := shiftResult_rol (s.readAddr a).m (s.flag .c)
  obtain ⟨ror, rorC⟩ := shiftResult_ror (s.readAddr a).m (s.flag .c)
  have hsum := addWithCarry_exact s.a (shiftResult .ror (s.readAddr a).m (s.flag .c)).1
    (decide ((s.readAddr a).m.toNat % 2 = 1))
  have hovf := addWithCarry_overflow s.a (shiftResult .ror (s.readAddr a).m (s.flag .c)).1
    (decide ((s.readAddr a).m.toNat % 2 = 1))
  rw [decide_odd_toNat] at hsum hovf
  exact ⟨⟨_, _, asl, rfl, exec_shiftThenLogic (f := fun x m => x ||| m) rfl aslC⟩,
    ⟨_, _, rol, rfl, exec_shiftThenLogic (f := fun x m => x &&& m) rfl rolC⟩,
    ⟨_, _, lsr, rfl, exec_shiftThenLogic (f := fun x m => x ^^^ m) rfl lsrC⟩,
    ⟨_, _, _, _, ror, hsum, hovf, exec_rra s a rorC⟩⟩

/-! ### Steps of memory combined with A -/

/-- DCP: the decremented byte written, then compared with A (R357). -/
theorem exec_dcp (s : State) (a : Addr) :
    exec (.dcp a) s
      = .next (let r := (s.readAddr a).m - 1
        let w := (s.readAddr a).s.memWrite (s.resolve a).ea r
        { w with
          a := s.a, p := nzcP s (s.a - r) (decide (r.toNat ≤ s.a.toNat))
          pc := s.pc + BitVec.ofNat 16 (modeSize a.mode), cyc := w.cyc + rmwCost a.mode }) := by
  have ha : ∀ r, ((s.readAddr a).s.memWrite (s.resolve a).ea r).a = s.a := by simp
  change execDcp a s = _
  simp only [execDcp, readAddr_ea, compare_eq, State.withP, State.finish, nzcP_memWrite, nzcP_readAddr,
    memWrite_pc, readAddr_s_pc, ha]

/-- ISC: the incremented byte written, then subtracted from A (R358). -/
theorem exec_isc (s : State) (a : Addr) :
    exec (.isc a) s
      = .next (let r := (s.readAddr a).m + 1
        let u := subWithCarry s.a r (s.flag .c)
        let w := (s.readAddr a).s.memWrite (s.resolve a).ea r
        { w with
          a := u.r, p := nvzcP s u.r u.v u.c
          pc := s.pc + BitVec.ofNat 16 (modeSize a.mode), cyc := w.cyc + rmwCost a.mode }) := by
  change execIsc a s = _
  simp only [execIsc, readAddr_ea, subA_eq, State.finish, memWrite_a, readAddr_s_a, memWrite_flag,
    readAddr_s_flag, nvzcP_memWrite, nvzcP_readAddr, memWrite_pc, readAddr_s_pc]

/-- Settles O43. -/
theorem undocumentedCompareAndSubtract : Obligations.UndocumentedCompareAndSubtract := by
  intro s a
  obtain ⟨hdiff, hborrow, hovf⟩ := subWithCarry_exact s.a ((s.readAddr a).m + 1) (s.flag .c)
  exact ⟨⟨_, s.a - ((s.readAddr a).m - 1), by bv_omega, by bv_omega, exec_dcp s a⟩,
    ⟨(s.readAddr a).m + 1, _, _, _, BitVec.toNat_add _ _, hdiff, hborrow, hovf, exec_isc s a⟩⟩

/-! ### The immediate instructions -/

/-- Bits 6 and 5 of a byte as numbers. -/
theorem arr_bits (r : Byte) :
    r.getLsbD 6 = decide (r.toNat / 64 % 2 = 1)
      ∧ (r.getLsbD 6 ^^ r.getLsbD 5) = decide (r.toNat / 64 % 2 ≠ r.toNat / 32 % 2) := by
  have h6 : r.getLsbD 6 = decide (r.toNat / 64 % 2 = 1) := Nat.testBit_eq_decide_div_mod_eq
  have h5 : r.getLsbD 5 = decide (r.toNat / 32 % 2 = 1) := Nat.testBit_eq_decide_div_mod_eq
  refine ⟨h6, ?_⟩
  rw [h6, h5]
  rcases Nat.mod_two_eq_zero_or_one (r.toNat / 64) with h | h <;>
    rcases Nat.mod_two_eq_zero_or_one (r.toNat / 32) with h' | h' <;> rw [h, h'] <;> rfl

theorem setNZ_setC_p (s : State) (r : Byte) (c : Bool) : ((s.setNZ r).setFlag .c c).p = nzcP s r c := by
  rw [setFlag_p_eq]
  simp [nzcP]

theorem setNZ_setCV_p (s : State) (r : Byte) (v c : Bool) :
    (((s.setNZ r).setFlag .c c).setFlag .v v).p = nvzcP s r v c := by
  rw [setFlag_p_eq]
  simp [nvzcP]

theorem setC_setNZ_p (s : State) (r : Byte) (c : Bool) : ((s.setFlag .c c).setNZ r).p = nzcP s r c := by
  rw [setC_setNZ_eq]
  rfl

/-- ARR: C and V by bits 6 and 5 of the result (R361). -/
theorem exec_arr (s : State) (b : Byte) :
    exec (.arr b) s = .next (let r := ((s.a &&& b) >>> 1) ||| ((BitVec.ofBool (s.flag .c)).setWidth 8 <<< 7)
      { s with
        a := r
        p := nvzcP s r (decide (r.toNat / 64 % 2 ≠ r.toNat / 32 % 2)) (decide (r.toNat / 64 % 2 = 1))
        pc := s.pc + 2, cyc := s.cyc + 2 }) := by
  change execArr b s = _
  unfold execArr
  generalize ((s.a &&& b) >>> 1) ||| ((BitVec.ofBool (s.flag .c)).setWidth 8 <<< 7) = r
  obtain ⟨h6, h65⟩ := arr_bits r
  have hp := setNZ_setCV_p { s with a := r } r (r.getLsbD 6 ^^ r.getLsbD 5) (r.getLsbD 6)
  dsimp only
  rw [← h65, ← h6]
  exact congrArg (fun p => Host.Outcome.next { s with a := r, p := p, pc := s.pc + 2, cyc := s.cyc + 2 }) hp

/-- ALR: the carry is the bit shifted out (R360). -/
theorem exec_alr (s : State) (b : Byte) :
    exec (.alr b) s = .next (let m := s.a &&& b
      { s with
        a := m >>> 1, p := nzcP s (m >>> 1) (decide (m.toNat % 2 = 1)), pc := s.pc + 2, cyc := s.cyc + 2 }) := by
  have hp := setC_setNZ_p s ((s.a &&& b) >>> 1) ((s.a &&& b).getLsbD 0)
  dsimp only
  rw [← low_bit]
  exact congrArg (fun p => Host.Outcome.next
    { s with a := (s.a &&& b) >>> 1, p := p, pc := s.pc + 2, cyc := s.cyc + 2 }) hp

/-- Settles O44: N, Z and the written flags are one replacement of P. -/
theorem undocumentedImmediates : Obligations.UndocumentedImmediates := by
  intro s op b
  refine ⟨?_, ⟨_, ?_, exec_alr s b⟩, ⟨_, rotateRight_eq _ _, exec_arr s b⟩,
    ⟨(s.a &&& s.x) - b, by bv_omega, ?_⟩⟩
  · have hn : (State.setNZ { s with a := s.a &&& b } (s.a &&& b)).flag .n = (s.a &&& b).getLsbD 7 := by
      rw [setNZ_flag, if_neg (by decide), if_pos rfl]
    have hp := setNZ_setC_p { s with a := s.a &&& b } (s.a &&& b)
      ((State.setNZ { s with a := s.a &&& b } (s.a &&& b)).flag .n)
    rw [hn] at hp
    change execAnc op b s = _
    unfold execAnc
    dsimp only
    rw [hn]
    exact congrArg (fun p => Host.Outcome.next
      { s with a := s.a &&& b, p := p, pc := s.pc + 2, cyc := s.cyc + 2 }) hp
  · rw [BitVec.toNat_ushiftRight, Nat.shiftRight_eq_div_pow, Nat.pow_one]
  · have hp := setC_setNZ_p s ((s.a &&& s.x) - b) (decide (b.toNat ≤ (s.a &&& s.x).toNat))
    exact congrArg (fun p => Host.Outcome.next
      { s with x := (s.a &&& s.x) - b, p := p, pc := s.pc + 2, cyc := s.cyc + 2 }) hp

end Sys2Proof.Machine
end

section
/-! PROOFS. The statements of 44_bus_device_registers.md and of 20_memory.md on bus writes: main memory (R81,
R82, R85, R425, R430, R431), the PPU's registers (R401 to R413) and the controllers (R420, R421). -/

namespace Sys2Proof.Machine

/-! ### What a bus write does to main memory -/

theorem region_of_sram {a : Word} (h : 0x6000 ≤ a.toNat) (h' : a.toNat < 0x8000) :
    region (norm a) = .sram := by
  rw [region_norm, if_neg (by omega), if_neg (by omega), if_neg (by omega), if_neg (by omega),
    if_neg (by omega), if_neg (by omega), if_neg (by omega), if_pos h']

theorem norm_lt_rom {a : Word} (h : a.toNat < 0x8000) : (norm a).toNat < 0x8000 := by
  rw [norm_toNat]
  split
  · omega
  · split <;> omega

/-- Where a bus write stores its byte (R82, R85, R430, R431). -/
theorem storesByte_of {s : State} {a : Word}
    (h : a.toNat < 0x2000 ∨ 0x4018 ≤ a.toNat ∧ a.toNat < 0x6000
      ∨ 0x6000 ≤ a.toNat ∧ a.toNat < 0x8000 ∧ s.sramEnabled = true ∧ s.sramReadonly = false) :
    s.storesByte a = true := by
  unfold State.storesByte
  rcases h with h | ⟨h1, h2⟩ | ⟨h1, h2, he, hr⟩
  · rw [region_of_ram h]
  · have hr : region (norm a) = .storage := by
      rw [region_norm, if_neg (by omega), if_neg (by omega), if_neg (by omega), if_neg (by omega),
        if_neg (by omega), if_neg (by omega), if_pos h2]
    rw [hr]
  · rw [region_of_sram h1 h2, he, hr]
    rfl

/-- The registers of the devices are no part of main memory (R85). -/
theorem memWrite_device (s : State) {a : Word} (h : 0x2000 ≤ a.toNat) (h' : a.toNat < 0x4018) (v : Byte) :
    (s.memWrite a v).mem = s.mem := by
  have hreg : region (norm a) = .ppu ∨ region (norm a) = .dma ∨ region (norm a) = .pad0
      ∨ region (norm a) = .pad1 ∨ region (norm a) = .audio := by
    rw [region_norm, if_neg (by omega), if_pos h']
    repeat' split
    all_goals simp
  rw [memWrite_primary s (norm_lt_rom (by omega))]
  unfold State.primaryWrite
  rcases hreg with hr | hr | hr | hr | hr
  · rw [hr]
  · rw [hr]
    simp [State.spriteDma]
  · rw [hr]
    rfl
  · rw [hr]
  · rw [hr]

/-- NROM has no register (R510). -/
theorem memWrite_nrom (s : State) {a : Word} (h : 0x8000 ≤ a.toNat) (hm : s.mapper = .nrom) (v : Byte) :
    s.memWrite a v = s := by
  rw [memWrite_rom s h]
  have hs : ({ s with mapper := .nrom } : State) = s := by rw [← hm]
  unfold State.intercept Mapper.checkAddress
  rw [hm]
  simp only [if_neg (Nat.not_lt.mpr h), hs, Bool.false_eq_true, if_false]

/-- Settles O46: the row of the address map decides. -/
theorem busWritesMainMemory : Obligations.BusWritesMainMemory := by
  intro s a v hw n t
  refine ⟨fun h => ?_, fun h h' => memWrite_device s h h' v, fun h h' => memWrite_apu s v h h',
    fun h h' hoff => ?_, fun h => ⟨fun k hk => ?_, fun hm => memWrite_nrom s h hm v⟩, memWrite_keeps s a v⟩
  · have hn : (norm a).toNat = n := by
      change _ = if a.toNat < 0x2000 then a.toNat % 0x800 else a.toNat
      rw [norm_toNat]
      by_cases hlt : a.toNat < 0x2000
      · rw [if_pos hlt, if_pos hlt]
      · rw [if_neg hlt, if_neg hlt, if_neg (by omega)]
    have ht : t = s.store (norm a) v := memWrite_store s (storesByte_of h) v
    rw [ht]
    refine ⟨fun k => ?_, rfl⟩
    rw [State.store, read_write hw, hn]
    simp only [eq_comm]
  · have hoff : (s.sramEnabled && !s.sramReadonly) = false := by
      rcases hoff with h | h <;> rw [h]
      · rfl
      · exact Bool.and_false _
    change s.memWrite a v = s
    rw [memWrite_primary s (norm_lt_rom (by omega))]
    unfold State.primaryWrite
    rw [region_of_sram h h', hoff]
    rfl
  · exact memWrite_below s (by rw [norm_high (by omega)]; exact h) v hk

/-! ### The PPU's registers -/

/-- The status byte as a number (R405). -/
theorem statusByte_toNat (cfg : Params) (p : Ppu) :
    (p.statusByte cfg).toNat
      = 128 * p.vblank.toNat + 64 * p.sprite0Hit.toNat + 32 * p.spriteOverflow.toNat
        + cfg.statusLowBits.toNat := by
  have hlow : cfg.statusLowBits.toNat < 2 ^ 5 := cfg.statusLowBits.isLt
  have hflags : ∀ v h o : Bool, (BitVec.ofBool v ++ BitVec.ofBool h ++ BitVec.ofBool o).toNat
      = 4 * v.toNat + 2 * h.toNat + o.toNat := by decide
  unfold Ppu.statusByte
  rw [BitVec.toNat_append, ← Nat.shiftLeft_add_eq_or_of_lt hlow, Nat.shiftLeft_eq, hflags]
  omega

/-- Settles O47: the byte is taken before the side effect, which the exempt window suppresses. -/
theorem statusReadClearsVblank : Obligations.StatusReadClearsVblank := by
  intro s a h1 h2 h
  refine ⟨?_, fun hw => ?_, fun hl hb => ?_⟩
  · rw [memRead_ppu s h1 h2, ppuReg_eq h1 h2, h]
    exact statusByte_toNat s.cfg s.ppu
  · rw [memRead_status s h1 h2 h, exemptWindow_eq_false hw]
    rfl
  · have hw : exemptWindow s.cfg s.ppu = true := by rw [exemptWindow, hl, hb]; rfl
    rw [memRead_status s h1 h2 h, hw]
    rfl

/-- The register is that of the address modulo 8 (R81). -/
theorem ppuReg_of_mod {a : Word} {k : Nat} (h : a.toNat % 8 = k) : ppuReg a = ppuReg (BitVec.ofNat 16 k) := by
  have hk : (BitVec.ofNat 16 k).toNat % 8 = a.toNat % 8 := by
    rw [BitVec.toNat_ofNat]
    omega
  unfold ppuReg
  rw [hk]

/-- A write of a PPU register through any mirror, by the register (R81, R93). -/
theorem memWrite_reg (s : State) {a : Word} (h1 : 0x2000 ≤ a.toNat) (h2 : a.toNat < 0x4000) (d : Byte)
    {r : PpuReg} (h : ppuReg a = r) : s.memWrite a d = { s with ppu := s.ppu.writeReg r d } := by
  have hn : ppuReg (norm a) = ppuReg a := by
    unfold ppuReg
    rw [norm_mod8 h1 h2]
  rw [memWrite_ppu s h1 h2, hn, h]

theorem fineX_bits (d : Byte) : d.setWidth 3 = d.extractLsb' 0 3 := by
  apply BitVec.eq_of_getLsbD_eq
  intro i hi
  simp [hi]

theorem writeScroll_first {p : Ppu} (h : p.w = false) (d : Byte) :
    p.writeScroll d
      = { p with t := p.t.extractLsb' 5 10 ++ d.extractLsb' 3 5, fineX := d.extractLsb' 0 3, w := true } := by
  rw [Ppu.writeScroll, h, if_neg Bool.false_ne_true, scroll_first_bits, fineX_bits]

theorem writeScroll_second {p : Ppu} (h : p.w = true) (d : Byte) :
    p.writeScroll d
      = { p with
          t := d.extractLsb' 0 3 ++ p.t.extractLsb' 10 2 ++ d.extractLsb' 3 5 ++ p.t.extractLsb' 0 5
          w := false } := by
  rw [Ppu.writeScroll, h, if_pos rfl, scroll_second_bits]

theorem writeAddress_first {p : Ppu} (h : p.w = false) (d : Byte) :
    p.writeAddress d
      = { p with t := 0#1 ++ d.extractLsb' 0 6 ++ p.t.extractLsb' 0 8, w := true } := by
  rw [Ppu.writeAddress, h, if_neg Bool.false_ne_true, address_first_bits]

theorem writeAddress_second {p : Ppu} (h : p.w = true) (d : Byte) :
    p.writeAddress d
      = { p with t := p.t.extractLsb' 8 7 ++ d, v := p.t.extractLsb' 8 7 ++ d, w := false } := by
  rw [Ppu.writeAddress, h, if_pos rfl, address_second_bits]

/-- Settles O48: the register by the address modulo 8, and the half of a two-write register by the toggle. -/
theorem scrollAndAddressWrites : Obligations.ScrollAndAddressWrites := by
  intro s a d h1 h2 p
  have write : ∀ {r q}, ppuReg a = r → s.ppu.writeReg r d = q → s.memWrite a d = { s with ppu := q } :=
    fun hr hq => hq ▸ memWrite_reg s h1 h2 d hr
  refine ⟨fun h => write (r := .control) (ppuReg_of_mod h) ?_,
    fun h => write (r := .mask) (ppuReg_of_mod h) rfl,
    fun h => write (r := .status) (ppuReg_of_mod h) rfl,
    fun h hw => write (r := .scroll) (ppuReg_of_mod h) (writeScroll_first hw d),
    fun h hw => write (r := .scroll) (ppuReg_of_mod h) (writeScroll_second hw d),
    fun h hw => write (r := .address) (ppuReg_of_mod h) (writeAddress_first hw d),
    fun h hw => write (r := .address) (ppuReg_of_mod h) (writeAddress_second hw d)⟩
  change s.ppu.writeControl d = _
  rw [Ppu.writeControl, control_bits]

/-- The step of v after an access at 0x2007 (R412). -/
theorem advanceV_eq (p : Ppu) :
    p.advanceV = { p with v := BitVec.ofNat 15 (p.v.toNat + if p.ctrl.getLsbD 2 then 32 else 1) } := by
  have h : p.v + p.increment = BitVec.ofNat 15 (p.v.toNat + if p.ctrl.getLsbD 2 then 32 else 1) := by
    rw [BitVec.ofNat_add, BitVec.ofNat_toNat, BitVec.setWidth_eq, Ppu.increment]
    split <;> rfl
  rw [Ppu.advanceV, h]

theorem dataAddress_toNat (p : Ppu) : p.dataAddress.toNat = p.v.toNat % 0x4000 :=
  BitVec.toNat_setWidth _ _

/-- Settles O49: each access and its side effect. -/
theorem dataPorts : Obligations.DataPorts := by
  intro s a d h1 h2 p n v'
  have hread : a.toNat % 8 = 7 → s.memRead a = (p.readData.1, { s with ppu := p.readData.2 }) := fun h => by
    rw [memRead_ppu s h1 h2, ppuReg_eq h1 h2, h]
    rfl
  refine ⟨fun h => ?_, fun h => ⟨?_, memRead_oamData s h1 h2 h⟩, fun h hv =>
    ⟨⟨p.vram.write n (if 0x3F00 ≤ n then d &&& 0x3F else d), ?_, fun k => ?_⟩, fun hlow => ?_, fun hhigh => ?_⟩⟩
  · exact memWrite_reg s h1 h2 d (r := .oamAddress) (ppuReg_of_mod h)
  · have ho : p.oamAddr + 1 = BitVec.ofNat 8 (p.oamAddr.toNat + 1) := by
      rw [BitVec.ofNat_add, BitVec.ofNat_toNat, BitVec.setWidth_eq]
      rfl
    rw [memWrite_reg s h1 h2 d (r := .oamData) (ppuReg_of_mod h), ← ho]
    rfl
  · rw [memWrite_reg s h1 h2 d (r := .data) (ppuReg_of_mod h)]
    dsimp only [Ppu.writeReg, Ppu.writeData]
    rw [advanceV_eq]
    rfl
  · rw [read_write hv]
    simp only [eq_comm]
  · rw [hread h, Ppu.readData, if_pos (by rw [dataAddress_toNat]; exact hlow), advanceV_eq]
    rfl
  · have ha : p.dataAddress - 0x1000 = BitVec.ofNat 14 (p.v.toNat % 0x4000 - 0x1000) := by
      have := dataAddress_toNat p
      bv_omega
    rw [hread h, Ppu.readData, if_neg (by rw [dataAddress_toNat]; omega), advanceV_eq, ha]
    rfl

/-! ### The controllers -/

theorem memWrite_strobe (s : State) (d : Byte) : s.memWrite 0x4016 d = s.strobe := by
  rw [memWrite_primary s (by decide)]
  unfold State.primaryWrite
  rw [show region (norm 0x4016) = .pad0 by decide]

theorem bitByte_eq (b : Bool) : bitByte b = if b then 1 else 0 := by cases b <;> rfl

/-- Reads of port 0 move its counter alone (R421). -/
theorem reads_pad0 (s : State) (k : Nat) :
    (fun t : State => (t.memRead 0x4016).2)^[k] s
      = { s with pad0 := { s.pad0 with count := s.pad0.count + k } } := by
  induction k with
  | zero => rfl
  | succ k ih => rw [Function.iterate_succ_apply', ih, memRead_pad0]; rfl

/-- Reads of port 1 move its counter alone (R421). -/
theorem reads_pad1 (s : State) (k : Nat) :
    (fun t : State => (t.memRead 0x4017).2)^[k] s
      = { s with pad1 := { s.pad1 with count := s.pad1.count + k } } := by
  induction k with
  | zero => rfl
  | succ k ih => rw [Function.iterate_succ_apply', ih, memRead_pad1]; rfl

/-- Settles O52: the strobe latches both words, `k` reads bring a counter to `k`, and the next gives the bit
there. -/
theorem controllersSerialiseButtons : Obligations.ControllersSerialiseButtons := by
  intro s d k tail s0 u0 u1
  have e0 : u0 = { s with
      pad0 := { latch := s.buttons0, count := k }, pad1 := { latch := s.buttons1, count := 0 } } := by
    change (fun t : State => (t.memRead 0x4016).2)^[k] (s.memWrite 0x4016 d) = _
    rw [memWrite_strobe, reads_pad0, State.strobe]
    simp only [Nat.zero_add]
  have e1 : u1 = { s with
      pad0 := { latch := s.buttons0, count := 0 }, pad1 := { latch := s.buttons1, count := k } } := by
    change (fun t : State => (t.memRead 0x4017).2)^[k] (s.memWrite 0x4016 d) = _
    rw [memWrite_strobe, reads_pad1, State.strobe]
    simp only [Nat.zero_add]
  refine ⟨?_, ?_, e0⟩
  · rw [e0, memRead_pad0, bitByte_eq]
    rfl
  · rw [e1, memRead_pad1, bitByte_eq]
    rfl

end Sys2Proof.Machine
end
